-- ==== Sys2Proof/Word.lean ====
section
/-! DEFINITION. The word types of the model, and the names the spec gives to small closed sets of values. -/

namespace Sys2Proof

/-- A byte of the MPSSE stream or of AHB memory. -/
abbrev Byte := BitVec 8

/-- A 32-bit AHB address or AHB data word (R8, `ADDR_WIDTH` and `DATA_WIDTH`; R10: always unsigned). -/
abbrev Word := BitVec 32

/-- The sixteen states of the target's TAP controller (R131). -/
inductive TapState where
  | tlr | rti
  | selDR | capDR | shDR | ex1DR | pauseDR | ex2DR | updDR
  | selIR | capIR | shIR | ex1IR | pauseIR | ex2IR | updIR
deriving DecidableEq, Repr, Inhabited

/-- What the engine's `tap_belief` may hold (R23): one of the sixteen states, or `Unknown`. -/
inductive Belief where
  | unknown
  | at (t : TapState)
deriving DecidableEq, Repr, Inhabited

/-- The two target families (R2). -/
inductive Family where
  | leon3 | leon4
deriving DecidableEq, Repr, Inhabited

/-- The data register that `ir` selects (R28). -/
inductive DrSel where
  | cmd | data | idcode | bypass
deriving DecidableEq, Repr, Inhabited

end Sys2Proof
end

