-- ==== Sys2Proof/Config.lean ====
section
/-! DEFINITION. What is fixed for the machine: the constants of R8, the open parameters of R9 as one record, the
family address maps of R70, and the free values: opaque constants of which nothing can be proved. -/

namespace Sys2Proof.Config

/-! ## The constants of R8 -/

def irLen : Nat := 6
def cmdDrLen : Nat := 35
def dataDrLen : Nat := 33
/-- `CODE_ADDR_COMM`, the IR opcode of the command/address register (R8, R28). -/
def codeAddrComm : BitVec 6 := 0x02
/-- `CODE_DATA`, the IR opcode of the data register (R8, R28). -/
def codeData : BitVec 6 := 0x03
def sizeByte : BitVec 2 := 0b00
def sizeHalf : BitVec 2 := 0b01
def sizeWord : BitVec 2 := 0b10
/-- The reserved size encoding `11` (R31). -/
def sizeReserved : BitVec 2 := 0b11
def maxBurstWords : Nat := 256
def seqBoundaryBytes : Nat := 1024
def chainDevices : Nat := 1
def blankBytes : Nat := 6
def settleClocks : Nat := 8
def tckDivisor : BitVec 16 := 0x0004
def mpsseBaseClockHz : Nat := 60000000
def usbTimeoutMs : Nat := 10
def usbTransferSize : Nat := 16384
/-- `OPEN_SETTLE_WAIT_MS`: a required step of `open` with no modelled effect (R370). -/
def openSettleWaitMs : Nat := 1000
def lowByteValue : Byte := 0b00001000
def lowByteDir : Byte := 0b00001011
/-- The high byte's value, `0x00` (R97, R362 step 15). -/
def highByteValue : Byte := 0x00
def highByteDir : Byte := 0x00
/-- `BUF_MAX`, on which no rule of the block depends (R8, R228). -/
def bufMax : Nat := 100

/-! ## The family address map (R70) -/

/-- The four-field record `addr_map` (R22, R70). -/
structure AddrMap where
  sdramStart : Word
  uart0Start : Word
  dsuStart : Word
  wakeState : Word
deriving DecidableEq, Repr, Inhabited

/-- The constant map of each family (R70). -/
def addrMap : Family → AddrMap
  | .leon3 => ⟨0x40000000, 0x80000100, 0x90000000, 0x80000210⟩
  | .leon4 => ⟨0x40000000, 0xFF900000, 0xE0000000, 0xFF904010⟩

/-! ## The open parameters (R9) -/

/-- One range of AHB addresses, `base ≤ a < base + size`. -/
structure AddrRange where
  base : Nat
  size : Nat
deriving DecidableEq, Repr, Inhabited

/-- `MEASURED_CHAIN`: the four chain-shape measurements (R9, R342). -/
structure Chain where
  devices : Nat
  irLength : Nat
  drAddrLength : Nat
  drDataLength : Nat
deriving DecidableEq, Repr, Inhabited

/-- The parameters the source leaves open, which the model takes as arguments (R9). They stand in State
(no step changes them), so that a statement over every state is a statement over every value of them. -/
structure Params where
  /-- `AHB_READ_LATENCY_TCK`, at least 1 (D21). -/
  ahbReadLatency : Nat
  /-- `IDCODE_OPCODE`, neither `0x02` nor `0x03` (D24). -/
  idcodeOpcode : BitVec 6
  /-- `IDCODE_VALUE` (D26). -/
  idcodeValue : Word
  /-- `IR_CAPTURE` (D47). -/
  irCapture : BitVec 6
  /-- `RAM_REGION`, as the ranges it is made of (D23). -/
  ramRegion : List AddrRange
  /-- `TARGET_QUIESCENT` (D36). -/
  targetQuiescent : Bool
  /-- `MEASURED_CHAIN` (D27). -/
  measuredChain : Chain
deriving DecidableEq, Repr, Inhabited

/-- The bounds that the spec puts on the open parameters (D21, D24). -/
def Params.legal (p : Params) : Bool :=
  decide (1 ≤ p.ahbReadLatency) && decide (p.idcodeOpcode ≠ codeAddrComm) && decide (p.idcodeOpcode ≠ codeData)

/-- The value of the open parameters in `State.reset`: no value is chosen (log entry 1). -/
opaque openParams : Params

/-! ## Free values

Each is applied to a number that never occurs twice in a run (the TCK clock number, R37, the count of driver calls, or
that of undescribed commands), so every draw is a draw of its own. Nothing in Lean can evaluate one or prove a value of it. -/

/-- The TDO sample of a clock taken outside ShIR and ShDR, by clock number (R139; log entry 2). -/
opaque tdoUndriven : Nat → Bool

/-- The bits of a bit-mode response below its samples, by clock number (R99; log entry 3). -/
opaque responseLowBits : Nat → Byte

/-- What Capture-DR loads from the command/address register, by clock number (R136; log entry 4). -/
opaque cmdCapture : Nat → BitVec 35

/-- Bits 31:0 of a data-register capture with no completed read behind it, by clock number (R244; log entry 5). -/
opaque dataCapture : Nat → Word

/-- Where in `1 .. AHB_READ_LATENCY_TCK` the completion of a read falls, by clock number (R245; log entry 6). -/
opaque readDelay : Nat → Nat

/-- What the AHB returns where R62 leaves it open (outside `RAM_REGION`, without `TARGET_QUIESCENT`, on the lanes outside
the transfer, and for a transfer the spec describes no result of), by clock number, address and size (log entry 7). -/
opaque ahbRead : Nat → Word → BitVec 2 → Word

/-- The byte stores done by an AHB write of which the spec describes no effect (size `11`, a misaligned address, a
SEQ transfer past a 1 KiB boundary), by clock number, address, size and data (R31, R66, R246; log entry 8). -/
opaque ahbWrite : Nat → Word → BitVec 2 → Word → List (Word × Byte)

/-- `tap_belief` after a last bit with TMS high from a belief other than ShIR and ShDR (R211; log entry 9). -/
opaque beliefElsewhere : Belief → Belief

/-- The opaque FTDI handle that the driver's `open(index)` returns, by driver call number and index (R22; log entry 10). -/
opaque deviceHandle : Nat → Nat → Nat

/-- Whether a partial command waiting in the MPSSE engine survives the purge of `open`, by driver call number
(R335, R362 step 4; log entry 11). -/
opaque partialSurvivesPurge : Nat → Bool

/-- The (TMS, TDI) levels, clock by clock, of a command that completes with a length byte the spec gives no effect to, by the
number of such commands before it (R335, U16; log entry 25). -/
opaque undescribedClocks : Nat → List (Bool × Bool)

/-- The bytes that such a command queues for the host, by the same number (R335, U16; log entry 25). -/
opaque undescribedResponse : Nat → List Byte

end Sys2Proof.Config
end

