-- ==== Sys2Proof/Syntax.lean ====
section
/-! DEFINITION. The instructions: one constructor for each row of spec/opcode_table.json, in the table's order; and the
actions an operation's program is made of. -/

namespace Sys2Proof

/-- One constructor for each row of spec/opcode_table.json. The four layers of the encoding (30_encoding.md) are four
families: the MPSSE commands, the JTAG instruction-register opcodes, the TAP primitives and the bridge operations. -/
inductive Instr where
  -- MPSSE commands (41_mpsse.md). L is the length byte (the count less one), b the byte after it.
  /-- `4B L B` (R162). -/
  | tmsOut (l : Byte) (b : Byte)
  /-- `6B L B` (R163). -/
  | tmsOutRead (l : Byte) (b : Byte)
  /-- `1B L B` (R164). -/
  | bitsOut (l : Byte) (b : Byte)
  /-- `3B L B` (R165). -/
  | bitsInout (l : Byte) (b : Byte)
  /-- `2A L` (R166). -/
  | bitsIn (l : Byte)
  /-- `19 lo(n-1) hi(n-1) D0..D(n-1)`, n the length of the data (R167). -/
  | bytesOut (data : List Byte)
  /-- `39 lo(n-1) hi(n-1) D0..D(n-1)` (R168). -/
  | bytesInout (data : List Byte)
  /-- `8E L` (R169). -/
  | clkOnly (l : Byte)
  /-- `84` (R170). -/
  | loopbackOn
  /-- `85` (R171). -/
  | loopbackOff
  /-- `8A` (R172). -/
  | div5Off
  /-- `97` (R173). -/
  | adaptiveOff
  /-- `8D` (R174). -/
  | threePhaseOff
  /-- `86 lo(V) hi(V)` (R175). -/
  | setDivisor (v : BitVec 16)
  /-- `80 V D` (R177). -/
  | setLowByte (v : Byte) (d : Byte)
  /-- `82 V D` (R178). -/
  | setHighByte (v : Byte) (d : Byte)
  /-- Any other first byte (R176). -/
  | badCommand (op : Byte)
  -- JTAG instruction-register opcodes (R28).
  /-- IR `0x02`: selects the command/address register. -/
  | codeAddrComm
  /-- IR `0x03`: selects the data register. -/
  | codeData
  /-- IR `IDCODE_OPCODE`: selects the identification register. -/
  | idcode
  /-- Any other 6-bit value: selects the 1-bit BYPASS register. -/
  | bypass (op : BitVec 6)
  -- TAP primitives (42_tap_primitives.md). Counts and values are natural numbers, since R112 and R327 say what is
  -- done with one that does not fit.
  | resetToTlr
  | tlrToShiftIr
  | exit1ToShiftDr
  | exit1drToShiftIr
  | tlrToShiftDr
  | shiftBitsOut (c : Nat) (b : Byte)
  | shiftBitsInout (c : Nat) (b : Byte)
  | shiftBitsIn (c : Nat)
  /-- n is the length of the data (R209). -/
  | shiftBytesOut (data : List Byte)
  /-- n is the length of the data (R210). -/
  | shiftBytesInout (data : List Byte)
  | lastBitWithTms (x : Bool) (t : Bool)
  | lastBitWithTmsRead (x : Bool) (t : Bool)
  | clockOnly (c : Nat)
  | shiftIr (op : Nat)
  | loadCmd (a : Word) (sz : BitVec 2) (rw : Bool)
  | writeData (d : Word) (seq : Bool)
  | readData
  | seqExit (x : Bool)
  | readIdcode
  -- Bridge operations (43_bridge_single.md, 44_bridge_burst.md).
  | read32 (a : Word)
  | read16 (a : Word)
  | read8 (a : Word)
  | write32 (a : Word) (v : Nat)
  | write16 (a : Word) (v : Nat)
  | write8 (a : Word) (v : Nat)
  | burstWrite (b : Word) (ws : List Word)
  | burstRead (b : Word) (n : Nat)
  /-- `progress` says whether the optional progress callback is given (R293). -/
  | writeMany (addr : Word) (buf : List Word) (n : Nat) (progress : Bool)
  /-- `progress` says whether the optional progress callback is given (R293). -/
  | readMany (addr : Word) (n : Nat) (progress : Bool)
deriving DecidableEq, Repr

/-- One entry of an operation's fixed list (R21): a primitive that is emitted, a `Flush()`, a `ReadExactly` of the
bytes of one `read_data`, or a call of the progress callback. -/
inductive Action where
  | emit (i : Instr)
  | flush
  | readWord
  | progress (wordsDone : Nat) (total : Nat)
deriving DecidableEq, Repr

end Sys2Proof
end

