-- ==== Sys2Proof/WellFormed.lean ====
section
/-! DEFINITION. Which instructions the spec admits, by their operands alone: the length ranges of R91 to R94 and R100, the
alignments of R66, the operand widths of R327, the reserved size of R31, and the burst bounds of R280. -/

namespace Sys2Proof

/-- The first bytes that spell a command of this block (R90); any other is a bad command (R98, R110). -/
def mpsseOpcodes : List Byte :=
  [0x4B, 0x6B, 0x1B, 0x3B, 0x2A, 0x19, 0x39, 0x8E, 0x84, 0x85, 0x8A, 0x97, 0x8D, 0x86, 0x80, 0x82]

/-- An M-TMS length byte clocks 1 to 7 cycles (R91). -/
def tmsLengthOk (l : Byte) : Bool := decide (l.toNat ≤ 6)

/-- An M-BITS, M-BITS-IN or M-CLK length byte clocks 1 to 8 cycles (R92, R94). -/
def bitsLengthOk (l : Byte) : Bool := decide (l.toNat ≤ 7)

/-- An M-BYTES command carries 1 to 65536 bytes (R93). -/
def bytesLengthOk (data : List Byte) : Bool := decide (1 ≤ data.length) && decide (data.length ≤ 65536)

/-- A bit or clock count of a primitive (R100, R112). -/
def bitCountOk (c : Nat) : Bool := decide (1 ≤ c) && decide (c ≤ 8)

/-- `a[0] = 0` (R66). -/
def halfAligned (a : Word) : Bool := decide (a.toNat % 2 = 0)

/-- `a[1:0] = 00` (R66). -/
def wordAligned (a : Word) : Bool := decide (a.toNat % 4 = 0)

/-- `MAX_BURST_WORDS` and the burst's lower bound (R280, refusal 3). -/
def burstLengthOk (n : Nat) : Bool := decide (1 ≤ n) && decide (n ≤ Config.maxBurstWords)

/-- The words of a burst lie in one 1 KiB block (R67; R280, refusal 4), on unbounded integers. -/
def inOneBlock (b : Word) (n : Nat) : Bool :=
  decide (b.toNat / Config.seqBoundaryBytes = (b.toNat + 4 * n - 1) / Config.seqBoundaryBytes)

/-- A raw burst that R280 does not refuse. -/
def burstOk (b : Word) (n : Nat) : Bool := wordAligned b && burstLengthOk n && inOneBlock b n

/-- A chunked transfer that R290 does not refuse: its first chunk is its longest, and every chunk has the same offset
in its 1 KiB block. -/
def manyOk (addr : Word) (n : Nat) : Bool :=
  decide (n = 0) || (wordAligned addr && inOneBlock addr (min n Config.maxBurstWords))

/-- The operands are ones the spec gives a meaning to. The session and `tap_belief` are no part of this: exec checks them. -/
def Instr.wellFormed : Instr → Bool
  | .tmsOut l _ => tmsLengthOk l
  | .tmsOutRead l _ => tmsLengthOk l
  | .bitsOut l _ => bitsLengthOk l
  | .bitsInout l _ => bitsLengthOk l
  | .bitsIn l => bitsLengthOk l
  | .bytesOut d => bytesLengthOk d
  | .bytesInout d => bytesLengthOk d
  | .clkOnly l => bitsLengthOk l
  | .loopbackOn => true
  | .loopbackOff => true
  | .div5Off => true
  | .adaptiveOff => true
  | .threePhaseOff => true
  | .setDivisor _ => true
  | .setLowByte _ _ => true
  | .setHighByte _ _ => true
  | .badCommand op => !(mpsseOpcodes.contains op)
  | .codeAddrComm => true
  | .codeData => true
  | .idcode => true
  | .bypass op => decide (op ≠ Config.codeAddrComm) && decide (op ≠ Config.codeData)
  | .resetToTlr => true
  | .tlrToShiftIr => true
  | .exit1ToShiftDr => true
  | .exit1drToShiftIr => true
  | .tlrToShiftDr => true
  | .shiftBitsOut c _ => bitCountOk c
  | .shiftBitsInout c _ => bitCountOk c
  | .shiftBitsIn c => bitCountOk c
  | .shiftBytesOut d => bytesLengthOk d
  | .shiftBytesInout d => bytesLengthOk d
  | .lastBitWithTms _ _ => true
  | .lastBitWithTmsRead _ _ => true
  | .clockOnly c => bitCountOk c
  | .shiftIr op => decide (op < 64)
  | .loadCmd _ sz _ => decide (sz ≠ Config.sizeReserved)
  | .writeData _ _ => true
  | .readData => true
  | .seqExit _ => true
  | .readIdcode => true
  | .read32 a => wordAligned a
  | .read16 a => halfAligned a
  | .read8 _ => true
  | .write32 a v => wordAligned a && decide (v < 2 ^ 32)
  | .write16 a v => halfAligned a && decide (v < 2 ^ 16)
  | .write8 _ v => decide (v < 2 ^ 8)
  | .burstWrite b ws => burstOk b ws.length
  | .burstRead b n => burstOk b n
  | .writeMany addr buf n _ => decide (buf.length = n) && manyOk addr n
  | .readMany addr n _ => manyOk addr n

/-- The MPSSE commands (41_mpsse.md). -/
def Instr.isMpsse : Instr → Bool
  | .tmsOut _ _ | .tmsOutRead _ _ | .bitsOut _ _ | .bitsInout _ _ | .bitsIn _ | .bytesOut _ | .bytesInout _
  | .clkOnly _ | .loopbackOn | .loopbackOff | .div5Off | .adaptiveOff | .threePhaseOff | .setDivisor _
  | .setLowByte _ _ | .setHighByte _ _ | .badCommand _ => true
  | _ => false

/-- The JTAG instruction-register opcodes (R28). -/
def Instr.isJtagIr : Instr → Bool
  | .codeAddrComm | .codeData | .idcode | .bypass _ => true
  | _ => false

end Sys2Proof
end

