-- ==== Sys2Proof/Decode.lean ====
section
/-! DEFINITION. The decoders, one for each encoding layer of 30_encoding.md (the MPSSE byte stream, the 6-bit IR, the byte
strings the primitives and operations spell), and after them the encoders: the MPSSE bytes of a command, the MPSSE
commands of a primitive, and the fixed action list of an operation (R21). -/

namespace Sys2Proof

/-! ## The MPSSE command stream (R90 to R98) -/

/-- Why the decoder rejects a command. -/
inductive DecodeError where
  /-- A length byte outside the ranges of R91, R92 and R94 (R112). -/
  | countOutOfRange
deriving DecidableEq, Repr

/-- What the MPSSE engine finds at the front of its input. -/
inductive MpsseDecode where
  /-- A whole command, and the bytes after it. -/
  | command (i : Instr) (rest : List Byte)
  /-- Not all of the command's bytes have arrived (R160). -/
  | waiting
  /-- A whole command with an operand the spec gives no meaning to, and the bytes after it: its first byte has decided its
  length all the same (R98). -/
  | rejected (e : DecodeError) (rest : List Byte)
deriving DecidableEq, Repr

/-- A command of two operand bytes whose first must pass `ok`. -/
def decodeLenByte (ok : Byte → Bool) (mk : Byte → Byte → Instr) : List Byte → MpsseDecode
  | l :: b :: rest => if ok l then .command (mk l b) rest else .rejected .countOutOfRange rest
  | _ => .waiting

/-- A command of one operand byte, a bit count (M-BITS-IN, M-CLK). -/
def decodeLen (mk : Byte → Instr) : List Byte → MpsseDecode
  | l :: rest => if bitsLengthOk l then .command (mk l) rest else .rejected .countOutOfRange rest
  | [] => .waiting

/-- A command of two free operand bytes (M-DIV, M-GPIO). -/
def decodePair (mk : Byte → Byte → Instr) : List Byte → MpsseDecode
  | x :: y :: rest => .command (mk x y) rest
  | _ => .waiting

/-- `n = (Lhi << 8 | Llo) + 1` (R93). -/
def byteCount (lo hi : Byte) : Nat := hi.toNat * 256 + lo.toNat + 1

/-- Format M-BYTES (R93). -/
def decodeBytes (mk : List Byte → Instr) : List Byte → MpsseDecode
  | lo :: hi :: rest =>
    if byteCount lo hi ≤ rest.length then .command (mk (rest.take (byteCount lo hi))) (rest.drop (byteCount lo hi))
    else .waiting
  | _ => .waiting

/-- One MPSSE command from the front of a byte stream: the first byte decides the format and the length (R90, R98), and
a first byte of no row is a bad command of one byte (R110, R176). -/
def decodeMpsse : List Byte → MpsseDecode
  | [] => .waiting
  | op :: rest =>
    if op = 0x4B then decodeLenByte tmsLengthOk .tmsOut rest
    else if op = 0x6B then decodeLenByte tmsLengthOk .tmsOutRead rest
    else if op = 0x1B then decodeLenByte bitsLengthOk .bitsOut rest
    else if op = 0x3B then decodeLenByte bitsLengthOk .bitsInout rest
    else if op = 0x2A then decodeLen .bitsIn rest
    else if op = 0x19 then decodeBytes .bytesOut rest
    else if op = 0x39 then decodeBytes .bytesInout rest
    else if op = 0x8E then decodeLen .clkOnly rest
    else if op = 0x84 then .command .loopbackOn rest
    else if op = 0x85 then .command .loopbackOff rest
    else if op = 0x8A then .command .div5Off rest
    else if op = 0x97 then .command .adaptiveOff rest
    else if op = 0x8D then .command .threePhaseOff rest
    else if op = 0x86 then decodePair (fun lo hi => .setDivisor (hi ++ lo)) rest
    else if op = 0x80 then decodePair .setLowByte rest
    else if op = 0x82 then decodePair .setHighByte rest
    else .command (.badCommand op) rest

/-- How many bytes a command takes, as far as its bytes so far tell: R98, with the length bytes of M-BYTES read where they
are there and taken as 0 where they are not. -/
def commandLength : List Byte → Nat
  | [] => 1
  | op :: rest =>
    if op = 0x19 ∨ op = 0x39 then 3 + byteCount (rest.getD 0 0) (rest.getD 1 0)
    else if op = 0x4B ∨ op = 0x6B ∨ op = 0x1B ∨ op = 0x3B ∨ op = 0x86 ∨ op = 0x80 ∨ op = 0x82 then 3
    else if op = 0x2A ∨ op = 0x8E then 2
    else 1

/-- All the commands of a byte string that is whole commands and nothing else; `fuel` bounds their number. -/
def decodeStream : Nat → List Byte → Option (List Instr)
  | _, [] => some []
  | 0, _ :: _ => none
  | fuel + 1, bs =>
    match decodeMpsse bs with
    | .command i rest => (decodeStream fuel rest).map (i :: ·)
    | _ => none

/-! ## The JTAG instruction register (R28, R103) -/

/-- The instruction of a 6-bit IR value, where `idc` is `IDCODE_OPCODE` (R28). -/
def decodeIr (idc : BitVec 6) (w : BitVec 6) : Instr :=
  if w = Config.codeAddrComm then .codeAddrComm
  else if w = Config.codeData then .codeData
  else if w = idc then .idcode
  else .bypass w

/-- The data register that an IR value selects (R28). -/
def selectDr (idc : BitVec 6) (w : BitVec 6) : DrSel :=
  if w = Config.codeAddrComm then .cmd
  else if w = Config.codeData then .data
  else if w = idc then .idcode
  else .bypass

/-- The length of a data register (R28). -/
def drLen : DrSel → Nat
  | .cmd => Config.cmdDrLen
  | .data => Config.dataDrLen
  | .idcode => 32
  | .bypass => 1

/-! ## The encoders -/

/-- The four bytes of a 32-bit word, bits 7:0 first (R64, R102). -/
def wordBytes (d : Word) : List Byte :=
  [d.extractLsb' 0 8, d.extractLsb' 8 8, d.extractLsb' 16 8, d.extractLsb' 24 8]

/-- The two length bytes of M-BYTES: the count less one, low byte first (R93, R100). -/
def lenBytes (n : Nat) : List Byte := [BitVec.ofNat 8 ((n - 1) % 256), BitVec.ofNat 8 ((n - 1) / 256)]

/-- A count as a length byte: the count less one (R100). -/
def lenByte (c : Nat) : Byte := BitVec.ofNat 8 (c - 1)

/-- `B = d << 7 | t0 | t1 << 1 | ..` for a single TMS bit (R101, R102). -/
def lastBitByte (x t : Bool) : Byte := (if x then 0x80 else 0x00) ||| (if t then 0x01 else 0x00)

/-- The MPSSE bytes of a command (R91 to R98); a row of another layer has none here. -/
def encodeMpsse : Instr → List Byte
  | .tmsOut l b => [0x4B, l, b]
  | .tmsOutRead l b => [0x6B, l, b]
  | .bitsOut l b => [0x1B, l, b]
  | .bitsInout l b => [0x3B, l, b]
  | .bitsIn l => [0x2A, l]
  | .bytesOut d => [0x19] ++ lenBytes d.length ++ d
  | .bytesInout d => [0x39] ++ lenBytes d.length ++ d
  | .clkOnly l => [0x8E, l]
  | .loopbackOn => [0x84]
  | .loopbackOff => [0x85]
  | .div5Off => [0x8A]
  | .adaptiveOff => [0x97]
  | .threePhaseOff => [0x8D]
  | .setDivisor v => [0x86, v.extractLsb' 0 8, v.extractLsb' 8 8]
  | .setLowByte v d => [0x80, v, d]
  | .setHighByte v d => [0x82, v, d]
  | .badCommand op => [op]
  | _ => []

/-- The 6-bit IR value of a JTAG instruction, where `idc` is `IDCODE_OPCODE` (R28). -/
def encodeIr (idc : BitVec 6) : Instr → Option (BitVec 6)
  | .codeAddrComm => some Config.codeAddrComm
  | .codeData => some Config.codeData
  | .idcode => some idc
  | .bypass op => some op
  | _ => none

/-- Six zero bytes (R8, `BLANK_BYTES`; R247). -/
def blanking : List Byte := List.replicate Config.blankBytes 0x00

/-- The MPSSE commands a primitive emits (R106, R114, R201 to R218); an MPSSE command is its own. -/
def commands : Instr → List Instr
  | .resetToTlr => [.tmsOut 0x04 0x3F]
  | .tlrToShiftIr => [.tmsOut 0x05 0x0D]
  | .exit1ToShiftDr => [.tmsOut 0x03 0x03]
  | .exit1drToShiftIr => [.tmsOut 0x04 0x07]
  | .tlrToShiftDr => [.tmsOut 0x03 0x02]
  | .shiftBitsOut c b => [.bitsOut (lenByte c) b]
  | .shiftBitsInout c b => [.bitsInout (lenByte c) b]
  | .shiftBitsIn c => [.bitsIn (lenByte c)]
  | .shiftBytesOut d => [.bytesOut d]
  | .shiftBytesInout d => [.bytesInout d]
  | .lastBitWithTms x t => [.tmsOut 0x00 (lastBitByte x t)]
  | .lastBitWithTmsRead x t => [.tmsOutRead 0x00 (lastBitByte x t)]
  | .clockOnly c => [.clkOnly (lenByte c)]
  | .shiftIr op => [.bitsOut 0x04 (BitVec.ofNat 8 (op % 32)), .tmsOut 0x00 (lastBitByte (op.testBit 5) true)]
  | .loadCmd a sz rw => [.bytesOut (wordBytes a), .bitsOut 0x01 (sz.setWidth 8), .tmsOut 0x00 (lastBitByte rw true)]
  | .writeData d seq => [.bytesOut (wordBytes d), .tmsOut 0x00 (lastBitByte seq true)]
  | .readData => [.bytesInout [0x00, 0x00, 0x00, 0x00]]
  | .seqExit x => [.tmsOut 0x00 (lastBitByte x true)]
  | i => if i.isMpsse then [i] else []

/-- How many bytes a command returns, as `Emit` counts them (R200). -/
def responses : Instr → Nat
  | .bytesInout d => d.length
  | .bitsInout _ _ => 1
  | .bitsIn _ => 1
  | .tmsOutRead _ _ => 1
  | _ => 0

/-! ### The fixed action lists of the operations (R21) -/

/-- `command_load a, s, rw` (R247). -/
def commandLoad (a : Word) (sz : BitVec 2) (rw : Bool) : List Action :=
  [.emit .resetToTlr, .emit .tlrToShiftIr, .emit (.shiftIr Config.codeAddrComm.toNat), .emit .exit1ToShiftDr,
   .emit (.shiftBytesOut blanking), .emit (.clockOnly Config.settleClocks), .emit (.loadCmd a sz rw)]

/-- `data_select` (R248). -/
def dataSelect : List Action :=
  [.emit .exit1drToShiftIr, .emit (.shiftIr Config.codeData.toNat), .emit .exit1ToShiftDr]

/-- `single_read a, s` (R249). -/
def singleRead (a : Word) (sz : BitVec 2) : List Action :=
  commandLoad a sz false ++ dataSelect ++ [.emit .readData, .flush, .readWord, .emit .resetToTlr, .flush]

/-- `single_write a, s, word` (R253). -/
def singleWrite (a : Word) (sz : BitVec 2) (word : Word) : List Action :=
  commandLoad a sz true ++ dataSelect ++ [.emit (.writeData word false), .emit .resetToTlr, .flush]

/-- The word loop of a burst write: SEQ = 1 on every word, and one flush a word (R281, R282). -/
def burstWriteWords : List Word → List Action
  | [] => []
  | [w] => [.emit (.writeData w true), .emit .resetToTlr, .flush]
  | w :: w' :: ws => [.emit (.writeData w true), .emit .exit1ToShiftDr, .flush] ++ burstWriteWords (w' :: ws)

/-- The body of a burst write (R281). -/
def burstWriteActions (b : Word) (ws : List Word) : List Action :=
  commandLoad b Config.sizeWord true ++ dataSelect ++ burstWriteWords ws

/-- The word loop of a burst read of n words: each is drained before the next update, and the last is left through
`reset_to_tlr` (R283, R285). -/
def burstReadWords : Nat → List Action
  | 0 => []
  | 1 => [.emit .readData, .flush, .readWord, .emit .resetToTlr, .flush]
  | n + 2 => [.emit .readData, .flush, .readWord, .emit (.seqExit true), .emit .exit1ToShiftDr] ++ burstReadWords (n + 1)

/-- The body of a burst read (R283). -/
def burstReadActions (b : Word) (n : Nat) : List Action :=
  commandLoad b Config.sizeWord false ++ dataSelect ++ burstReadWords n

/-- `K = ⌈n / 256⌉` (R290). -/
def chunkCount (n : Nat) : Nat := (n + (Config.maxBurstWords - 1)) / Config.maxBurstWords

/-- The base of chunk k, modulo 2^32 (R290). -/
def chunkBase (addr : Word) (k : Nat) : Word := addr + BitVec.ofNat 32 (Config.seqBoundaryBytes * k)

/-- `m_k = min(256, n - 256k)` (R290). -/
def chunkWords (n k : Nat) : Nat := min Config.maxBurstWords (n - Config.maxBurstWords * k)

/-- The progress call after chunk k, where a callback is given (R293). -/
def chunkProgress (progress : Bool) (n k : Nat) : List Action :=
  if progress then [.progress (Config.maxBurstWords * k + chunkWords n k) n] else []

/-- Chunk k of a `write_many` (R291). -/
def writeChunk (addr : Word) (buf : List Word) (n : Nat) (progress : Bool) (k : Nat) : List Action :=
  burstWriteActions (chunkBase addr k) ((buf.drop (Config.maxBurstWords * k)).take (chunkWords n k))
    ++ chunkProgress progress n k

/-- Chunk k of a `read_many` (R292). -/
def readChunk (addr : Word) (n : Nat) (progress : Bool) (k : Nat) : List Action :=
  burstReadActions (chunkBase addr k) (chunkWords n k) ++ chunkProgress progress n k

/-- Where the byte at a lies in the 32-bit data word: `8 * (3 - a[1:0])` (R61, R241). -/
def byteShift (a : Word) : Nat := 8 * (3 - a.toNat % 4)

/-- Where the halfword at a lies in the 32-bit data word: `16 * (1 - a[1])` (R61, R241). -/
def halfShift (a : Word) : Nat := 16 * (1 - a.toNat / 2 % 2)

/-- The fixed action list of an operation; a row of another layer has none. -/
def program : Instr → List Action
  | .readIdcode =>
    [.emit .resetToTlr, .emit .tlrToShiftDr, .emit .readData, .flush, .readWord, .emit .resetToTlr, .flush]
  | .read32 a => singleRead a Config.sizeWord
  | .read16 a => singleRead a Config.sizeHalf
  | .read8 a => singleRead a Config.sizeByte
  | .write32 a v => singleWrite a Config.sizeWord (BitVec.ofNat 32 v)
  | .write16 a v => singleWrite a Config.sizeHalf (BitVec.ofNat 32 v <<< halfShift a)
  | .write8 a v => singleWrite a Config.sizeByte (BitVec.ofNat 32 v <<< byteShift a)
  | .burstWrite b ws => burstWriteActions b ws
  | .burstRead b n => burstReadActions b n
  | .writeMany addr buf n progress => (List.range (chunkCount n)).flatMap (writeChunk addr buf n progress)
  | .readMany addr n progress => (List.range (chunkCount n)).flatMap (readChunk addr n progress)
  | _ => []

/-- The MPSSE commands an action emits. -/
def Action.commands : Action → List Instr
  | .emit i => Sys2Proof.commands i
  | _ => []

/-- The MPSSE commands an instruction puts on the stream, flush points left out (R228): an MPSSE command itself, a
primitive's expansion, an operation's whole list. -/
def expansion (i : Instr) : List Instr := commands i ++ (program i).flatMap Action.commands

/-- The bytes of an instruction: for an MPSSE command, a primitive or an operation the MPSSE bytes it is or emits
(30_encoding.md), for a JTAG instruction its 6-bit opcode in a byte. -/
def encode (i : Instr) : List Byte :=
  match encodeIr Config.openParams.idcodeOpcode i with
  | some op => [op.setWidth 8]
  | none => (expansion i).flatMap encodeMpsse

/-! ## The byte strings of the primitives and the operations (R106, R114, opcode_table.json)

The engine is called by name (R114), so no step of the machine reads these: they say which row of the table a byte
string spells. Where two rows spell one string (R114's pseudo-instructions), the row of fewer operands is given. -/

/-- Four bytes as a word, bits 7:0 first (R64). -/
def bytesWord : List Byte → Word
  | b0 :: b1 :: b2 :: b3 :: _ => b3 ++ b2 ++ b1 ++ b0
  | _ => 0

/-- A row of the primitives that might spell the string. -/
def primitiveCandidate : List Byte → Option Instr
  | [0x4B, 0x04, 0x3F] => some .resetToTlr
  | [0x4B, 0x05, 0x0D] => some .tlrToShiftIr
  | [0x4B, 0x03, 0x03] => some .exit1ToShiftDr
  | [0x4B, 0x04, 0x07] => some .exit1drToShiftIr
  | [0x4B, 0x03, 0x02] => some .tlrToShiftDr
  | [0x4B, 0x00, b] => if b.getLsbD 0 then some (.seqExit (b.getLsbD 7)) else some (.lastBitWithTms (b.getLsbD 7) false)
  | [0x6B, 0x00, b] => some (.lastBitWithTmsRead (b.getLsbD 7) (b.getLsbD 0))
  | [0x1B, l, b] => some (.shiftBitsOut (l.toNat + 1) b)
  | [0x3B, l, b] => some (.shiftBitsInout (l.toNat + 1) b)
  | [0x2A, l] => some (.shiftBitsIn (l.toNat + 1))
  | [0x8E, l] => some (.clockOnly (l.toNat + 1))
  | [0x39, 0x03, 0x00, 0x00, 0x00, 0x00, 0x00] => some .readData
  | [0x1B, 0x04, o, 0x4B, 0x00, b] => some (.shiftIr (o.toNat + (if b.getLsbD 7 then 32 else 0)))
  | [0x19, 0x03, 0x00, a0, a1, a2, a3, 0x1B, 0x01, s, 0x4B, 0x00, b] =>
    some (.loadCmd (bytesWord [a0, a1, a2, a3]) (s.setWidth 2) (b.getLsbD 7))
  | [0x19, 0x03, 0x00, d0, d1, d2, d3, 0x4B, 0x00, b] => some (.writeData (bytesWord [d0, d1, d2, d3]) (b.getLsbD 7))
  | [0x4B, 0x04, 0x3F, 0x4B, 0x03, 0x02, 0x39, 0x03, 0x00, 0x00, 0x00, 0x00, 0x00, 0x4B, 0x04, 0x3F] => some .readIdcode
  | 0x19 :: _ :: _ :: d => some (.shiftBytesOut d)
  | 0x39 :: _ :: _ :: d => some (.shiftBytesInout d)
  | _ => none

/-- The primitive a byte string spells: the candidate, where it is well formed and its own bytes are the string. -/
def decodePrimitive (bs : List Byte) : Option Instr :=
  (primitiveCandidate bs).filter fun i => i.wellFormed && decide (encode i = bs)

/-- The bytes before the command scan's 35 bits (R247): 26 of them. -/
def loadPrefixLen : Nat := 26

/-- The bytes of one burst before its words (R294): 39 + 12. -/
def burstHeadLen : Nat := 51

/-- The bytes of one word of a burst (R294). -/
def burstWordLen : Nat := 13

/-- The data word at an offset of a stream. -/
def wordAt (bs : List Byte) (at_ : Nat) : Word := bytesWord ((bs.drop at_).take 4)

/-- n words of a burst write or of a chunked write, from the rest of its stream, with `left` words left in the current chunk
before the next head (R281, R294). -/
def streamWords : Nat → Nat → List Byte → List Word
  | 0, _, _ => []
  | n + 1, 0, bs =>
    bytesWord (bs.drop (burstHeadLen + 3)) :: streamWords n (Config.maxBurstWords - 1) (bs.drop (burstHeadLen + burstWordLen))
  | n + 1, left + 1, bs => bytesWord (bs.drop 3) :: streamWords n left (bs.drop burstWordLen)

/-- A row of the bridge operations that might spell the stream, from its length, its address, size and R/W bytes. -/
def operationCandidate (bs : List Byte) : Option Instr :=
  let a := wordAt bs (loadPrefixLen + 3)
  let size := bs.getD (loadPrefixLen + 9) 0
  let write := (bs.getD (loadPrefixLen + 12) 0).getLsbD 7
  let word := wordAt bs (burstHeadLen + 3)
  if write then
    if bs.length = 64 ∧ (bs.getD 60 0).getLsbD 7 = false then
      if size = 0 then some (.write8 a ((word >>> byteShift a).toNat % 2 ^ 8))
      else if size = 1 then some (.write16 a ((word >>> halfShift a).toNat % 2 ^ 16))
      else some (.write32 a word.toNat)
    else
      let chunks := (bs.length + 3378) / 3379
      let n := (bs.length - burstHeadLen * chunks) / burstWordLen
      if n ≤ Config.maxBurstWords then some (.burstWrite a (streamWords n 0 bs))
      else some (.writeMany a (streamWords n 0 bs) n false)
  else
    let chunks := (bs.length + 3375) / 3376
    let n := (bs.length - 48 * chunks) / burstWordLen
    if n = 1 then
      if size = 0 then some (.read8 a) else if size = 1 then some (.read16 a) else some (.read32 a)
    else if n ≤ Config.maxBurstWords then some (.burstRead a n)
    else some (.readMany a n false)

/-- The bridge operation whose emitted stream the bytes are: the candidate, where it is well formed and its own bytes
are the stream. -/
def decodeOperation (bs : List Byte) : Option Instr :=
  (operationCandidate bs).filter fun i => i.wellFormed && decide (encode i = bs)

/-! ## The host's view of the opcode table -/

/-- The bytes of a number, least significant first. -/
def natBytes : Nat → Nat → List Byte
  | 0, _ => []
  | k + 1, w => BitVec.ofNat 8 (w % 256) :: natBytes k (w / 256)

/-- The bytes of a table word of nbits bits, its missing operand bytes zero, cut to the one command they spell. -/
def tableBytes (nbits w : Nat) : List Byte :=
  let bs := natBytes ((nbits + 7) / 8) w
  (bs ++ List.replicate (commandLength bs) 0x00).take (commandLength bs)

/-- Whether a table word is one of the two fixed IR opcodes: a word of one byte (the table's mask for them is `0x3F`)
that is `0x02` or `0x03` (log entry 12). -/
def isIrTableWord (nbits w : Nat) : Bool := decide (nbits ≤ 8) && (decide (w = 2) || decide (w = 3))

/-- The instruction the decoder reads from a word numbered as spec/opcode_table.json numbers it. -/
def decodeTableWord (nbits w : Nat) : Option Instr :=
  if isIrTableWord nbits w then some (decodeIr Config.openParams.idcodeOpcode (BitVec.ofNat 6 w))
  else
    match decodeMpsse (tableBytes nbits w) with
    | .command i _ => some i
    | _ => none

end Sys2Proof
end

