-- ==== Sys2Proof/Machine/State.lean ====
section
/-! DEFINITION. The machine's state as plain data: the engine, the MPSSE engine, the target's TAP and bridge, the AHB
memory, the USB driver's side, and the calls waiting to be issued; the errors an operation records; the reasons a step
can stop; and the state after reset. -/

namespace Sys2Proof.Machine

open Sys2Proof

/-! ## Errors and results: what an operation returns to its caller -/

/-- The stage names of the open sequence (R362). -/
inductive OpenStage where
  | usbOpen | usbReset | usbParams | purge | timeouts | bitmodeReset | bitmodeMpsse
  | loopbackOn | bogusEcho | loopbackOff | clockConfig | divisor | lowByte | highByte
deriving DecidableEq, Repr, Inhabited

/-- The errors of R321 to R323, each with the information it records. An error is a next state, not a stop: R329 says
what raising one does. -/
inductive EngineError where
  /-- Code 1: the driver's `write` or `read` returned a failure status. -/
  | transportError (status : Nat)
  /-- Code 2: `write` took fewer bytes than it was given. -/
  | shortWrite (sent : Nat) (expected : Nat)
  /-- Code 3: `read` returned fewer bytes than were asked for. -/
  | shortRead (got : Nat) (expected : Nat)
  /-- Code 4: `queue_status` returned a failure status. -/
  | queueStatusFailed (status : Nat)
  /-- Code 5: the RX queue stayed empty for the read timeout, or `read` timed out. -/
  | timeout
  /-- Code 6: a step of the open sequence failed. -/
  | openFailed (stage : OpenStage)
  /-- Code 7: the driver refused to list the devices. -/
  | enumerationFailed (status : Nat)
  /-- Code 8: the chain does not hold exactly one device. -/
  | chainDeviceCount (count : Nat)
  /-- Code 9: the IR is not 6 bits. -/
  | irLength (length : Nat)
  /-- Code 10: the register of IR `0x02` is not 35 bits. -/
  | drLengthAddr (length : Nat)
  /-- Code 11: the register of IR `0x03` is not 33 bits. -/
  | drLengthData (length : Nat)
  /-- Code 12: `read_idcode` returned 0. -/
  | idcodeAbsent
deriving DecidableEq, Repr, Inhabited

/-- The numeric codes of R321 to R323. -/
def EngineError.code : EngineError → Nat
  | .transportError _ => 1
  | .shortWrite _ _ => 2
  | .shortRead _ _ => 3
  | .queueStatusFailed _ => 4
  | .timeout => 5
  | .openFailed _ => 6
  | .enumerationFailed _ => 7
  | .chainDeviceCount _ => 8
  | .irLength _ => 9
  | .drLengthAddr _ => 10
  | .drLengthData _ => 11
  | .idcodeAbsent => 12

/-- One device of the driver's list (R363). -/
structure DeviceInfo where
  index : Nat
  description : String
  serial : String
  id : Word
deriving DecidableEq, Repr, Inhabited

/-- What the last operation returned to its caller: a result or an error (R320). -/
inductive Returned where
  /-- No operation has returned yet. -/
  | nothing
  /-- The operation returned without a value. -/
  | done
  | byte (v : Byte)
  | half (v : BitVec 16)
  | word (v : Word)
  | words (vs : List Word)
  | bytes (bs : List Byte)
  | devices (ds : List DeviceInfo)
  | error (e : EngineError)
deriving DecidableEq, Repr, Inhabited

/-! ## The engine -/

/-- The session record (R22). -/
structure Session where
  handle : Nat
  family : Family
  addrMap : Config.AddrMap
  firstRun : Bool
  activeCpu : Nat
deriving DecidableEq, Repr, Inhabited

/-- The engine: the TAP driver and the bridge engine (R20 (1), R21 to R25). -/
structure Engine where
  /-- The session, if one is open (R22). -/
  session : Option Session
  /-- `tap_belief` (R23). -/
  tapBelief : Belief
  /-- `outbuf`, oldest byte first (R24). -/
  outbuf : List Byte
  /-- `expect_rx` (R25). -/
  expectRx : Nat
  /-- The position in the current operation's list, the block's only program counter (R21). -/
  pos : Nat
  /-- The words the current read has assembled, `out` of R283 and R292. -/
  out : List Word
  /-- The progress calls of the current operation, oldest first (R293). -/
  progress : List (Nat × Nat)
  /-- What the last operation returned (R320). -/
  returned : Returned
deriving DecidableEq, Repr, Inhabited

/-! ## The MPSSE engine -/

/-- `bitmode` (R26). -/
inductive BitMode where
  | reset | mpsse
deriving DecidableEq, Repr, Inhabited

/-- The MPSSE engine's configuration, pin levels and queues (R26, R27, R38, R160). -/
structure Mpsse where
  bitmode : BitMode
  /-- `loopback`, true for on. -/
  loopback : Bool
  /-- `div5`, true for enabled. -/
  div5 : Bool
  /-- `adaptive`, true for enabled. -/
  adaptive : Bool
  /-- `three_phase`, true for enabled. -/
  threePhase : Bool
  divisor : BitVec 16
  lowValue : Byte
  lowDir : Byte
  highValue : Byte
  highDir : Byte
  rxTimeoutMs : Nat
  txTimeoutMs : Nat
  usbInSize : Nat
  usbOutSize : Nat
  /-- The level of the TCK pin between clocks (R27, R130). -/
  tckPin : Bool
  /-- The level of the TDI pin (R27, R161). -/
  tdiPin : Bool
  /-- The level of the TMS pin (R27, R161). -/
  tmsPin : Bool
  /-- The bytes delivered and not yet executed, oldest first (R160, R335). -/
  input : List Byte
  /-- `rx_fifo`, oldest byte first (R38). -/
  rxFifo : List Byte
  /-- The model's own: how many commands of no described effect have run, to draw their effects by (U16; log entry 25). -/
  undescribed : Nat
deriving DecidableEq, Repr, Inhabited

/-! ## The target -/

/-- `pending` (R37): no read under way, or a read that completes at the given clock with the given word. -/
inductive Pending where
  | none
  | read (doneAt : Nat) (word : Word)
deriving DecidableEq, Repr, Inhabited

/-- The bridge's transfer state (R37). -/
structure Bridge where
  curAddr : Word
  curSize : BitVec 2
  curW : Bool
  pending : Pending
  rdata : Word
  /-- The model's own: a SEQ increment of this sequence has carried into bit 10 of the address (R246; log entry 8). -/
  pastBlock : Bool
deriving DecidableEq, Repr, Inhabited

/-- The target's TAP controller, scan registers and bridge (R28 to R37). -/
structure Target where
  tap : TapState
  ir : BitVec 6
  irsr : BitVec 6
  /-- The command/address register: the value its last Update-DR took (R29). -/
  cmd : BitVec 35
  /-- The data register: the value its last Update-DR took; bit 32 is SEQ (R30, R35). -/
  data : BitVec 33
  /-- The DR shift register, bit 0 first; its width is the selected register's and changes with it (R33). -/
  dsr : List Bool
  bridge : Bridge
  /-- `clock_count` (R37, R338). -/
  clockCount : Nat
deriving DecidableEq, Repr, Inhabited

/-- One AHB transfer the bridge has started (the AHB log of 95_test_vectors.md P1). -/
inductive AhbTransfer where
  | read (addr : Word) (size : BitVec 2)
  | write (addr : Word) (size : BitVec 2) (data : Word)
deriving DecidableEq, Repr, Inhabited

/-! ## The USB driver's side -/

/-- The drawn outcome of one driver call (R330). -/
inductive DriverEvent where
  /-- The healthy outcome. -/
  | healthy
  /-- OK status, with at most k bytes moved. -/
  | count (k : Nat)
  /-- A failure status; a `write` has still passed its first k bytes on. -/
  | failed (status : Nat) (k : Nat)
  /-- The call timed out. -/
  | timedOut
deriving DecidableEq, Repr, Inhabited

/-- The driver: the outcomes of its coming calls, the number of its past calls, and the devices it can list. -/
structure Usb where
  /-- The outcomes of the coming calls, next first; a call past the end is healthy (R330; log entry 13). -/
  events : List DriverEvent
  /-- How many driver calls have been made (the model's own, to draw by). -/
  calls : Nat
  /-- The devices the driver can list (R363). Which they are the spec does not say, and no step changes them (log entry 36). -/
  devices : List DeviceInfo
deriving DecidableEq, Repr, Inhabited

/-! ## The caller -/

/-- What a caller asks of the block: an instruction by its name (R114; that a row of the MPSSE or IR layer may stand here too is
log entry 38), or one of the calls that have no row in the opcode table (R224, R225, R342, R362 to R364). -/
inductive Call where
  | instr (i : Instr)
  | flush
  | readExactly (n : Nat)
  | openSession (index : Nat) (family : Family)
  | closeSession
  | enumerate
  | startupCheck
deriving DecidableEq, Repr

/-- The whole machine (R20). -/
structure State where
  /-- The open parameters (R9); no step changes them. -/
  params : Config.Params
  engine : Engine
  mpsse : Mpsse
  target : Target
  /-- The AHB memory: (address, byte) pairs in canonical form (`Memory.wf`). -/
  mem : List Host.Cell
  /-- The AHB transfers started so far, oldest first. -/
  ahbLog : List AhbTransfer
  usb : Usb
  /-- The calls not yet issued, next first (R75). -/
  calls : List Call
deriving DecidableEq, Repr

/-! ## The reasons a step can stop -/

/-- The faults of the machine. There are none: 93_implementation_defined.md Part 1 says that no behaviour of the block is
stuck, and an error of R321 to R323 is a next state (R329), so no step ends in a fault. -/
inductive Fault where
deriving DecidableEq, Repr

/-- The reasons for a refusal: R327's nine, the one of R225's requirement, and the model's own. -/
inductive Refusal where
  /-- A bridge operation or primitive with no open session (R327); by the model's choice also `Flush`, `ReadExactly` and the
  startup check (log entry 37). Safe. -/
  | noSession
  /-- A halfword, word or burst access at an address that does not fit its alignment (R66, R327). Safe. -/
  | unaligned
  /-- A written value or an IR opcode wider than its field (R327). Safe. -/
  | valueOutOfWidth
  /-- A command load of size `11` (R31, R327). Safe. -/
  | reservedSize
  /-- A raw burst of no word or of more than 256 (R280, R327). Safe. -/
  | burstLength
  /-- A burst or chunk whose words span two 1 KiB blocks (R67, R280, R290, R327). Safe. -/
  | burstCrossesBoundary
  /-- A count outside R100, given to a primitive or in an MPSSE command issued as a call (R112, R162, R327). In the MPSSE
  engine's own stream such a command runs (U16; log entry 25). Safe. -/
  | countOutOfRange
  /-- A walk or scan primitive whose start state `tap_belief` is not (R202 to R218, R327). Safe. -/
  | walkPrecondition
  /-- A `write_many` whose buffer is not n words (R291, R327). Safe. -/
  | lengthMismatch
  /-- A `ReadExactly` of another count than `expect_rx` (the requirement of R225). Safe. -/
  | readCountMismatch
  /-- An instruction that has no meaning in the model. Raised by exec's refused arms only. Safe. -/
  | notModelled (mnemonic : String)
deriving DecidableEq, Repr

/-! ## Memory -/

/-- What an address that the list does not name reads as (R41 gives AHB memory no value; log entry 14). -/
def Memory.unlisted : Byte := 0x00

/-- The canonical form: addresses strictly rising and below 2^32 (R60), no byte equal to what an unlisted address
reads as. -/
def Memory.wf : List Host.Cell → Bool
  | [] => true
  | [(a, v)] => decide (a < 2 ^ 32) && decide (v ≠ Memory.unlisted)
  | (a, v) :: (b, w) :: rest => decide (a < b) && decide (v ≠ Memory.unlisted) && Memory.wf ((b, w) :: rest)

/-! ## Reset -/

/-- The engine at power-up: no session (R41). -/
def Engine.reset : Engine :=
  { session := none, tapBelief := .unknown, outbuf := [], expectRx := 0, pos := 0, out := [], progress := [],
    returned := .nothing }

/-- The MPSSE engine at power-up, which R41 leaves unspecified (log entry 15). -/
def Mpsse.reset : Mpsse :=
  { bitmode := .reset, loopback := false, div5 := true, adaptive := true, threePhase := true, divisor := 0,
    lowValue := 0, lowDir := 0, highValue := 0, highDir := 0, rxTimeoutMs := 0, txTimeoutMs := 0, usbInSize := 0,
    usbOutSize := 0, tckPin := false, tdiPin := false, tmsPin := false, input := [], rxFifo := [],
    undescribed := 0 }

/-- The bridge at power-up, which R41 leaves unspecified (log entry 16). -/
def Bridge.reset : Bridge :=
  { curAddr := 0, curSize := 0, curW := false, pending := .none, rdata := 0, pastBlock := false }

/-- The target at power-up, which R41 leaves unspecified but for `clock_count` (R338; log entry 16). -/
def Target.reset : Target :=
  { tap := .rti, ir := 0, irsr := 0, cmd := 0, data := 0, dsr := [], bridge := Bridge.reset, clockCount := 0 }

/-- The machine at power-up (R41, R360 (a)): no session. By the model's choice nothing is in memory (log entry 14), no call
waits (18), the coming driver calls are healthy (13), and the driver lists no device (DESIGN CHOICE, log entry 36: the spec
gives no device list, so `enumerate` from here returns the empty one). -/
def State.reset : State :=
  { params := Config.openParams, engine := Engine.reset, mpsse := Mpsse.reset, target := Target.reset, mem := [],
    ahbLog := [], usb := { events := [], calls := 0, devices := [] }, calls := [] }

/-! ## Updates of one component -/

def State.setEngine (s : State) (e : Engine) : State := { s with engine := e }
def State.setMpsse (s : State) (m : Mpsse) : State := { s with mpsse := m }
def State.setTarget (s : State) (t : Target) : State := { s with target := t }
def State.setMem (s : State) (m : List Host.Cell) : State := { s with mem := m }
def State.setAhbLog (s : State) (l : List AhbTransfer) : State := { s with ahbLog := l }
def State.setUsb (s : State) (u : Usb) : State := { s with usb := u }
def State.setCalls (s : State) (c : List Call) : State := { s with calls := c }

/-- The bridge inside the target. -/
def State.setBridge (s : State) (b : Bridge) : State := s.setTarget { s.target with bridge := b }

end Sys2Proof.Machine
end

