-- ==== Sys2Proof/Machine/Operands.lean ====
section
/-! DEFINITION. The operand forms: the pin levels a command clocks (R91 to R94), the response bytes it returns (R99), the
fields of the 35-bit command (R29), the lanes of the AHB data word (R61), and the words the engine parses (R226). -/

namespace Sys2Proof.Machine

open Sys2Proof

/-! ## Pin levels, one (TMS, TDI) pair a clock -/

/-- The low n bits of a vector, bit 0 first. -/
def lowBits {w : Nat} (n : Nat) (v : BitVec w) : List Bool := (List.range n).map v.getLsbD

/-- M-TMS: TMS = `B[i]` on cycle i, TDI = `B[7]` throughout (R91). -/
def tmsPins (l b : Byte) : List (Bool × Bool) := (lowBits (l.toNat + 1) b).map fun t => (t, b.getLsbD 7)

/-- M-BITS: TDI = `B[i]` on cycle i, TMS held (R92). -/
def bitPins (tms : Bool) (l b : Byte) : List (Bool × Bool) := (lowBits (l.toNat + 1) b).map fun d => (tms, d)

/-- M-BITS-IN and M-CLK: both pins held (R92, R94). -/
def heldPins (tms tdi : Bool) (l : Byte) : List (Bool × Bool) := List.replicate (l.toNat + 1) (tms, tdi)

/-- One byte of M-BYTES: eight cycles, TDI LSB first, TMS held (R93). -/
def bytePins (tms : Bool) (d : Byte) : List (Bool × Bool) := (lowBits 8 d).map fun x => (tms, x)

/-! ## Bits in order, and the response bytes made of them (R99) -/

/-- Bits as a number, the first in bit 0. -/
def packBits : List Bool → Nat
  | [] => 0
  | x :: xs => x.toNat + 2 * packBits xs

/-- A byte-mode response: bit i is the sample of cycle i (R99). -/
def byteResponse (samples : List Bool) : Byte := BitVec.ofNat 8 (packBits samples)

/-- A bit-mode response of k samples: they stand in the top k bits, and the bits below are open (R99). -/
def bitResponse (samples : List Bool) (low : Byte) : Byte :=
  BitVec.ofNat 8 (packBits samples * 2 ^ (8 - samples.length) + low.toNat % 2 ^ (8 - samples.length))

/-- The k samples of a bit-mode byte, as the engine extracts them, the first in bit 0 (R99, R226). -/
def parseBits (k : Nat) (r : Byte) : Nat := r.toNat / 2 ^ (8 - k) % 2 ^ k

/-! ## The command/address register's fields (R29) -/

def cmdAddr (v : BitVec 35) : Word := v.extractLsb' 0 32
def cmdSize (v : BitVec 35) : BitVec 2 := v.extractLsb' 32 2
def cmdWrite (v : BitVec 35) : Bool := v.getLsbD 34

/-- `{rw, s, a}`, the value that a command scan leaves (R215). -/
def cmdValue (a : Word) (sz : BitVec 2) (rw : Bool) : BitVec 35 := BitVec.ofBool rw ++ sz ++ a

/-! ## The lanes of the AHB data word (R61) -/

/-- The byte at address a, taken from its lane of the word (R61). -/
def laneByte (w : Word) (a : Word) : Byte := w.extractLsb' (byteShift a) 8

/-- The address whose byte travels on lane j of the word that a lies in (R61). -/
def laneAddr (a : Word) (j : Nat) : Word := BitVec.ofNat 32 (a.toNat / 4 * 4 + (3 - j))

/-- How many bytes a transfer of a size moves (R68); a reserved size has none the spec names (R31). -/
def sizeBytes (sz : BitVec 2) : Nat :=
  if sz = Config.sizeByte then 1 else if sz = Config.sizeHalf then 2 else if sz = Config.sizeWord then 4 else 0

/-- The addresses of a transfer's bytes, in rising order (R61, R68). -/
def transferAddrs (a : Word) (sz : BitVec 2) : List Word :=
  (List.range (sizeBytes sz)).map fun i => a + BitVec.ofNat 32 i

/-- Whether the spec says which lanes a transfer uses: a size other than `11` (R31), at an address aligned to it (R61,
R66). -/
def transferDescribed (a : Word) (sz : BitVec 2) : Bool :=
  if sz = Config.sizeByte then true
  else if sz = Config.sizeHalf then halfAligned a
  else if sz = Config.sizeWord then wordAligned a
  else false

/-- Whether an address lies in `RAM_REGION` (R9, R62). -/
def inRam (p : Config.Params) (a : Word) : Bool :=
  p.ramRegion.any fun r => decide (r.base ≤ a.toNat) && decide (a.toNat < r.base + r.size)

/-! ## What a read returns to the caller (R250 to R252) -/

/-- The halfword that `read16` takes from the bridge word (R251). -/
def halfOf (w : Word) (a : Word) : BitVec 16 := w.extractLsb' (halfShift a) 16

/-- The byte that `read8` takes from the bridge word (R252). -/
def byteOf (w : Word) (a : Word) : Byte := laneByte w a

end Sys2Proof.Machine
end

