-- ==== Sys2Proof/Machine/Flags.lean ====
section
/-! DEFINITION. The flags: SEQ, which the block writes (R35), `done`, which the bridge captures (R36), and the engine's
bookkeeping flag `tap_belief` (R23) where a last bit changes it (R211). -/

namespace Sys2Proof.Machine

open Sys2Proof

/-- The SEQ flag of a data-register value: bit 32 (R30, R35). -/
def seqFlag (v : BitVec 33) : Bool := v.getLsbD 32

/-- The write data of a data-register value: bits 31:0 (R30). -/
def dataField (v : BitVec 33) : Word := v.extractLsb' 0 32

/-- `{seq, d}` or `{done, rdata}`: bit 32 and bits 31:0 of the data register (R30, R36). -/
def dataValue (flag : Bool) (d : Word) : BitVec 33 := BitVec.ofBool flag ++ d

/-- The `done` flag a capture gives: 0 exactly while a read is in progress (R36, R244). -/
def doneFlag (b : Bridge) : Bool := b.curW || decide (b.pending = .none)

/-- `tap_belief` after a last bit: TMS high leaves ShIR for Ex1IR and ShDR for Ex1DR (R211); from another belief the
rule gives no value (log entry 9). TMS low leaves it as it is. -/
def beliefAfterLastBit (t : Bool) (b : Belief) : Belief :=
  if t then
    match b with
    | .at .shIR => .at .ex1IR
    | .at .shDR => .at .ex1DR
    | b => Config.beliefElsewhere b
  else b

end Sys2Proof.Machine
end

