-- ==== Sys2Proof/Machine/Ops.lean ====
section
/-! DEFINITION. The shared operations: AHB memory (R62, R63), the bridge (R241 to R246), one TCK clock (R131 to R140), the
clocks of an MPSSE command (R160, R161), `Emit` (R200), a driver call's outcome (R330), and raising an error (R329). -/

namespace Sys2Proof.Machine

open Sys2Proof

/-! ## Memory -/

/-- The byte the list holds at an address. -/
def Memory.read : List Host.Cell → Nat → Byte
  | [], _ => Memory.unlisted
  | (k, v) :: rest, a => if k = a then v else Memory.read rest a

/-- A cell at the front of a list, unless it holds what an unlisted address reads as. -/
def Memory.cons (a : Nat) (v : Byte) (rest : List Host.Cell) : List Host.Cell :=
  if v = Memory.unlisted then rest else (a, v) :: rest

/-- One byte stored, the canonical form kept. -/
def Memory.write : List Host.Cell → Nat → Byte → List Host.Cell
  | [], a, v => Memory.cons a v []
  | (k, w) :: rest, a, v =>
    if a < k then Memory.cons a v ((k, w) :: rest)
    else if a = k then Memory.cons a v rest
    else (k, w) :: Memory.write rest a v

/-- The byte the AHB memory holds at an address. -/
def State.byteAt (s : State) (a : Word) : Byte := Memory.read s.mem a.toNat

/-- One byte stored at an address of `RAM_REGION`; elsewhere no byte of the modelled memory changes (R63, R76; log
entry 7). -/
def storeByte (p : Config.Params) (m : List Host.Cell) (a : Word) (v : Byte) : List Host.Cell :=
  if inRam p a then Memory.write m a.toNat v else m

/-- Several bytes stored in order. -/
def storeBytes (p : Config.Params) : List (Word × Byte) → List Host.Cell → List Host.Cell
  | [], m => m
  | (a, v) :: rest, m => storeBytes p rest (storeByte p m a v)

/-- Lane j of the word a read at a returns: the byte of memory where the lane is one of the transfer's, else the lane of
`other` (R61, R62). -/
def loadLane (s : State) (a : Word) (sz : BitVec 2) (other : Word) (j : Nat) : Byte :=
  if (transferAddrs a sz).contains (laneAddr a j) then s.byteAt (laneAddr a j) else other.extractLsb' (8 * j) 8

/-- The word a read at a returns, lane 3 at the high end. -/
def loadWord (s : State) (a : Word) (sz : BitVec 2) (other : Word) : Word :=
  loadLane s a sz other 3 ++ loadLane s a sz other 2 ++ loadLane s a sz other 1 ++ loadLane s a sz other 0

/-- Whether the lanes of a read carry what memory holds (R62): a transfer the spec describes, every byte of it in
`RAM_REGION`, `TARGET_QUIESCENT`, and not past the 1 KiB boundary (R246). -/
def readDescribed (s : State) (a : Word) (sz : BitVec 2) : Bool :=
  transferDescribed a sz && (transferAddrs a sz).all (inRam s.params) && s.params.targetQuiescent
    && !s.target.bridge.pastBlock

/-- `MemRead(addr, size)`: the word an AHB read returns (R62). -/
def memRead (s : State) (a : Word) (sz : BitVec 2) : Word :=
  if readDescribed s a sz then loadWord s a sz (Config.ahbRead s.target.clockCount a sz)
  else Config.ahbRead s.target.clockCount a sz

/-- The bytes that an AHB write stores (R63): those of its lanes, where the spec describes the transfer. -/
def writeStores (s : State) (a : Word) (sz : BitVec 2) (d : Word) : List (Word × Byte) :=
  if transferDescribed a sz && !s.target.bridge.pastBlock then (transferAddrs a sz).map fun x => (x, laneByte d x)
  else Config.ahbWrite s.target.clockCount a sz d

/-- `MemWrite(addr, size, word32)` (R63). -/
def memWrite (s : State) (a : Word) (sz : BitVec 2) (d : Word) : State :=
  { s with
    mem := storeBytes s.params (writeStores s a sz d) s.mem
    ahbLog := s.ahbLog ++ [.write a sz d] }

/-! ## The bridge (43_bridge_single.md section 1) -/

/-- How many clocks a started read takes: drawn from `1 .. AHB_READ_LATENCY_TCK` (R245). -/
def readClocks (s : State) : Nat :=
  if s.params.ahbReadLatency ≤ 1 then 1 else 1 + Config.readDelay s.target.clockCount % s.params.ahbReadLatency

/-- `start_read(a, s)` at the bridge's current address and size (R245). -/
def startRead (s : State) : State :=
  let b := s.target.bridge
  { s with
    target := { s.target with
      bridge := { b with
        pending := .read (s.target.clockCount + readClocks s) (memRead s b.curAddr b.curSize) } }
    ahbLog := s.ahbLog ++ [.read b.curAddr b.curSize] }

/-- The SEQ increment: 4 more, modulo 2^32 (R246); an increment that carries into bit 10 takes the sequence past its
1 KiB block. -/
def Bridge.increment (b : Bridge) : Bridge :=
  { b with
    curAddr := b.curAddr + 4
    pastBlock := b.pastBlock || decide ((b.curAddr.toNat + 4) / Config.seqBoundaryBytes ≠ b.curAddr.toNat / Config.seqBoundaryBytes) }

/-- `update(cmd, v)` (R242). -/
def updateCmd (v : BitVec 35) (s : State) : State :=
  let b := { s.target.bridge with
    curAddr := cmdAddr v, curSize := cmdSize v, curW := cmdWrite v, pastBlock := false }
  let s := s.setTarget { s.target with cmd := v, bridge := b }
  if cmdWrite v then s.setBridge { b with pending := .none } else startRead s

/-- `update(data, v)` (R243). -/
def updateData (v : BitVec 33) (s : State) : State :=
  let s := s.setTarget { s.target with data := v }
  let b := s.target.bridge
  if b.curW then
    let s := memWrite s b.curAddr b.curSize (dataField v)
    if seqFlag v then s.setBridge b.increment else s
  else if seqFlag v then startRead (s.setBridge b.increment)
  else s

/-- The bridge at a capture: a read whose clock has come is complete (R244). -/
def Bridge.complete (b : Bridge) (clock : Nat) : Bridge :=
  match b.pending with
  | .read t w => if t ≤ clock then { b with rdata := w, pending := .none } else b
  | .none => b

/-- The 33 bits that `capture(data)` yields from the bridge as `Bridge.complete` leaves it (R244). -/
def captureDataValue (b : Bridge) (clock : Nat) : BitVec 33 :=
  if b.curW || decide (b.pending ≠ .none) then dataValue (doneFlag b) (Config.dataCapture clock)
  else dataValue (doneFlag b) b.rdata

/-! ## The TAP controller (40_jtag_clock.md) -/

/-- `next(s, tms)` (R132). -/
def nextTap : TapState → Bool → TapState
  | .tlr, false => .rti
  | .tlr, true => .tlr
  | .rti, false => .rti
  | .rti, true => .selDR
  | .selDR, false => .capDR
  | .selDR, true => .selIR
  | .capDR, false => .shDR
  | .capDR, true => .ex1DR
  | .shDR, false => .shDR
  | .shDR, true => .ex1DR
  | .ex1DR, false => .pauseDR
  | .ex1DR, true => .updDR
  | .pauseDR, false => .pauseDR
  | .pauseDR, true => .ex2DR
  | .ex2DR, false => .shDR
  | .ex2DR, true => .updDR
  | .updDR, false => .rti
  | .updDR, true => .selDR
  | .selIR, false => .capIR
  | .selIR, true => .tlr
  | .capIR, false => .shIR
  | .capIR, true => .ex1IR
  | .shIR, false => .shIR
  | .shIR, true => .ex1IR
  | .ex1IR, false => .pauseIR
  | .ex1IR, true => .updIR
  | .pauseIR, false => .pauseIR
  | .pauseIR, true => .ex2IR
  | .ex2IR, false => .shIR
  | .ex2IR, true => .updIR
  | .updIR, false => .rti
  | .updIR, true => .selDR

/-- The DR that the current instruction selects (R28). -/
def State.sel (s : State) : DrSel := selectDr s.params.idcodeOpcode s.target.ir

/-- The JTAG instruction `op` becomes the current one: `ir <- op` (R138). -/
def loadIr (op : BitVec 6) (s : State) : State := s.setTarget { s.target with ir := op }

/-- `{tdi, dsr[L-1:1]}`: bit 0 leaves and tdi enters at the top (R137). -/
def shiftDsr (tdi : Bool) (d : List Bool) : List Bool := d.tail ++ [tdi]

/-- `{tdi, irsr[5:1]}` (R137). -/
def shiftIrsr (tdi : Bool) (r : BitVec 6) : BitVec 6 := BitVec.ofBool tdi ++ r.extractLsb' 1 5

/-- `dsr <- capture(sel)` (R136). -/
def captureDr (s : State) : State :=
  let t := s.target
  match s.sel with
  | .cmd => s.setTarget { t with dsr := lowBits Config.cmdDrLen (Config.cmdCapture t.clockCount) }
  | .data =>
    let b := t.bridge.complete t.clockCount
    s.setTarget { t with bridge := b, dsr := lowBits Config.dataDrLen (captureDataValue b t.clockCount) }
  | .idcode => s.setTarget { t with dsr := lowBits 32 s.params.idcodeValue }
  | .bypass => s.setTarget { t with dsr := [false] }

/-- `update(sel, dsr)` (R138). -/
def updateDr (s : State) : State :=
  match s.sel with
  | .cmd => updateCmd (BitVec.ofNat 35 (packBits s.target.dsr)) s
  | .data => updateData (BitVec.ofNat 33 (packBits s.target.dsr)) s
  | .idcode => s
  | .bypass => s

/-- The TDO level of a clock (R139). -/
def tdo (s : State) : Bool :=
  match s.target.tap with
  | .shIR => s.target.irsr.getLsbD 0
  | .shDR => s.target.dsr.headD false
  | _ => Config.tdoUndriven s.target.clockCount

/-- The rising edge: capture or shift (R136, R137). -/
def risingEdge (tdi : Bool) (s : State) : State :=
  match s.target.tap with
  | .capIR => s.setTarget { s.target with irsr := s.params.irCapture }
  | .shIR => s.setTarget { s.target with irsr := shiftIrsr tdi s.target.irsr }
  | .capDR => captureDr s
  | .shDR => s.setTarget { s.target with dsr := shiftDsr tdi s.target.dsr }
  | _ => s

/-- The falling edge in the new state: the instruction after TLR, and the updates (R135, R138). -/
def fallingEdge (s : State) : State :=
  match s.target.tap with
  | .tlr => loadIr s.params.idcodeOpcode s
  | .updIR => loadIr s.target.irsr s
  | .updDR => updateDr s
  | _ => s

/-- The TAP controller's move (R132). -/
def moveTap (tms : Bool) (s : State) : State := s.setTarget { s.target with tap := nextTap s.target.tap tms }

/-- `clock_count <- clock_count + 1`, first in every clock (R140). -/
def countClock (s : State) : State := s.setTarget { s.target with clockCount := s.target.clockCount + 1 }

/-- `Clock(tms, tdi) -> tdo`: one TCK cycle (R140). -/
def clock (tms tdi : Bool) (s : State) : Bool × State :=
  let s := countClock s
  (tdo s, fallingEdge (moveTap tms (risingEdge tdi s)))

/-! ## The MPSSE engine's clocks (41_mpsse.md section 1) -/

/-- The pins driven for a clock; TCK is low again after it (R130, R161). -/
def drivePins (tms tdi : Bool) (s : State) : State :=
  s.setMpsse { s.mpsse with tmsPin := tms, tdiPin := tdi, tckPin := false }

/-- `Sample(tdo)`: the TDI pin's level while loopback is on (R160, R170). -/
def sample (s : State) (tdo : Bool) : Bool := if s.mpsse.loopback then s.mpsse.tdiPin else tdo

/-- One clock of the MPSSE engine, with its sample (R160). -/
def clockPin (tms tdi : Bool) (s : State) : Bool × State :=
  let s := drivePins tms tdi s
  let r := clock tms tdi s
  (sample s r.1, r.2)

/-- The clocks of a command in order, with their samples. -/
def clockPins : List (Bool × Bool) → State → List Bool × State
  | [], s => ([], s)
  | (tms, tdi) :: rest, s =>
    let r := clockPin tms tdi s
    let q := clockPins rest r.2
    (r.1 :: q.1, q.2)

/-- Bytes queued for the host (R38). -/
def pushRx (bs : List Byte) (s : State) : State := s.setMpsse { s.mpsse with rxFifo := s.mpsse.rxFifo ++ bs }

/-- The clocks of a command whose samples are discarded. -/
def clockOut (pins : List (Bool × Bool)) (s : State) : State := (clockPins pins s).2

/-- The clocks of a bit-mode read and its response byte (R99). -/
def clockBitsIn (pins : List (Bool × Bool)) (s : State) : State :=
  let r := clockPins pins s
  pushRx [bitResponse r.1 (Config.responseLowBits r.2.target.clockCount)] r.2

/-- The clocks of one byte of a byte-mode read and its response byte (R99, R168). -/
def clockByteIn (d : Byte) (s : State) : State :=
  let r := clockPins (bytePins s.mpsse.tmsPin d) s
  pushRx [byteResponse r.1] r.2

/-- Bytes clocked out, none read (R167). -/
def clockBytesOut : List Byte → State → State
  | [], s => s
  | d :: ds, s => clockBytesOut ds (clockOut (bytePins s.mpsse.tmsPin d) s)

/-- Bytes clocked out and in (R168). -/
def clockBytesIn : List Byte → State → State
  | [], s => s
  | d :: ds, s => clockBytesIn ds (clockByteIn d s)

/-- A command that later bytes completed with a length byte outside R91, R92 and R94: what it does is not described, so its
clocks, their levels and its response are free values (R335, U16; log entry 25). -/
def runUndescribed (s : State) : State :=
  let n := s.mpsse.undescribed
  pushRx (Config.undescribedResponse n)
    (clockOut (Config.undescribedClocks n) (s.setMpsse { s.mpsse with undescribed := n + 1 }))

/-! ## The engine -/

/-- `Emit(bytes)`, of whole commands (R200). -/
def emit (cmds : List Instr) (s : State) : State :=
  s.setEngine { s.engine with
    outbuf := s.engine.outbuf ++ cmds.flatMap encodeMpsse
    expectRx := s.engine.expectRx + (cmds.map responses).sum }

/-- `tap_belief <- b`. -/
def setBelief (b : Belief) (s : State) : State := s.setEngine { s.engine with tapBelief := b }

/-- The result an operation returns to its caller. -/
def setReturned (r : Returned) (s : State) : State := s.setEngine { s.engine with returned := r }

/-- Raising an error, the block's only exception (R320, R329): the buffers are emptied, `tap_belief` is `Unknown`, and the
error goes to the caller; nothing is emitted and nothing is retried. There is no return from it (R332). -/
def raise (e : EngineError) (s : State) : State :=
  s.setEngine { s.engine with outbuf := [], expectRx := 0, tapBelief := .unknown, returned := .error e }

/-! ## Driver calls (R330) -/

/-- The outcome of the next driver call; one past the end of the list is healthy. -/
def driverCall (s : State) : DriverEvent × State :=
  (s.usb.events.headD .healthy, s.setUsb { s.usb with events := s.usb.events.tail, calls := s.usb.calls + 1 })

/-- The failure status of a call that returns nothing but a status: `write`, `read` and `queue_status` alone may time out
(R330, R331). -/
def DriverEvent.failure : DriverEvent → Option Nat
  | .failed st _ => some st
  | _ => none

/-- How many of n bytes a `write` passes on: all of them, the first k, or none where it timed out (R330, R331; log entry
13). -/
def DriverEvent.sent (n : Nat) : DriverEvent → Nat
  | .healthy => n
  | .count k => min k n
  | .failed _ k => min k n
  | .timedOut => 0

/-! ## How far a piece of an operation came -/

/-- A piece of an operation went on, raised an error (which the state records), or met a refusal. -/
inductive Run where
  | ok (s : State)
  | raised (s : State)
  | refused (r : Refusal)
deriving DecidableEq, Repr

/-- Go on, where the piece before went on (R328). -/
def Run.andThen (r : Run) (f : State → Run) : Run :=
  match r with
  | .ok s => f s
  | .raised s => .raised s
  | .refused r => .refused r

/-- A run as the outcome of a step: an error raised is a next state (R329). -/
def Run.outcome : Run → Host.Outcome State Fault Refusal
  | .ok s => .next s
  | .raised s => .next s
  | .refused r => .refused r

/-- An instruction's outcome as a piece of an operation. -/
def Run.ofOutcome : Host.Outcome State Fault Refusal → Run
  | .next s => .ok s
  | .refused r => .refused r
  | .fault f => nomatch f

end Sys2Proof.Machine
end

