-- ==== Sys2Proof/Machine/Primitives.lean ====
section
/-! DEFINITION. The meanings of the TAP primitives (42_tap_primitives.md sections 2 to 4, but for `read_idcode`, an operation):
each emits its MPSSE commands into `outbuf` and keeps `tap_belief` and `expect_rx`. Nothing reaches the MPSSE engine until
a `Flush` (R200). The refusals come in the order of R327. -/

namespace Sys2Proof.Machine

open Sys2Proof

/-- A primitive of an open session whose operands pass `ok` (or give the refusal `bad`) and whose start state `tap_belief`
is: its commands are emitted, and `tap_belief` becomes `after` of what it was. -/
def primitive (ok : Bool) (bad : Refusal) (start : Belief → Bool) (i : Instr) (after : Belief → Belief) (s : State) :
    Host.Outcome State Fault Refusal :=
  if s.engine.session = none then .refused .noSession
  else if ok = false then .refused bad
  else if start s.engine.tapBelief = false then .refused .walkPrecondition
  else .next (setBelief (after s.engine.tapBelief) (emit (commands i) s))

/-- A walk from the states `start` to the state t (R201 to R205). -/
def walk (start : Belief → Bool) (i : Instr) (t : TapState) (s : State) : Host.Outcome State Fault Refusal :=
  primitive true .walkPrecondition start i (fun _ => .at t) s

/-- A shift or a clock count, which leaves `tap_belief` (R206 to R210, R213). -/
def shift (ok : Bool) (i : Instr) (s : State) : Host.Outcome State Fault Refusal :=
  primitive ok .countOutOfRange (fun _ => true) i id s

/-- A scan from the Shift state t into its Exit1 state u, or staying in t where u is t (R214 to R218). -/
def scan (ok : Bool) (bad : Refusal) (t u : TapState) (i : Instr) (s : State) : Host.Outcome State Fault Refusal :=
  primitive ok bad (fun b => decide (b = .at t)) i (fun _ => .at u) s

/-- `reset_to_tlr` (R201). -/
def execResetToTlr (s : State) : Host.Outcome State Fault Refusal := walk (fun _ => true) .resetToTlr .tlr s

/-- `tlr_to_shift_ir` (R202). -/
def execTlrToShiftIr (s : State) : Host.Outcome State Fault Refusal :=
  walk (fun b => decide (b = .at .tlr)) .tlrToShiftIr .shIR s

/-- `exit1_to_shift_dr` (R203). -/
def execExit1ToShiftDr (s : State) : Host.Outcome State Fault Refusal :=
  walk (fun b => decide (b = .at .ex1IR) || decide (b = .at .ex1DR)) .exit1ToShiftDr .shDR s

/-- `exit1dr_to_shift_ir` (R204). -/
def execExit1drToShiftIr (s : State) : Host.Outcome State Fault Refusal :=
  walk (fun b => decide (b = .at .ex1DR)) .exit1drToShiftIr .shIR s

/-- `tlr_to_shift_dr` (R205). -/
def execTlrToShiftDr (s : State) : Host.Outcome State Fault Refusal :=
  walk (fun b => decide (b = .at .tlr)) .tlrToShiftDr .shDR s

/-- `shift_bits_out c, b` (R206). -/
def execShiftBitsOut (c : Nat) (b : Byte) (s : State) : Host.Outcome State Fault Refusal :=
  shift (bitCountOk c) (.shiftBitsOut c b) s

/-- `shift_bits_inout c, b` (R207). -/
def execShiftBitsInout (c : Nat) (b : Byte) (s : State) : Host.Outcome State Fault Refusal :=
  shift (bitCountOk c) (.shiftBitsInout c b) s

/-- `shift_bits_in c` (R208). -/
def execShiftBitsIn (c : Nat) (s : State) : Host.Outcome State Fault Refusal :=
  shift (bitCountOk c) (.shiftBitsIn c) s

/-- `shift_bytes_out n, D0 .. D(n-1)` (R209). -/
def execShiftBytesOut (data : List Byte) (s : State) : Host.Outcome State Fault Refusal :=
  shift (bytesLengthOk data) (.shiftBytesOut data) s

/-- `shift_bytes_inout n, D0 .. D(n-1)` (R210). -/
def execShiftBytesInout (data : List Byte) (s : State) : Host.Outcome State Fault Refusal :=
  shift (bytesLengthOk data) (.shiftBytesInout data) s

/-- `last_bit_with_tms x, t` (R211). -/
def execLastBitWithTms (x t : Bool) (s : State) : Host.Outcome State Fault Refusal :=
  primitive true .countOutOfRange (fun _ => true) (.lastBitWithTms x t) (beliefAfterLastBit t) s

/-- `last_bit_with_tms_read x, t` (R212). -/
def execLastBitWithTmsRead (x t : Bool) (s : State) : Host.Outcome State Fault Refusal :=
  primitive true .countOutOfRange (fun _ => true) (.lastBitWithTmsRead x t) (beliefAfterLastBit t) s

/-- `clock_only c` (R213). -/
def execClockOnly (c : Nat) (s : State) : Host.Outcome State Fault Refusal := shift (bitCountOk c) (.clockOnly c) s

/-- `shift_ir op` (R214). -/
def execShiftIr (op : Nat) (s : State) : Host.Outcome State Fault Refusal :=
  scan (decide (op < 64)) .valueOutOfWidth .shIR .ex1IR (.shiftIr op) s

/-- `load_cmd a, s, rw` (R215). -/
def execLoadCmd (a : Word) (sz : BitVec 2) (rw : Bool) (s : State) : Host.Outcome State Fault Refusal :=
  scan (decide (sz ≠ Config.sizeReserved)) .reservedSize .shDR .ex1DR (.loadCmd a sz rw) s

/-- `write_data d, seq` (R216). -/
def execWriteData (d : Word) (seq : Bool) (s : State) : Host.Outcome State Fault Refusal :=
  scan true .walkPrecondition .shDR .ex1DR (.writeData d seq) s

/-- `read_data`, which stays in ShDR (R217). -/
def execReadData (s : State) : Host.Outcome State Fault Refusal := scan true .walkPrecondition .shDR .shDR .readData s

/-- `seq_exit x` (R218). -/
def execSeqExit (x : Bool) (s : State) : Host.Outcome State Fault Refusal :=
  scan true .walkPrecondition .shDR .ex1DR (.seqExit x) s

/-- The meaning of the primitives, for the operations that emit them (R21). A row of another layer stands in no operation's
list; it would emit nothing. -/
def runPrimitive (i : Instr) (s : State) : Host.Outcome State Fault Refusal :=
  match i with
  | .resetToTlr => execResetToTlr s
  | .tlrToShiftIr => execTlrToShiftIr s
  | .exit1ToShiftDr => execExit1ToShiftDr s
  | .exit1drToShiftIr => execExit1drToShiftIr s
  | .tlrToShiftDr => execTlrToShiftDr s
  | .shiftBitsOut c b => execShiftBitsOut c b s
  | .shiftBitsInout c b => execShiftBitsInout c b s
  | .shiftBitsIn c => execShiftBitsIn c s
  | .shiftBytesOut d => execShiftBytesOut d s
  | .shiftBytesInout d => execShiftBytesInout d s
  | .lastBitWithTms x t => execLastBitWithTms x t s
  | .lastBitWithTmsRead x t => execLastBitWithTmsRead x t s
  | .clockOnly c => execClockOnly c s
  | .shiftIr op => execShiftIr op s
  | .loadCmd a sz rw => execLoadCmd a sz rw s
  | .writeData d seq => execWriteData d seq s
  | .readData => execReadData s
  | .seqExit x => execSeqExit x s
  | _ => .next s

end Sys2Proof.Machine
end

