-- ==== Sys2Proof/Machine/Mpsse.lean ====
section
/-! DEFINITION. The meanings of the MPSSE commands (41_mpsse.md): each changes the pins, clocks the target and may queue
response bytes. They need no session: the MPSSE engine executes what reaches it (R160). -/

namespace Sys2Proof.Machine

open Sys2Proof

/-- A command, issued by its name, whose length operand the spec admits, and the refusal of one it does not (R112, R162). In the
MPSSE engine's own stream such a command is `runUndescribed` (log entry 25). -/
def inRange (ok : Bool) (s : State) : Host.Outcome State Fault Refusal :=
  if ok then .next s else .refused .countOutOfRange

/-- `4B L B`: TMS clocked out (R162). -/
def execTmsOut (l b : Byte) (s : State) : Host.Outcome State Fault Refusal :=
  inRange (tmsLengthOk l) (clockOut (tmsPins l b) s)

/-- `6B L B`: TMS clocked out, TDO read (R163). -/
def execTmsOutRead (l b : Byte) (s : State) : Host.Outcome State Fault Refusal :=
  inRange (tmsLengthOk l) (clockBitsIn (tmsPins l b) s)

/-- `1B L B`: bits clocked out on TDI (R164). -/
def execBitsOut (l b : Byte) (s : State) : Host.Outcome State Fault Refusal :=
  inRange (bitsLengthOk l) (clockOut (bitPins s.mpsse.tmsPin l b) s)

/-- `3B L B`: bits clocked out and in (R165). -/
def execBitsInout (l b : Byte) (s : State) : Host.Outcome State Fault Refusal :=
  inRange (bitsLengthOk l) (clockBitsIn (bitPins s.mpsse.tmsPin l b) s)

/-- `2A L`: bits clocked in, both pins held (R166). -/
def execBitsIn (l : Byte) (s : State) : Host.Outcome State Fault Refusal :=
  inRange (bitsLengthOk l) (clockBitsIn (heldPins s.mpsse.tmsPin s.mpsse.tdiPin l) s)

/-- `19`: bytes clocked out (R167). -/
def execBytesOut (data : List Byte) (s : State) : Host.Outcome State Fault Refusal :=
  inRange (bytesLengthOk data) (clockBytesOut data s)

/-- `39`: bytes clocked out and in (R168). -/
def execBytesInout (data : List Byte) (s : State) : Host.Outcome State Fault Refusal :=
  inRange (bytesLengthOk data) (clockBytesIn data s)

/-- `8E L`: clocks with both pins held (R169). -/
def execClkOnly (l : Byte) (s : State) : Host.Outcome State Fault Refusal :=
  inRange (bitsLengthOk l) (clockOut (heldPins s.mpsse.tmsPin s.mpsse.tdiPin l) s)

/-- `84`: loopback on (R170). -/
def execLoopbackOn (s : State) : Host.Outcome State Fault Refusal :=
  .next (s.setMpsse { s.mpsse with loopback := true })

/-- `85`: loopback off (R171). -/
def execLoopbackOff (s : State) : Host.Outcome State Fault Refusal :=
  .next (s.setMpsse { s.mpsse with loopback := false })

/-- `8A`: the divide-by-5 prescaler disabled (R172). -/
def execDiv5Off (s : State) : Host.Outcome State Fault Refusal :=
  .next (s.setMpsse { s.mpsse with div5 := false })

/-- `97`: adaptive clocking disabled (R173). -/
def execAdaptiveOff (s : State) : Host.Outcome State Fault Refusal :=
  .next (s.setMpsse { s.mpsse with adaptive := false })

/-- `8D`: three-phase clocking disabled (R174). -/
def execThreePhaseOff (s : State) : Host.Outcome State Fault Refusal :=
  .next (s.setMpsse { s.mpsse with threePhase := false })

/-- `86 lo(V) hi(V)`: the TCK divisor (R175). -/
def execSetDivisor (v : BitVec 16) (s : State) : Host.Outcome State Fault Refusal :=
  .next (s.setMpsse { s.mpsse with divisor := v })

/-- `80 V D`: the low byte, whose bits 0, 1 and 3 are the levels of TCK, TDI and TMS (R27, R177). -/
def execSetLowByte (v d : Byte) (s : State) : Host.Outcome State Fault Refusal :=
  .next (s.setMpsse { s.mpsse with
    lowValue := v, lowDir := d, tckPin := v.getLsbD 0, tdiPin := v.getLsbD 1, tmsPin := v.getLsbD 3 })

/-- `82 V D`: the high byte (R178). -/
def execSetHighByte (v d : Byte) (s : State) : Host.Outcome State Fault Refusal :=
  .next (s.setMpsse { s.mpsse with highValue := v, highDir := d })

/-- A byte that is no command's first byte is answered with `FA op`, and does nothing else (R110, R176). By the model's choice
(DESIGN CHOICE, log entry 40) so is a byte of the table where a caller names it as a bad command: no rule says what that does. -/
def execBadCommand (op : Byte) (s : State) : Host.Outcome State Fault Refusal :=
  .next (pushRx [0xFA, op] s)

/-- The meaning of the MPSSE commands, for the MPSSE engine's own loop. A row of another layer is no command of its
stream: the decoder gives none (R110), and it answers as an empty command would. -/
def runCommand (i : Instr) (s : State) : Host.Outcome State Fault Refusal :=
  match i with
  | .tmsOut l b => execTmsOut l b s
  | .tmsOutRead l b => execTmsOutRead l b s
  | .bitsOut l b => execBitsOut l b s
  | .bitsInout l b => execBitsInout l b s
  | .bitsIn l => execBitsIn l s
  | .bytesOut d => execBytesOut d s
  | .bytesInout d => execBytesInout d s
  | .clkOnly l => execClkOnly l s
  | .loopbackOn => execLoopbackOn s
  | .loopbackOff => execLoopbackOff s
  | .div5Off => execDiv5Off s
  | .adaptiveOff => execAdaptiveOff s
  | .threePhaseOff => execThreePhaseOff s
  | .setDivisor v => execSetDivisor v s
  | .setLowByte v d => execSetLowByte v d s
  | .setHighByte v d => execSetHighByte v d s
  | .badCommand op => execBadCommand op s
  | _ => .next s

end Sys2Proof.Machine
end

