-- ==== Sys2Proof/Machine/Transport.lean ====
section
/-! DEFINITION. The channel between the engine and the MPSSE engine: delivery and execution of bytes (R160, R335), `Flush`
(R224) and `ReadExactly` (R225), with the drawn outcomes of the driver calls they make (R330). -/

namespace Sys2Proof.Machine

open Sys2Proof

/-! ## The MPSSE engine's loop -/

/-- The bytes still to be executed. -/
def setInput (bs : List Byte) (s : State) : State := s.setMpsse { s.mpsse with input := bs }

/-- Up to `fuel` whole commands from the front of the input, in order (R160). A command whose bytes have not all arrived
waits, and the next delivery's first bytes complete it (R335); where they complete it with a length byte the spec gives no
effect to, that command's effect is free and the engine goes on behind it (U16; log entry 25). -/
def drainFuel : Nat → State → Run
  | 0, s => .ok s
  | fuel + 1, s =>
    match decodeMpsse s.mpsse.input with
    | .command i rest => (Run.ofOutcome (runCommand i (setInput rest s))).andThen (drainFuel fuel)
    | .waiting => .ok s
    | .rejected _ rest => drainFuel fuel (runUndescribed (setInput rest s))

/-- Every whole command of the input (R160): a command takes at least one byte. -/
def drain (s : State) : Run := drainFuel s.mpsse.input.length s

/-! ## `usb.write` and `Flush` -/

/-- One driver `write`: the bytes it passes on join the MPSSE engine's input (R330). Its outcome stands beside the state. -/
def usbWrite (bs : List Byte) (s : State) : DriverEvent × State :=
  let r := driverCall s
  (r.1, setInput (r.2.mpsse.input ++ bs.take (r.1.sent bs.length)) r.2)

/-- `outbuf <- []` (R224). -/
def clearOutbuf (s : State) : State := s.setEngine { s.engine with outbuf := [] }

/-- `Flush()`, with `exec` what the MPSSE engine does before the status is looked at: the status check comes before the
short-write check (R224, R328). -/
def flushWith (exec : State → Run) (s : State) : Run :=
  if s.engine.outbuf = [] then .ok s
  else
    let n := s.engine.outbuf.length
    let w := usbWrite s.engine.outbuf (clearOutbuf s)
    (exec w.2).andThen fun s =>
      match w.1.failure with
      | some st => .raised (raise (.transportError st) s)
      | none => if w.1.sent n = n then .ok s else .raised (raise (.shortWrite (w.1.sent n) n) s)

/-- `Flush()` inside an operation: the MPSSE engine has executed what was delivered before the next driver call returns
(R225, D28). -/
def flush (s : State) : Run := flushWith drain s

/-! ## `ReadExactly` -/

/-- What polling the RX queue comes to (R225). -/
inductive Poll where
  | ready (s : State)
  | failed (status : Nat) (s : State)
  | timedOut (s : State)
deriving DecidableEq, Repr

/-- The poll loop of R225: it ends when `queue_status` fails, shows a byte, or the 10 ms have passed. Every delivered
command has been executed, so an empty queue that the driver shows truly stays empty: by the model's choice (DESIGN CHOICE, log
entry 39) the loop ends in `Timeout` at the first healthy call that shows one, and a drawn count of 0 stands for a call that
shows none and is followed by another. -/
def pollQueue : Nat → State → Poll
  | 0, s => .timedOut s
  | fuel + 1, s =>
    let r := driverCall s
    match r.1 with
    | .healthy => if r.2.mpsse.rxFifo = [] then .timedOut r.2 else .ready r.2
    | .count k => if min k r.2.mpsse.rxFifo.length = 0 then pollQueue fuel r.2 else .ready r.2
    | .failed st _ => .failed st r.2
    | .timedOut => .timedOut r.2

/-- The first k bytes leave `rx_fifo` (R330). -/
def takeRx (k : Nat) (s : State) : List Byte × State :=
  (s.mpsse.rxFifo.take k, s.setMpsse { s.mpsse with rxFifo := s.mpsse.rxFifo.drop k })

/-- The bytes a piece of an operation has read, or how it ended. -/
inductive ReadRun where
  | got (bs : List Byte) (s : State)
  | raised (s : State)
deriving DecidableEq, Repr

/-- What `read(handle, n)` returned against the n bytes asked for (R225). -/
def readChecked (n k : Nat) (s : State) : ReadRun :=
  let r := takeRx k s
  if r.1.length < n then .raised (raise (.shortRead r.1.length n) r.2) else .got r.1 r.2

/-- One driver `read` of n bytes (R225, R330). -/
def usbRead (n : Nat) (s : State) : ReadRun :=
  let r := driverCall s
  match r.1 with
  | .healthy => readChecked n n r.2
  | .count k => readChecked n (min k n) r.2
  | .failed st _ => .raised (raise (.transportError st) r.2)
  | .timedOut => .raised (raise .timeout r.2)

/-- `ReadExactly(n)` after its requirement (R225): the poll, the read, and `expect_rx <- 0`. -/
def readExactly (n : Nat) (s : State) : ReadRun :=
  match pollQueue (s.usb.events.length + 1) s with
  | .failed st s => .raised (raise (.queueStatusFailed st) s)
  | .timedOut s => .raised (raise .timeout s)
  | .ready s =>
    match usbRead n s with
    | .got bs s => .got bs (s.setEngine { s.engine with expectRx := 0 })
    | .raised s => .raised s

end Sys2Proof.Machine
end

