-- ==== Sys2Proof/Machine/Bridge.lean ====
section
/-! DEFINITION. How an operation runs its fixed action list (R21), and the meanings of `read_idcode` (R219) and the six
single transfers (43_bridge_single.md). An operation is one step: its commands have all been executed when it returns
(D28), or it ends at the first error (R328). -/

namespace Sys2Proof.Machine

open Sys2Proof

/-! ## Running an action list -/

/-- A word read joins `out` (R226, R283). -/
def appendOut (w : Word) (s : State) : State := s.setEngine { s.engine with out := s.engine.out ++ [w] }

/-- A call of the progress callback, which cannot change the transfer (R293). -/
def callProgress (done total : Nat) (s : State) : State :=
  s.setEngine { s.engine with progress := s.engine.progress ++ [(done, total)] }

/-- One action of an operation. -/
def runAction (a : Action) (s : State) : Run :=
  match a with
  | .emit i => .ofOutcome (runPrimitive i s)
  | .flush => flush s
  | .readWord =>
    match readExactly 4 s with
    | .got bs s => .ok (appendOut (bytesWord bs) s)
    | .raised s => .raised s
  | .progress d t => .ok (callProgress d t s)

/-- The position moves past an action that is done (R21). -/
def nextPos (s : State) : State := s.setEngine { s.engine with pos := s.engine.pos + 1 }

/-- An action list in order, until it is done or an error or refusal ends it (R21, R328). -/
def runActions : List Action → State → Run
  | [], s => .ok s
  | a :: rest, s => (runAction a s).andThen fun s => runActions rest (nextPos s)

/-- Where an operation is issued: the position is 0, and the engine's buffers are empty (R21, R24, R25). -/
def issue (s : State) : State :=
  s.setEngine { s.engine with outbuf := [], expectRx := 0, pos := 0, out := [], progress := [] }

/-- An operation with the list `acts`, whose result is `result` of the words it read. -/
def operation (acts : List Action) (result : List Word → Returned) (s : State) : Host.Outcome State Fault Refusal :=
  ((runActions acts (issue s)).andThen fun s => .ok (setReturned (result s.engine.out) s)).outcome

/-- The first refusal of a list whose condition does not hold (R327). -/
def firstRefusal : List (Bool × Refusal) → Option Refusal
  | [] => none
  | (ok, r) :: rest => if ok then firstRefusal rest else some r

/-- An operation behind its checks, the first that fails refusing it before any byte is emitted (R327). -/
def checked (checks : List (Bool × Refusal)) (acts : List Action) (result : List Word → Returned) (s : State) :
    Host.Outcome State Fault Refusal :=
  match firstRefusal checks with
  | some r => .refused r
  | none => operation acts result s

/-- A session is open. -/
def hasSession (s : State) : Bool := s.engine.session.isSome

/-- The first word read. -/
def firstWord (ws : List Word) : Word := ws.headD 0

/-! ## The meanings -/

/-- `read_idcode` (R219). -/
def execReadIdcode (s : State) : Host.Outcome State Fault Refusal :=
  checked [(hasSession s, .noSession)] (program .readIdcode) (fun ws => .word (firstWord ws)) s

/-- `read32 a` (R250). -/
def execRead32 (a : Word) (s : State) : Host.Outcome State Fault Refusal :=
  checked [(hasSession s, .noSession), (wordAligned a, .unaligned)] (program (.read32 a)) (fun ws => .word (firstWord ws)) s

/-- `read16 a` (R251). -/
def execRead16 (a : Word) (s : State) : Host.Outcome State Fault Refusal :=
  checked [(hasSession s, .noSession), (halfAligned a, .unaligned)] (program (.read16 a))
    (fun ws => .half (halfOf (firstWord ws) a)) s

/-- `read8 a` (R252). -/
def execRead8 (a : Word) (s : State) : Host.Outcome State Fault Refusal :=
  checked [(hasSession s, .noSession)] (program (.read8 a)) (fun ws => .byte (byteOf (firstWord ws) a)) s

/-- `write32 a, v` (R254). -/
def execWrite32 (a : Word) (v : Nat) (s : State) : Host.Outcome State Fault Refusal :=
  checked [(hasSession s, .noSession), (wordAligned a, .unaligned), (decide (v < 2 ^ 32), .valueOutOfWidth)]
    (program (.write32 a v)) (fun _ => .done) s

/-- `write16 a, v` (R255). -/
def execWrite16 (a : Word) (v : Nat) (s : State) : Host.Outcome State Fault Refusal :=
  checked [(hasSession s, .noSession), (halfAligned a, .unaligned), (decide (v < 2 ^ 16), .valueOutOfWidth)]
    (program (.write16 a v)) (fun _ => .done) s

/-- `write8 a, v` (R256). -/
def execWrite8 (a : Word) (v : Nat) (s : State) : Host.Outcome State Fault Refusal :=
  checked [(hasSession s, .noSession), (decide (v < 2 ^ 8), .valueOutOfWidth)] (program (.write8 a v)) (fun _ => .done) s

end Sys2Proof.Machine
end

