-- ==== Sys2Proof/Machine/Burst.lean ====
section
/-! DEFINITION. The meanings of the SEQ bursts and the chunked transfers (44_bridge_burst.md). -/

namespace Sys2Proof.Machine

open Sys2Proof

/-- The refusals of a raw burst, in the order of R280. -/
def burstChecks (b : Word) (n : Nat) : List (Bool × Refusal) :=
  [(wordAligned b, .unaligned), (burstLengthOk n, .burstLength), (inOneBlock b n, .burstCrossesBoundary)]

/-- The refusals of every chunk in turn, before any byte is emitted (R290). -/
def chunkChecks (addr : Word) (n : Nat) : List (Bool × Refusal) :=
  (List.range (chunkCount n)).flatMap fun k => burstChecks (chunkBase addr k) (chunkWords n k)

/-- `burst_write b, [w0 .. w(N-1)]` (R281). -/
def execBurstWrite (b : Word) (ws : List Word) (s : State) : Host.Outcome State Fault Refusal :=
  checked ((hasSession s, .noSession) :: burstChecks b ws.length) (program (.burstWrite b ws)) (fun _ => .done) s

/-- `burst_read b, N` (R283). -/
def execBurstRead (b : Word) (n : Nat) (s : State) : Host.Outcome State Fault Refusal :=
  checked ((hasSession s, .noSession) :: burstChecks b n) (program (.burstRead b n)) .words s

/-- `write_many addr, buf, n` (R291); with n = 0 it emits nothing. -/
def execWriteMany (addr : Word) (buf : List Word) (n : Nat) (progress : Bool) (s : State) :
    Host.Outcome State Fault Refusal :=
  checked ((hasSession s, .noSession) :: (decide (buf.length = n), .lengthMismatch) :: chunkChecks addr n)
    (program (.writeMany addr buf n progress)) (fun _ => .done) s

/-- `read_many addr, n` (R292); with n = 0 it returns no word. -/
def execReadMany (addr : Word) (n : Nat) (progress : Bool) (s : State) : Host.Outcome State Fault Refusal :=
  checked ((hasSession s, .noSession) :: chunkChecks addr n) (program (.readMany addr n progress)) .words s

end Sys2Proof.Machine
end

