-- ==== Sys2Proof/Machine/JtagIr.lean ====
section
/-! DEFINITION. The meanings of the four IR opcodes (R28): the clock that enters Update-IR while the IR shift register holds
the opcode (R138). From then on Capture-DR, Shift-DR and Update-DR act on the register that the opcode selects (R136 to
R138). -/

namespace Sys2Proof.Machine

open Sys2Proof

/-- The clock with TMS high that takes the target out of Exit1-IR with `op` in the IR shift register: it enters UpdIR and
sets `ir <- irsr` (R138; log entry 12). -/
def enterUpdateIr (op : BitVec 6) (s : State) : State :=
  fallingEdge (moveTap true (countClock (s.setTarget { s.target with tap := .ex1IR, irsr := op })))

/-- IR `0x02`: the command/address register, 35 bits. -/
def execCodeAddrComm (s : State) : Host.Outcome State Fault Refusal := .next (enterUpdateIr Config.codeAddrComm s)

/-- IR `0x03`: the data register, 33 bits. -/
def execCodeData (s : State) : Host.Outcome State Fault Refusal := .next (enterUpdateIr Config.codeData s)

/-- IR `IDCODE_OPCODE`: the identification register, 32 bits. -/
def execIdcode (s : State) : Host.Outcome State Fault Refusal := .next (enterUpdateIr s.params.idcodeOpcode s)

/-- Any other IR value: the 1-bit BYPASS register. Called with an opcode that selects another register, it makes that opcode the
current one and so selects that register (R28; DESIGN CHOICE, log entry 12). -/
def execBypass (op : BitVec 6) (s : State) : Host.Outcome State Fault Refusal := .next (enterUpdateIr op s)

end Sys2Proof.Machine
end

