-- ==== Sys2Proof/Machine/Dispatch.lean ====
section
/-! DEFINITION. exec: one arm for each constructor of Instr, in the table's order. -/

namespace Sys2Proof.Machine

open Sys2Proof

def exec (i : Instr) (s : State) : Host.Outcome State Fault Refusal :=
  match i with
  | .tmsOut l b => Sys2Proof.Machine.execTmsOut l b s
  | .tmsOutRead l b => Sys2Proof.Machine.execTmsOutRead l b s
  | .bitsOut l b => Sys2Proof.Machine.execBitsOut l b s
  | .bitsInout l b => Sys2Proof.Machine.execBitsInout l b s
  | .bitsIn l => Sys2Proof.Machine.execBitsIn l s
  | .bytesOut data => Sys2Proof.Machine.execBytesOut data s
  | .bytesInout data => Sys2Proof.Machine.execBytesInout data s
  | .clkOnly l => Sys2Proof.Machine.execClkOnly l s
  | .loopbackOn => Sys2Proof.Machine.execLoopbackOn s
  | .loopbackOff => Sys2Proof.Machine.execLoopbackOff s
  | .div5Off => Sys2Proof.Machine.execDiv5Off s
  | .adaptiveOff => Sys2Proof.Machine.execAdaptiveOff s
  | .threePhaseOff => Sys2Proof.Machine.execThreePhaseOff s
  | .setDivisor v => Sys2Proof.Machine.execSetDivisor v s
  | .setLowByte v d => Sys2Proof.Machine.execSetLowByte v d s
  | .setHighByte v d => Sys2Proof.Machine.execSetHighByte v d s
  | .badCommand op => Sys2Proof.Machine.execBadCommand op s
  | .codeAddrComm => Sys2Proof.Machine.execCodeAddrComm s
  | .codeData => Sys2Proof.Machine.execCodeData s
  | .idcode => Sys2Proof.Machine.execIdcode s
  | .bypass op => Sys2Proof.Machine.execBypass op s
  | .resetToTlr => Sys2Proof.Machine.execResetToTlr s
  | .tlrToShiftIr => Sys2Proof.Machine.execTlrToShiftIr s
  | .exit1ToShiftDr => Sys2Proof.Machine.execExit1ToShiftDr s
  | .exit1drToShiftIr => Sys2Proof.Machine.execExit1drToShiftIr s
  | .tlrToShiftDr => Sys2Proof.Machine.execTlrToShiftDr s
  | .shiftBitsOut c b => Sys2Proof.Machine.execShiftBitsOut c b s
  | .shiftBitsInout c b => Sys2Proof.Machine.execShiftBitsInout c b s
  | .shiftBitsIn c => Sys2Proof.Machine.execShiftBitsIn c s
  | .shiftBytesOut data => Sys2Proof.Machine.execShiftBytesOut data s
  | .shiftBytesInout data => Sys2Proof.Machine.execShiftBytesInout data s
  | .lastBitWithTms x t => Sys2Proof.Machine.execLastBitWithTms x t s
  | .lastBitWithTmsRead x t => Sys2Proof.Machine.execLastBitWithTmsRead x t s
  | .clockOnly c => Sys2Proof.Machine.execClockOnly c s
  | .shiftIr op => Sys2Proof.Machine.execShiftIr op s
  | .loadCmd a sz rw => Sys2Proof.Machine.execLoadCmd a sz rw s
  | .writeData d seq => Sys2Proof.Machine.execWriteData d seq s
  | .readData => Sys2Proof.Machine.execReadData s
  | .seqExit x => Sys2Proof.Machine.execSeqExit x s
  | .readIdcode => Sys2Proof.Machine.execReadIdcode s
  | .read32 a => Sys2Proof.Machine.execRead32 a s
  | .read16 a => Sys2Proof.Machine.execRead16 a s
  | .read8 a => Sys2Proof.Machine.execRead8 a s
  | .write32 a v => Sys2Proof.Machine.execWrite32 a v s
  | .write16 a v => Sys2Proof.Machine.execWrite16 a v s
  | .write8 a v => Sys2Proof.Machine.execWrite8 a v s
  | .burstWrite b ws => Sys2Proof.Machine.execBurstWrite b ws s
  | .burstRead b n => Sys2Proof.Machine.execBurstRead b n s
  | .writeMany addr buf n progress => Sys2Proof.Machine.execWriteMany addr buf n progress s
  | .readMany addr n progress => Sys2Proof.Machine.execReadMany addr n progress s

end Sys2Proof.Machine
end

