-- ==== Sys2Proof/Machine/Session.lean ====
section
/-! DEFINITION. The calls that have no row in the opcode table: `open` (R362), `close` (R364), `enumerate` (R363), the startup
check (R342), and `Flush` and `ReadExactly` asked for by a caller that builds its own buffer (R224, R225). -/

namespace Sys2Proof.Machine

open Sys2Proof

/-! ## Closing -/

/-- The session is gone (R333, R364). -/
def endSession (s : State) : State := s.setEngine { s.engine with session := none }

/-- A driver call that only returns a status, `f` its effect where it succeeds and its failure ignored (R364). -/
def ignoredCall (f : State → State) (s : State) : State :=
  let r := driverCall s
  if r.1.failure = none then f r.2 else r.2

/-- `set_bitmode` to a mode (R26, R330). -/
def setBitmode (m : BitMode) (s : State) : State := s.setMpsse { s.mpsse with bitmode := m }

/-- `set_bitmode(0, 0)`, `reset`, `close`, their statuses ignored, and the end of the session; no TCK is clocked (R333,
R364). -/
def closeCalls (s : State) : State := endSession (ignoredCall id (ignoredCall id (ignoredCall (setBitmode .reset) s)))

/-- `close()`, which does nothing where no session is open (R364). -/
def closeSession (s : State) : State :=
  if s.engine.session = none then s else setReturned .done (closeCalls s)

/-! ## Opening (R362) -/

/-- A step of the open sequence failed: the handle is closed, and no session exists (R322, R362). -/
def openFail (st : OpenStage) (s : State) : Run := .raised (raise (.openFailed st) (endSession (ignoredCall id s)))

/-- A step that is one driver call returning a status. -/
def openCall (st : OpenStage) (f : State → State) (s : State) : Run :=
  let r := driverCall s
  if r.1.failure = none then .ok (f r.2) else openFail st r.2

/-- A step that writes bytes and checks that all were sent. -/
def openWrite (st : OpenStage) (bs : List Byte) (s : State) : Run :=
  let w := usbWrite bs s
  (drain w.2).andThen fun s =>
    if w.1.failure = none ∧ w.1.sent bs.length = bs.length then .ok s else openFail st s

/-- The RX queue must be empty after loopback on (step 9). -/
def openQueueEmpty (s : State) : Run :=
  let r := driverCall s
  match r.1 with
  | .healthy => if r.2.mpsse.rxFifo = [] then .ok r.2 else openFail .loopbackOn r.2
  | .count k => if min k r.2.mpsse.rxFifo.length = 0 then .ok r.2 else openFail .loopbackOn r.2
  | .failed _ _ => openFail .loopbackOn r.2
  | .timedOut => openFail .loopbackOn r.2

/-- The bogus opcode must be answered `FA AB` (step 10). -/
def openEcho (s : State) : Run :=
  match pollQueue (s.usb.events.length + 1) s with
  | .failed _ s => openFail .bogusEcho s
  | .timedOut s => openFail .bogusEcho s
  | .ready s =>
    match usbRead 2 s with
    | .got bs s => if bs = [0xFA, 0xAB] then .ok s else openFail .bogusEcho s
    | .raised s => openFail .bogusEcho s

/-- The purge empties `rx_fifo`; whether a waiting partial command survives it is open (R362 step 4; log entry 11). -/
def purge (s : State) : State :=
  s.setMpsse { s.mpsse with
    rxFifo := []
    input := if Config.partialSurvivesPurge s.usb.calls then s.mpsse.input else [] }

/-- The session of step 16 (R22, R362). -/
def newSession (handle : Nat) (family : Family) : Session :=
  { handle := handle, family := family, addrMap := Config.addrMap family, firstRun := true, activeCpu := 0 }

/-- The engine as `open` leaves it (R41, R362 step 16). -/
def beginSession (handle : Nat) (family : Family) (s : State) : State :=
  s.setEngine { s.engine with
    session := some (newSession handle family), tapBelief := .unknown, outbuf := [], expectRx := 0, returned := .done }

/-- Steps 2 to 16 of the open sequence, with the handle of step 1; the 1 s wait of step 8 has no modelled effect (R370). -/
def openSteps (handle : Nat) (family : Family) (s : State) : Run :=
  (openCall .usbReset id s).andThen fun s =>
  (openCall .usbParams (fun s => s.setMpsse { s.mpsse with
    usbInSize := Config.usbTransferSize, usbOutSize := Config.usbTransferSize }) s).andThen fun s =>
  (openCall .purge purge s).andThen fun s =>
  (openCall .timeouts (fun s => s.setMpsse { s.mpsse with
    rxTimeoutMs := Config.usbTimeoutMs, txTimeoutMs := Config.usbTimeoutMs }) s).andThen fun s =>
  (openCall .bitmodeReset (setBitmode .reset) s).andThen fun s =>
  (openCall .bitmodeMpsse (setBitmode .mpsse) s).andThen fun s =>
  (openWrite .loopbackOn [0x84] s).andThen fun s =>
  (openQueueEmpty s).andThen fun s =>
  (openWrite .bogusEcho [0xAB] s).andThen fun s =>
  (openEcho s).andThen fun s =>
  (openWrite .loopbackOff [0x85] s).andThen fun s =>
  (openWrite .clockConfig [0x8A, 0x97, 0x8D] s).andThen fun s =>
  (openWrite .divisor [0x86, Config.tckDivisor.extractLsb' 0 8, Config.tckDivisor.extractLsb' 8 8] s).andThen fun s =>
  (openWrite .lowByte [0x80, Config.lowByteValue, Config.lowByteDir] s).andThen fun s =>
  (openWrite .highByte [0x82, Config.highByteValue, Config.highByteDir] s).andThen fun s =>
  .ok (beginSession handle family s)

/-- `open(index, family)` (R362). A failed step 1 has no handle to close. -/
def openSession (index : Nat) (family : Family) (s : State) : Run :=
  let r := driverCall s
  if r.1.failure = none then openSteps (Config.deviceHandle s.usb.calls index) family r.2
  else .raised (raise (.openFailed .usbOpen) (endSession r.2))

/-! ## Enumeration (R363) -/

/-- `get_device_info_detail(i)` for each device: the first failure is its status. -/
def detailCalls : List DeviceInfo → State → Option Nat × State
  | [], s => (none, s)
  | _ :: ds, s =>
    let r := driverCall s
    match r.1.failure with
    | some st => (some st, r.2)
    | none => detailCalls ds r.2

/-- `enumerate()`: it makes no MPSSE command and opens no session (R363). -/
def enumerate (s : State) : State :=
  let r := driverCall s
  match r.1.failure with
  | some st => raise (.enumerationFailed st) r.2
  | none =>
    let d := detailCalls r.2.usb.devices r.2
    match d.1 with
    | some st => raise (.enumerationFailed st) d.2
    | none => setReturned (.devices d.2.usb.devices) d.2

/-! ## The startup check (R342) -/

/-- The first of the four measured lengths that is wrong (R323, R342). -/
def chainShapeError (c : Config.Chain) : Option EngineError :=
  if c.devices ≠ Config.chainDevices then some (.chainDeviceCount c.devices)
  else if c.irLength ≠ Config.irLen then some (.irLength c.irLength)
  else if c.drAddrLength ≠ Config.cmdDrLen then some (.drLengthAddr c.drAddrLength)
  else if c.drDataLength ≠ Config.dataDrLen then some (.drLengthData c.drDataLength)
  else none

/-- A chain-shape error is fatal: the session is closed (R323, R333). -/
def chainFail (e : EngineError) (s : State) : Run := .raised (raise e (closeCalls s))

/-- `startup_check()` (R342). With no session it is refused, which is the model's choice: R327 names bridge operations and
primitives only (DESIGN CHOICE, log entry 37). -/
def startupCheck (s : State) : Run :=
  if s.engine.session = none then .refused .noSession
  else
    match chainShapeError s.params.measuredChain with
    | some e => chainFail e s
    | none =>
      (runActions (program .readIdcode) (issue s)).andThen fun s =>
        if firstWord s.engine.out = 0 then chainFail .idcodeAbsent s else .ok (setReturned .done s)

/-! ## Flush and ReadExactly as calls -/

/-- `Flush()` by a caller of primitives: the bytes are delivered, and the MPSSE engine's steps execute them (R160, R224).
With no session it is refused, also with nothing buffered, which is the model's choice (DESIGN CHOICE, log entry 37). -/
def callFlush (s : State) : Run :=
  if s.engine.session = none then .refused .noSession else flushWith .ok s

/-- `ReadExactly(n)` by a caller of primitives, which asks for all the expected bytes at once (R225). With no session it
is refused, which is the model's choice (DESIGN CHOICE, log entry 37). -/
def callReadExactly (n : Nat) (s : State) : Run :=
  if s.engine.session = none then .refused .noSession
  else if n ≠ s.engine.expectRx then .refused .readCountMismatch
  else
    match readExactly n s with
    | .got bs s => .ok (setReturned (.bytes bs) s)
    | .raised s => .raised s

end Sys2Proof.Machine
end

