-- ==== Sys2Proof/Machine/Step.lean ====
section
/-! DEFINITION. One step of the machine. The MPSSE engine comes first: while a whole command stands at the front of its input,
a step decodes and executes it (R160), with a free effect where the spec describes none (U16). Else a step issues the caller's next call (R75). With neither, the block waits for its
caller, and nothing changes. -/

namespace Sys2Proof.Machine

open Sys2Proof

/-- A call, issued (R75). -/
def runCall (c : Call) (s : State) : Host.Outcome State Fault Refusal :=
  match c with
  | .instr i => exec i s
  | .flush => (callFlush s).outcome
  | .readExactly n => (callReadExactly n s).outcome
  | .openSession index family => (openSession index family s).outcome
  | .closeSession => .next (closeSession s)
  | .enumerate => .next (enumerate s)
  | .startupCheck => (startupCheck s).outcome

/-- The caller's next call, if there is one. By the model's choice (DESIGN CHOICE, log entry 38) a call may also be an MPSSE
command or an IR opcode of the table: it runs at once, with no driver write, and ahead of a partial command that waits in the
MPSSE engine's input, which it leaves alone. R114 names primitives and operations alone as calls. -/
def stepCall (s : State) : Host.Outcome State Fault Refusal :=
  match s.calls with
  | [] => .next s
  | c :: rest => runCall c (s.setCalls rest)

/-- One step. -/
def step (s : State) : Host.Outcome State Fault Refusal :=
  match decodeMpsse s.mpsse.input with
  | .command i rest => exec i (setInput rest s)
  | .rejected _ rest => .next (runUndescribed (setInput rest s))
  | .waiting => stepCall s

/-- The state with a table word placed where the next step takes its instruction from: an MPSSE command as the whole of the
MPSSE engine's input; an IR opcode as the only call, the input empty (log entry 12). -/
def State.withFetchWord (s : State) (nbits w : Nat) : State :=
  if isIrTableWord nbits w then
    (setInput [] s).setCalls [.instr (decodeIr s.params.idcodeOpcode (BitVec.ofNat 6 w))]
  else setInput (tableBytes nbits w) s

end Sys2Proof.Machine
end

