-- ==== Sys2Proof/Safety.lean ====
section
/-! DEFINITION. What the statements about runs speak of: the well-formedness of a state, the conditions under which an
operation meets a healthy transport, and the clocks of a command as the target alone sees them. -/

namespace Sys2Proof.Machine

open Sys2Proof

/-- The TAP states in which the DR shift register holds a scan (R33): from the end of Capture-DR to the end of Update-DR. -/
def TapState.inDrScan : TapState → Bool
  | .shDR | .ex1DR | .pauseDR | .ex2DR | .updDR => true
  | _ => false

/-- In a DR scan the shift register is as long as the selected register (R33). -/
def scanWidthOk (s : State) : Bool :=
  !(TapState.inDrScan s.target.tap) || decide (s.target.dsr.length = drLen s.sel)

/-- A state the machine can be in: its memory in canonical form, its DR shift register of the selected width. -/
def wellFormed (s : State) : Bool := Memory.wf s.mem && scanWidthOk s

/-- The transport of an operation is healthy (R330) and undisturbed: every driver call to come succeeds, the MPSSE engine
holds no partial command, loopback is off, and no stale byte waits in `rx_fifo` (R41, after open and after each
operation). -/
def healthy (s : State) : Prop :=
  s.engine.session ≠ none ∧ s.usb.events = [] ∧ s.mpsse.input = [] ∧ s.mpsse.rxFifo = [] ∧ s.mpsse.loopback = false

/-- The target's TAP stands where five clocks with TMS high pass no Update-DR (R132): every state but CapDR, ShDR, Ex1DR,
PauseDR and Ex2DR. TLR, where every operation leaves it (R41), is one. -/
def scanFree (s : State) : Bool :=
  match s.target.tap with
  | .capDR | .shDR | .ex1DR | .pauseDR | .ex2DR => false
  | _ => true

/-- The state of a target whose TCK has been clocked with the given TMS and TDI levels, in order, by `Clock` alone (R140). -/
def clocked : List (Bool × Bool) → State → State
  | [], s => s
  | (tms, tdi) :: rest, s => clocked rest (clock tms tdi s).2

/-- The TDO levels of those clocks (R140). -/
def tdoLevels : List (Bool × Bool) → State → List Bool
  | [], _ => []
  | (tms, tdi) :: rest, s => (clock tms tdi s).1 :: tdoLevels rest (clock tms tdi s).2

/-- The machine goes on from an instruction to exactly this state. -/
def completes (i : Instr) (s t : State) : Prop := exec i s = .next t

/-! ## Runs of several pieces -/

/-- Several instructions, one after another. -/
def execAll : List Instr → State → Host.Outcome State Fault Refusal
  | [], s => .next s
  | i :: rest, s =>
    match exec i s with
    | .next t => execAll rest t
    | .fault f => .fault f
    | .refused r => .refused r

/-- The TAP states that clocks pass through, the one after each clock (R132). -/
def tapsOf : List (Bool × Bool) → State → List TapState
  | [], _ => []
  | (tms, tdi) :: rest, s => (clock tms tdi s).2.target.tap :: tapsOf rest (clock tms tdi s).2

/-- A clock with TMS high and TDI low, five times: the clocks of `reset_to_tlr` (R201). -/
def fiveHigh : List (Bool × Bool) := List.replicate 5 (true, false)

/-- The state behind an operation's leading `reset_to_tlr`, as the target sees it (R201): TLR, from whatever state. -/
def leadingReset (s : State) : State := clocked fiveHigh s

/-! ## Pin levels and samples, as the formats of R91 to R94 give them -/

/-- M-TMS: TMS is bit i of b on cycle i, TDI is bit 7 of b throughout (R91). -/
def tmsCycles (l b : Byte) : List (Bool × Bool) :=
  (List.range (l.toNat + 1)).map fun i => (b.getLsbD i, b.getLsbD 7)

/-- M-BITS: TDI is bit i of b on cycle i, TMS held (R92). -/
def bitCycles (tms : Bool) (l b : Byte) : List (Bool × Bool) :=
  (List.range (l.toNat + 1)).map fun i => (tms, b.getLsbD i)

/-- M-BITS-IN and M-CLK: both pins held (R92, R94). -/
def heldCycles (tms tdi : Bool) (l : Byte) : List (Bool × Bool) := (List.range (l.toNat + 1)).map fun _ => (tms, tdi)

/-- M-BYTES: TDI is bit i of byte j on cycle 8j + i, TMS held (R93). -/
def byteCycles (tms : Bool) (data : List Byte) : List (Bool × Bool) :=
  data.flatMap fun d => (List.range 8).map fun i => (tms, d.getLsbD i)

/-- What the MPSSE engine records of those cycles: the TDI levels while loopback is on, else the target's TDO levels
(R160, R170). -/
def recorded (cycles : List (Bool × Bool)) (s : State) : List Bool :=
  if s.mpsse.loopback then cycles.map Prod.snd else tdoLevels cycles s

/-- The MPSSE engine with TMS and TDI at these levels, TCK low (R130, R161). -/
def Mpsse.at (m : Mpsse) (tms tdi : Bool) : Mpsse := { m with tmsPin := tms, tdiPin := tdi, tckPin := false }

/-- The state with more bytes buffered, more response bytes expected, and this belief (R200): nothing else changes. -/
def emitted (s : State) (bytes : List Byte) (expected : Nat) (b : Belief) : State :=
  s.setEngine { s.engine with
    outbuf := s.engine.outbuf ++ bytes
    expectRx := s.engine.expectRx + expected
    tapBelief := b }

/-! ## Where an operation leaves the machine -/

/-- The engine of an operation that has returned normally (R21, R23 to R25, R41). -/
def Engine.returnedFrom (e : Engine) (i : Instr) (out : List Word) (progress : List (Nat × Nat)) (r : Returned) : Engine :=
  { session := e.session
    tapBelief := .at .tlr
    outbuf := []
    expectRx := 0
    pos := (program i).length
    out := out
    progress := progress
    returned := r }

/-- The state an operation has left when it returns normally: the engine at rest, the pins at TCK 0, TDI 0, TMS 1, and
the target, the memory, the AHB log and the number of driver calls as given (R41). -/
def atRest (s : State) (e : Engine) (t : Target) (mem : List Host.Cell) (log : List AhbTransfer) (calls : Nat) : State :=
  { s with
    engine := e
    mpsse := s.mpsse.at true false
    target := t
    mem := mem
    ahbLog := log
    usb := { s.usb with calls := s.usb.calls + calls } }

/-- The memory `m'` is `m` with those bytes stored, in order, where they lie in `RAM_REGION` (R63): every other byte
reads as before. -/
def storesExactly (p : Config.Params) (stores : List (Word × Byte)) (m m' : List Host.Cell) : Prop :=
  Memory.wf m' = true ∧ ∀ x : Word,
    Memory.read m' x.toNat =
      if inRam p x then ((stores.reverse.find? fun c => c.1 == x).map Prod.snd).getD (Memory.read m x.toNat)
      else Memory.read m x.toNat

/-- The bytes of a word write (R61): the byte at `a` is bits 31:24. -/
def wordStores (a : Word) (d : Word) : List (Word × Byte) :=
  [(a, d.extractLsb' 24 8), (a + 1, d.extractLsb' 16 8), (a + 2, d.extractLsb' 8 8), (a + 3, d.extractLsb' 0 8)]

/-- The words from `a` on, in order, as byte stores. -/
def wordsStores (a : Word) : List Word → List (Word × Byte)
  | [] => []
  | w :: ws => wordStores a w ++ wordsStores (a + 4) ws

/-- The AHB writes of a burst: the words from `a` on, in order (R281). -/
def wordWrites (a : Word) : List Word → List AhbTransfer
  | [] => []
  | w :: ws => .write a Config.sizeWord w :: wordWrites (a + 4) ws

/-- The AHB reads of a burst: n words from `a` on, in order (R283). -/
def wordReads (a : Word) : Nat → List AhbTransfer
  | 0 => []
  | n + 1 => .read a Config.sizeWord :: wordReads (a + 4) n

/-- The engine where an error has been raised (R329). -/
def Engine.failed (e : Engine) (err : EngineError) : Engine :=
  { e with outbuf := [], expectRx := 0, tapBelief := .unknown, returned := .error err }

/-- The four bytes of memory from `a` on, as a big-endian word (R61, R65). -/
def State.wordAt (s : State) (a : Word) : Word := s.byteAt a ++ s.byteAt (a + 1) ++ s.byteAt (a + 2) ++ s.byteAt (a + 3)

/-- Every byte of the words from `a` on, n of them, lies in `RAM_REGION`. -/
def wordsInRam (p : Config.Params) (a : Word) (n : Nat) : Prop := ∀ j, j < 4 * n → inRam p (a + BitVec.ofNat 32 j) = true

/-- The bytes of the stretches an operation flushes, in order (R257, R294): those emitted before each flush mark. -/
def flushSizes : List Action → Nat → List Nat
  | [], n => [n]
  | .emit i :: rest, n => flushSizes rest (n + ((commands i).flatMap encodeMpsse).length)
  | .flush :: rest, n => n :: flushSizes rest 0
  | _ :: rest, n => flushSizes rest n

end Sys2Proof.Machine
end

