-- ==== Sys2Proof/Certificates/Slice0/Obligations.lean ====
section
/-! DEFINITION. The statements for the provers. Each docstring names the rules of spec/ it is about. -/

open Sys2Proof Sys2Proof.Machine

/-! ## The TAP controller and the clock -/

/-- R132: the next-state table, row by row. -/
def Obligations.TapNextStateTable : Prop :=
  ∀ row ∈ ([(.tlr, .rti, .tlr), (.rti, .rti, .selDR), (.selDR, .capDR, .selIR), (.capDR, .shDR, .ex1DR),
      (.shDR, .shDR, .ex1DR), (.ex1DR, .pauseDR, .updDR), (.pauseDR, .pauseDR, .ex2DR), (.ex2DR, .shDR, .updDR),
      (.updDR, .rti, .selDR), (.selIR, .capIR, .tlr), (.capIR, .shIR, .ex1IR), (.shIR, .shIR, .ex1IR),
      (.ex1IR, .pauseIR, .updIR), (.pauseIR, .pauseIR, .ex2IR), (.ex2IR, .shIR, .updIR), (.updIR, .rti, .selDR)] :
      List (TapState × TapState × TapState)),
    ∀ (tdi : Bool) (s : State), s.target.tap = row.1 →
      (clock false tdi s).2.target.tap = row.2.1 ∧ (clock true tdi s).2.target.tap = row.2.2

/-- R133: five clocks with TMS high end in TLR from every state, and four do not from the six states whose path is the
longest. The clocks' TDI levels are any. -/
def Obligations.FiveTmsHighReachTlr : Prop :=
  ∀ (ds : List Bool) (s : State),
    (ds.length = 5 → (clocked (ds.map fun d => (true, d)) s).target.tap = .tlr
      ∧ (clocked (ds.map fun d => (true, d)) s).target.ir = s.params.idcodeOpcode)
    ∧ (ds.length = 4 → s.target.tap ∈ [.shDR, .shIR, .capDR, .capIR, .pauseDR, .pauseIR] →
      (clocked (ds.map fun d => (true, d)) s).target.tap ≠ .tlr)

/-- R134, R106: each fixed walk, clocked as the M-TMS command it is, passes the stated states. -/
def Obligations.FixedWalksReachTheirEndStates : Prop :=
  ∀ s : State,
    ((tapsOf (tmsCycles 0x04 0x3F) s).getLast? = some .tlr)
    ∧ (s.target.tap = .shDR → tapsOf (tmsCycles 0x04 0x3F) s = [.ex1DR, .updDR, .selDR, .selIR, .tlr])
    ∧ (s.target.tap = .ex1DR → tapsOf (tmsCycles 0x04 0x3F) s = [.updDR, .selDR, .selIR, .tlr, .tlr])
    ∧ (s.target.tap = .tlr → tapsOf (tmsCycles 0x05 0x0D) s = [.tlr, .rti, .selDR, .selIR, .capIR, .shIR])
    ∧ (s.target.tap = .ex1IR → tapsOf (tmsCycles 0x03 0x03) s = [.updIR, .selDR, .capDR, .shDR])
    ∧ (s.target.tap = .ex1DR → tapsOf (tmsCycles 0x03 0x03) s = [.updDR, .selDR, .capDR, .shDR])
    ∧ (s.target.tap = .ex1DR → tapsOf (tmsCycles 0x04 0x07) s = [.updDR, .selDR, .selIR, .capIR, .shIR])
    ∧ (s.target.tap = .tlr → tapsOf (tmsCycles 0x03 0x02) s = [.rti, .selDR, .capDR, .shDR])
    ∧ (∀ x : Bool, s.target.tap = .shIR → tapsOf (tmsCycles 0x00 (lastBitByte x true)) s = [.ex1IR])
    ∧ (∀ x : Bool, s.target.tap = .shDR → tapsOf (tmsCycles 0x00 (lastBitByte x true)) s = [.ex1DR])

/-- R140, R135: what a clock may change. It counts itself, leaves the engine, the MPSSE engine, the driver, the calls and
the parameters, and changes the bridge, the registers behind it, the memory and the AHB log only where it captures or
updates; a clock that ends in TLR sets `ir` to `IDCODE_OPCODE` and touches nothing of these. -/
def Obligations.ClockFrame : Prop :=
  ∀ (tms tdi : Bool) (s t : State), (clock tms tdi s).2 = t →
    t.target.clockCount = s.target.clockCount + 1 ∧ t.engine = s.engine ∧ t.mpsse = s.mpsse ∧ t.usb = s.usb
    ∧ t.calls = s.calls ∧ t.params = s.params
    ∧ (t.target.tap ≠ .updDR → t.mem = s.mem ∧ t.ahbLog = s.ahbLog ∧ t.target.cmd = s.target.cmd ∧ t.target.data = s.target.data
        ∧ (s.target.tap ≠ .capDR → t.target.bridge = s.target.bridge))
    ∧ (s.target.tap ≠ .capDR → s.target.tap ≠ .shDR → t.target.dsr = s.target.dsr)
    ∧ (s.target.tap ≠ .capIR → s.target.tap ≠ .shIR → t.target.irsr = s.target.irsr)
    ∧ (t.target.tap ≠ .tlr → t.target.tap ≠ .updIR → t.target.ir = s.target.ir)
    ∧ (t.target.tap = .tlr → t = s.setTarget { s.target with
        tap := .tlr, ir := s.params.idcodeOpcode, clockCount := s.target.clockCount + 1 })

/-- R137, R139: a clock in a Shift state presents bit 0 and shifts TDI in at the top; after as many shifts as the register
is long, the first bit shifted in is bit 0. -/
def Obligations.ShiftClocks : Prop :=
  ∀ (tms tdi : Bool) (s : State),
    (s.target.tap = .shIR →
      (clock tms tdi s).1 = s.target.irsr.getLsbD 0
      ∧ (∀ i, i < 5 → (clock tms tdi s).2.target.irsr.getLsbD i = s.target.irsr.getLsbD (i + 1))
      ∧ (clock tms tdi s).2.target.irsr.getLsbD 5 = tdi
      ∧ ∀ op : BitVec 6, (clocked ((lowBits 6 op).map fun x => (false, x)) s).target.irsr = op)
    ∧ (s.target.tap = .shDR → s.target.dsr ≠ [] →
      (clock tms tdi s).1 = s.target.dsr.head?.getD false
      ∧ (clock tms tdi s).2.target.dsr = s.target.dsr.drop 1 ++ [tdi]
      ∧ ∀ xs : List Bool, xs.length = s.target.dsr.length →
          (clocked (xs.map fun x => (false, x)) s).target.dsr = xs)

/-- R136, R244: what a clock taken in a Capture state loads. The capture of the command register is any 35 bits; that of
the data register completes a read whose clock has come, and bit 32 is `done`. -/
def Obligations.CaptureClocks : Prop :=
  ∀ (tms tdi : Bool) (s t : State), (clock tms tdi s).2 = t →
    (s.target.tap = .capIR → t.target.irsr = s.params.irCapture)
    ∧ (s.target.tap = .capDR → s.target.ir = 0x02 →
        t.target.dsr.length = 35 ∧ t.target.bridge = s.target.bridge)
    ∧ (s.target.tap = .capDR → s.target.ir = 0x03 → s.target.bridge.curW = true →
        ∃ d : Word, t.target.dsr = lowBits 33 (BitVec.ofBool true ++ d))
    ∧ (s.target.tap = .capDR → s.target.ir = 0x03 → ∀ c w, s.target.bridge.pending = .read c w →
        c ≤ s.target.clockCount + 1 →
          t.target.bridge = { s.target.bridge with rdata := w, pending := .none }
          ∧ (s.target.bridge.curW = false → t.target.dsr = lowBits 33 (BitVec.ofBool true ++ w)))
    ∧ (s.target.tap = .capDR → s.target.ir = 0x03 → ∀ c w, s.target.bridge.pending = .read c w →
        s.target.clockCount + 1 < c →
          t.target.bridge = s.target.bridge
          ∧ (s.target.bridge.curW = false → ∃ d : Word, t.target.dsr = lowBits 33 (BitVec.ofBool false ++ d)))
    ∧ (s.target.tap = .capDR → s.target.ir = 0x03 → s.target.bridge.pending = .none →
          t.target.bridge = s.target.bridge
          ∧ (s.target.bridge.curW = false →
              t.target.dsr = lowBits 33 (BitVec.ofBool true ++ s.target.bridge.rdata)))
    ∧ (s.target.tap = .capDR → s.target.ir = s.params.idcodeOpcode → s.target.ir ≠ 0x02 → s.target.ir ≠ 0x03 →
        t.target.dsr = lowBits 32 s.params.idcodeValue ∧ t.target.bridge = s.target.bridge)
    ∧ (s.target.tap = .capDR → s.target.ir ≠ s.params.idcodeOpcode → s.target.ir ≠ 0x02 → s.target.ir ≠ 0x03 →
        t.target.dsr = [false] ∧ t.target.bridge = s.target.bridge)

/-- R138: the clock that enters an Update state. Update-IR loads `ir`; Update-DR with the identification or the BYPASS
register selected does nothing. -/
def Obligations.UpdateClocks : Prop :=
  ∀ (tdi : Bool) (s : State),
    (s.target.tap = .ex1IR ∨ s.target.tap = .ex2IR →
      (clock true tdi s).2 = s.setTarget { s.target with
        tap := .updIR, ir := s.target.irsr, clockCount := s.target.clockCount + 1 })
    ∧ (s.target.tap = .ex1DR ∨ s.target.tap = .ex2DR → s.target.ir ≠ 0x02 → s.target.ir ≠ 0x03 →
      (clock true tdi s).2 = s.setTarget { s.target with
        tap := .updDR, clockCount := s.target.clockCount + 1 })

/-- R242, R245, R62: the update of the command register. A write command sets the address, the size and the direction; a
read command starts one AHB read, to complete 1 to `AHB_READ_LATENCY_TCK` clocks later, and the lanes of a described
transfer inside `RAM_REGION` of a quiescent target carry what memory holds. (Model's choices: that a read, which R62 lets
have effects of its own outside `RAM_REGION`, leaves the modelled memory alone, log entry 7; `pastBlock`, 8; that `cmd` holds
the value, 24.) -/
def Obligations.CommandUpdate : Prop :=
  ∀ (tdi : Bool) (v : BitVec 35) (s t : State),
    (s.target.tap = .ex1DR ∨ s.target.tap = .ex2DR) → s.target.ir = 0x02 → s.target.dsr = lowBits 35 v →
    1 ≤ s.params.ahbReadLatency → (clock true tdi s).2 = t →
    t.mem = s.mem
    ∧ (v.getLsbD 34 = true → t.ahbLog = s.ahbLog ∧ t.target = { s.target with
        tap := .updDR
        clockCount := s.target.clockCount + 1
        cmd := v
        bridge := { curAddr := v.extractLsb' 0 32, curSize := v.extractLsb' 32 2, curW := true, pending := .none,
                    rdata := s.target.bridge.rdata, pastBlock := false } })
    ∧ (v.getLsbD 34 = false → t.ahbLog = s.ahbLog ++ [.read (v.extractLsb' 0 32) (v.extractLsb' 32 2)]
      ∧ ∃ k w, 1 ≤ k ∧ k ≤ s.params.ahbReadLatency
        ∧ (s.params.targetQuiescent = true → transferDescribed (v.extractLsb' 0 32) (v.extractLsb' 32 2) = true →
            (∀ x ∈ transferAddrs (v.extractLsb' 0 32) (v.extractLsb' 32 2), inRam s.params x = true) →
            ∀ x ∈ transferAddrs (v.extractLsb' 0 32) (v.extractLsb' 32 2), laneByte w x = s.byteAt x)
        ∧ t.target = { s.target with
            tap := .updDR
            clockCount := s.target.clockCount + 1
            cmd := v
            bridge := { curAddr := v.extractLsb' 0 32, curSize := v.extractLsb' 32 2, curW := false,
                        pending := .read (s.target.clockCount + 1 + k) w, rdata := s.target.bridge.rdata,
                        pastBlock := false } })

/-- R243, R246, R63: the update of the data register. A write stores the lanes of its transfer inside `RAM_REGION` and
nothing else, and SEQ moves the address on by 4; a read with SEQ moves on and starts the next read; a read without does
nothing. (That the modelled memory is left alone outside `RAM_REGION` is the model's choice: log entry 7; that `data` holds the
value is log entry 24.) -/
def Obligations.DataUpdate : Prop :=
  ∀ (tdi : Bool) (v : BitVec 33) (s t : State),
    (s.target.tap = .ex1DR ∨ s.target.tap = .ex2DR) → s.target.ir = 0x03 → s.target.dsr = lowBits 33 v →
    1 ≤ s.params.ahbReadLatency → (clock true tdi s).2 = t →
    t.target.data = v ∧ t.target.cmd = s.target.cmd ∧ t.target.dsr = s.target.dsr ∧ t.target.ir = s.target.ir
    ∧ t.target.irsr = s.target.irsr ∧ t.target.tap = .updDR ∧ t.target.bridge.rdata = s.target.bridge.rdata
    ∧ t.target.bridge.curSize = s.target.bridge.curSize ∧ t.target.bridge.curW = s.target.bridge.curW
    ∧ t.target.bridge.curAddr = (if v.getLsbD 32 then s.target.bridge.curAddr + 4 else s.target.bridge.curAddr)
    ∧ (s.target.bridge.curW = true →
        t.target.bridge.pending = s.target.bridge.pending
        ∧ t.ahbLog = s.ahbLog ++ [.write s.target.bridge.curAddr s.target.bridge.curSize (v.extractLsb' 0 32)]
        ∧ (Memory.wf s.mem = true → s.target.bridge.pastBlock = false →
            transferDescribed s.target.bridge.curAddr s.target.bridge.curSize = true →
            storesExactly s.params
              ((transferAddrs s.target.bridge.curAddr s.target.bridge.curSize).map fun x =>
                (x, laneByte (v.extractLsb' 0 32) x)) s.mem t.mem))
    ∧ (s.target.bridge.curW = false → t.mem = s.mem)
    ∧ (s.target.bridge.curW = false → v.getLsbD 32 = false →
        t.target.bridge = s.target.bridge ∧ t.ahbLog = s.ahbLog)
    ∧ (s.target.bridge.curW = false → v.getLsbD 32 = true →
        t.ahbLog = s.ahbLog ++ [.read (s.target.bridge.curAddr + 4) s.target.bridge.curSize]
        ∧ ∃ k w, 1 ≤ k ∧ k ≤ s.params.ahbReadLatency
          ∧ t.target.bridge.pending = .read (s.target.clockCount + 1 + k) w
          ∧ (s.params.targetQuiescent = true → s.target.bridge.pastBlock = false →
              (s.target.bridge.curAddr.toNat + 4) / 1024 = s.target.bridge.curAddr.toNat / 1024 →
              transferDescribed (s.target.bridge.curAddr + 4) s.target.bridge.curSize = true →
              (∀ x ∈ transferAddrs (s.target.bridge.curAddr + 4) s.target.bridge.curSize, inRam s.params x = true) →
              ∀ x ∈ transferAddrs (s.target.bridge.curAddr + 4) s.target.bridge.curSize,
                laneByte w x = s.byteAt x))

/-- R141: the scan law. From CapDR or CapIR, one clock with TMS low captures; then the bits `xs` are shifted, TMS high on
the last alone. -/
def Obligations.ScanLaw : Prop :=
  ∀ (y x : Bool) (xs : List Bool) (s : State),
    (s.target.tap = .capDR →
      let q := (clock false y s).2
      let c := q.target.dsr
      let p := (xs.map fun b => (false, b)) ++ [(true, x)]
      c.length = drLen (selectDr s.params.idcodeOpcode s.target.ir)
      ∧ (clocked p q).target.tap = .ex1DR
      ∧ tdoLevels p q = (c ++ xs ++ [x]).take (xs.length + 1)
      ∧ (c.length ≤ xs.length + 1 → (clocked p q).target.dsr = (xs ++ [x]).drop (xs.length + 1 - c.length))
      ∧ (clocked p q).mem = s.mem ∧ (clocked p q).ahbLog = s.ahbLog
      ∧ (clocked p q).target.bridge = q.target.bridge)
    ∧ (s.target.tap = .capIR →
      let q := (clock false y s).2
      let p := (xs.map fun b => (false, b)) ++ [(true, x)]
      (clocked p q).target.tap = .ex1IR
      ∧ tdoLevels p q = (lowBits 6 s.params.irCapture ++ xs ++ [x]).take (xs.length + 1)
      ∧ (6 ≤ xs.length + 1 →
          lowBits 6 (clocked p q).target.irsr = (xs ++ [x]).drop (xs.length + 1 - 6))
      ∧ (clocked p q).mem = s.mem ∧ (clocked p q).ahbLog = s.ahbLog
      ∧ (clocked p q).target.bridge = q.target.bridge)

/-- R142, R215, R216, R217, R218: what the commands of the engine's scans leave, executed in ShDR or ShIR with TMS low.
The command scan behind its blanking leaves the 35 command bits; the IR scan the opcode; the data write scan `{seq, d}`;
the data read scan returns captured bits 0 to 31, and the exit clock's TDI is bit 32. (That TCK is low after each clock, also
where it was high before, is log entry 21.) -/
def Obligations.EngineScansLeaveTheirValues : Prop :=
  ∀ s : State, s.mpsse.tmsPin = false →
    (∀ (a : Word) (sz : BitVec 2) (rw : Bool), s.target.tap = .shDR → s.target.dsr.length = 35 →
      execAll [.bytesOut [0x00, 0x00, 0x00, 0x00, 0x00, 0x00], .clkOnly 0x07, .bytesOut (wordBytes a), .bitsOut 0x01 (sz.setWidth 8),
          .tmsOut 0x00 (lastBitByte rw true)] s =
        .next { s with
          mpsse := s.mpsse.at true rw
          target := { s.target with
            tap := .ex1DR
            dsr := lowBits 35 (BitVec.ofBool rw ++ sz ++ a)
            clockCount := s.target.clockCount + 91 } })
    ∧ (∀ op : BitVec 6, s.target.tap = .shIR →
      execAll [.bitsOut 0x04 ((op &&& 0x1F).setWidth 8), .tmsOut 0x00 (lastBitByte (op.getLsbD 5) true)] s =
        .next { s with
          mpsse := s.mpsse.at true (op.getLsbD 5)
          target := { s.target with tap := .ex1IR, irsr := op, clockCount := s.target.clockCount + 6 } })
    ∧ (∀ (d : Word) (seq : Bool), s.target.tap = .shDR → s.target.dsr.length = 33 →
      execAll [.bytesOut (wordBytes d), .tmsOut 0x00 (lastBitByte seq true)] s =
        .next { s with
          mpsse := s.mpsse.at true seq
          target := { s.target with
            tap := .ex1DR
            dsr := lowBits 33 (BitVec.ofBool seq ++ d)
            clockCount := s.target.clockCount + 33 } })
    ∧ (∀ (done : Bool) (w : Word) (x : Bool), s.target.tap = .shDR → s.mpsse.loopback = false →
        s.target.dsr = lowBits 33 (BitVec.ofBool done ++ w) →
      execAll [.bytesInout [0x00, 0x00, 0x00, 0x00], .tmsOut 0x00 (lastBitByte x true)] s =
        .next { s with
          mpsse := { s.mpsse.at true x with rxFifo := s.mpsse.rxFifo ++ wordBytes w }
          target := { s.target with
            tap := .ex1DR
            dsr := List.replicate 32 false ++ [x]
            clockCount := s.target.clockCount + 33 } })

/-! ## The MPSSE commands -/

/-- R162, R164, R167, R169, R161: the commands that clock and read nothing. Each encodes as its format, runs its cycles and
leaves the pins at the last levels driven; a count outside its range is refused. (That TCK is low after each clock is
log entry 21; that such a command may be issued as a call is log entry 38.) -/
def Obligations.ClockOutCommands : Prop :=
  ∀ s : State,
    (∀ l b : Byte, encodeMpsse (.tmsOut l b) = [0x4B, l, b]
      ∧ (l.toNat ≤ 6 → exec (.tmsOut l b) s =
          .next ((clocked (tmsCycles l b) s).setMpsse (s.mpsse.at (b.getLsbD l.toNat) (b.getLsbD 7))))
      ∧ (7 ≤ l.toNat → exec (.tmsOut l b) s = .refused .countOutOfRange))
    ∧ (∀ l b : Byte, encodeMpsse (.bitsOut l b) = [0x1B, l, b]
      ∧ (l.toNat ≤ 7 → exec (.bitsOut l b) s =
          .next ((clocked (bitCycles s.mpsse.tmsPin l b) s).setMpsse (s.mpsse.at s.mpsse.tmsPin (b.getLsbD l.toNat))))
      ∧ (8 ≤ l.toNat → exec (.bitsOut l b) s = .refused .countOutOfRange))
    ∧ (∀ (data : List Byte) (d : Byte), data.length + 1 ≤ 65536 →
      encodeMpsse (.bytesOut (data ++ [d])) =
          [0x19, BitVec.ofNat 8 data.length, BitVec.ofNat 8 (data.length / 256)] ++ data ++ [d]
      ∧ exec (.bytesOut (data ++ [d])) s =
          .next ((clocked (byteCycles s.mpsse.tmsPin (data ++ [d])) s).setMpsse
            (s.mpsse.at s.mpsse.tmsPin (d.getLsbD 7))))
    ∧ (∀ data : List Byte, data = [] ∨ 65536 < data.length → exec (.bytesOut data) s = .refused .countOutOfRange)
    ∧ (∀ l : Byte, encodeMpsse (.clkOnly l) = [0x8E, l]
      ∧ (l.toNat ≤ 7 → exec (.clkOnly l) s =
          .next ((clocked (heldCycles s.mpsse.tmsPin s.mpsse.tdiPin l) s).setMpsse
            (s.mpsse.at s.mpsse.tmsPin s.mpsse.tdiPin)))
      ∧ (8 ≤ l.toNat → exec (.clkOnly l) s = .refused .countOutOfRange))

/-- R163, R165, R166, R168, R99, R226: the commands that clock and read. The response of a bit-mode read of k cycles holds the
samples in its top k bits, and the bits below are open; a byte-mode read returns one byte for every eight cycles; the
engine's parse of a bit-mode byte has the first sample in bit 0. A count
outside its range is refused (R100, R112). (Model's choices: the open bits, log entry 3; TCK low, 21; that
such a command may be issued as a call, 38.) -/
def Obligations.ReadingCommands : Prop :=
  ∀ s : State,
    (∀ l b : Byte, l.toNat ≤ 6 → ∃ r : Byte,
      (∀ i, i ≤ l.toNat → (recorded (tmsCycles l b) s)[i]? = some (r.getLsbD (7 - l.toNat + i)))
      ∧ exec (.tmsOutRead l b) s = .next ((clocked (tmsCycles l b) s).setMpsse
          { s.mpsse.at (b.getLsbD l.toNat) (b.getLsbD 7) with rxFifo := s.mpsse.rxFifo ++ [r] }))
    ∧ (∀ l b : Byte, l.toNat ≤ 7 → ∃ r : Byte,
      (∀ i, i ≤ l.toNat → (recorded (bitCycles s.mpsse.tmsPin l b) s)[i]? = some (r.getLsbD (7 - l.toNat + i)))
      ∧ exec (.bitsInout l b) s = .next ((clocked (bitCycles s.mpsse.tmsPin l b) s).setMpsse
          { s.mpsse.at s.mpsse.tmsPin (b.getLsbD l.toNat) with rxFifo := s.mpsse.rxFifo ++ [r] }))
    ∧ (∀ l : Byte, l.toNat ≤ 7 → ∃ r : Byte,
      (∀ i, i ≤ l.toNat →
        (recorded (heldCycles s.mpsse.tmsPin s.mpsse.tdiPin l) s)[i]? = some (r.getLsbD (7 - l.toNat + i)))
      ∧ exec (.bitsIn l) s = .next ((clocked (heldCycles s.mpsse.tmsPin s.mpsse.tdiPin l) s).setMpsse
          { s.mpsse.at s.mpsse.tmsPin s.mpsse.tdiPin with rxFifo := s.mpsse.rxFifo ++ [r] }))
    ∧ (∀ (data : List Byte) (d : Byte), data.length + 1 ≤ 65536 → ∃ rs : List Byte, rs.length = data.length + 1
      ∧ (∀ j i, j < rs.length → i < 8 →
          (recorded (byteCycles s.mpsse.tmsPin (data ++ [d])) s)[8 * j + i]? = some ((rs.getD j 0).getLsbD i))
      ∧ exec (.bytesInout (data ++ [d])) s = .next ((clocked (byteCycles s.mpsse.tmsPin (data ++ [d])) s).setMpsse
          { s.mpsse.at s.mpsse.tmsPin (d.getLsbD 7) with rxFifo := s.mpsse.rxFifo ++ rs }))
    ∧ (∀ l b : Byte, 7 ≤ l.toNat → exec (.tmsOutRead l b) s = .refused .countOutOfRange)
    ∧ (∀ l b : Byte, 8 ≤ l.toNat → exec (.bitsInout l b) s = .refused .countOutOfRange)
    ∧ (∀ l : Byte, 8 ≤ l.toNat → exec (.bitsIn l) s = .refused .countOutOfRange)
    ∧ (∀ data : List Byte, data = [] ∨ 65536 < data.length → exec (.bytesInout data) s = .refused .countOutOfRange)
    ∧ (∀ l r : Byte, l.toNat ≤ 7 → parseBits (l.toNat + 1) r < 2 ^ (l.toNat + 1)
      ∧ ∀ i, i ≤ l.toNat → (parseBits (l.toNat + 1) r).testBit i = r.getLsbD (7 - l.toNat + i))

/-- R170 to R175, R177, R178: the configuration commands. Each encodes as its format, writes its own fields, clocks nothing and
queues nothing; under loopback every sample is the TDI pin. -/
def Obligations.ConfigurationCommands : Prop :=
  ∀ s : State,
    encodeMpsse .loopbackOn = [0x84] ∧ encodeMpsse .loopbackOff = [0x85] ∧ encodeMpsse .div5Off = [0x8A]
    ∧ encodeMpsse .adaptiveOff = [0x97] ∧ encodeMpsse .threePhaseOff = [0x8D]
    ∧ (∀ v : BitVec 16, encodeMpsse (.setDivisor v) = [0x86, v.extractLsb' 0 8, v.extractLsb' 8 8])
    ∧ (∀ v d : Byte, encodeMpsse (.setLowByte v d) = [0x80, v, d] ∧ encodeMpsse (.setHighByte v d) = [0x82, v, d])
    ∧ exec .loopbackOn s = .next (s.setMpsse { s.mpsse with loopback := true })
    ∧ exec .loopbackOff s = .next (s.setMpsse { s.mpsse with loopback := false })
    ∧ exec .div5Off s = .next (s.setMpsse { s.mpsse with div5 := false })
    ∧ exec .adaptiveOff s = .next (s.setMpsse { s.mpsse with adaptive := false })
    ∧ exec .threePhaseOff s = .next (s.setMpsse { s.mpsse with threePhase := false })
    ∧ (∀ v : BitVec 16, exec (.setDivisor v) s = .next (s.setMpsse { s.mpsse with divisor := v }))
    ∧ (∀ v d : Byte, exec (.setLowByte v d) s = .next (s.setMpsse { s.mpsse with
        lowValue := v, lowDir := d, tckPin := v.getLsbD 0, tdiPin := v.getLsbD 1, tmsPin := v.getLsbD 3 }))
    ∧ (∀ v d : Byte, exec (.setHighByte v d) s = .next (s.setMpsse { s.mpsse with highValue := v, highDir := d }))
    ∧ (s.mpsse.loopback = true → ∀ tms tdi : Bool, (clockPin tms tdi s).1 = tdi)
    ∧ (s.mpsse.loopback = false → ∀ tms tdi : Bool, (clockPin tms tdi s).1 = (clock tms tdi s).1)

/-- R176: a byte that begins no command of the table is a command of one byte, answered with `FA op`; nothing else changes. -/
def Obligations.BadCommandAnswered : Prop :=
  ∀ (op : Byte) (rest : List Byte) (s : State),
    op ∉ [0x4B, 0x6B, 0x1B, 0x3B, 0x2A, 0x19, 0x39, 0x8E, 0x84, 0x85, 0x8A, 0x97, 0x8D, 0x86, 0x80, 0x82] →
      decodeMpsse (op :: rest) = .command (.badCommand op) rest
      ∧ exec (.badCommand op) s = .next (s.setMpsse { s.mpsse with rxFifo := s.mpsse.rxFifo ++ [0xFA, op] })

/-- R200, R160, R227: a command that runs appends to `rx_fifo` as many bytes as `Emit` counts for it, and leaves the engine,
the driver, the calls, the parameters and the bytes not yet executed. A bad command, which no `Emit` holds,
appends two; that one named with a byte of the table does so too is the model's choice (log entry 40). -/
def Obligations.ResponsesCounted : Prop :=
  ∀ (i : Instr) (s t : State), i.isMpsse = true → exec i s = .next t →
    (∃ rs : List Byte, t.mpsse.rxFifo = s.mpsse.rxFifo ++ rs
      ∧ ((∀ op, i ≠ .badCommand op) → rs.length = responses i) ∧ (∀ op, i = .badCommand op → rs.length = 2))
    ∧ t.engine = s.engine ∧ t.usb = s.usb ∧ t.calls = s.calls ∧ t.params = s.params ∧ t.mpsse.input = s.mpsse.input

/-! ## Decoding -/

/-- R98, R160: a command has the length its first byte decides, and does not decode while a byte of it is missing. -/
def Obligations.CommandLengths : Prop :=
  (∀ (l b : Byte) (v : BitVec 16), ∀ i ∈ ([.tmsOut l b, .tmsOutRead l b, .bitsOut l b, .bitsInout l b, .setDivisor v,
      .setLowByte l b, .setHighByte l b] : List Instr), (encodeMpsse i).length = 3)
  ∧ (∀ l : Byte, ∀ i ∈ ([.bitsIn l, .clkOnly l] : List Instr), (encodeMpsse i).length = 2)
  ∧ (∀ op : Byte, ∀ i ∈ ([.loopbackOn, .loopbackOff, .div5Off, .adaptiveOff, .threePhaseOff, .badCommand op] : List Instr),
      (encodeMpsse i).length = 1)
  ∧ (∀ d : List Byte, ∀ i ∈ ([.bytesOut d, .bytesInout d] : List Instr), (encodeMpsse i).length = 3 + d.length)
  ∧ ∀ i : Instr, i.isMpsse = true → i.wellFormed = true →
      commandLength (encodeMpsse i) = (encodeMpsse i).length
      ∧ ∀ k, k < (encodeMpsse i).length → decodeMpsse ((encodeMpsse i).take k) = .waiting

/-- R90 to R98: the MPSSE decoder gives every well-formed command back from its bytes, whatever follows them. -/
def Obligations.MpsseDecodeEncode : Prop :=
  ∀ (i : Instr) (rest : List Byte), i.isMpsse = true → i.wellFormed = true →
    decodeMpsse (encodeMpsse i ++ rest) = .command i rest

/-- R90 to R98, R110: what the MPSSE decoder gives is a well-formed command, and the bytes it took are that command's. -/
def Obligations.MpsseDecodeSound : Prop :=
  ∀ (bs rest : List Byte) (i : Instr), decodeMpsse bs = .command i rest →
    i.isMpsse = true ∧ i.wellFormed = true ∧ bs = encodeMpsse i ++ rest

/-- R28: the IR decoder and encoder agree, and each opcode selects the register of its length. -/
def Obligations.IrDecodeEncode : Prop :=
  ∀ idc : BitVec 6, idc ≠ 0x02 → idc ≠ 0x03 →
    (∀ w : BitVec 6, encodeIr idc (decodeIr idc w) = some w)
    ∧ (∀ (i : Instr) (w : BitVec 6), i.wellFormed = true → i ≠ .bypass idc → encodeIr idc i = some w → decodeIr idc w = i)
    ∧ (∀ w : BitVec 6, drLen (selectDr idc w) =
        if w = 0x02 then 35 else if w = 0x03 then 33 else if w = idc then 32 else 1)

/-- R106, R114: a primitive's own bytes spell it. Left out are the two whose bytes R114 gives to another row as well: a last
bit with TMS high, which spells `seq_exit`, and a read-write of four zero bytes, which spells `read_data`. (Which row
such bytes decode to, and that bytes decode to a primitive at all, is the model's choice: log entry 35.) -/
def Obligations.PrimitiveDecodeEncode : Prop :=
  (∀ i ∈ ([.resetToTlr, .tlrToShiftIr, .exit1ToShiftDr, .exit1drToShiftIr, .tlrToShiftDr, .readData, .readIdcode] : List Instr),
      decodePrimitive (encode i) = some i)
  ∧ (∀ (c : Nat) (b : Byte), 1 ≤ c → c ≤ 8 →
      decodePrimitive (encode (.shiftBitsOut c b)) = some (.shiftBitsOut c b)
      ∧ decodePrimitive (encode (.shiftBitsInout c b)) = some (.shiftBitsInout c b)
      ∧ decodePrimitive (encode (.shiftBitsIn c)) = some (.shiftBitsIn c)
      ∧ decodePrimitive (encode (.clockOnly c)) = some (.clockOnly c))
  ∧ (∀ d : List Byte, 1 ≤ d.length → d.length ≤ 65536 →
      decodePrimitive (encode (.shiftBytesOut d)) = some (.shiftBytesOut d)
      ∧ (d ≠ [0x00, 0x00, 0x00, 0x00] → decodePrimitive (encode (.shiftBytesInout d)) = some (.shiftBytesInout d)))
  ∧ (∀ x t : Bool,
      decodePrimitive (encode (.lastBitWithTms x false)) = some (.lastBitWithTms x false)
      ∧ decodePrimitive (encode (.lastBitWithTmsRead x t)) = some (.lastBitWithTmsRead x t)
      ∧ decodePrimitive (encode (.seqExit x)) = some (.seqExit x))
  ∧ (∀ op : Nat, op < 64 → decodePrimitive (encode (.shiftIr op)) = some (.shiftIr op))
  ∧ (∀ (a : Word) (sz : BitVec 2) (rw : Bool), sz ≠ 0b11 →
      decodePrimitive (encode (.loadCmd a sz rw)) = some (.loadCmd a sz rw))
  ∧ (∀ (d : Word) (seq : Bool), decodePrimitive (encode (.writeData d seq)) = some (.writeData d seq))

/-- R250 to R252, R254 to R256: the stream of a single transfer spells it. (That a stream decodes to an operation, and to
`read32` where a burst read of one word has the same bytes, is the model's choice: log entry 35.) -/
def Obligations.SingleDecodeEncode : Prop :=
  (∀ a : Word, a.toNat % 4 = 0 → decodeOperation (encode (.read32 a)) = some (.read32 a))
  ∧ (∀ a : Word, a.toNat % 2 = 0 → decodeOperation (encode (.read16 a)) = some (.read16 a))
  ∧ (∀ a : Word, decodeOperation (encode (.read8 a)) = some (.read8 a))
  ∧ (∀ (a : Word) (v : Nat), a.toNat % 4 = 0 → v < 2 ^ 32 → decodeOperation (encode (.write32 a v)) = some (.write32 a v))
  ∧ (∀ (a : Word) (v : Nat), a.toNat % 2 = 0 → v < 2 ^ 16 → decodeOperation (encode (.write16 a v)) = some (.write16 a v))
  ∧ (∀ (a : Word) (v : Nat), v < 2 ^ 8 → decodeOperation (encode (.write8 a v)) = some (.write8 a v))

/-- A few words of the spec's own: S1 to S3, V42-8, V42-12, V42-15 of 95_test_vectors.md, and the two opcodes of R28.
(That a byte string decodes to a primitive at all is the model's choice: log entry 35.) -/
def Obligations.SpecWordsDecode : Prop :=
  decodeMpsse [0x4B, 0x04, 0x3F] = .command (.tmsOut 0x04 0x3F) []
  ∧ decodeMpsse [0x86, 0x04, 0x00] = .command (.setDivisor 0x0004) []
  ∧ decodeMpsse [0xAB] = .command (.badCommand 0xAB) []
  ∧ decodeIr 0x01 0x02 = .codeAddrComm
  ∧ decodeIr 0x01 0x03 = .codeData
  ∧ decodePrimitive [0x1B, 0x04, 0x02, 0x4B, 0x00, 0x01] = some (.shiftIr 0x02)
  ∧ decodePrimitive [0x19, 0x03, 0x00, 0x00, 0x00, 0x00, 0x40, 0x1B, 0x01, 0x02, 0x4B, 0x00, 0x01] =
      some (.loadCmd 0x40000000 0b10 false)
  ∧ decodePrimitive [0x19, 0x03, 0x00, 0xEF, 0xBE, 0xAD, 0xDE, 0x4B, 0x00, 0x01] = some (.writeData 0xDEADBEEF false)

/-- R28, R138: the clock that enters Update-IR with the opcode in the IR shift register makes it the current instruction, and
the register it selects has the stated length. (What running the table's IR rows means is log entry 12.) -/
def Obligations.IrInstructionsSelect : Prop :=
  ∀ s : State, s.params.legal = true →
    let after : BitVec 6 → State := fun op => s.setTarget { s.target with
      tap := .updIR, irsr := op, ir := op, clockCount := s.target.clockCount + 1 }
    (exec .codeAddrComm s = .next (after 0x02) ∧ drLen (after 0x02).sel = 35)
    ∧ (exec .codeData s = .next (after 0x03) ∧ drLen (after 0x03).sel = 33)
    ∧ (exec .idcode s = .next (after s.params.idcodeOpcode) ∧ drLen (after s.params.idcodeOpcode).sel = 32)
    ∧ (∀ op : BitVec 6, exec (.bypass op) s = .next (after op)
      ∧ (op ≠ 0x02 → op ≠ 0x03 → op ≠ s.params.idcodeOpcode → drLen (after op).sel = 1))

/-! ## Steps -/

/-- R160, R98, R335: while a whole command stands at the front of the MPSSE engine's input, a step executes it, its bytes taken off
the input. A command whose length byte has no described effect is as long as its first byte says and is not refused: it clocks
the target with some levels, leaves the pins at the last of them and queues some bytes. (That a step is one command is log entry
18; that the effect is these free values is log entry 25.) -/
def Obligations.StepRunsTheDecodedCommand : Prop :=
  ∀ s : State,
    (∀ (i : Instr) (rest : List Byte), decodeMpsse s.mpsse.input = .command i rest →
      step s = exec i (s.setMpsse { s.mpsse with input := rest }))
    ∧ (∀ e rest, decodeMpsse s.mpsse.input = .rejected e rest →
      rest = s.mpsse.input.drop (commandLength s.mpsse.input)
      ∧ ∃ (levels : List (Bool × Bool)) (rs : List Byte), step s = .next ((clocked levels s).setMpsse
        { (match levels.getLast? with | some x => s.mpsse.at x.1 x.2 | none => s.mpsse) with
          input := rest
          rxFifo := s.mpsse.rxFifo ++ rs
          undescribed := s.mpsse.undescribed + 1 }))

/-- R75, R160: with no whole command waiting, a step issues the caller's next call, taken off the list; with none left nothing
changes. (That the calls stand in a list of State is log entry 18; that a call may be an
MPSSE command or an IR opcode, run ahead of a partial command that waits, is log entry 38.) -/
def Obligations.StepIssuesTheNextCall : Prop :=
  ∀ s : State, decodeMpsse s.mpsse.input = .waiting →
    (∀ (i : Instr) (rest : List Call), s.calls = .instr i :: rest → step s = exec i (s.setCalls rest))
    ∧ (∀ (c : Call) (rest : List Call), s.calls = c :: rest → step s = runCall c (s.setCalls rest))
    ∧ (s.calls = [] → step s = .next s)

/-- R228, R160, R335: how the delivered bytes are cut makes no difference. The whole commands of a first part, the bytes of
the last one waiting, and then all that follows, come to what one delivery of both comes to. -/
def Obligations.FlushDivisionInvisible : Prop :=
  ∀ (p q : List Byte) (s t : State), drain (setInput p s) = .ok t →
    drain (setInput (t.mpsse.input ++ q) t) = drain (setInput (p ++ q) s)

/-! ## The TAP primitives -/

/-- R106, R201 to R205: the five walks, each with its bytes, its TMS order with TDI low, the beliefs it is emitted from, and
the belief it leaves. From any other belief it is refused. -/
def Obligations.WalkPrimitives : Prop :=
  ∀ s : State, s.engine.session ≠ none →
    (exec .resetToTlr s = .next (emitted s [0x4B, 0x04, 0x3F] 0 (.at .tlr)))
    ∧ (s.engine.tapBelief = .at .tlr →
        exec .tlrToShiftIr s = .next (emitted s [0x4B, 0x05, 0x0D] 0 (.at .shIR))
        ∧ exec .tlrToShiftDr s = .next (emitted s [0x4B, 0x03, 0x02] 0 (.at .shDR)))
    ∧ (s.engine.tapBelief = .at .ex1IR ∨ s.engine.tapBelief = .at .ex1DR →
        exec .exit1ToShiftDr s = .next (emitted s [0x4B, 0x03, 0x03] 0 (.at .shDR)))
    ∧ (s.engine.tapBelief = .at .ex1DR →
        exec .exit1drToShiftIr s = .next (emitted s [0x4B, 0x04, 0x07] 0 (.at .shIR)))
    ∧ tmsCycles 0x04 0x3F = [1, 1, 1, 1, 1].map (fun b : Nat => (b == 1, false))
    ∧ tmsCycles 0x05 0x0D = [1, 0, 1, 1, 0, 0].map (fun b : Nat => (b == 1, false))
    ∧ tmsCycles 0x03 0x03 = [1, 1, 0, 0].map (fun b : Nat => (b == 1, false))
    ∧ tmsCycles 0x04 0x07 = [1, 1, 1, 0, 0].map (fun b : Nat => (b == 1, false))
    ∧ tmsCycles 0x03 0x02 = [0, 1, 0, 0].map (fun b : Nat => (b == 1, false))
    ∧ (s.engine.tapBelief ≠ .at .tlr →
        exec .tlrToShiftIr s = .refused .walkPrecondition ∧ exec .tlrToShiftDr s = .refused .walkPrecondition)
    ∧ (s.engine.tapBelief ≠ .at .ex1IR → s.engine.tapBelief ≠ .at .ex1DR →
        exec .exit1ToShiftDr s = .refused .walkPrecondition)
    ∧ (s.engine.tapBelief ≠ .at .ex1DR → exec .exit1drToShiftIr s = .refused .walkPrecondition)

/-- R206 to R210, R213: the shifts and the clock count, each with its bytes; `tap_belief` stays. A count outside its range is
refused. -/
def Obligations.ShiftPrimitives : Prop :=
  ∀ s : State, s.engine.session ≠ none →
    (∀ (c : Nat) (b : Byte), 1 ≤ c → c ≤ 8 →
      exec (.shiftBitsOut c b) s = .next (emitted s [0x1B, BitVec.ofNat 8 (c - 1), b] 0 s.engine.tapBelief)
      ∧ exec (.shiftBitsInout c b) s = .next (emitted s [0x3B, BitVec.ofNat 8 (c - 1), b] 1 s.engine.tapBelief)
      ∧ exec (.shiftBitsIn c) s = .next (emitted s [0x2A, BitVec.ofNat 8 (c - 1)] 1 s.engine.tapBelief)
      ∧ exec (.clockOnly c) s = .next (emitted s [0x8E, BitVec.ofNat 8 (c - 1)] 0 s.engine.tapBelief))
    ∧ (∀ (c : Nat) (b : Byte), c = 0 ∨ 8 < c →
      exec (.shiftBitsOut c b) s = .refused .countOutOfRange
      ∧ exec (.shiftBitsInout c b) s = .refused .countOutOfRange
      ∧ exec (.shiftBitsIn c) s = .refused .countOutOfRange
      ∧ exec (.clockOnly c) s = .refused .countOutOfRange)
    ∧ (∀ d : List Byte, 1 ≤ d.length → d.length ≤ 65536 →
      exec (.shiftBytesOut d) s = .next (emitted s ([0x19, BitVec.ofNat 8 ((d.length - 1) % 256),
        BitVec.ofNat 8 ((d.length - 1) / 256)] ++ d) 0 s.engine.tapBelief)
      ∧ exec (.shiftBytesInout d) s = .next (emitted s ([0x39, BitVec.ofNat 8 ((d.length - 1) % 256),
        BitVec.ofNat 8 ((d.length - 1) / 256)] ++ d) d.length s.engine.tapBelief))
    ∧ (∀ d : List Byte, d = [] ∨ 65536 < d.length →
      exec (.shiftBytesOut d) s = .refused .countOutOfRange ∧ exec (.shiftBytesInout d) s = .refused .countOutOfRange)

/-- R211, R212: the last bits, for both TMS levels. With TMS high the belief goes from ShIR to Ex1IR or from ShDR to Ex1DR;
from another belief the rule gives none, and the model's is a free value (log entry 9). With TMS low it stays. -/
def Obligations.LastBitPrimitives : Prop :=
  ∀ (x : Bool) (s : State), s.engine.session ≠ none →
    (∃ b : Belief,
      exec (.lastBitWithTms x true) s = .next (emitted s [0x4B, 0x00, if x then 0x81 else 0x01] 0 b)
      ∧ exec (.lastBitWithTmsRead x true) s = .next (emitted s [0x6B, 0x00, if x then 0x81 else 0x01] 1 b)
      ∧ (s.engine.tapBelief = .at .shIR → b = .at .ex1IR) ∧ (s.engine.tapBelief = .at .shDR → b = .at .ex1DR))
    ∧ exec (.lastBitWithTms x false) s = .next (emitted s [0x4B, 0x00, if x then 0x80 else 0x00] 0 s.engine.tapBelief)
    ∧ exec (.lastBitWithTmsRead x false) s = .next (emitted s [0x6B, 0x00, if x then 0x80 else 0x00] 1 s.engine.tapBelief)

/-- R214 to R218: the composite scans, each with its bytes, from its Shift state to its Exit1 state (`read_data` stays in
ShDR); refused from any other belief. -/
def Obligations.ScanPrimitives : Prop :=
  ∀ s : State, s.engine.session ≠ none →
    (∀ op : Nat, op < 64 → s.engine.tapBelief = .at .shIR →
      exec (.shiftIr op) s = .next (emitted s [0x1B, 0x04, BitVec.ofNat 8 (op % 32), 0x4B, 0x00,
        if 32 ≤ op then 0x81 else 0x01] 0 (.at .ex1IR)))
    ∧ (s.engine.tapBelief = .at .shDR →
      (∀ (a : Word) (sz : BitVec 2) (rw : Bool), sz ≠ 0b11 →
        exec (.loadCmd a sz rw) s = .next (emitted s ([0x19, 0x03, 0x00, a.extractLsb' 0 8, a.extractLsb' 8 8,
          a.extractLsb' 16 8, a.extractLsb' 24 8, 0x1B, 0x01, sz.setWidth 8, 0x4B, 0x00, if rw then 0x81 else 0x01])
          0 (.at .ex1DR)))
      ∧ (∀ (d : Word) (seq : Bool),
        exec (.writeData d seq) s = .next (emitted s ([0x19, 0x03, 0x00, d.extractLsb' 0 8, d.extractLsb' 8 8,
          d.extractLsb' 16 8, d.extractLsb' 24 8, 0x4B, 0x00, if seq then 0x81 else 0x01]) 0 (.at .ex1DR)))
      ∧ exec .readData s = .next (emitted s [0x39, 0x03, 0x00, 0x00, 0x00, 0x00, 0x00] 4 (.at .shDR))
      ∧ (∀ x : Bool, exec (.seqExit x) s =
          .next (emitted s [0x4B, 0x00, if x then 0x81 else 0x01] 0 (.at .ex1DR))))
    ∧ (∀ op : Nat, op < 64 → s.engine.tapBelief ≠ .at .shIR → exec (.shiftIr op) s = .refused .walkPrecondition)
    ∧ (s.engine.tapBelief ≠ .at .shDR →
      (∀ (a : Word) (sz : BitVec 2) (rw : Bool), sz ≠ 0b11 → exec (.loadCmd a sz rw) s = .refused .walkPrecondition)
      ∧ (∀ (d : Word) (seq : Bool), exec (.writeData d seq) s = .refused .walkPrecondition)
      ∧ exec .readData s = .refused .walkPrecondition
      ∧ (∀ x : Bool, exec (.seqExit x) s = .refused .walkPrecondition))

/-! ## Refusals -/

/-- R327, R333: with no session open every primitive and every bridge operation is refused with `NoSession`, whatever its
operands; the MPSSE commands and the IR opcodes, which the engine does not issue, are not. (That the MPSSE and IR rows
need no session is log entry 27.) -/
def Obligations.NoSessionRefused : Prop :=
  ∀ (i : Instr) (s : State), s.engine.session = none →
    (i.isMpsse = false → i.isJtagIr = false → exec i s = .refused .noSession)
    ∧ (i.isMpsse = true ∨ i.isJtagIr = true → exec i s ≠ .refused .noSession)

/-- R327: with a session, the first refusal in the rule's order is the one reported: a wrong buffer length before a misaligned
address, a misaligned address before a value out of width, and an operand's own refusal before `WalkPrecondition`.
(The order is R327's where a rule's own pseudocode has another: log entry 20.) -/
def Obligations.RefusalPriority : Prop :=
  ∀ s : State, s.engine.session ≠ none →
    (∀ (a : Word) (buf : List Word) (n : Nat) (p : Bool), buf.length ≠ n →
      exec (.writeMany a buf n p) s = .refused .lengthMismatch)
    ∧ (∀ a : Word, a.toNat % 4 ≠ 0 → exec (.read32 a) s = .refused .unaligned
      ∧ (∀ v, exec (.write32 a v) s = .refused .unaligned)
      ∧ (∀ ws, exec (.burstWrite a ws) s = .refused .unaligned)
      ∧ (∀ n, exec (.burstRead a n) s = .refused .unaligned)
      ∧ (∀ n p, n ≠ 0 → exec (.readMany a n p) s = .refused .unaligned)
      ∧ (∀ buf p, buf ≠ [] → exec (.writeMany a buf buf.length p) s = .refused .unaligned))
    ∧ (∀ a : Word, a.toNat % 2 ≠ 0 → exec (.read16 a) s = .refused .unaligned
      ∧ (∀ v, exec (.write16 a v) s = .refused .unaligned))
    ∧ (∀ (a : Word) (v : Nat), a.toNat % 4 = 0 → 2 ^ 32 ≤ v → exec (.write32 a v) s = .refused .valueOutOfWidth)
    ∧ (∀ (a : Word) (v : Nat), a.toNat % 2 = 0 → 2 ^ 16 ≤ v → exec (.write16 a v) s = .refused .valueOutOfWidth)
    ∧ (∀ (a : Word) (v : Nat), 2 ^ 8 ≤ v → exec (.write8 a v) s = .refused .valueOutOfWidth)
    ∧ (∀ op : Nat, 64 ≤ op → exec (.shiftIr op) s = .refused .valueOutOfWidth)
    ∧ (∀ (a : Word) (rw : Bool), exec (.loadCmd a 0b11 rw) s = .refused .reservedSize)

/-- R280: a raw burst of an open session at a word-aligned base is refused for its length first, and then for crossing a 1 KiB
boundary. (A misaligned base comes before both: `RefusalPriority`.) -/
def Obligations.BurstRefusals : Prop :=
  ∀ (b : Word) (ws : List Word) (n : Nat) (s : State), s.engine.session ≠ none → b.toNat % 4 = 0 →
    (ws.length = 0 ∨ 256 < ws.length → exec (.burstWrite b ws) s = .refused .burstLength)
    ∧ (n = 0 ∨ 256 < n → exec (.burstRead b n) s = .refused .burstLength)
    ∧ (1 ≤ ws.length → ws.length ≤ 256 → b.toNat / 1024 ≠ (b.toNat + 4 * ws.length - 1) / 1024 →
        exec (.burstWrite b ws) s = .refused .burstCrossesBoundary)
    ∧ (1 ≤ n → n ≤ 256 → b.toNat / 1024 ≠ (b.toNat + 4 * n - 1) / 1024 →
        exec (.burstRead b n) s = .refused .burstCrossesBoundary)

/-- R290: a chunked transfer at a word-aligned address is refused where its first chunk, the longest, would cross a 1 KiB
boundary: with r the offset of the address in its block, when r plus the chunk's bytes exceed 1024. -/
def Obligations.ChunkRefusals : Prop :=
  ∀ (addr : Word) (buf : List Word) (p : Bool) (s : State), s.engine.session ≠ none → addr.toNat % 4 = 0 → buf ≠ [] →
    1024 < addr.toNat % 1024 + 4 * min 256 buf.length →
      exec (.writeMany addr buf buf.length p) s = .refused .burstCrossesBoundary
      ∧ exec (.readMany addr buf.length p) s = .refused .burstCrossesBoundary

/-! ## The operations over a healthy transport

In these statements q is the target side behind the operation's leading `reset_to_tlr`, from whatever TAP state the operation
finds (`leadingReset`); where no DR scan is under way it is the target as it was, but in TLR (`LeadingResetIsQuiet`). -/

/-- R201, R133, R135: the leading reset brings the target to TLR with `ir = IDCODE_OPCODE` from every state, in five clocks. From
a state that passes no Update-DR it changes the TAP and the instruction registers alone; from the others it may do one
update, and so start at most one AHB transfer. -/
def Obligations.LeadingResetIsQuiet : Prop :=
  ∀ s : State,
    (leadingReset s).target.tap = .tlr ∧ (leadingReset s).target.ir = s.params.idcodeOpcode
    ∧ (leadingReset s).target.clockCount = s.target.clockCount + 5
    ∧ (Memory.wf s.mem = true → Memory.wf (leadingReset s).mem = true)
    ∧ ((leadingReset s).ahbLog = s.ahbLog ∨ ∃ x, (leadingReset s).ahbLog = s.ahbLog ++ [x])
    ∧ (scanFree s = true → ∃ r : BitVec 6, leadingReset s = s.setTarget { s.target with
        tap := .tlr, ir := s.params.idcodeOpcode, irsr := r, clockCount := s.target.clockCount + 5 })

/-- R249 to R252, R258, R244, R245, R259: the three reads over a healthy transport, for every address they take and every
read latency. One AHB read of the width starts on clock 113; it completes k clocks later. If k is at most 14 the operation
returns the word it read, else an open word, and the read stays pending. The whole next state is given: 164 clocks, two
writes, one poll and one read of the driver, no byte of memory changed. (Model's choices in it: log entries 5, 6, 7,
8, 17, 21, 23, 24.) -/
def Obligations.SingleReads : Prop :=
  ∀ (i : Instr) (a : Word) (sz : BitVec 2) (r : Word → Returned) (s : State), healthy s → 1 ≤ s.params.ahbReadLatency →
    ((i = .read32 a ∧ sz = 0b10 ∧ a.toNat % 4 = 0 ∧ r = fun w => .word w)
      ∨ (i = .read16 a ∧ sz = 0b01 ∧ a.toNat % 2 = 0 ∧
          r = fun w => .half (if a.toNat % 4 = 0 then w.extractLsb' 16 16 else w.extractLsb' 0 16))
      ∨ (i = .read8 a ∧ sz = 0b00 ∧ r = fun w => .byte (w.extractLsb' (8 * (3 - a.toNat % 4)) 8))) →
    let q := leadingReset s
    ∃ (k : Nat) (w v : Word), 1 ≤ k ∧ k ≤ s.params.ahbReadLatency ∧ (k ≤ 14 → v = w)
      ∧ (s.params.targetQuiescent = true → (∀ x ∈ transferAddrs a sz, inRam s.params x = true) →
          ∀ x ∈ transferAddrs a sz, laneByte w x = q.byteAt x)
      ∧ exec i s = .next (atRest s (s.engine.returnedFrom i [v] [] (r v))
          { tap := .tlr
            ir := s.params.idcodeOpcode
            irsr := 0x03
            cmd := BitVec.ofBool false ++ sz ++ a
            data := 0
            dsr := List.replicate 33 false
            bridge := { curAddr := a, curSize := sz, curW := false
                        pending := if k ≤ 14 then .none else .read (s.target.clockCount + 113 + k) w
                        rdata := if k ≤ 14 then w else q.target.bridge.rdata
                        pastBlock := false }
            clockCount := s.target.clockCount + 164 }
          q.mem (q.ahbLog ++ [.read a sz]) 4)

/-- R250 to R252, R61, R62, R65: in `RAM_REGION` of a quiescent target, with a read latency of at most 14 clocks, the reads
return the bytes memory holds, the byte at the address in the high lane. (Model's choice: log entry 17.) -/
def Obligations.SingleReadValues : Prop :=
  ∀ (a : Word) (s : State), healthy s → 1 ≤ s.params.ahbReadLatency → s.params.ahbReadLatency ≤ 14 →
    s.params.targetQuiescent = true →
    let q := leadingReset s
    (a.toNat % 4 = 0 → wordsInRam s.params a 1 →
      ∃ t, exec (.read32 a) s = .next t ∧ t.engine.returned = .word (q.wordAt a))
    ∧ (a.toNat % 2 = 0 → inRam s.params a = true → inRam s.params (a + 1) = true →
      ∃ t, exec (.read16 a) s = .next t ∧ t.engine.returned = .half (q.byteAt a ++ q.byteAt (a + 1)))
    ∧ (inRam s.params a = true → ∃ t, exec (.read8 a) s = .next t ∧ t.engine.returned = .byte (q.byteAt a))

/-- R253 to R256, R63, R61, R259: the three writes over a healthy transport. One AHB write of the width, other lanes zero, on
the first clock of the final reset; inside `RAM_REGION` its bytes are stored and no other byte changes. The whole next state
is given: 165 clocks, one write of the driver. (Model's choices in it: log entries 7, 8, 17, 21, 23, 24.) -/
def Obligations.SingleWrites : Prop :=
  ∀ (i : Instr) (a : Word) (v : Nat) (sz : BitVec 2) (d : Word) (stores : List (Word × Byte)) (s : State), healthy s →
    ((i = .write32 a v ∧ sz = 0b10 ∧ a.toNat % 4 = 0 ∧ v < 2 ^ 32 ∧ d = BitVec.ofNat 32 v ∧ stores = wordStores a d)
      ∨ (i = .write16 a v ∧ sz = 0b01 ∧ a.toNat % 2 = 0 ∧ v < 2 ^ 16
          ∧ d = BitVec.ofNat 32 (if a.toNat % 4 = 0 then v * 2 ^ 16 else v)
          ∧ stores = [(a, BitVec.ofNat 8 (v / 256)), (a + 1, BitVec.ofNat 8 (v % 256))])
      ∨ (i = .write8 a v ∧ sz = 0b00 ∧ v < 2 ^ 8 ∧ d = BitVec.ofNat 32 (v * 2 ^ (8 * (3 - a.toNat % 4)))
          ∧ stores = [(a, BitVec.ofNat 8 v)])) →
    let q := leadingReset s
    ∃ m : List Host.Cell, (Memory.wf s.mem = true → storesExactly s.params stores q.mem m)
      ∧ exec i s = .next (atRest s (s.engine.returnedFrom i [] [] .done)
          { tap := .tlr
            ir := s.params.idcodeOpcode
            irsr := 0x03
            cmd := BitVec.ofBool true ++ sz ++ a
            data := BitVec.ofBool false ++ d
            dsr := lowBits 33 (BitVec.ofBool false ++ d)
            bridge := { curAddr := a, curSize := sz, curW := true, pending := .none
                        rdata := q.target.bridge.rdata, pastBlock := false }
            clockCount := s.target.clockCount + 165 }
          m (q.ahbLog ++ [.write a sz d]) 1)

/-- R219, R34, R257: `read_idcode` over a healthy transport returns `IDCODE_VALUE`, in 46 clocks, and starts no bus transfer.
(Model's choices in it: log entries 17, 21, 23.) -/
def Obligations.ReadIdcodeReturnsTheIdcode : Prop :=
  ∀ s : State, healthy s → s.params.idcodeOpcode ≠ 0x02 → s.params.idcodeOpcode ≠ 0x03 →
    let q := leadingReset s
    exec .readIdcode s = .next (atRest s
      (s.engine.returnedFrom .readIdcode [s.params.idcodeValue] [] (.word s.params.idcodeValue))
      { q.target with dsr := List.replicate 32 false, clockCount := s.target.clockCount + 46 } q.mem q.ahbLog 4)

/-- R281, R282, R294: a burst write over a healthy transport. N word writes in address order, each stored inside
`RAM_REGION`; SEQ is 1 on every word, so the address ends one word past the burst. The whole next state is given: 128 + 37N
clocks, N writes of the driver. (Model's choices in it: log entries 7, 8, 17, 21, 23, 24.) -/
def Obligations.BurstWrite : Prop :=
  ∀ (b : Word) (ws : List Word) (w : Word) (s : State), healthy s → b.toNat % 4 = 0 → ws.length + 1 ≤ 256 →
    b.toNat % 1024 + 4 * (ws.length + 1) ≤ 1024 →
    let q := leadingReset s
    let i : Instr := .burstWrite b (ws ++ [w])
    ∃ m : List Host.Cell, (Memory.wf s.mem = true → storesExactly s.params (wordsStores b (ws ++ [w])) q.mem m)
      ∧ exec i s = .next (atRest s (s.engine.returnedFrom i [] [] .done)
          { tap := .tlr
            ir := s.params.idcodeOpcode
            irsr := 0x03
            cmd := BitVec.ofBool true ++ (0b10 : BitVec 2) ++ b
            data := BitVec.ofBool true ++ w
            dsr := lowBits 33 (BitVec.ofBool true ++ w)
            bridge := { curAddr := b + BitVec.ofNat 32 (4 * (ws.length + 1)), curSize := 0b10, curW := true, pending := .none
                        rdata := q.target.bridge.rdata
                        pastBlock := decide (b.toNat % 1024 + 4 * (ws.length + 1) = 1024) }
            clockCount := s.target.clockCount + (128 + 37 * (ws.length + 1)) }
          m (q.ahbLog ++ wordWrites b (ws ++ [w])) (ws.length + 1))

/-- R283 to R286, R294: a burst read over a healthy transport, for every read latency: exactly N AHB reads, in address order,
N words returned, the address left at the last word, no byte of memory changed; 127 + 37N clocks. With a latency of at most 3
every word is what memory holds (in `RAM_REGION` of a quiescent target) and no read stays pending; with a latency of at most
14 the first word is. (Model's choices in it: log entries 5, 6, 7, 8, 17, 21, 23, 24.) -/
def Obligations.BurstRead : Prop :=
  ∀ (b : Word) (n : Nat) (s : State), healthy s → 1 ≤ s.params.ahbReadLatency → b.toNat % 4 = 0 → 1 ≤ n → n ≤ 256 →
    b.toNat % 1024 + 4 * n ≤ 1024 →
    let q := leadingReset s
    let i : Instr := .burstRead b n
    ∃ (out : List Word) (p : Pending) (rd : Word), out.length = n
      ∧ (s.params.ahbReadLatency ≤ 3 → p = .none ∧ out.getLast? = some rd)
      ∧ (s.params.ahbReadLatency ≤ 3 → s.params.targetQuiescent = true → wordsInRam s.params b n →
          ∀ j, j < n → out[j]? = some (q.wordAt (b + BitVec.ofNat 32 (4 * j))))
      ∧ (s.params.ahbReadLatency ≤ 14 → s.params.targetQuiescent = true → wordsInRam s.params b 1 →
          out.head? = some (q.wordAt b))
      ∧ exec i s = .next (atRest s (s.engine.returnedFrom i out [] (.words out))
          { tap := .tlr
            ir := s.params.idcodeOpcode
            irsr := 0x03
            cmd := BitVec.ofBool false ++ (0b10 : BitVec 2) ++ b
            data := 0
            dsr := List.replicate 33 false
            bridge := { curAddr := b + BitVec.ofNat 32 (4 * (n - 1)), curSize := 0b10, curW := false, pending := p
                        rdata := rd, pastBlock := false }
            clockCount := s.target.clockCount + (127 + 37 * n) }
          q.mem (q.ahbLog ++ wordReads b n) (3 * n + 1))

/-- R290, R291, R293: `write_many` over a healthy transport, n words in ⌈n/256⌉ bursts: the n words are written in address order
from the first, and the progress calls come after each chunk. With no word it emits nothing and leaves the target alone.
(Model's choices in it: log entries 7, 8, 17, 19, 21, 23, 24, 34.) -/
def Obligations.WriteMany : Prop :=
  ∀ (addr : Word) (progress : Bool) (s : State),
    (s.engine.session ≠ none → exec (.writeMany addr [] 0 progress) s = .next (s.setEngine
      { s.engine with outbuf := [], expectRx := 0, pos := 0, out := [], progress := [], returned := .done }))
    ∧ ∀ (ws : List Word) (w : Word) (n : Nat), healthy s → addr.toNat % 4 = 0 → n = ws.length + 1 →
      addr.toNat % 1024 + 4 * min 256 n ≤ 1024 →
      let q := leadingReset s
      let i : Instr := .writeMany addr (ws ++ [w]) n progress
      let k := (n + 255) / 256
      let last := n - 256 * (k - 1)
      ∃ m : List Host.Cell, (Memory.wf s.mem = true → storesExactly s.params (wordsStores addr (ws ++ [w])) q.mem m)
        ∧ exec i s = .next (atRest s
          (s.engine.returnedFrom i []
            (if progress then (List.range k).map fun j => (min n (256 * (j + 1)), n) else []) .done)
          { tap := .tlr
            ir := s.params.idcodeOpcode
            irsr := 0x03
            cmd := BitVec.ofBool true ++ (0b10 : BitVec 2) ++ (addr + BitVec.ofNat 32 (1024 * (k - 1)))
            data := BitVec.ofBool true ++ w
            dsr := lowBits 33 (BitVec.ofBool true ++ w)
            bridge := { curAddr := addr + BitVec.ofNat 32 (4 * n), curSize := 0b10, curW := true, pending := .none
                        rdata := q.target.bridge.rdata
                        pastBlock := decide (addr.toNat % 1024 + 4 * last = 1024) }
            clockCount := s.target.clockCount + (128 * k + 37 * n) }
          m (q.ahbLog ++ wordWrites addr (ws ++ [w])) n)

/-- R290, R292, R293: `read_many` over a healthy transport, for every read latency: exactly n AHB reads, in address order, n words
returned. With no word it emits nothing and returns no word. With a latency of at most 3 every word is what memory holds (in
`RAM_REGION` of a quiescent target). (Model's choices in it: log entries 5, 6, 7, 8, 17, 19, 21, 23, 24, 34.) -/
def Obligations.ReadMany : Prop :=
  ∀ (addr : Word) (progress : Bool) (s : State),
    (s.engine.session ≠ none → exec (.readMany addr 0 progress) s = .next (s.setEngine
      { s.engine with outbuf := [], expectRx := 0, pos := 0, out := [], progress := [], returned := .words [] }))
    ∧ ∀ n : Nat, healthy s → 1 ≤ s.params.ahbReadLatency → addr.toNat % 4 = 0 → 1 ≤ n →
      addr.toNat % 1024 + 4 * min 256 n ≤ 1024 →
      let q := leadingReset s
      let i : Instr := .readMany addr n progress
      let k := (n + 255) / 256
      ∃ (out : List Word) (p : Pending) (rd : Word), out.length = n
        ∧ (s.params.ahbReadLatency ≤ 3 → p = .none ∧ out.getLast? = some rd)
        ∧ (s.params.ahbReadLatency ≤ 3 → s.params.targetQuiescent = true → wordsInRam s.params addr n →
            ∀ j, j < n → out[j]? = some (q.wordAt (addr + BitVec.ofNat 32 (4 * j))))
        ∧ exec i s = .next (atRest s
          (s.engine.returnedFrom i out
            (if progress then (List.range k).map fun j => (min n (256 * (j + 1)), n) else []) (.words out))
          { tap := .tlr
            ir := s.params.idcodeOpcode
            irsr := 0x03
            cmd := BitVec.ofBool false ++ (0b10 : BitVec 2) ++ (addr + BitVec.ofNat 32 (1024 * (k - 1)))
            data := 0
            dsr := List.replicate 33 false
            bridge := { curAddr := addr + BitVec.ofNat 32 (4 * (n - 1)), curSize := 0b10, curW := false, pending := p
                        rdata := rd, pastBlock := false }
            clockCount := s.target.clockCount + (127 * k + 37 * n) }
          q.mem (q.ahbLog ++ wordReads addr n) (3 * n + k))

/-- R41, R259, R332: every well-formed operation that emits anything, over a healthy transport, returns normally and leaves the
target in TLR with `ir = IDCODE_OPCODE`, the belief true, the buffers and `rx_fifo` empty and the pins at TCK 0, TDI 0, TMS 1,
whatever TAP state an earlier error left it to start from. (`pos` as log entry 23 counts it.) -/
def Obligations.EveryOperationEndsAtRest : Prop :=
  ∀ (i : Instr) (s : State), healthy s → s.params.legal = true → i.wellFormed = true → program i ≠ [] →
    ∃ t, exec i s = .next t ∧ t.target.tap = .tlr ∧ t.target.ir = s.params.idcodeOpcode ∧ t.engine.tapBelief = .at .tlr
      ∧ t.engine.outbuf = [] ∧ t.engine.expectRx = 0 ∧ t.engine.pos = (program i).length
      ∧ (∀ e, t.engine.returned ≠ .error e) ∧ t.engine.session = s.engine.session
      ∧ t.mpsse = { s.mpsse with tckPin := false, tdiPin := false, tmsPin := true } ∧ healthy t

/-- R320, R328, R329, R334, R335: whatever the driver does and whatever part of a command waits in the MPSSE engine, a well-formed
operation of an open session ends in a next state: it returns normally, with the belief at TLR and its whole list done, or with
one of the transport errors, the buffers emptied and the belief `Unknown`. The session stays, no call is issued, and no parameter
changes. (`pos` as log entry 23 counts it; what a completed part of a command with a length byte out of range does is log entry
25.) -/
def Obligations.OperationEndsInOneOfTwoWays : Prop :=
  ∀ (i : Instr) (s : State), program i ≠ [] →
    (s.engine.session ≠ none → i.wellFormed = true → ∃ t, exec i s = .next t)
    ∧ ∀ t, exec i s = .next t →
    t.engine.outbuf = [] ∧ t.engine.expectRx = 0 ∧ t.engine.session = s.engine.session ∧ t.calls = s.calls
    ∧ t.params = s.params
    ∧ ((t.engine.tapBelief = .at .tlr ∧ t.engine.pos = (program i).length ∧ ∀ e, t.engine.returned ≠ .error e)
      ∨ (t.engine.tapBelief = .unknown ∧ t.engine.pos < (program i).length
          ∧ ∃ e : EngineError, t.engine.returned = .error e ∧ 1 ≤ e.code ∧ e.code ≤ 5))

/-- S6 of 95_test_vectors.md, after R250 to R256, R291, R292: what is written to `RAM_REGION` of a quiescent target is read
back, at every width and over chunks, within the latency windows of R258 and R286. (Model's choice: log entry 17.) -/
def Obligations.WriteThenReadRoundTrip : Prop :=
  ∀ (a : Word) (s : State), healthy s → Memory.wf s.mem = true → s.params.targetQuiescent = true →
    1 ≤ s.params.ahbReadLatency → s.params.ahbReadLatency ≤ 14 →
    (∀ v, v < 2 ^ 32 → a.toNat % 4 = 0 → wordsInRam s.params a 1 →
      ∃ t, execAll [.write32 a v, .read32 a] s = .next t ∧ t.engine.returned = .word (BitVec.ofNat 32 v))
    ∧ (∀ v, v < 2 ^ 16 → a.toNat % 2 = 0 → inRam s.params a = true → inRam s.params (a + 1) = true →
      ∃ t, execAll [.write16 a v, .read16 a] s = .next t ∧ t.engine.returned = .half (BitVec.ofNat 16 v))
    ∧ (∀ v, v < 2 ^ 8 → inRam s.params a = true →
      ∃ t, execAll [.write8 a v, .read8 a] s = .next t ∧ t.engine.returned = .byte (BitVec.ofNat 8 v))
    ∧ (∀ (buf : List Word) (p p' : Bool), s.params.ahbReadLatency ≤ 3 → a.toNat % 4 = 0 → buf.length < 2 ^ 30 →
        a.toNat % 1024 + 4 * min 256 buf.length ≤ 1024 → wordsInRam s.params a buf.length →
      ∃ t, execAll [.writeMany a buf buf.length p, .readMany a buf.length p'] s = .next t
        ∧ t.engine.returned = .words buf)

/-! ## Counts -/

/-- R257, R294, R378, R228: how many bytes each operation emits, and how many between two flush points: at most 64 for
well-formed operands; a single read 58 and 3, a single write 64, `read_idcode` 13 and 3, a burst write 64 and then 13 a word. -/
def Obligations.EmissionCounts : Prop :=
  (∀ a : Word, ∀ i ∈ ([.read32 a, .read16 a, .read8 a] : List Instr),
      (encode i).length = 61 ∧ flushSizes (program i) 0 = [58, 3, 0])
  ∧ (∀ (a : Word) (v : Nat), ∀ i ∈ ([.write32 a v, .write16 a v, .write8 a v] : List Instr),
      (encode i).length = 64 ∧ flushSizes (program i) 0 = [64, 0])
  ∧ (encode .readIdcode).length = 16
  ∧ (∀ (b : Word) (ws : List Word), ws ≠ [] → (encode (.burstWrite b ws)).length = 39 + 12 + 13 * ws.length)
  ∧ (∀ (b : Word) (n : Nat), (encode (.burstRead b (n + 1))).length = 39 + 12 + 7 + 13 * n + 3)
  ∧ (∀ i : Instr, i.wellFormed = true → program i ≠ [] → ∀ k ∈ flushSizes (program i) 0, k ≤ 64)
  ∧ flushSizes (program .readIdcode) 0 = [13, 3, 0]
  ∧ (∀ (b w : Word) (ws : List Word), flushSizes (program (.burstWrite b (w :: ws))) 0 = 64 :: List.replicate ws.length 13 ++ [0])

/-! ## Driver outcomes and errors -/

/-- R224, R328, R329, R330, R335: `Flush` by a caller. Nothing buffered: nothing happens. Else one driver write: its delivered
prefix joins the MPSSE engine's input and the buffer is emptied; a failure status raises `TransportError` whatever was sent, a
short count `ShortWrite`. A write that times out passes nothing on (log entry 13). -/
def Obligations.FlushOutcomes : Prop :=
  ∀ s : State, s.engine.session ≠ none →
    (s.engine.outbuf = [] → runCall .flush s = .next s)
    ∧ (s.engine.outbuf ≠ [] →
      let n := s.engine.outbuf.length
      let after : Engine → Nat → State := fun e k => { s with
        engine := e
        mpsse := { s.mpsse with input := s.mpsse.input ++ s.engine.outbuf.take k }
        usb := { s.usb with events := s.usb.events.tail, calls := s.usb.calls + 1 } }
      (s.usb.events = [] ∨ s.usb.events.head? = some .healthy →
        runCall .flush s = .next (after { s.engine with outbuf := [] } n))
      ∧ (∀ k, s.usb.events.head? = some (.count k) → n ≤ k →
        runCall .flush s = .next (after { s.engine with outbuf := [] } n))
      ∧ (∀ k, s.usb.events.head? = some (.count k) → k < n →
        runCall .flush s = .next (after (s.engine.failed (.shortWrite k n)) k))
      ∧ (∀ st k, s.usb.events.head? = some (.failed st k) →
        runCall .flush s = .next (after (s.engine.failed (.transportError st)) k))
      ∧ (s.usb.events.head? = some .timedOut →
        runCall .flush s = .next (after (s.engine.failed (.shortWrite 0 n)) 0)))

/-- R225, R227, R321, R328 to R330, R334, V60-2, V60-3: `ReadExactly`. By a caller, for every outcome of its poll and its read: the
oldest bytes are taken first, and an error leaves the bytes not read in `rx_fifo`. Inside a single read whose first flush is
healthy, where the poll fails or times out, or behind a healthy poll the read fails, times out or is short: the bytes not read stay
in `rx_fifo`, and the target in ShDR with the four data bytes shifted out and no trailing reset. Bytes left there by an earlier
operation are taken first by a later single read. (How the driver's outcomes are drawn is log entry 13; that one healthy
poll of an empty queue ends the loop is log entry 39; the refusal of another count is log entry 26; the single reads rest on log entries 5, 6, 7, 8, 17, 21, 23 and 24 as `SingleReads` does.) -/
def Obligations.ReadExactlyOutcomes : Prop :=
  (∀ s : State, s.engine.session ≠ none →
    let n := s.engine.expectRx
    let fifo := s.mpsse.rxFifo
    let after : Engine → List Byte → List DriverEvent → Nat → State := fun e rx ev k => { s with
      engine := e
      mpsse := { s.mpsse with rxFifo := rx }
      usb := { s.usb with events := ev, calls := s.usb.calls + k } }
    (∀ m, m ≠ n → runCall (.readExactly m) s = .refused .readCountMismatch)
    -- the poll fails, times out, or shows no byte
    ∧ (∀ st k rest, s.usb.events = .failed st k :: rest →
        runCall (.readExactly n) s = .next (after (s.engine.failed (.queueStatusFailed st)) fifo rest 1))
    ∧ (∀ rest, s.usb.events = .timedOut :: rest →
        runCall (.readExactly n) s = .next (after (s.engine.failed .timeout) fifo rest 1))
    ∧ (∀ rest, fifo = [] → (s.usb.events = [] ∧ rest = []) ∨ s.usb.events = .healthy :: rest →
        runCall (.readExactly n) s = .next (after (s.engine.failed .timeout) fifo rest 1))
    ∧ (∀ k rest, min k fifo.length = 0 → s.usb.events = .count k :: rest →
        runCall (.readExactly n) s = runCall (.readExactly n) (after s.engine fifo rest 1))
    -- the poll shows a byte, and the read takes the next outcome
    ∧ (∀ rest, fifo ≠ [] →
        (s.usb.events = [] ∧ rest = []) ∨ s.usb.events = .healthy :: rest
          ∨ (∃ k, 1 ≤ k ∧ s.usb.events = .count k :: rest) →
        (∀ st k more, rest = .failed st k :: more →
          runCall (.readExactly n) s = .next (after (s.engine.failed (.transportError st)) fifo more 2))
        ∧ (∀ more, rest = .timedOut :: more →
          runCall (.readExactly n) s = .next (after (s.engine.failed .timeout) fifo more 2))
        ∧ (∀ k more, rest = .count k :: more →
          runCall (.readExactly n) s = .next (
            if min k fifo.length < n then
              after (s.engine.failed (.shortRead (min k fifo.length) n)) (fifo.drop k) more 2
            else after { s.engine with expectRx := 0, returned := .bytes (fifo.take n) } (fifo.drop n) more 2))
        ∧ (∀ more, (rest = [] ∧ more = []) ∨ rest = .healthy :: more →
          runCall (.readExactly n) s = .next (
            if fifo.length < n then after (s.engine.failed (.shortRead fifo.length n)) [] more 2
            else after { s.engine with expectRx := 0, returned := .bytes (fifo.take n) } (fifo.drop n) more 2))))
  ∧ ∀ (i : Instr) (a : Word) (sz : BitVec 2) (r : Word → Returned) (s : State), healthy s → 1 ≤ s.params.ahbReadLatency →
    ((i = .read32 a ∧ sz = 0b10 ∧ a.toNat % 4 = 0 ∧ r = fun w => .word w)
      ∨ (i = .read16 a ∧ sz = 0b01 ∧ a.toNat % 2 = 0 ∧
          r = fun w => .half (if a.toNat % 4 = 0 then w.extractLsb' 16 16 else w.extractLsb' 0 16))
      ∨ (i = .read8 a ∧ sz = 0b00 ∧ r = fun w => .byte (w.extractLsb' (8 * (3 - a.toNat % 4)) 8))) →
    let q := leadingReset s
    let drawn : List DriverEvent → State := fun ev => s.setUsb { s.usb with events := ev }
    ∃ (k : Nat) (w v : Word), 1 ≤ k ∧ k ≤ s.params.ahbReadLatency ∧ (k ≤ 14 → v = w)
      ∧ (s.params.targetQuiescent = true → (∀ x ∈ transferAddrs a sz, inRam s.params x = true) →
          ∀ x ∈ transferAddrs a sz, laneByte w x = q.byteAt x)
      ∧ (let left : EngineError → List Byte → Nat → State := fun e rx calls => { s with
          engine := { s.engine with tapBelief := .unknown, outbuf := [], expectRx := 0, pos := 12, out := [], progress := []
                                    returned := .error e }
          mpsse := { s.mpsse.at false false with rxFifo := rx }
          target :=
            { tap := .shDR
              ir := 0x03
              irsr := 0x03
              cmd := BitVec.ofBool false ++ sz ++ a
              data := q.target.data
              dsr := decide (k ≤ 14) :: List.replicate 32 false
              bridge := { curAddr := a, curSize := sz, curW := false
                          pending := if k ≤ 14 then .none else .read (s.target.clockCount + 113 + k) w
                          rdata := if k ≤ 14 then w else q.target.bridge.rdata
                          pastBlock := false }
              clockCount := s.target.clockCount + 159 }
          mem := q.mem
          ahbLog := q.ahbLog ++ [.read a sz]
          usb := { s.usb with calls := s.usb.calls + calls } }
        (∀ st m, exec i (drawn [.healthy, .failed st m]) = .next (left (.queueStatusFailed st) (wordBytes v) 2))
        ∧ exec i (drawn [.healthy, .timedOut]) = .next (left .timeout (wordBytes v) 2)
        ∧ (∀ st m, exec i (drawn [.healthy, .healthy, .failed st m]) = .next (left (.transportError st) (wordBytes v) 3))
        ∧ exec i (drawn [.healthy, .healthy, .timedOut]) = .next (left .timeout (wordBytes v) 3)
        ∧ (∀ m, m < 4 → exec i (drawn [.healthy, .healthy, .count m]) =
            .next (left (.shortRead m 4) ((wordBytes v).drop m) 3)))
      ∧ ∀ stale : List Byte, ∃ t, exec i (s.setMpsse { s.mpsse with rxFifo := stale }) = .next t
          ∧ t.engine.returned = r (bytesWord ((stale ++ wordBytes v).take 4))
          ∧ t.mpsse.rxFifo = (stale ++ wordBytes v).drop 4 ∧ t.target.tap = .tlr

/-- R335, R329, R334, V60-1: a single write whose one flush is short, with an OK status and k of its 64 bytes passed on, starts
no AHB transfer and changes no byte of memory, because its update lies in the last command. The error is `ShortWrite`; after
40 bytes the target stands in Ex1DR with the command's 35 bits in the shift register and not updated, and the MPSSE engine holds the byte `4B`.
(`pos` as log entry 23 counts it; the driver's outcomes as log entry 13 has them.) -/
def Obligations.ShortSingleWrite : Prop :=
  ∀ (i : Instr) (a : Word) (sz : BitVec 2) (v k : Nat) (s : State), healthy s → scanFree s = true → k < 64 →
    i.wellFormed = true →
    (i = .write32 a v ∧ sz = 0b10) ∨ (i = .write16 a v ∧ sz = 0b01) ∨ (i = .write8 a v ∧ sz = 0b00) →
    ∃ t, exec i (s.setUsb { s.usb with events := [.count k] }) = .next t
      ∧ t.mem = s.mem ∧ t.ahbLog = s.ahbLog
      ∧ t.engine = { s.engine with tapBelief := .unknown, outbuf := [], expectRx := 0, pos := 12, out := [], progress := []
                                   returned := .error (.shortWrite k 64) }
      ∧ t.usb = { s.usb with events := [], calls := s.usb.calls + 1 }
      ∧ decodeMpsse t.mpsse.input = .waiting
      ∧ (k = 40 → t.mpsse.input = [0x4B] ∧ t.target.tap = .ex1DR ∧ t.target.cmd = s.target.cmd
          ∧ t.target.bridge = s.target.bridge
          ∧ t.target.dsr = lowBits 35 (BitVec.ofBool true ++ sz ++ a)
          ∧ t.target.clockCount = s.target.clockCount + 112)

/-- R335, R328, R329, R282: a burst write whose driver fails at its flush j + 1, with no byte of that flush passed on, has done
exactly its first j words: they are stored and logged in address order, no other byte changes, and the target waits in ShDR for
the next word. The error is `TransportError`. (That the modelled memory is left alone outside `RAM_REGION` is log entry 7; the
driver's outcomes are drawn as log entry 13 says; `pos` is log entry 23; one step, log entry 17.) -/
def Obligations.FailedBurstWriteLeavesAPrefix : Prop :=
  ∀ (b : Word) (ws : List Word) (j st : Nat) (s : State), healthy s → scanFree s = true → Memory.wf s.mem = true →
    b.toNat % 4 = 0 → ws.length ≤ 256 → j < ws.length → b.toNat % 1024 + 4 * ws.length ≤ 1024 →
    ∃ t, exec (.burstWrite b ws) (s.setUsb { s.usb with events := List.replicate j .healthy ++ [.failed st 0] }) = .next t
      ∧ storesExactly s.params (wordsStores b (ws.take j)) s.mem t.mem
      ∧ t.ahbLog = s.ahbLog ++ wordWrites b (ws.take j)
      ∧ t.engine = { s.engine with tapBelief := .unknown, outbuf := [], expectRx := 0, pos := 12 + 3 * j, out := []
                                   progress := [], returned := .error (.transportError st) }
      ∧ t.usb = { s.usb with events := [], calls := s.usb.calls + (j + 1) }
      ∧ t.mpsse.input = [] ∧ t.mpsse.rxFifo = []
      ∧ (j = 0 → t.target = s.target ∧ t.mpsse = s.mpsse)
      ∧ (1 ≤ j → t.target.tap = .shDR ∧ t.target.bridge.curAddr = b + BitVec.ofNat 32 (4 * j)
          ∧ t.target.clockCount = s.target.clockCount + (127 + 37 * j))

/-! ## Sessions -/

/-- R362, R26, R41, R22, R70: `open` over a healthy driver, from any MPSSE configuration, with no partial command waiting: the
session record, the configuration after open, the pins and the empty queues; no TCK clock, so the target is as it was.
(The handle is log entry 10; what `open` does with a session already open is log entry 28.) -/
def Obligations.OpenConfiguresAndCreatesTheSession : Prop :=
  ∀ (index : Nat) (family : Family) (s : State), s.usb.events = [] → s.mpsse.input = [] →
    ∃ handle : Nat, runCall (.openSession index family) s = .next { s with
      engine := { s.engine with
        session := some { handle := handle, family := family
                          addrMap := match family with
                            | .leon3 => ⟨0x40000000, 0x80000100, 0x90000000, 0x80000210⟩
                            | .leon4 => ⟨0x40000000, 0xFF900000, 0xE0000000, 0xFF904010⟩
                          firstRun := true, activeCpu := 0 }
        tapBelief := .unknown, outbuf := [], expectRx := 0, returned := .done }
      mpsse := { bitmode := .mpsse, loopback := false, div5 := false, adaptive := false, threePhase := false
                 divisor := 0x0004, lowValue := 0b00001000, lowDir := 0b00001011, highValue := 0x00, highDir := 0x00
                 rxTimeoutMs := 10, txTimeoutMs := 10, usbInSize := 16384, usbOutSize := 16384
                 tckPin := false, tdiPin := false, tmsPin := true, input := [], rxFifo := []
                 undescribed := s.mpsse.undescribed }
      usb := { s.usb with calls := s.usb.calls + 17 } }

/-- R362, R322, R329, R333: if any driver call of the open sequence fails, `open` ends with `OpenFailed` of that step's stage
and no session; the handle is closed (one more call) unless `open(index)` itself failed. The target is as it was. (The
driver's outcomes are drawn as log entry 13 says.) -/
def Obligations.OpenFailsAtEveryStage : Prop :=
  ∀ (index : Nat) (family : Family) (j st k : Nat) (s : State), j < 17 → s.mpsse.input = [] →
    s.usb.events = List.replicate j .healthy ++ [.failed st k] →
    ∃ t, runCall (.openSession index family) s = .next t ∧ t.engine.session = none
      ∧ t.engine.returned = .error (.openFailed
          (([.usbOpen, .usbReset, .usbParams, .purge, .timeouts, .bitmodeReset, .bitmodeMpsse, .loopbackOn, .loopbackOn,
            .bogusEcho, .bogusEcho, .bogusEcho, .loopbackOff, .clockConfig, .divisor, .lowByte, .highByte] :
            List OpenStage).getD j .highByte))
      ∧ t.engine.tapBelief = .unknown ∧ t.engine.outbuf = [] ∧ t.engine.expectRx = 0
      ∧ t.usb.calls = s.usb.calls + j + (if j = 0 then 1 else 2)
      ∧ t.target = s.target ∧ t.mem = s.mem ∧ t.ahbLog = s.ahbLog

/-- R364, R333: `close` makes its three calls, whose failures are ignored, and ends with no session; the bit mode is reset where
the first call succeeds, and the pins, the rest of the configuration and the target are as they were. With no session it does
nothing. (That a failed call leaves its effect undone is log entry 13; that the queues and the rest of the configuration
stay is log entry 30.) -/
def Obligations.CloseEndsTheSession : Prop :=
  ∀ s : State,
    (s.engine.session = none → runCall .closeSession s = .next s)
    ∧ (s.engine.session ≠ none → runCall .closeSession s = .next { s with
        engine := { s.engine with session := none, returned := .done }
        mpsse := { s.mpsse with
          bitmode := match s.usb.events.head? with | some (.failed _ _) => s.mpsse.bitmode | _ => .reset }
        usb := { s.usb with events := s.usb.events.drop 3, calls := s.usb.calls + 3 } })

/-- R363, R322: `enumerate` asks the driver for the list and then for each device, returns the devices or raises
`EnumerationFailed` with the first failure's status; it makes no MPSSE command and opens no session. (The driver's
outcomes are drawn as log entry 13 says.) -/
def Obligations.EnumerateListsTheDevices : Prop :=
  ∀ s : State,
    (s.usb.events = [] → runCall .enumerate s = .next { s with
      engine := { s.engine with returned := .devices s.usb.devices }
      usb := { s.usb with calls := s.usb.calls + 1 + s.usb.devices.length } })
    ∧ (∀ j st k, j ≤ s.usb.devices.length → s.usb.events = List.replicate j .healthy ++ [.failed st k] →
      runCall .enumerate s = .next { s with
        engine := s.engine.failed (.enumerationFailed st)
        usb := { s.usb with events := [], calls := s.usb.calls + (j + 1) } })

/-- R342, R323, R333: the startup check over a healthy transport. The first wrong measurement, in the rule's order, raises its
error and closes the session, with no TCK clock; a zero IDCODE raises `IdcodeAbsent` and closes it; else the check passes. With
no session it is refused, which is the model's choice (log entry 37). (The state `close` leaves is log entry 30; that the check
is one step and the position its `read_idcode` leaves are log entries 17 and 23.) -/
def Obligations.StartupCheckOrder : Prop :=
  ∀ s : State,
    (s.engine.session = none → runCall .startupCheck s = .refused .noSession)
    ∧ (healthy s → s.params.legal = true →
      let c := s.params.measuredChain
      let closed : EngineError → State := fun e => { s with
        engine := { s.engine.failed e with session := none }
        mpsse := { s.mpsse with bitmode := .reset }
        usb := { s.usb with calls := s.usb.calls + 3 } }
      (c.devices ≠ 1 → runCall .startupCheck s = .next (closed (.chainDeviceCount c.devices)))
      ∧ (c.devices = 1 → c.irLength ≠ 6 → runCall .startupCheck s = .next (closed (.irLength c.irLength)))
      ∧ (c.devices = 1 → c.irLength = 6 → c.drAddrLength ≠ 35 →
          runCall .startupCheck s = .next (closed (.drLengthAddr c.drAddrLength)))
      ∧ (c.devices = 1 → c.irLength = 6 → c.drAddrLength = 35 → c.drDataLength ≠ 33 →
          runCall .startupCheck s = .next (closed (.drLengthData c.drDataLength)))
      ∧ (c = ⟨1, 6, 35, 33⟩ → s.params.idcodeValue ≠ 0 → ∃ t, runCall .startupCheck s = .next t
          ∧ t.engine = s.engine.returnedFrom .readIdcode [s.params.idcodeValue] [] .done
          ∧ t.target.tap = .tlr ∧ t.target.clockCount = s.target.clockCount + 46)
      ∧ (c = ⟨1, 6, 35, 33⟩ → s.params.idcodeValue = 0 → ∃ t, runCall .startupCheck s = .next t
          ∧ t.engine.session = none ∧ t.engine.returned = .error .idcodeAbsent ∧ t.engine.tapBelief = .unknown
          ∧ t.target.tap = .tlr ∧ t.target.clockCount = s.target.clockCount + 46))

/-! ## Every step -/

/-- R33, R60, R63: every step keeps the memory in its canonical form and, in a DR scan, the shift register as long as the
register that `ir` selects. -/
def Obligations.StepKeepsWellFormed : Prop :=
  ∀ s t : State, wellFormed s = true → step s = .next t → wellFormed t = true

/-- R9, R37, R62, R63, R76, R140: what no step does. The parameters stay; the clock count never falls; the AHB log only grows; a
step in which the target is not clocked starts no transfer; and no byte changes unless an AHB write was started, nor any byte
outside `RAM_REGION` (that the modelled memory is left alone there is the model's choice: log entry 7). -/
def Obligations.StepFrame : Prop :=
  ∀ s t : State, Memory.wf s.mem = true → step s = .next t →
    t.params = s.params ∧ s.target.clockCount ≤ t.target.clockCount
    ∧ (∃ l : List AhbTransfer, t.ahbLog = s.ahbLog ++ l
        ∧ ((∀ x ∈ l, ∃ a sz, x = .read a sz) → t.mem = s.mem)
        ∧ (t.target.clockCount = s.target.clockCount → l = []))
    ∧ ∀ x : Word, inRam s.params x = false → t.byteAt x = s.byteAt x

/-- R41, R338, R360 (a): the state after reset: no session, no clock counted, nothing in flight and no call waiting; and it is well
formed. (Model's choices: that memory lists nothing, log entry 14, and that no call waits, 18; the values on which
well-formedness rests, 15 and 16.) -/
def Obligations.ResetState : Prop :=
  State.reset.engine.session = none ∧ State.reset.target.clockCount = 0 ∧ State.reset.calls = []
  ∧ State.reset.ahbLog = [] ∧ State.reset.mem = [] ∧ wellFormed State.reset = true
end

