-- ==== Sys2Proof/Laws/State.lean ====
section
/-! SUPPORT. One lemma for each component after each update of one component: an update changes its own component and no
other. -/

namespace Sys2Proof.Machine

@[simp] theorem setEngine_params (s : State) (x : Engine) : (s.setEngine x).params = s.params := rfl
@[simp] theorem setEngine_engine (s : State) (x : Engine) : (s.setEngine x).engine = x := rfl
@[simp] theorem setEngine_mpsse (s : State) (x : Engine) : (s.setEngine x).mpsse = s.mpsse := rfl
@[simp] theorem setEngine_target (s : State) (x : Engine) : (s.setEngine x).target = s.target := rfl
@[simp] theorem setEngine_mem (s : State) (x : Engine) : (s.setEngine x).mem = s.mem := rfl
@[simp] theorem setEngine_ahbLog (s : State) (x : Engine) : (s.setEngine x).ahbLog = s.ahbLog := rfl
@[simp] theorem setEngine_usb (s : State) (x : Engine) : (s.setEngine x).usb = s.usb := rfl
@[simp] theorem setEngine_calls (s : State) (x : Engine) : (s.setEngine x).calls = s.calls := rfl
@[simp] theorem setEngine_setEngine (s : State) (x y : Engine) : (s.setEngine x).setEngine y = s.setEngine y := rfl
@[simp] theorem setEngine_self (s : State) : s.setEngine s.engine = s := rfl

@[simp] theorem setMpsse_params (s : State) (x : Mpsse) : (s.setMpsse x).params = s.params := rfl
@[simp] theorem setMpsse_engine (s : State) (x : Mpsse) : (s.setMpsse x).engine = s.engine := rfl
@[simp] theorem setMpsse_mpsse (s : State) (x : Mpsse) : (s.setMpsse x).mpsse = x := rfl
@[simp] theorem setMpsse_target (s : State) (x : Mpsse) : (s.setMpsse x).target = s.target := rfl
@[simp] theorem setMpsse_mem (s : State) (x : Mpsse) : (s.setMpsse x).mem = s.mem := rfl
@[simp] theorem setMpsse_ahbLog (s : State) (x : Mpsse) : (s.setMpsse x).ahbLog = s.ahbLog := rfl
@[simp] theorem setMpsse_usb (s : State) (x : Mpsse) : (s.setMpsse x).usb = s.usb := rfl
@[simp] theorem setMpsse_calls (s : State) (x : Mpsse) : (s.setMpsse x).calls = s.calls := rfl
@[simp] theorem setMpsse_setMpsse (s : State) (x y : Mpsse) : (s.setMpsse x).setMpsse y = s.setMpsse y := rfl
@[simp] theorem setMpsse_self (s : State) : s.setMpsse s.mpsse = s := rfl

@[simp] theorem setTarget_params (s : State) (x : Target) : (s.setTarget x).params = s.params := rfl
@[simp] theorem setTarget_engine (s : State) (x : Target) : (s.setTarget x).engine = s.engine := rfl
@[simp] theorem setTarget_mpsse (s : State) (x : Target) : (s.setTarget x).mpsse = s.mpsse := rfl
@[simp] theorem setTarget_target (s : State) (x : Target) : (s.setTarget x).target = x := rfl
@[simp] theorem setTarget_mem (s : State) (x : Target) : (s.setTarget x).mem = s.mem := rfl
@[simp] theorem setTarget_ahbLog (s : State) (x : Target) : (s.setTarget x).ahbLog = s.ahbLog := rfl
@[simp] theorem setTarget_usb (s : State) (x : Target) : (s.setTarget x).usb = s.usb := rfl
@[simp] theorem setTarget_calls (s : State) (x : Target) : (s.setTarget x).calls = s.calls := rfl
@[simp] theorem setTarget_setTarget (s : State) (x y : Target) : (s.setTarget x).setTarget y = s.setTarget y := rfl
@[simp] theorem setTarget_self (s : State) : s.setTarget s.target = s := rfl

@[simp] theorem setMem_params (s : State) (x : List Host.Cell) : (s.setMem x).params = s.params := rfl
@[simp] theorem setMem_engine (s : State) (x : List Host.Cell) : (s.setMem x).engine = s.engine := rfl
@[simp] theorem setMem_mpsse (s : State) (x : List Host.Cell) : (s.setMem x).mpsse = s.mpsse := rfl
@[simp] theorem setMem_target (s : State) (x : List Host.Cell) : (s.setMem x).target = s.target := rfl
@[simp] theorem setMem_mem (s : State) (x : List Host.Cell) : (s.setMem x).mem = x := rfl
@[simp] theorem setMem_ahbLog (s : State) (x : List Host.Cell) : (s.setMem x).ahbLog = s.ahbLog := rfl
@[simp] theorem setMem_usb (s : State) (x : List Host.Cell) : (s.setMem x).usb = s.usb := rfl
@[simp] theorem setMem_calls (s : State) (x : List Host.Cell) : (s.setMem x).calls = s.calls := rfl
@[simp] theorem setMem_setMem (s : State) (x y : List Host.Cell) : (s.setMem x).setMem y = s.setMem y := rfl
@[simp] theorem setMem_self (s : State) : s.setMem s.mem = s := rfl

@[simp] theorem setAhbLog_params (s : State) (x : List AhbTransfer) : (s.setAhbLog x).params = s.params := rfl
@[simp] theorem setAhbLog_engine (s : State) (x : List AhbTransfer) : (s.setAhbLog x).engine = s.engine := rfl
@[simp] theorem setAhbLog_mpsse (s : State) (x : List AhbTransfer) : (s.setAhbLog x).mpsse = s.mpsse := rfl
@[simp] theorem setAhbLog_target (s : State) (x : List AhbTransfer) : (s.setAhbLog x).target = s.target := rfl
@[simp] theorem setAhbLog_mem (s : State) (x : List AhbTransfer) : (s.setAhbLog x).mem = s.mem := rfl
@[simp] theorem setAhbLog_ahbLog (s : State) (x : List AhbTransfer) : (s.setAhbLog x).ahbLog = x := rfl
@[simp] theorem setAhbLog_usb (s : State) (x : List AhbTransfer) : (s.setAhbLog x).usb = s.usb := rfl
@[simp] theorem setAhbLog_calls (s : State) (x : List AhbTransfer) : (s.setAhbLog x).calls = s.calls := rfl
@[simp] theorem setAhbLog_setAhbLog (s : State) (x y : List AhbTransfer) : (s.setAhbLog x).setAhbLog y = s.setAhbLog y := rfl
@[simp] theorem setAhbLog_self (s : State) : s.setAhbLog s.ahbLog = s := rfl

@[simp] theorem setUsb_params (s : State) (x : Usb) : (s.setUsb x).params = s.params := rfl
@[simp] theorem setUsb_engine (s : State) (x : Usb) : (s.setUsb x).engine = s.engine := rfl
@[simp] theorem setUsb_mpsse (s : State) (x : Usb) : (s.setUsb x).mpsse = s.mpsse := rfl
@[simp] theorem setUsb_target (s : State) (x : Usb) : (s.setUsb x).target = s.target := rfl
@[simp] theorem setUsb_mem (s : State) (x : Usb) : (s.setUsb x).mem = s.mem := rfl
@[simp] theorem setUsb_ahbLog (s : State) (x : Usb) : (s.setUsb x).ahbLog = s.ahbLog := rfl
@[simp] theorem setUsb_usb (s : State) (x : Usb) : (s.setUsb x).usb = x := rfl
@[simp] theorem setUsb_calls (s : State) (x : Usb) : (s.setUsb x).calls = s.calls := rfl
@[simp] theorem setUsb_setUsb (s : State) (x y : Usb) : (s.setUsb x).setUsb y = s.setUsb y := rfl
@[simp] theorem setUsb_self (s : State) : s.setUsb s.usb = s := rfl

@[simp] theorem setCalls_params (s : State) (x : List Call) : (s.setCalls x).params = s.params := rfl
@[simp] theorem setCalls_engine (s : State) (x : List Call) : (s.setCalls x).engine = s.engine := rfl
@[simp] theorem setCalls_mpsse (s : State) (x : List Call) : (s.setCalls x).mpsse = s.mpsse := rfl
@[simp] theorem setCalls_target (s : State) (x : List Call) : (s.setCalls x).target = s.target := rfl
@[simp] theorem setCalls_mem (s : State) (x : List Call) : (s.setCalls x).mem = s.mem := rfl
@[simp] theorem setCalls_ahbLog (s : State) (x : List Call) : (s.setCalls x).ahbLog = s.ahbLog := rfl
@[simp] theorem setCalls_usb (s : State) (x : List Call) : (s.setCalls x).usb = s.usb := rfl
@[simp] theorem setCalls_calls (s : State) (x : List Call) : (s.setCalls x).calls = x := rfl
@[simp] theorem setCalls_setCalls (s : State) (x y : List Call) : (s.setCalls x).setCalls y = s.setCalls y := rfl
@[simp] theorem setCalls_self (s : State) : s.setCalls s.calls = s := rfl

@[simp] theorem setBridge_params (s : State) (b : Bridge) : (s.setBridge b).params = s.params := rfl
@[simp] theorem setBridge_engine (s : State) (b : Bridge) : (s.setBridge b).engine = s.engine := rfl
@[simp] theorem setBridge_mpsse (s : State) (b : Bridge) : (s.setBridge b).mpsse = s.mpsse := rfl
@[simp] theorem setBridge_mem (s : State) (b : Bridge) : (s.setBridge b).mem = s.mem := rfl
@[simp] theorem setBridge_ahbLog (s : State) (b : Bridge) : (s.setBridge b).ahbLog = s.ahbLog := rfl
@[simp] theorem setBridge_usb (s : State) (b : Bridge) : (s.setBridge b).usb = s.usb := rfl
@[simp] theorem setBridge_calls (s : State) (b : Bridge) : (s.setBridge b).calls = s.calls := rfl
@[simp] theorem setBridge_target (s : State) (b : Bridge) :
    (s.setBridge b).target = { s.target with bridge := b } := rfl

end Sys2Proof.Machine
end

