-- ==== Sys2Proof/Laws/Bridge.lean ====
section
/-! SUPPORT. What the bridge does at its three points (R240), and what captures and updates leave as it is. -/

namespace Sys2Proof.Machine

open Sys2Proof

/-! ## Bits in order -/

theorem packBits_lt (xs : List Bool) : packBits xs < 2 ^ xs.length := by
  induction xs with
  | nil => simp [packBits]
  | cons x xs ih => cases x <;> (simp [packBits, Nat.pow_succ]; omega)

theorem testBit_packBits (xs : List Bool) (i : Nat) : (packBits xs).testBit i = xs.getD i false := by
  induction xs generalizing i with
  | nil => simp [packBits]
  | cons x xs ih =>
    cases i with
    | zero => cases x <;> simp [packBits, Nat.testBit_zero]
    | succ i =>
      have : packBits (x :: xs) / 2 = packBits xs := by cases x <;> (simp [packBits]; try omega)
      rw [Nat.testBit_succ, this, ih]; simp

/-- The low n bits of an n-bit vector, packed, are the vector. -/
theorem ofNat_packBits_lowBits {n : Nat} (v : BitVec n) : BitVec.ofNat n (packBits (lowBits n v)) = v := by
  ext i hi
  rw [← BitVec.getLsbD_eq_getElem, BitVec.getLsbD_ofNat, testBit_packBits]
  simp [lowBits, hi]

/-- The bits of a concatenation, the low part first. -/
theorem lowBits_append {m n : Nat} (x : BitVec m) (y : BitVec n) : lowBits (m + n) (x ++ y) = lowBits n y ++ lowBits m x := by
  apply List.ext_getElem
  · simp [lowBits]; omega
  · intro i h1 h2
    simp only [lowBits, List.getElem_map, List.getElem_range, List.getElem_append, List.length_map, List.length_range,
      BitVec.getLsbD_append]
    by_cases h : i < n <;> simp [h]

theorem lowBits_ofBool (x : Bool) : lowBits 1 (BitVec.ofBool x) = [x] := by cases x <;> rfl

/-- The 35 bits of a command scan, in shift order: address, size, `rw` (R29, R104). -/
theorem lowBits_cmdValue (a : Word) (sz : BitVec 2) (rw : Bool) :
    lowBits 35 (cmdValue a sz rw) = lowBits 32 a ++ (lowBits 2 sz ++ [rw]) := by
  have h := lowBits_append (BitVec.ofBool rw ++ sz) a
  have h2 := lowBits_append (BitVec.ofBool rw) sz
  rw [lowBits_ofBool] at h2
  exact h.trans (by rw [h2])

/-- The 33 bits of a data scan, in shift order: the data, the flag (R30). -/
theorem lowBits_dataValue (f : Bool) (d : Word) : lowBits 33 (dataValue f d) = lowBits 32 d ++ [f] := by
  have h := lowBits_append (BitVec.ofBool f) d
  rw [lowBits_ofBool] at h
  exact h

@[simp] theorem cmdAddr_cmdValue (a : Word) (sz : BitVec 2) (rw : Bool) : cmdAddr (cmdValue a sz rw) = a := by
  ext i hi
  simp only [cmdAddr, cmdValue, BitVec.getElem_extractLsb', BitVec.getLsbD_append]
  simp [hi]

@[simp] theorem cmdSize_cmdValue (a : Word) (sz : BitVec 2) (rw : Bool) : cmdSize (cmdValue a sz rw) = sz := by
  ext i hi
  simp only [cmdSize, cmdValue, BitVec.getElem_extractLsb', BitVec.getLsbD_append]
  simp [hi]

@[simp] theorem cmdWrite_cmdValue (a : Word) (sz : BitVec 2) (rw : Bool) : cmdWrite (cmdValue a sz rw) = rw := by
  cases rw <;> simp only [cmdWrite, cmdValue, BitVec.getLsbD_append] <;> rfl

@[simp] theorem dataField_dataValue (f : Bool) (d : Word) : dataField (dataValue f d) = d := by
  ext i hi
  simp only [dataField, dataValue, BitVec.getElem_extractLsb', BitVec.getLsbD_append]
  simp [hi]

@[simp] theorem seqFlag_dataValue (f : Bool) (d : Word) : seqFlag (dataValue f d) = f := by
  cases f <;> simp only [seqFlag, dataValue, BitVec.getLsbD_append] <;> rfl

/-! ## What captures and updates leave -/

section
variable (s : State)

@[simp] theorem startRead_tap : (startRead s).target.tap = s.target.tap := rfl
@[simp] theorem startRead_ir : (startRead s).target.ir = s.target.ir := rfl
@[simp] theorem startRead_irsr : (startRead s).target.irsr = s.target.irsr := rfl
@[simp] theorem startRead_dsr : (startRead s).target.dsr = s.target.dsr := rfl
@[simp] theorem startRead_clockCount : (startRead s).target.clockCount = s.target.clockCount := rfl
@[simp] theorem startRead_mem : (startRead s).mem = s.mem := rfl
@[simp] theorem memWrite_target (a : Word) (sz : BitVec 2) (d : Word) : (memWrite s a sz d).target = s.target := rfl

theorem updateCmd_tap (v : BitVec 35) : (updateCmd v s).target.tap = s.target.tap := by
  unfold updateCmd; dsimp only; split <;> rfl
theorem updateCmd_ir (v : BitVec 35) : (updateCmd v s).target.ir = s.target.ir := by
  unfold updateCmd; dsimp only; split <;> rfl
theorem updateCmd_irsr (v : BitVec 35) : (updateCmd v s).target.irsr = s.target.irsr := by
  unfold updateCmd; dsimp only; split <;> rfl
theorem updateCmd_dsr (v : BitVec 35) : (updateCmd v s).target.dsr = s.target.dsr := by
  unfold updateCmd; dsimp only; split <;> rfl
theorem updateCmd_clockCount (v : BitVec 35) : (updateCmd v s).target.clockCount = s.target.clockCount := by
  unfold updateCmd; dsimp only; split <;> rfl
theorem updateCmd_mem (v : BitVec 35) : (updateCmd v s).mem = s.mem := by
  unfold updateCmd; dsimp only; split <;> rfl

theorem updateData_tap (v : BitVec 33) : (updateData v s).target.tap = s.target.tap := by
  unfold updateData; dsimp only; split <;> split <;> rfl
theorem updateData_ir (v : BitVec 33) : (updateData v s).target.ir = s.target.ir := by
  unfold updateData; dsimp only; split <;> split <;> rfl
theorem updateData_irsr (v : BitVec 33) : (updateData v s).target.irsr = s.target.irsr := by
  unfold updateData; dsimp only; split <;> split <;> rfl
theorem updateData_dsr (v : BitVec 33) : (updateData v s).target.dsr = s.target.dsr := by
  unfold updateData; dsimp only; split <;> split <;> rfl
theorem updateData_clockCount (v : BitVec 33) : (updateData v s).target.clockCount = s.target.clockCount := by
  unfold updateData; dsimp only; split <;> split <;> rfl

@[simp] theorem updateDr_tap : (updateDr s).target.tap = s.target.tap := by
  unfold updateDr; split <;> simp only [updateCmd_tap, updateData_tap]
@[simp] theorem updateDr_ir : (updateDr s).target.ir = s.target.ir := by
  unfold updateDr; split <;> simp only [updateCmd_ir, updateData_ir]
@[simp] theorem updateDr_irsr : (updateDr s).target.irsr = s.target.irsr := by
  unfold updateDr; split <;> simp only [updateCmd_irsr, updateData_irsr]
@[simp] theorem updateDr_dsr : (updateDr s).target.dsr = s.target.dsr := by
  unfold updateDr; split <;> simp only [updateCmd_dsr, updateData_dsr]
@[simp] theorem updateDr_clockCount : (updateDr s).target.clockCount = s.target.clockCount := by
  unfold updateDr; split <;> simp only [updateCmd_clockCount, updateData_clockCount]

@[simp] theorem captureDr_tap : (captureDr s).target.tap = s.target.tap := by
  unfold captureDr; dsimp only; split <;> rfl
@[simp] theorem captureDr_ir : (captureDr s).target.ir = s.target.ir := by
  unfold captureDr; dsimp only; split <;> rfl
@[simp] theorem captureDr_irsr : (captureDr s).target.irsr = s.target.irsr := by
  unfold captureDr; dsimp only; split <;> rfl
@[simp] theorem captureDr_clockCount : (captureDr s).target.clockCount = s.target.clockCount := by
  unfold captureDr; dsimp only; split <;> rfl
@[simp] theorem captureDr_mem : (captureDr s).mem = s.mem := by
  unfold captureDr; dsimp only; split <;> rfl
@[simp] theorem captureDr_ahbLog : (captureDr s).ahbLog = s.ahbLog := by
  unfold captureDr; dsimp only; split <;> rfl

/-- A capture loads the selected register's length (R33, R136). -/
theorem captureDr_dsr_length : (captureDr s).target.dsr.length = drLen s.sel := by
  unfold captureDr; dsimp only
  cases h : s.sel <;> simp [lowBits, drLen]

end

end Sys2Proof.Machine
end

