-- ==== Sys2Proof/Laws/Clock.lean ====
section
/-! SUPPORT. The laws of one TCK clock and of clocks in a row: what they leave, what they commute with, and what they do
in the Shift states. -/

namespace Sys2Proof.Machine

open Sys2Proof

/-! ## A clock sees and changes the target side alone -/

/-- The state with another engine, MPSSE engine, driver and list of calls around the same target. -/
def State.around (s : State) (e : Engine) (m : Mpsse) (u : Usb) (c : List Call) : State :=
  { s with engine := e, mpsse := m, usb := u, calls := c }

section
variable (s : State) (e : Engine) (m : Mpsse) (u : Usb) (c : List Call)

theorem startRead_around : startRead (s.around e m u c) = (startRead s).around e m u c := rfl

theorem memWrite_around (a : Word) (sz : BitVec 2) (d : Word) :
    memWrite (s.around e m u c) a sz d = (memWrite s a sz d).around e m u c := rfl

theorem updateCmd_around (v : BitVec 35) : updateCmd v (s.around e m u c) = (updateCmd v s).around e m u c := by
  unfold updateCmd
  by_cases h : cmdWrite v = true
  · simp only [h, if_true]; rfl
  · simp only [h]; rfl

theorem updateData_around (v : BitVec 33) : updateData v (s.around e m u c) = (updateData v s).around e m u c := by
  unfold updateData
  by_cases hw : s.target.bridge.curW = true <;> by_cases hf : seqFlag v = true
  all_goals
    simp only [State.around, State.setTarget, hw, hf, if_true]
    rfl

theorem captureDr_around : captureDr (s.around e m u c) = (captureDr s).around e m u c := by
  have hs : (s.around e m u c).sel = s.sel := rfl
  unfold captureDr
  rw [hs]
  cases s.sel <;> rfl

theorem updateDr_around : updateDr (s.around e m u c) = (updateDr s).around e m u c := by
  have hs : (s.around e m u c).sel = s.sel := rfl
  unfold updateDr
  rw [hs]
  cases s.sel
  · exact updateCmd_around s e m u c _
  · exact updateData_around s e m u c _
  · rfl
  · rfl

theorem risingEdge_around (tdi : Bool) : risingEdge tdi (s.around e m u c) = (risingEdge tdi s).around e m u c := by
  have ht : (s.around e m u c).target = s.target := rfl
  unfold risingEdge
  rw [ht]
  cases s.target.tap
  case capDR => exact captureDr_around s e m u c
  all_goals rfl

theorem fallingEdge_around : fallingEdge (s.around e m u c) = (fallingEdge s).around e m u c := by
  have ht : (s.around e m u c).target = s.target := rfl
  unfold fallingEdge
  rw [ht]
  cases s.target.tap
  case updDR => exact updateDr_around s e m u c
  all_goals rfl

theorem clock_around (tms tdi : Bool) :
    clock tms tdi (s.around e m u c) = ((clock tms tdi s).1, (clock tms tdi s).2.around e m u c) := by
  unfold clock
  have h1 : countClock (s.around e m u c) = (countClock s).around e m u c := rfl
  have h2 : ∀ s : State, moveTap tms (s.around e m u c) = (moveTap tms s).around e m u c := fun _ => rfl
  simp only [h1, risingEdge_around, h2, fallingEdge_around]
  rfl

end

/-- A clock leaves the engine, the MPSSE engine, the driver and the calls as they are. -/
theorem clock_self_around (tms tdi : Bool) (s : State) :
    (clock tms tdi s).2 = (clock tms tdi s).2.around s.engine s.mpsse s.usb s.calls :=
  congrArg Prod.snd (clock_around s s.engine s.mpsse s.usb s.calls tms tdi)

@[simp] theorem clock_engine (tms tdi : Bool) (s : State) : (clock tms tdi s).2.engine = s.engine := by
  rw [clock_self_around]; rfl
@[simp] theorem clock_mpsse (tms tdi : Bool) (s : State) : (clock tms tdi s).2.mpsse = s.mpsse := by
  rw [clock_self_around]; rfl
@[simp] theorem clock_usb (tms tdi : Bool) (s : State) : (clock tms tdi s).2.usb = s.usb := by
  rw [clock_self_around]; rfl
@[simp] theorem clock_calls (tms tdi : Bool) (s : State) : (clock tms tdi s).2.calls = s.calls := by
  rw [clock_self_around]; rfl

theorem clock_setMpsse (tms tdi : Bool) (s : State) (m : Mpsse) :
    clock tms tdi (s.setMpsse m) = ((clock tms tdi s).1, (clock tms tdi s).2.setMpsse m) := by
  have h := clock_around s s.engine m s.usb s.calls tms tdi
  rw [clock_self_around tms tdi s]
  exact h

theorem clock_setEngine (tms tdi : Bool) (s : State) (e : Engine) :
    clock tms tdi (s.setEngine e) = ((clock tms tdi s).1, (clock tms tdi s).2.setEngine e) := by
  have h := clock_around s e s.mpsse s.usb s.calls tms tdi
  rw [clock_self_around tms tdi s]
  exact h

theorem clock_setUsb (tms tdi : Bool) (s : State) (u : Usb) :
    clock tms tdi (s.setUsb u) = ((clock tms tdi s).1, (clock tms tdi s).2.setUsb u) := by
  have h := clock_around s s.engine s.mpsse u s.calls tms tdi
  rw [clock_self_around tms tdi s]
  exact h

theorem clock_setCalls (tms tdi : Bool) (s : State) (c : List Call) :
    clock tms tdi (s.setCalls c) = ((clock tms tdi s).1, (clock tms tdi s).2.setCalls c) := by
  have h := clock_around s s.engine s.mpsse s.usb c tms tdi
  rw [clock_self_around tms tdi s]
  exact h

/-! ## The open parameters stay -/

@[simp] theorem startRead_params (s : State) : (startRead s).params = s.params := rfl
@[simp] theorem memWrite_params (s : State) (a : Word) (sz : BitVec 2) (d : Word) :
    (memWrite s a sz d).params = s.params := rfl

@[simp] theorem updateCmd_params (v : BitVec 35) (s : State) : (updateCmd v s).params = s.params := by
  unfold updateCmd; dsimp only; split <;> rfl

@[simp] theorem updateData_params (v : BitVec 33) (s : State) : (updateData v s).params = s.params := by
  unfold updateData; dsimp only; split <;> split <;> rfl

@[simp] theorem captureDr_params (s : State) : (captureDr s).params = s.params := by
  unfold captureDr; dsimp only; split <;> rfl

@[simp] theorem updateDr_params (s : State) : (updateDr s).params = s.params := by
  unfold updateDr; split <;> simp

@[simp] theorem risingEdge_params (tdi : Bool) (s : State) : (risingEdge tdi s).params = s.params := by
  unfold risingEdge; split <;> simp

@[simp] theorem fallingEdge_params (s : State) : (fallingEdge s).params = s.params := by
  unfold fallingEdge; split <;> simp [loadIr]

@[simp] theorem clock_params (tms tdi : Bool) (s : State) : (clock tms tdi s).2.params = s.params := by
  simp [clock, moveTap, countClock]

/-! ## Clocks in a row -/

theorem clocked_append (p q : List (Bool × Bool)) (s : State) : clocked (p ++ q) s = clocked q (clocked p s) := by
  induction p generalizing s with
  | nil => rfl
  | cons x p ih => exact ih _

theorem tdoLevels_append (p q : List (Bool × Bool)) (s : State) :
    tdoLevels (p ++ q) s = tdoLevels p s ++ tdoLevels q (clocked p s) := by
  induction p generalizing s with
  | nil => rfl
  | cons x p ih => exact congrArg _ (ih _)

@[simp] theorem tdoLevels_length (p : List (Bool × Bool)) (s : State) : (tdoLevels p s).length = p.length := by
  induction p generalizing s with
  | nil => rfl
  | cons x p ih => simp [tdoLevels, ih]

@[simp] theorem clocked_engine (p : List (Bool × Bool)) (s : State) : (clocked p s).engine = s.engine := by
  induction p generalizing s with
  | nil => rfl
  | cons x p ih => simp [clocked, ih]
@[simp] theorem clocked_mpsse (p : List (Bool × Bool)) (s : State) : (clocked p s).mpsse = s.mpsse := by
  induction p generalizing s with
  | nil => rfl
  | cons x p ih => simp [clocked, ih]
@[simp] theorem clocked_usb (p : List (Bool × Bool)) (s : State) : (clocked p s).usb = s.usb := by
  induction p generalizing s with
  | nil => rfl
  | cons x p ih => simp [clocked, ih]
@[simp] theorem clocked_calls (p : List (Bool × Bool)) (s : State) : (clocked p s).calls = s.calls := by
  induction p generalizing s with
  | nil => rfl
  | cons x p ih => simp [clocked, ih]
@[simp] theorem clocked_params (p : List (Bool × Bool)) (s : State) : (clocked p s).params = s.params := by
  induction p generalizing s with
  | nil => rfl
  | cons x p ih => simp [clocked, ih]

theorem clocked_setMpsse (p : List (Bool × Bool)) (s : State) (m : Mpsse) :
    clocked p (s.setMpsse m) = (clocked p s).setMpsse m := by
  induction p generalizing s with
  | nil => rfl
  | cons x p ih => simp only [clocked, clock_setMpsse, ih]
theorem clocked_setEngine (p : List (Bool × Bool)) (s : State) (e : Engine) :
    clocked p (s.setEngine e) = (clocked p s).setEngine e := by
  induction p generalizing s with
  | nil => rfl
  | cons x p ih => simp only [clocked, clock_setEngine, ih]
theorem clocked_setUsb (p : List (Bool × Bool)) (s : State) (u : Usb) :
    clocked p (s.setUsb u) = (clocked p s).setUsb u := by
  induction p generalizing s with
  | nil => rfl
  | cons x p ih => simp only [clocked, clock_setUsb, ih]
theorem clocked_setCalls (p : List (Bool × Bool)) (s : State) (c : List Call) :
    clocked p (s.setCalls c) = (clocked p s).setCalls c := by
  induction p generalizing s with
  | nil => rfl
  | cons x p ih => simp only [clocked, clock_setCalls, ih]

theorem tdoLevels_setMpsse (p : List (Bool × Bool)) (s : State) (m : Mpsse) :
    tdoLevels p (s.setMpsse m) = tdoLevels p s := by
  induction p generalizing s with
  | nil => rfl
  | cons x p ih => simp only [tdoLevels, clock_setMpsse, ih]
theorem tdoLevels_setEngine (p : List (Bool × Bool)) (s : State) (e : Engine) :
    tdoLevels p (s.setEngine e) = tdoLevels p s := by
  induction p generalizing s with
  | nil => rfl
  | cons x p ih => simp only [tdoLevels, clock_setEngine, ih]
theorem tdoLevels_setUsb (p : List (Bool × Bool)) (s : State) (u : Usb) :
    tdoLevels p (s.setUsb u) = tdoLevels p s := by
  induction p generalizing s with
  | nil => rfl
  | cons x p ih => simp only [tdoLevels, clock_setUsb, ih]

theorem tdoLevels_setCalls (p : List (Bool × Bool)) (s : State) (c : List Call) :
    tdoLevels p (s.setCalls c) = tdoLevels p s := by
  induction p generalizing s with
  | nil => rfl
  | cons x p ih => simp only [tdoLevels, clock_setCalls, ih]

/-! ## Clocks in the Shift states -/

theorem shiftDsr_ne_nil (tdi : Bool) (d : List Bool) : shiftDsr tdi d ≠ [] := by simp [shiftDsr]

theorem clock_shDR (tms tdi : Bool) (s : State) (h : s.target.tap = .shDR) :
    clock tms tdi s = (s.target.dsr.headD false, s.setTarget { s.target with
      tap := if tms then .ex1DR else .shDR
      dsr := shiftDsr tdi s.target.dsr
      clockCount := s.target.clockCount + 1 }) := by
  cases tms <;> simp [clock, countClock, tdo, risingEdge, moveTap, fallingEdge, nextTap, h]

theorem clock_shIR (tms tdi : Bool) (s : State) (h : s.target.tap = .shIR) :
    clock tms tdi s = (s.target.irsr.getLsbD 0, s.setTarget { s.target with
      tap := if tms then .ex1IR else .shIR
      irsr := shiftIrsr tdi s.target.irsr
      clockCount := s.target.clockCount + 1 }) := by
  cases tms <;> simp [clock, countClock, tdo, risingEdge, moveTap, fallingEdge, nextTap, h]

/-- Clocks with TMS low in ShDR shift the register: bits enter at the top and leave at bit 0 (R137). -/
theorem clocked_shDR (xs : List Bool) (s : State) (h : s.target.tap = .shDR) (hd : s.target.dsr ≠ []) :
    clocked (xs.map fun x => (false, x)) s = s.setTarget { s.target with
      dsr := (s.target.dsr ++ xs).drop xs.length
      clockCount := s.target.clockCount + xs.length } := by
  induction xs generalizing s with
  | nil => simp only [List.append_nil]; rfl
  | cons x xs ih =>
    rw [List.map_cons, clocked, clock_shDR _ _ _ h, ih _ (by simp) (by simp [shiftDsr])]
    obtain ⟨b, d, hbd⟩ := List.exists_cons_of_ne_nil hd
    simp [h, hbd, shiftDsr, Nat.add_comm, Nat.add_left_comm]

/-- Their TDO levels: the register's bits from bit 0, then the bits shifted in (R139). -/
theorem tdoLevels_shDR (xs : List Bool) (s : State) (h : s.target.tap = .shDR) (hd : s.target.dsr ≠ []) :
    tdoLevels (xs.map fun x => (false, x)) s = (s.target.dsr ++ xs).take xs.length := by
  induction xs generalizing s with
  | nil => simp [tdoLevels]
  | cons x xs ih =>
    rw [List.map_cons, tdoLevels, clock_shDR _ _ _ h, ih _ (by simp) (by simp [shiftDsr])]
    obtain ⟨b, d, hbd⟩ := List.exists_cons_of_ne_nil hd
    simp [hbd, shiftDsr]

/-- Clocks with TMS low in ShIR shift the IR. -/
theorem clocked_shIR (xs : List Bool) (s : State) (h : s.target.tap = .shIR) :
    clocked (xs.map fun x => (false, x)) s = s.setTarget { s.target with
      irsr := xs.foldl (fun r x => shiftIrsr x r) s.target.irsr
      clockCount := s.target.clockCount + xs.length } := by
  induction xs generalizing s with
  | nil => rfl
  | cons x xs ih =>
    rw [List.map_cons, clocked, clock_shIR _ _ _ h, ih _ (by simp)]
    simp [h, Nat.add_comm, Nat.add_left_comm]

/-- Six bits shifted in are the IR shift register, the first in bit 0 (R137). -/
theorem shiftIrsr_lowBits (op r : BitVec 6) : (lowBits 6 op).foldl (fun r x => shiftIrsr x r) r = op := by
  revert op r; decide +kernel

/-! ## The MPSSE engine's clocks -/

/-- The MPSSE engine with its pins driven to these levels, TCK low. -/
def Mpsse.pins (m : Mpsse) (tms tdi : Bool) : Mpsse := { m with tmsPin := tms, tdiPin := tdi, tckPin := false }

/-- The MPSSE engine with this `rx_fifo`. -/
def Mpsse.rx (m : Mpsse) (f : List Byte) : Mpsse := { m with rxFifo := f }

/-- The MPSSE engine with this input. -/
def Mpsse.inp (m : Mpsse) (bs : List Byte) : Mpsse := { m with input := bs }

section
variable (m : Mpsse) (t d t' d' : Bool) (f g : List Byte)
@[simp] theorem pins_tmsPin : (m.pins t d).tmsPin = t := rfl
@[simp] theorem pins_tdiPin : (m.pins t d).tdiPin = d := rfl
@[simp] theorem pins_tckPin : (m.pins t d).tckPin = false := rfl
@[simp] theorem pins_loopback : (m.pins t d).loopback = m.loopback := rfl
@[simp] theorem pins_rxFifo : (m.pins t d).rxFifo = m.rxFifo := rfl
@[simp] theorem pins_input : (m.pins t d).input = m.input := rfl
@[simp] theorem pins_pins : (m.pins t d).pins t' d' = m.pins t' d' := rfl
@[simp] theorem rx_tmsPin : (m.rx f).tmsPin = m.tmsPin := rfl
@[simp] theorem rx_tdiPin : (m.rx f).tdiPin = m.tdiPin := rfl
@[simp] theorem rx_tckPin : (m.rx f).tckPin = m.tckPin := rfl
@[simp] theorem rx_loopback : (m.rx f).loopback = m.loopback := rfl
@[simp] theorem rx_rxFifo : (m.rx f).rxFifo = f := rfl
@[simp] theorem rx_input : (m.rx f).input = m.input := rfl
@[simp] theorem rx_rx : (m.rx f).rx g = m.rx g := rfl
@[simp] theorem rx_pins : (m.rx f).pins t d = (m.pins t d).rx f := rfl
@[simp] theorem inp_tmsPin : (m.inp f).tmsPin = m.tmsPin := rfl
@[simp] theorem inp_tdiPin : (m.inp f).tdiPin = m.tdiPin := rfl
@[simp] theorem inp_tckPin : (m.inp f).tckPin = m.tckPin := rfl
@[simp] theorem inp_loopback : (m.inp f).loopback = m.loopback := rfl
@[simp] theorem inp_rxFifo : (m.inp f).rxFifo = m.rxFifo := rfl
@[simp] theorem inp_input : (m.inp f).input = f := rfl
@[simp] theorem inp_inp : (m.inp f).inp g = m.inp g := rfl
@[simp] theorem inp_pins : (m.inp f).pins t d = (m.pins t d).inp f := rfl
@[simp] theorem inp_rx : (m.inp f).rx g = (m.rx g).inp f := rfl
@[simp] theorem rx_self : m.rx m.rxFifo = m := rfl
@[simp] theorem inp_self : m.inp m.input = m := rfl
end

/-- The MPSSE engine after the clocks of a command: its pins at the last levels driven, TCK low. -/
def pinsAfter (p : List (Bool × Bool)) (m : Mpsse) : Mpsse :=
  match p.getLast? with
  | none => m
  | some x => m.pins x.1 x.2

@[simp] theorem pinsAfter_nil (m : Mpsse) : pinsAfter [] m = m := rfl

@[simp] theorem pinsAfter_concat (p : List (Bool × Bool)) (x : Bool × Bool) (m : Mpsse) :
    pinsAfter (p ++ [x]) m = m.pins x.1 x.2 := by simp [pinsAfter]

theorem pinsAfter_cons (x : Bool × Bool) (p : List (Bool × Bool)) (m : Mpsse) :
    pinsAfter (x :: p) m = pinsAfter p (m.pins x.1 x.2) := by
  cases p using List.reverseRecOn with
  | nil => rfl
  | append_singleton p y => rw [← List.cons_append, pinsAfter_concat, pinsAfter_concat]; rfl

theorem pinsAfter_append (p q : List (Bool × Bool)) (m : Mpsse) :
    pinsAfter (p ++ q) m = pinsAfter q (pinsAfter p m) := by
  cases q using List.reverseRecOn with
  | nil => simp
  | append_singleton q y =>
    rw [← List.append_assoc, pinsAfter_concat, pinsAfter_concat]
    unfold pinsAfter
    split <;> rfl

@[simp] theorem pinsAfter_rx (p : List (Bool × Bool)) (m : Mpsse) (f : List Byte) :
    pinsAfter p (m.rx f) = (pinsAfter p m).rx f := by
  unfold pinsAfter; split <;> rfl

@[simp] theorem pinsAfter_inp (p : List (Bool × Bool)) (m : Mpsse) (f : List Byte) :
    pinsAfter p (m.inp f) = (pinsAfter p m).inp f := by
  unfold pinsAfter; split <;> rfl

@[simp] theorem pinsAfter_rxFifo (p : List (Bool × Bool)) (m : Mpsse) : (pinsAfter p m).rxFifo = m.rxFifo := by
  unfold pinsAfter; split <;> rfl

@[simp] theorem pinsAfter_input (p : List (Bool × Bool)) (m : Mpsse) : (pinsAfter p m).input = m.input := by
  unfold pinsAfter; split <;> rfl

@[simp] theorem pinsAfter_loopback (p : List (Bool × Bool)) (m : Mpsse) : (pinsAfter p m).loopback = m.loopback := by
  unfold pinsAfter; split <;> rfl

/-- The samples the MPSSE engine records of some clocks: with loopback on the TDI levels, else the TDO levels (R160). -/
def samplesOf (p : List (Bool × Bool)) (s : State) : List Bool :=
  if s.mpsse.loopback then p.map Prod.snd else tdoLevels p s

/-- Everything the clocks of a command do: their samples, the clocks of the target, and the pins. -/
theorem clockPins_eq (p : List (Bool × Bool)) (s : State) :
    clockPins p s = (samplesOf p s, (clocked p s).setMpsse (pinsAfter p s.mpsse)) := by
  induction p generalizing s with
  | nil => simp [clockPins, samplesOf, tdoLevels, clocked]
  | cons x p ih =>
    obtain ⟨tms, tdi⟩ := x
    have hd : drivePins tms tdi s = s.setMpsse (s.mpsse.pins tms tdi) := rfl
    simp only [clockPins, clockPin, hd, clock_setMpsse, ih, clocked_setMpsse, clocked, pinsAfter_cons,
      setMpsse_mpsse, setMpsse_setMpsse, samplesOf, sample, tdoLevels, tdoLevels_setMpsse, List.map_cons]
    refine Prod.ext ?_ rfl
    by_cases h : s.mpsse.loopback = true <;> simp [h]

theorem samplesOf_append (p q : List (Bool × Bool)) (s : State) :
    samplesOf (p ++ q) s = samplesOf p s ++ samplesOf q (clocked p s) := by
  by_cases h : s.mpsse.loopback = true <;> simp [samplesOf, h, tdoLevels_append]

@[simp] theorem samplesOf_length (p : List (Bool × Bool)) (s : State) : (samplesOf p s).length = p.length := by
  by_cases h : s.mpsse.loopback = true <;> simp [samplesOf, h]

/-- Samples depend on the MPSSE engine through loopback alone. -/
theorem samplesOf_setMpsse (p : List (Bool × Bool)) (s : State) (m : Mpsse) (h : m.loopback = s.mpsse.loopback) :
    samplesOf p (s.setMpsse m) = samplesOf p s := by
  simp [samplesOf, h, tdoLevels_setMpsse]

end Sys2Proof.Machine
end

