-- ==== Sys2Proof/Laws/Memory.lean ====
section
/-! SUPPORT. The laws of the AHB memory: what a byte reads as after a store, and that every store keeps the canonical form. -/

namespace Sys2Proof.Machine

open Sys2Proof

/-! ## Reading after a write -/

theorem Memory.read_cons (a : Nat) (v : Byte) (rest : List Host.Cell) (x : Nat) (h : Memory.read rest a = Memory.unlisted) :
    Memory.read (Memory.cons a v rest) x = if x = a then v else Memory.read rest x := by
  unfold Memory.cons
  split
  · rename_i hv
    split
    · next hx => subst hx; rw [h, hv]
    · rfl
  · simp only [Memory.read]
    by_cases hx : x = a
    · simp [hx]
    · simp [hx, Ne.symm hx]

/-- Every listed address is above a. -/
def Memory.above (a : Nat) (m : List Host.Cell) : Prop := ∀ c ∈ m, a < c.1

theorem Memory.read_of_above {a x : Nat} {m : List Host.Cell} (h : Memory.above a m) (hx : x ≤ a) :
    Memory.read m x = Memory.unlisted := by
  induction m with
  | nil => rfl
  | cons c rest ih =>
    obtain ⟨k, v⟩ := c
    have hk : a < k := h (k, v) (by simp)
    have : k ≠ x := by omega
    simp only [Memory.read, this, if_false]
    exact ih fun c hc => h c (by simp [hc])

/-- The canonical form in one induction: the head's bounds, and the tail above it. -/
theorem Memory.wf_cons (a : Nat) (v : Byte) (m : List Host.Cell) :
    Memory.wf ((a, v) :: m) = true ↔ (a < 2 ^ 32 ∧ v ≠ Memory.unlisted ∧ Memory.above a m ∧ Memory.wf m = true) := by
  induction m generalizing a v with
  | nil => simp [Memory.wf, Memory.above]
  | cons c rest ih =>
    obtain ⟨b, w⟩ := c
    have h1 : Memory.wf ((a, v) :: (b, w) :: rest) = true ↔
        (a < b ∧ v ≠ Memory.unlisted) ∧ Memory.wf ((b, w) :: rest) = true := by
      simp [Memory.wf]
    rw [h1]
    constructor
    · rintro ⟨⟨hab, hv⟩, hw⟩
      obtain ⟨hb, _, habove, _⟩ := (ih b w).1 hw
      refine ⟨by omega, hv, ?_, hw⟩
      intro c hc
      rcases List.mem_cons.1 hc with rfl | hc
      · exact hab
      · exact lt_trans hab (habove c hc)
    · rintro ⟨_, hv, habove, hw⟩
      exact ⟨⟨habove (b, w) (by simp), hv⟩, hw⟩

theorem Memory.read_write {m : List Host.Cell} (h : Memory.wf m = true) (a : Nat) (v : Byte) (x : Nat) :
    Memory.read (Memory.write m a v) x = if x = a then v else Memory.read m x := by
  induction m with
  | nil => simp only [Memory.write]; exact Memory.read_cons a v [] x rfl
  | cons c rest ih =>
    obtain ⟨k, w⟩ := c
    obtain ⟨_, _, habove, hrest⟩ := (Memory.wf_cons k w rest).1 h
    simp only [Memory.write]
    split
    · next hak =>
      refine Memory.read_cons a v _ x ?_
      have : k ≠ a := by omega
      simp only [Memory.read, this, if_false]
      exact Memory.read_of_above habove (by omega)
    · split
      · next hak =>
        subst hak
        rw [Memory.read_cons a v rest x (Memory.read_of_above habove le_rfl)]
        by_cases hx : x = a
        · simp [hx]
        · simp [Memory.read, hx, Ne.symm hx]
      · next hna hne =>
        simp only [Memory.read, ih hrest]
        by_cases hk : k = x
        · subst hk; simp [Ne.symm hne]
        · simp [hk]

/-! ## The canonical form is kept -/

theorem Memory.above_write {m : List Host.Cell} {b a : Nat} (v : Byte) (h : Memory.above b m) (hb : b < a) :
    Memory.above b (Memory.write m a v) := by
  induction m with
  | nil =>
    simp only [Memory.write, Memory.cons]
    split
    · exact h
    · intro c hc; rw [List.mem_singleton.1 hc]; exact hb
  | cons c rest ih =>
    obtain ⟨k, w⟩ := c
    have hrest : Memory.above b rest := fun c hc => h c (by simp [hc])
    have hk : b < k := h (k, w) (by simp)
    simp only [Memory.write, Memory.cons]
    split
    · split
      · exact h
      · intro c hc
        rcases List.mem_cons.1 hc with rfl | hc
        · exact hb
        · exact h c hc
    · split
      · split
        · exact hrest
        · intro c hc
          rcases List.mem_cons.1 hc with rfl | hc
          · exact hb
          · exact hrest c hc
      · intro c hc
        rcases List.mem_cons.1 hc with rfl | hc
        · exact hk
        · exact ih hrest c hc

theorem Memory.write_wf {m : List Host.Cell} (h : Memory.wf m = true) {a : Nat} (ha : a < 2 ^ 32) (v : Byte) :
    Memory.wf (Memory.write m a v) = true := by
  induction m with
  | nil =>
    simp only [Memory.write, Memory.cons]
    split
    · rfl
    · next hv => exact (Memory.wf_cons a v []).2 ⟨ha, hv, by simp [Memory.above], rfl⟩
  | cons c rest ih =>
    obtain ⟨k, w⟩ := c
    obtain ⟨hk, hw, habove, hrest⟩ := (Memory.wf_cons k w rest).1 h
    simp only [Memory.write, Memory.cons]
    split
    · next hak =>
      split
      · exact h
      · next hv =>
        refine (Memory.wf_cons a v _).2 ⟨ha, hv, ?_, h⟩
        intro c hc
        rcases List.mem_cons.1 hc with rfl | hc
        · exact hak
        · exact lt_trans hak (habove c hc)
    · split
      · next hak =>
        subst hak
        split
        · exact hrest
        · next hv => exact (Memory.wf_cons a v _).2 ⟨ha, hv, habove, hrest⟩
      · next hna hne =>
        exact (Memory.wf_cons k w _).2 ⟨hk, hw, Memory.above_write v habove (by omega), ih hrest⟩

theorem storeByte_wf (p : Config.Params) {m : List Host.Cell} (h : Memory.wf m = true) (a : Word) (v : Byte) :
    Memory.wf (storeByte p m a v) = true := by
  unfold storeByte
  split
  · exact Memory.write_wf h a.isLt v
  · exact h

theorem storeBytes_wf (p : Config.Params) (stores : List (Word × Byte)) {m : List Host.Cell} (h : Memory.wf m = true) :
    Memory.wf (storeBytes p stores m) = true := by
  induction stores generalizing m with
  | nil => exact h
  | cons c rest ih => exact ih (storeByte_wf p h c.1 c.2)

/-! ## What a byte reads as after stores -/

theorem read_storeByte (p : Config.Params) {m : List Host.Cell} (h : Memory.wf m = true) (a : Word) (v : Byte) (x : Word) :
    Memory.read (storeByte p m a v) x.toNat = if x = a ∧ inRam p a = true then v else Memory.read m x.toNat := by
  unfold storeByte
  by_cases hr : inRam p a = true
  · simp only [hr, if_true, and_true, Memory.read_write h]
    by_cases hx : x = a
    · simp [hx]
    · have : x.toNat ≠ a.toNat := fun e => hx (BitVec.eq_of_toNat_eq e)
      simp [hx, this]
  · simp [hr]

/-- A store outside `RAM_REGION`, or to other addresses, leaves a byte as it is. -/
theorem read_storeBytes_other (p : Config.Params) (stores : List (Word × Byte)) {m : List Host.Cell}
    (h : Memory.wf m = true) (x : Word) (hx : inRam p x = false ∨ x ∉ stores.map Prod.fst) :
    Memory.read (storeBytes p stores m) x.toNat = Memory.read m x.toNat := by
  induction stores generalizing m with
  | nil => rfl
  | cons c rest ih =>
    obtain ⟨a, v⟩ := c
    have hrest : inRam p x = false ∨ x ∉ rest.map Prod.fst := hx.imp_right fun hx => by
      intro hm; exact hx (by simp only [List.map_cons, List.mem_cons]; exact Or.inr hm)
    have hne : ¬ (x = a ∧ inRam p a = true) := by
      rintro ⟨rfl, hr⟩
      rcases hx with hx | hx
      · rw [hr] at hx; cases hx
      · exact hx (by simp)
    simp only [storeBytes]
    rw [ih (storeByte_wf p h a v) hrest, read_storeByte p h, if_neg hne]

/-- A byte of `RAM_REGION` reads as the one value that was stored to it. -/
theorem read_storeBytes_stored (p : Config.Params) (stores : List (Word × Byte)) {m : List Host.Cell}
    (h : Memory.wf m = true) (x : Word) (v : Byte) (hr : inRam p x = true) (hm : (x, v) ∈ stores)
    (hu : ∀ w, (x, w) ∈ stores → w = v) :
    Memory.read (storeBytes p stores m) x.toNat = v := by
  induction stores generalizing m with
  | nil => cases hm
  | cons c rest ih =>
    obtain ⟨a, w⟩ := c
    have hwf := storeByte_wf p h a w
    simp only [storeBytes]
    by_cases hin : (x, v) ∈ rest
    · exact ih hwf hin fun w hw => hu w (by simp [hw])
    · rcases List.mem_cons.1 hm with heq | hm
      · have hxa : x = a := (Prod.mk.injEq .. ▸ heq).1
        have hvw : v = w := (Prod.mk.injEq .. ▸ heq).2
        subst hxa; subst hvw
        rw [read_storeBytes_other p rest hwf x (Or.inr ?_), read_storeByte p h, if_pos ⟨rfl, hr⟩]
        intro hmem
        obtain ⟨⟨y, u⟩, hyu, rfl⟩ := List.mem_map.1 hmem
        have := hu u (by simp [hyu])
        subst this
        exact hin hyu
      · exact absurd hm hin

/-- The reset memory has the canonical form. -/
theorem reset_mem_wf : Memory.wf State.reset.mem = true := rfl

end Sys2Proof.Machine
end

