-- ==== Sys2Proof/Laws/Mpsse.lean ====
section
/-! SUPPORT. The laws of the MPSSE engine's shared operations: each is the clocks of its pin levels, in order, on the target,
and its response bytes. -/

namespace Sys2Proof.Machine

open Sys2Proof

/-! ## The pin levels of a command -/

@[simp] theorem lowBits_length {w : Nat} (n : Nat) (v : BitVec w) : (lowBits n v).length = n := by simp [lowBits]

theorem lowBits_succ {w : Nat} (n : Nat) (v : BitVec w) : lowBits (n + 1) v = lowBits n v ++ [v.getLsbD n] := by
  simp [lowBits, List.range_succ]

@[simp] theorem tmsPins_length (l b : Byte) : (tmsPins l b).length = l.toNat + 1 := by simp [tmsPins]
@[simp] theorem bitPins_length (t : Bool) (l b : Byte) : (bitPins t l b).length = l.toNat + 1 := by simp [bitPins]
@[simp] theorem heldPins_length (t d : Bool) (l : Byte) : (heldPins t d l).length = l.toNat + 1 := by simp [heldPins]
@[simp] theorem bytePins_length (t : Bool) (d : Byte) : (bytePins t d).length = 8 := by simp [bytePins]

/-- After M-TMS, TMS stands at the last bit clocked and TDI at bit 7 (R161). -/
theorem pinsAfter_tmsPins (l b : Byte) (m : Mpsse) :
    pinsAfter (tmsPins l b) m = m.pins (b.getLsbD l.toNat) (b.getLsbD 7) := by
  rw [tmsPins, lowBits_succ, List.map_append]
  exact pinsAfter_concat _ _ m

/-- After M-BITS, TDI stands at the last bit clocked (R161). -/
theorem pinsAfter_bitPins (t : Bool) (l b : Byte) (m : Mpsse) :
    pinsAfter (bitPins t l b) m = m.pins t (b.getLsbD l.toNat) := by
  rw [bitPins, lowBits_succ, List.map_append]
  exact pinsAfter_concat _ _ m

/-- After M-CLK and M-BITS-IN, both pins stand where they stood (R161). -/
theorem pinsAfter_heldPins (t d : Bool) (l : Byte) (m : Mpsse) :
    pinsAfter (heldPins t d l) m = m.pins t d := by
  rw [heldPins, List.replicate_succ']
  exact pinsAfter_concat _ _ m

/-- After a byte, TDI stands at its bit 7 (R161). -/
theorem pinsAfter_bytePins (t : Bool) (d : Byte) (m : Mpsse) :
    pinsAfter (bytePins t d) m = m.pins t (d.getLsbD 7) := by
  rw [bytePins, lowBits_succ 7, List.map_append]
  exact pinsAfter_concat _ _ m

/-! ## What the shared operations do -/

/-- Clocks out: the target sees them, and the pins end at their last levels. -/
theorem clockOut_eq (p : List (Bool × Bool)) (s : State) :
    clockOut p s = (clocked p s).setMpsse (pinsAfter p s.mpsse) := by
  rw [clockOut, clockPins_eq]

/-- A bit-mode read: the same clocks, and one response byte of the samples. -/
theorem clockBitsIn_eq (p : List (Bool × Bool)) (s : State) :
    clockBitsIn p s = (clocked p s).setMpsse ((pinsAfter p s.mpsse).rx (s.mpsse.rxFifo
        ++ [bitResponse (samplesOf p s) (Config.responseLowBits (clocked p s).target.clockCount)])) := by
  rw [clockBitsIn, clockPins_eq, ← pinsAfter_rxFifo p s.mpsse]
  rfl

/-- One byte of a byte-mode read: its clocks, and one response byte of its eight samples. -/
theorem clockByteIn_eq (d : Byte) (s : State) :
    clockByteIn d s = (clocked (bytePins s.mpsse.tmsPin d) s).setMpsse ((s.mpsse.pins s.mpsse.tmsPin (d.getLsbD 7)).rx
      (s.mpsse.rxFifo ++ [byteResponse (samplesOf (bytePins s.mpsse.tmsPin d) s)])) := by
  rw [clockByteIn, clockPins_eq, pinsAfter_bytePins]
  rfl

/-- The pin levels of bytes in a row. -/
def bytesPins (t : Bool) (ds : List Byte) : List (Bool × Bool) := ds.flatMap (bytePins t)

theorem bytesPins_cons (t : Bool) (d : Byte) (ds : List Byte) : bytesPins t (d :: ds) = bytePins t d ++ bytesPins t ds :=
  rfl

@[simp] theorem bytesPins_length (t : Bool) (ds : List Byte) : (bytesPins t ds).length = 8 * ds.length := by
  induction ds with
  | nil => rfl
  | cons d ds ih => rw [bytesPins_cons, List.length_append, ih, bytePins_length, List.length_cons]; omega

/-- Bytes clocked out are the clocks of all their bits (R167). -/
theorem clockBytesOut_eq (ds : List Byte) (s : State) :
    clockBytesOut ds s = (clocked (bytesPins s.mpsse.tmsPin ds) s).setMpsse
      (pinsAfter (bytesPins s.mpsse.tmsPin ds) s.mpsse) := by
  induction ds generalizing s with
  | nil => rfl
  | cons d ds ih =>
    rw [clockBytesOut, ih, clockOut_eq, pinsAfter_bytePins]
    simp only [setMpsse_mpsse, clocked_setMpsse, setMpsse_setMpsse, bytesPins_cons, clocked_append,
      pinsAfter_append, pinsAfter_bytePins, pins_tmsPin]

/-- The response bytes of bytes in a row, each of eight samples (R99). -/
def byteResponses : Nat → List Bool → List Byte
  | 0, _ => []
  | n + 1, xs => byteResponse (xs.take 8) :: byteResponses n (xs.drop 8)

@[simp] theorem byteResponses_length (n : Nat) (xs : List Bool) : (byteResponses n xs).length = n := by
  induction n generalizing xs with
  | zero => rfl
  | succ n ih => simp [byteResponses, ih]

/-- Bytes clocked in are the clocks of all their bits, and a response byte of each eight samples (R168). -/
theorem clockBytesIn_eq (ds : List Byte) (s : State) :
    clockBytesIn ds s = (clocked (bytesPins s.mpsse.tmsPin ds) s).setMpsse
      ((pinsAfter (bytesPins s.mpsse.tmsPin ds) s.mpsse).rx
        (s.mpsse.rxFifo ++ byteResponses ds.length (samplesOf (bytesPins s.mpsse.tmsPin ds) s))) := by
  induction ds generalizing s with
  | nil => simp only [byteResponses, List.append_nil, List.length_nil]; rfl
  | cons d ds ih =>
    have hl : (samplesOf (bytePins s.mpsse.tmsPin d) s).length = 8 := by simp
    rw [clockBytesIn, ih, clockByteIn_eq, clocked_setMpsse, samplesOf_setMpsse _ _ _ (by simp)]
    simp only [setMpsse_mpsse, setMpsse_setMpsse, bytesPins_cons, clocked_append, pinsAfter_append, pinsAfter_bytePins,
      samplesOf_append, List.length_cons, byteResponses, rx_tmsPin, pins_tmsPin, pinsAfter_rx, rx_rx, rx_rxFifo]
    rw [List.take_append_of_le_length (by omega), List.take_of_length_le (by omega), List.drop_append_of_le_length (by omega),
      List.drop_of_length_le (by omega), List.append_assoc]
    rfl

/-- All that a command of no described effect may do (U16): it clocks the target with some levels, leaves the pins at the last
of them, queues some bytes, and counts itself. -/
theorem runUndescribed_eq (s : State) :
    runUndescribed s = (clocked (Config.undescribedClocks s.mpsse.undescribed) s).setMpsse
      { pinsAfter (Config.undescribedClocks s.mpsse.undescribed) s.mpsse with
        rxFifo := s.mpsse.rxFifo ++ Config.undescribedResponse s.mpsse.undescribed
        undescribed := s.mpsse.undescribed + 1 } := by
  unfold runUndescribed pushRx
  simp only [clockOut_eq, clocked_setMpsse, setMpsse_setMpsse, setMpsse_mpsse, pinsAfter_rxFifo]
  unfold pinsAfter
  split <;> rfl

end Sys2Proof.Machine
end

