-- ==== Sys2Proof/Laws/Stream.lean ====
section
/-! SUPPORT. The laws of the MPSSE byte stream: what one command does, what a stream of the engine's commands does, and what
a delivery leaves that ends inside a command. -/

namespace Sys2Proof.Machine

open Sys2Proof

/-! ## One command -/

/-- The state a command leaves. -/
def ran (i : Instr) (s : State) : State :=
  match runCommand i s with
  | .next t => t
  | _ => s

/-- The states that commands in order leave. -/
def ranAll (cs : List Instr) (s : State) : State := cs.foldl (fun s c => ran c s) s

@[simp] theorem ranAll_nil (s : State) : ranAll [] s = s := rfl
@[simp] theorem ranAll_cons (c : Instr) (cs : List Instr) (s : State) : ranAll (c :: cs) s = ranAll cs (ran c s) := rfl
theorem ranAll_append (cs ds : List Instr) (s : State) : ranAll (cs ++ ds) s = ranAll ds (ranAll cs s) := by
  simp [ranAll]

/-- The commands that the block's operations emit (R91 to R94), their operands in range. -/
def engineCommand : Instr → Bool
  | .tmsOut l _ => tmsLengthOk l
  | .bitsOut l _ => bitsLengthOk l
  | .bytesOut d => bytesLengthOk d
  | .bytesInout d => bytesLengthOk d
  | .clkOnly l => bitsLengthOk l
  | _ => false

/-- The engine's commands, one by one. -/
theorem engineCommand_cases {P : Instr → Prop} (i : Instr) (h : engineCommand i = true)
    (h1 : ∀ l b, tmsLengthOk l = true → P (.tmsOut l b)) (h2 : ∀ l b, bitsLengthOk l = true → P (.bitsOut l b))
    (h3 : ∀ d, bytesLengthOk d = true → P (.bytesOut d)) (h4 : ∀ d, bytesLengthOk d = true → P (.bytesInout d))
    (h5 : ∀ l, bitsLengthOk l = true → P (.clkOnly l)) : P i := by
  cases i
  case tmsOut l b => exact h1 l b h
  case bitsOut l b => exact h2 l b h
  case bytesOut d => exact h3 d h
  case bytesInout d => exact h4 d h
  case clkOnly l => exact h5 l h
  all_goals exact absurd h Bool.false_ne_true

theorem ran_tmsOut (l b : Byte) (s : State) (h : tmsLengthOk l = true) :
    ran (.tmsOut l b) s =
      (clocked (tmsPins l b) s).setMpsse (s.mpsse.pins (b.getLsbD l.toNat) (b.getLsbD 7)) := by
  rw [← pinsAfter_tmsPins, ← clockOut_eq]
  show (match inRange (tmsLengthOk l) (clockOut (tmsPins l b) s) with | .next t => t | _ => s) = _
  rw [h]; rfl

theorem ran_bitsOut (l b : Byte) (s : State) (h : bitsLengthOk l = true) :
    ran (.bitsOut l b) s =
      (clocked (bitPins s.mpsse.tmsPin l b) s).setMpsse (s.mpsse.pins s.mpsse.tmsPin (b.getLsbD l.toNat)) := by
  rw [← pinsAfter_bitPins, ← clockOut_eq]
  show (match inRange (bitsLengthOk l) (clockOut (bitPins s.mpsse.tmsPin l b) s) with | .next t => t | _ => s) = _
  rw [h]; rfl

theorem ran_clkOnly (l : Byte) (s : State) (h : bitsLengthOk l = true) :
    ran (.clkOnly l) s =
      (clocked (heldPins s.mpsse.tmsPin s.mpsse.tdiPin l) s).setMpsse (s.mpsse.pins s.mpsse.tmsPin s.mpsse.tdiPin) := by
  rw [← pinsAfter_heldPins _ _ l, ← clockOut_eq]
  show (match inRange (bitsLengthOk l) (clockOut (heldPins s.mpsse.tmsPin s.mpsse.tdiPin l) s) with
    | .next t => t | _ => s) = _
  rw [h]; rfl

theorem ran_bytesOut (d : List Byte) (s : State) (h : bytesLengthOk d = true) :
    ran (.bytesOut d) s = (clocked (bytesPins s.mpsse.tmsPin d) s).setMpsse
      (pinsAfter (bytesPins s.mpsse.tmsPin d) s.mpsse) := by
  rw [← clockBytesOut_eq]
  show (match inRange (bytesLengthOk d) (clockBytesOut d s) with | .next t => t | _ => s) = _
  rw [h]; rfl

theorem ran_bytesInout (d : List Byte) (s : State) (h : bytesLengthOk d = true) :
    ran (.bytesInout d) s = (clocked (bytesPins s.mpsse.tmsPin d) s).setMpsse
      ((pinsAfter (bytesPins s.mpsse.tmsPin d) s.mpsse).rx
        (s.mpsse.rxFifo ++ byteResponses d.length (samplesOf (bytesPins s.mpsse.tmsPin d) s))) := by
  rw [← clockBytesIn_eq]
  show (match inRange (bytesLengthOk d) (clockBytesIn d s) with | .next t => t | _ => s) = _
  rw [h]; rfl

theorem runCommand_engine (i : Instr) (s : State) (h : engineCommand i = true) : runCommand i s = .next (ran i s) := by
  have key : ∀ (ok : Bool) (t : State) (o : Host.Outcome State Fault Refusal), o = inRange ok t → ok = true →
      o = .next (match o with | .next t => t | _ => s) := by
    rintro ok t o rfl rfl; rfl
  refine engineCommand_cases (P := fun i => runCommand i s = .next (ran i s)) i h ?_ ?_ ?_ ?_ ?_
  · intro l b h; exact key _ _ _ rfl h
  · intro l b h; exact key _ _ _ rfl h
  · intro d h; exact key _ _ _ rfl h
  · intro d h; exact key _ _ _ rfl h
  · intro l h; exact key _ _ _ rfl h

/-- A command of the engine leaves the MPSSE engine's input. -/
theorem ran_input (i : Instr) (s : State) (bs : List Byte) (h : engineCommand i = true) :
    ran i (setInput bs s) = setInput bs (ran i s) := by
  have hj : ∀ t, setInput bs t = t.setMpsse (t.mpsse.inp bs) := fun _ => rfl
  rw [hj, hj]
  refine engineCommand_cases (P := fun i => ran i (s.setMpsse (s.mpsse.inp bs)) = (ran i s).setMpsse ((ran i s).mpsse.inp bs)) i h ?_ ?_ ?_ ?_ ?_
  · intro l b h; rw [ran_tmsOut _ _ _ h, ran_tmsOut _ _ _ h]; simp [clocked_setMpsse]
  · intro l b h; rw [ran_bitsOut _ _ _ h, ran_bitsOut _ _ _ h]; simp [clocked_setMpsse]
  · intro d h; rw [ran_bytesOut _ _ h, ran_bytesOut _ _ h]; simp [clocked_setMpsse]
  · intro d h
    rw [ran_bytesInout _ _ h, ran_bytesInout _ _ h, samplesOf_setMpsse _ _ _ (by simp)]
    simp [clocked_setMpsse]
  · intro l h; rw [ran_clkOnly _ _ h, ran_clkOnly _ _ h]; simp [clocked_setMpsse]

/-- A command of the engine leaves the engine, the driver and the calls, whatever they are. -/
theorem ran_around (i : Instr) (s : State) (e : Engine) (u : Usb) (c : List Call) (h : engineCommand i = true) :
    ran i (s.around e s.mpsse u c) = (ran i s).around e (ran i s).mpsse u c := by
  have hs : s.around e s.mpsse u c = ((s.setEngine e).setUsb u).setCalls c := rfl
  have hr : (ran i s).around e (ran i s).mpsse u c = (((ran i s).setEngine e).setUsb u).setCalls c := rfl
  rw [hs, hr]
  refine engineCommand_cases (P := fun i => ran i (((s.setEngine e).setUsb u).setCalls c) = (((ran i s).setEngine e).setUsb u).setCalls c) i h ?_ ?_ ?_ ?_ ?_
  · intro l b h
    rw [ran_tmsOut _ _ _ h, ran_tmsOut _ _ _ h]
    simp only [clocked_setCalls, clocked_setUsb, clocked_setEngine]; rfl
  · intro l b h
    rw [ran_bitsOut _ _ _ h, ran_bitsOut _ _ _ h]
    simp only [setCalls_mpsse, setUsb_mpsse, setEngine_mpsse, clocked_setCalls, clocked_setUsb, clocked_setEngine]; rfl
  · intro d h
    rw [ran_bytesOut _ _ h, ran_bytesOut _ _ h]
    simp only [setCalls_mpsse, setUsb_mpsse, setEngine_mpsse, clocked_setCalls, clocked_setUsb, clocked_setEngine]; rfl
  · intro d h
    rw [ran_bytesInout _ _ h, ran_bytesInout _ _ h]
    have hl : ∀ p, samplesOf p (((s.setEngine e).setUsb u).setCalls c) = samplesOf p s := by
      intro p
      unfold samplesOf
      have : tdoLevels p (((s.setEngine e).setUsb u).setCalls c) = tdoLevels p s := by
        rw [tdoLevels_setCalls, tdoLevels_setUsb, tdoLevels_setEngine]
      rw [this]; rfl
    rw [hl]
    simp only [setCalls_mpsse, setUsb_mpsse, setEngine_mpsse, clocked_setCalls, clocked_setUsb, clocked_setEngine]; rfl
  · intro l h
    rw [ran_clkOnly _ _ h, ran_clkOnly _ _ h]
    simp only [setCalls_mpsse, setUsb_mpsse, setEngine_mpsse, clocked_setCalls, clocked_setUsb, clocked_setEngine]; rfl

theorem ran_engine (i : Instr) (s : State) (h : engineCommand i = true) : (ran i s).engine = s.engine := by
  have := congrArg State.engine (ran_around i s s.engine s.usb s.calls h)
  exact this
theorem ran_usb (i : Instr) (s : State) (h : engineCommand i = true) : (ran i s).usb = s.usb := by
  have := congrArg State.usb (ran_around i s s.engine s.usb s.calls h)
  exact this
theorem ran_calls (i : Instr) (s : State) (h : engineCommand i = true) : (ran i s).calls = s.calls := by
  have := congrArg State.calls (ran_around i s s.engine s.usb s.calls h)
  exact this
theorem ran_mpsse_input (i : Instr) (s : State) (h : engineCommand i = true) :
    (ran i s).mpsse.input = s.mpsse.input :=
  congrArg (fun t => t.mpsse.input) (ran_input i s s.mpsse.input h)
theorem ran_params (i : Instr) (s : State) (h : engineCommand i = true) : (ran i s).params = s.params := by
  refine engineCommand_cases (P := fun i => (ran i s).params = s.params) i h ?_ ?_ ?_ ?_ ?_
  · intro l b h; rw [ran_tmsOut _ _ _ h]; simp
  · intro l b h; rw [ran_bitsOut _ _ _ h]; simp
  · intro d h; rw [ran_bytesOut _ _ h]; simp
  · intro d h; rw [ran_bytesInout _ _ h]; simp
  · intro l h; rw [ran_clkOnly _ _ h]; simp

/-! ## The stream -/

theorem encode_length_pos (i : Instr) (h : engineCommand i = true) : 0 < (encodeMpsse i).length := by
  refine engineCommand_cases (P := fun i => 0 < (encodeMpsse i).length) i h ?_ ?_ ?_ ?_ ?_ <;> intros <;> exact Nat.succ_pos _

/-- The length bytes of M-BYTES give the count back (R93). -/
theorem byteCount_lenBytes (d : List Byte) (h : bytesLengthOk d = true) :
    byteCount (BitVec.ofNat 8 ((d.length - 1) % 256)) (BitVec.ofNat 8 ((d.length - 1) / 256)) = d.length := by
  simp only [bytesLengthOk, Bool.and_eq_true, decide_eq_true_eq] at h
  simp only [byteCount, BitVec.toNat_ofNat]
  omega

theorem decodeBytes_lenBytes (mk : List Byte → Instr) (d rest : List Byte) (h : bytesLengthOk d = true) :
    decodeBytes mk (lenBytes d.length ++ d ++ rest) = .command (mk d) rest := by
  simp [decodeBytes, lenBytes, byteCount_lenBytes d h]

/-- The engine's commands decode as they were encoded. -/
theorem decode_engine (i : Instr) (rest : List Byte) (h : engineCommand i = true) :
    decodeMpsse (encodeMpsse i ++ rest) = .command i rest := by
  refine engineCommand_cases (P := fun i => decodeMpsse (encodeMpsse i ++ rest) = .command i rest) i h ?_ ?_ ?_ ?_ ?_
  · intro l b h
    show (if tmsLengthOk l then _ else _) = _
    rw [if_pos h]; rfl
  · intro l b h
    show (if bitsLengthOk l then _ else _) = _
    rw [if_pos h]; rfl
  · intro d h; exact decodeBytes_lenBytes .bytesOut d rest h
  · intro d h; exact decodeBytes_lenBytes .bytesInout d rest h
  · intro l h
    show (if bitsLengthOk l then _ else _) = _
    rw [if_pos h]; rfl

theorem drainFuel_commands (cs : List Instr) (p : List Byte) (fuel : Nat) (s : State)
    (hcs : cs.all engineCommand = true) (hp : decodeMpsse p = .waiting)
    (hin : s.mpsse.input = cs.flatMap encodeMpsse ++ p) (hf : cs.length ≤ fuel) :
    drainFuel fuel s = .ok (setInput p (ranAll cs s)) := by
  induction cs generalizing fuel s with
  | nil =>
    have hs : setInput p s = s := by
      have : s.mpsse.input = p := by simpa using hin
      rw [← this]; rfl
    cases fuel with
    | zero => simp [drainFuel, hs]
    | succ n =>
      have : s.mpsse.input = p := by simpa using hin
      simp [drainFuel, this, hp, hs]
  | cons c cs ih =>
    simp only [List.all_cons, Bool.and_eq_true] at hcs
    obtain ⟨hc, hcs⟩ := hcs
    cases fuel with
    | zero => simp at hf
    | succ n =>
      rw [List.flatMap_cons, List.append_assoc] at hin
      simp only [drainFuel, hin, decode_engine c _ hc, runCommand_engine c _ hc, Run.ofOutcome, Run.andThen]
      rw [ih n _ hcs (by rw [ran_input _ _ _ hc]; rfl) (by simp at hf; omega), ran_input _ _ _ hc, ranAll_cons]
      have : ∀ (cs : List Instr) (t : State), cs.all engineCommand = true → ∀ q,
          setInput p (ranAll cs (setInput q t)) = setInput p (ranAll cs t) := by
        intro cs
        induction cs with
        | nil => intros; rfl
        | cons d ds ihd =>
          intro t hd q
          simp only [List.all_cons, Bool.and_eq_true] at hd
          rw [ranAll_cons, ranAll_cons, ran_input _ _ _ hd.1, ihd _ hd.2]
      rw [this cs _ hcs]

/-- A delivery of whole commands and a part of one: the commands run, and the part waits (R160, R335). -/
theorem drain_commands (cs : List Instr) (p : List Byte) (s : State) (hcs : cs.all engineCommand = true)
    (hp : decodeMpsse p = .waiting) (hin : s.mpsse.input = cs.flatMap encodeMpsse ++ p) :
    drain s = .ok (setInput p (ranAll cs s)) := by
  refine drainFuel_commands cs p _ s hcs hp hin ?_
  rw [hin]
  clear hin
  induction cs with
  | nil => simp
  | cons c cs ih =>
    simp only [List.all_cons, Bool.and_eq_true] at hcs
    have := encode_length_pos c hcs.1
    have := ih hcs.2
    simp only [List.flatMap_cons, List.length_append, List.length_cons] at *
    omega

/-- A command that the decoder gives runs: its length operand is in range. -/
theorem decoded_runs (bs rest : List Byte) (i : Instr) (s : State) (h : decodeMpsse bs = .command i rest) :
    ∃ t, runCommand i s = .next t := by
  have runs : ∀ (ok : Bool) (t : State), ok = true → ∃ u, inRange ok t = .next u := by
    rintro ok t rfl; exact ⟨t, rfl⟩
  have bytes : ∀ (mk : List Byte → Instr) (xs : List Byte), decodeBytes mk xs = .command i rest →
      (∀ d, bytesLengthOk d = true → ∃ u, runCommand (mk d) s = .next u) → ∃ u, runCommand i s = .next u := by
    intro mk xs hd hm
    unfold decodeBytes at hd
    split at hd
    · rename_i lo hi xs
      split at hd <;> cases hd
      rename_i hle
      refine hm _ ?_
      have := lo.isLt
      have := hi.isLt
      simp only [byteCount] at *
      simp only [bytesLengthOk, List.length_take, Bool.and_eq_true, decide_eq_true_eq]
      omega
    · cases hd
  have lenByte : ∀ (ok : Byte → Bool) (mk : Byte → Byte → Instr) (xs : List Byte), decodeLenByte ok mk xs = .command i rest →
      (∀ l b, ok l = true → ∃ u, runCommand (mk l b) s = .next u) → ∃ u, runCommand i s = .next u := by
    intro ok mk xs hd hm
    unfold decodeLenByte at hd
    split at hd
    · split at hd <;> cases hd
      exact hm _ _ ‹_›
    · cases hd
  have len : ∀ (mk : Byte → Instr) (xs : List Byte), decodeLen mk xs = .command i rest →
      (∀ l, bitsLengthOk l = true → ∃ u, runCommand (mk l) s = .next u) → ∃ u, runCommand i s = .next u := by
    intro mk xs hd hm
    unfold decodeLen at hd
    split at hd
    · split at hd <;> cases hd
      exact hm _ ‹_›
    · cases hd
  have pair : ∀ (mk : Byte → Byte → Instr) (xs : List Byte), decodePair mk xs = .command i rest →
      (∀ x y, ∃ u, runCommand (mk x y) s = .next u) → ∃ u, runCommand i s = .next u := by
    intro mk xs hd hm
    unfold decodePair at hd
    split at hd <;> cases hd
    exact hm _ _
  have branch : ∀ {c : Prop} [Decidable c] {a b d : MpsseDecode}, (if c then a else b) = d → a = d ∨ b = d := by
    intro c _ a b d hd
    split at hd
    · exact .inl hd
    · exact .inr hd
  cases bs with
  | nil => cases h
  | cons op xs =>
    rw [decodeMpsse] at h
    rcases branch h with h | h
    · exact lenByte _ _ _ h fun l b hl => runs _ _ hl
    rcases branch h with h | h
    · exact lenByte _ _ _ h fun l b hl => runs _ _ hl
    rcases branch h with h | h
    · exact lenByte _ _ _ h fun l b hl => runs _ _ hl
    rcases branch h with h | h
    · exact lenByte _ _ _ h fun l b hl => runs _ _ hl
    rcases branch h with h | h
    · exact len _ _ h fun l hl => runs _ _ hl
    rcases branch h with h | h
    · exact bytes _ _ h fun d hd => runs _ _ hd
    rcases branch h with h | h
    · exact bytes _ _ h fun d hd => runs _ _ hd
    rcases branch h with h | h
    · exact len _ _ h fun l hl => runs _ _ hl
    iterate 5
      rcases branch h with h | h
      · cases h; exact ⟨_, rfl⟩
    iterate 3
      rcases branch h with h | h
      · exact pair _ _ h fun x y => ⟨_, rfl⟩
    cases h; exact ⟨_, rfl⟩

/-- The MPSSE engine's loop neither refuses nor raises an error, whatever bytes stand in its input (R335, U16): what a part of a
command left waiting makes of the bytes after it, it executes. -/
theorem drain_goes_on (s : State) : ∃ t, drain s = .ok t := by
  have go : ∀ (fuel : Nat) (s : State), ∃ t, drainFuel fuel s = .ok t := by
    intro fuel
    induction fuel with
    | zero => exact fun s => ⟨s, rfl⟩
    | succ n ih =>
      intro s
      simp only [drainFuel]
      split
      · rename_i i rest hd
        obtain ⟨t, ht⟩ := decoded_runs _ _ i (setInput rest s) hd
        simp only [ht, Run.ofOutcome, Run.andThen]
        exact ih t
      · exact ⟨s, rfl⟩
      · exact ih _
  exact go _ s

/-! ## Commands in a row -/

theorem ranAll_around (cs : List Instr) (s : State) (e : Engine) (u : Usb) (c : List Call)
    (h : cs.all engineCommand = true) :
    ranAll cs (s.around e s.mpsse u c) = (ranAll cs s).around e (ranAll cs s).mpsse u c := by
  induction cs generalizing s with
  | nil => rfl
  | cons d cs ih =>
    simp only [List.all_cons, Bool.and_eq_true] at h
    rw [ranAll_cons, ranAll_cons, ran_around _ _ _ _ _ h.1]
    exact ih _ h.2

theorem ranAll_engine (cs : List Instr) (s : State) (h : cs.all engineCommand = true) :
    (ranAll cs s).engine = s.engine := by
  have := congrArg State.engine (ranAll_around cs s s.engine s.usb s.calls h)
  exact this
theorem ranAll_usb (cs : List Instr) (s : State) (h : cs.all engineCommand = true) : (ranAll cs s).usb = s.usb := by
  have := congrArg State.usb (ranAll_around cs s s.engine s.usb s.calls h)
  exact this
theorem ranAll_calls (cs : List Instr) (s : State) (h : cs.all engineCommand = true) :
    (ranAll cs s).calls = s.calls := by
  have := congrArg State.calls (ranAll_around cs s s.engine s.usb s.calls h)
  exact this
theorem ranAll_params (cs : List Instr) (s : State) (h : cs.all engineCommand = true) :
    (ranAll cs s).params = s.params := by
  induction cs generalizing s with
  | nil => rfl
  | cons d cs ih =>
    simp only [List.all_cons, Bool.and_eq_true] at h
    rw [ranAll_cons, ih _ h.2, ran_params _ _ h.1]
theorem ranAll_input (cs : List Instr) (s : State) (h : cs.all engineCommand = true) (bs : List Byte) :
    ranAll cs (setInput bs s) = setInput bs (ranAll cs s) := by
  induction cs generalizing s with
  | nil => rfl
  | cons d cs ih =>
    simp only [List.all_cons, Bool.and_eq_true] at h
    rw [ranAll_cons, ranAll_cons, ran_input _ _ _ h.1, ih _ h.2]

theorem encode_nil (cs : List Instr) (h : cs.all engineCommand = true) (hn : cs.flatMap encodeMpsse = []) : cs = [] := by
  cases cs with
  | nil => rfl
  | cons c cs =>
    simp only [List.all_cons, Bool.and_eq_true] at h
    have := encode_length_pos c h.1
    simp_all

end Sys2Proof.Machine
end

