-- ==== Sys2Proof/Laws/Transport.lean ====
section
/-! SUPPORT. What `Flush` and `ReadExactly` do: over a healthy driver, and on each failure a driver call may give. -/

namespace Sys2Proof.Machine

open Sys2Proof

/-! ## The healthy driver -/

theorem driverCall_healthy (s : State) (h : s.usb.events = []) :
    driverCall s = (.healthy, s.setUsb { s.usb with calls := s.usb.calls + 1 }) := by
  simp [driverCall, h]

/-- `Flush` over a healthy driver: the buffered commands run, in order (R224, R160). -/
theorem flush_healthy (cs : List Instr) (s : State) (hcs : cs.all engineCommand = true) (hne : cs ≠ [])
    (hb : s.engine.outbuf = cs.flatMap encodeMpsse) (he : s.usb.events = []) (hin : s.mpsse.input = []) :
    flush s = .ok (((ranAll cs s).setEngine { s.engine with outbuf := [] }).setUsb
      { s.usb with calls := s.usb.calls + 1 }) := by
  have hne' : s.engine.outbuf ≠ [] := fun h => hne (encode_nil cs hcs (by rw [← hb, h]))
  have hd : driverCall (clearOutbuf s) = (.healthy, (clearOutbuf s).setUsb { s.usb with calls := s.usb.calls + 1 }) :=
    driverCall_healthy _ he
  have hsrc : setInput (s.mpsse.input ++ s.engine.outbuf.take (DriverEvent.healthy.sent s.engine.outbuf.length))
      ((clearOutbuf s).setUsb { s.usb with calls := s.usb.calls + 1 }) =
      setInput (cs.flatMap encodeMpsse) (s.around { s.engine with outbuf := [] } s.mpsse
        { s.usb with calls := s.usb.calls + 1 } s.calls) := by
    simp only [DriverEvent.sent, List.take_length, hin, hb, List.nil_append]; rfl
  have hdr := drain_commands cs [] (setInput (cs.flatMap encodeMpsse) (s.around { s.engine with outbuf := [] } s.mpsse
        { s.usb with calls := s.usb.calls + 1 } s.calls)) hcs rfl (by rw [List.append_nil]; rfl)
  unfold flush flushWith
  rw [if_neg hne']
  simp only [usbWrite, hd]
  rw [show ((clearOutbuf s).setUsb { s.usb with calls := s.usb.calls + 1 }).mpsse.input = s.mpsse.input from rfl, hsrc, hdr]
  simp only [Run.andThen, DriverEvent.failure, DriverEvent.sent, if_true, ranAll_input _ _ hcs, ranAll_around _ _ _ _ _ hcs]
  have hi : (ranAll cs s).mpsse.input = [] := by
    have h1 := ranAll_input cs s hcs s.mpsse.input
    have h2 := congrArg (fun t => t.mpsse.input) h1
    exact h2.trans hin
  have hc : (ranAll cs s).calls = s.calls := ranAll_calls _ _ hcs
  have hm : (ranAll cs s).mpsse = (ranAll cs s).mpsse.inp [] := by rw [← hi]; rfl
  rw [← hc]
  refine congrArg Run.ok ?_
  conv_rhs => rw [show ranAll cs s = (ranAll cs s).setMpsse ((ranAll cs s).mpsse.inp []) from by rw [← hm]; rfl]
  rfl

theorem pollQueue_healthy (fuel : Nat) (s : State) (he : s.usb.events = []) (hne : s.mpsse.rxFifo ≠ []) :
    pollQueue (fuel + 1) s = .ready (s.setUsb { s.usb with calls := s.usb.calls + 1 }) := by
  simp only [pollQueue, driverCall_healthy s he, setUsb_mpsse, hne, if_false]

theorem usbRead_healthy (n : Nat) (s : State) (he : s.usb.events = []) (hn : n ≤ s.mpsse.rxFifo.length) :
    usbRead n s = .got (s.mpsse.rxFifo.take n)
      ((s.setMpsse (s.mpsse.rx (s.mpsse.rxFifo.drop n))).setUsb { s.usb with calls := s.usb.calls + 1 }) := by
  have hlen : ¬ (s.mpsse.rxFifo.take n).length < n := by simp; omega
  simp only [usbRead, driverCall_healthy s he, readChecked, takeRx, setUsb_mpsse, hlen, if_false]
  rfl

/-- `ReadExactly` over a healthy driver with enough bytes queued: the oldest n bytes (R225). -/
theorem readExactly_healthy (n : Nat) (s : State) (he : s.usb.events = []) (hn : n ≤ s.mpsse.rxFifo.length) (h0 : 0 < n) :
    readExactly n s = .got (s.mpsse.rxFifo.take n)
      (((s.setMpsse (s.mpsse.rx (s.mpsse.rxFifo.drop n))).setEngine { s.engine with expectRx := 0 }).setUsb
        { s.usb with calls := s.usb.calls + 2 }) := by
  have hne : s.mpsse.rxFifo ≠ [] := by
    intro h; rw [h] at hn; simp at hn; omega
  have h2 : (s.setUsb { s.usb with calls := s.usb.calls + 1 }).usb.events = [] := he
  rw [readExactly, pollQueue_healthy _ s he hne]
  simp only
  rw [usbRead_healthy n _ h2 hn]
  rfl

end Sys2Proof.Machine
end

