-- ==== Sys2Proof/Laws/Play.lean ====
section
/-! SUPPORT. An action list over a healthy driver comes to the commands it emits, executed one after another as they are
emitted: where the stream is cut into flushes makes no difference (R228). -/

namespace Sys2Proof.Machine

open Sys2Proof

/-- What an action list does to the target, the MPSSE engine and the words read, each command executed where it is
emitted. -/
def play : List Action → State → State
  | [], s => s
  | .emit i :: rest, s => play rest (ranAll (commands i) s)
  | .flush :: rest, s => play rest s
  | .readWord :: rest, s =>
    play rest ((appendOut (bytesWord (s.mpsse.rxFifo.take 4)) s).setMpsse (s.mpsse.rx (s.mpsse.rxFifo.drop 4)))
  | .progress d t :: rest, s => play rest (callProgress d t s)

theorem play_append (as bs : List Action) (s : State) : play (as ++ bs) s = play bs (play as s) := by
  induction as generalizing s with
  | nil => rfl
  | cons a as ih => cases a <;> exact ih _

/-- `tap_belief` after a primitive of the operations, where it is in range and its start state is met. -/
def primStep (i : Instr) (b : Belief) : Option Belief :=
  match i with
  | .resetToTlr => some (.at .tlr)
  | .tlrToShiftIr => if b = .at .tlr then some (.at .shIR) else none
  | .exit1ToShiftDr => if b = .at .ex1IR ∨ b = .at .ex1DR then some (.at .shDR) else none
  | .exit1drToShiftIr => if b = .at .ex1DR then some (.at .shIR) else none
  | .tlrToShiftDr => if b = .at .tlr then some (.at .shDR) else none
  | .shiftBytesOut d => if bytesLengthOk d then some b else none
  | .clockOnly c => if bitCountOk c then some b else none
  | .shiftIr op => if op < 64 ∧ b = .at .shIR then some (.at .ex1IR) else none
  | .loadCmd _ sz _ => if sz ≠ Config.sizeReserved ∧ b = .at .shDR then some (.at .ex1DR) else none
  | .writeData _ _ => if b = .at .shDR then some (.at .ex1DR) else none
  | .readData => if b = .at .shDR then some (.at .shDR) else none
  | .seqExit _ => if b = .at .shDR then some (.at .ex1DR) else none
  | _ => none

/-- A primitive of an open session that `primStep` admits emits its commands. -/
theorem runPrimitive_emits (i : Instr) (s : State) (b' : Belief) (hs : s.engine.session ≠ none)
    (h : primStep i s.engine.tapBelief = some b') :
    runPrimitive i s = .next (setBelief b' (emit (commands i) s)) := by
  have key : ∀ (ok : Bool) (bad : Refusal) (start : Belief → Bool) (after : Belief → Belief),
      ok = true → start s.engine.tapBelief = true → after s.engine.tapBelief = b' →
      primitive ok bad start i after s = .next (setBelief b' (emit (commands i) s)) := by
    intro ok bad start after h1 h2 h3
    rw [primitive, if_neg hs, if_neg (by simp [h1]), if_neg (by simp [h2]), h3]
  have split : ∀ {c : Prop} [Decidable c] {x : Belief}, (if c then some x else none) = some b' → c ∧ x = b' := by
    intro c _ x hc
    by_cases hp : c
    · rw [if_pos hp] at hc; exact ⟨hp, Option.some.inj hc⟩
    · rw [if_neg hp] at hc; exact (Option.some_ne_none _ hc.symm).elim
  cases i
  case resetToTlr =>
    show execResetToTlr s = _
    unfold execResetToTlr walk
    refine key _ _ _ _ ?_ ?_ ?_
    · exact rfl
    · exact rfl
    · exact Option.some.inj h
  case tlrToShiftIr =>
    show execTlrToShiftIr s = _
    unfold execTlrToShiftIr walk
    refine key _ _ _ _ ?_ ?_ ?_
    · exact rfl
    · simp [(split h).1]
    · exact (split h).2
  case exit1ToShiftDr =>
    show execExit1ToShiftDr s = _
    unfold execExit1ToShiftDr walk
    refine key _ _ _ _ ?_ ?_ ?_
    · exact rfl
    · rcases (split h).1 with h | h <;> simp [h]
    · exact (split h).2
  case exit1drToShiftIr =>
    show execExit1drToShiftIr s = _
    unfold execExit1drToShiftIr walk
    refine key _ _ _ _ ?_ ?_ ?_
    · exact rfl
    · simp [(split h).1]
    · exact (split h).2
  case tlrToShiftDr =>
    show execTlrToShiftDr s = _
    unfold execTlrToShiftDr walk
    refine key _ _ _ _ ?_ ?_ ?_
    · exact rfl
    · simp [(split h).1]
    · exact (split h).2
  case shiftBytesOut d =>
    show execShiftBytesOut d s = _
    unfold execShiftBytesOut shift
    refine key _ _ _ _ ?_ ?_ ?_
    · exact (split h).1
    · exact rfl
    · exact (split h).2
  case clockOnly c =>
    show execClockOnly c s = _
    unfold execClockOnly shift
    refine key _ _ _ _ ?_ ?_ ?_
    · exact (split h).1
    · exact rfl
    · exact (split h).2
  case shiftIr op =>
    show execShiftIr op s = _
    unfold execShiftIr scan
    refine key _ _ _ _ ?_ ?_ ?_
    · simp [(split h).1.1]
    · simp [(split h).1.2]
    · exact (split h).2
  case loadCmd a sz rw =>
    show execLoadCmd a sz rw s = _
    unfold execLoadCmd scan
    refine key _ _ _ _ ?_ ?_ ?_
    · simp [(split h).1.1]
    · simp [(split h).1.2]
    · exact (split h).2
  case writeData d seq =>
    show execWriteData d seq s = _
    unfold execWriteData scan
    refine key _ _ _ _ ?_ ?_ ?_
    · exact rfl
    · simp [(split h).1]
    · exact (split h).2
  case readData =>
    show execReadData s = _
    unfold execReadData scan
    refine key _ _ _ _ ?_ ?_ ?_
    · exact rfl
    · simp [(split h).1]
    · exact (split h).2
  case seqExit x =>
    show execSeqExit x s = _
    unfold execSeqExit scan
    refine key _ _ _ _ ?_ ?_ ?_
    · exact rfl
    · simp [(split h).1]
    · exact (split h).2
  all_goals exact (Option.some_ne_none _ h.symm).elim

/-- Its commands are the engine's, in range, and at least one. -/
theorem primStep_commands (i : Instr) (b b' : Belief) (h : primStep i b = some b') :
    (commands i).all engineCommand = true ∧ commands i ≠ [] := by
  have split : ∀ {c : Prop} [Decidable c] {x : Belief}, (if c then some x else none) = some b' → c := by
    intro c _ x hc
    by_cases hp : c
    · exact hp
    · rw [if_neg hp] at hc; exact (Option.some_ne_none _ hc.symm).elim
  cases i
  case shiftBytesOut d =>
    have hd := split h
    exact ⟨by show (bytesLengthOk d && true) = true; rw [hd]; rfl, List.cons_ne_nil _ _⟩
  case clockOnly c =>
    have hc := split h
    simp only [bitCountOk, Bool.and_eq_true, decide_eq_true_eq] at hc
    refine ⟨?_, List.cons_ne_nil _ _⟩
    show (bitsLengthOk (lenByte c) && true) = true
    simp only [bitsLengthOk, lenByte, BitVec.toNat_ofNat, Bool.and_true, decide_eq_true_eq]
    omega
  case resetToTlr => exact ⟨rfl, List.cons_ne_nil _ _⟩
  case tlrToShiftIr => exact ⟨rfl, List.cons_ne_nil _ _⟩
  case exit1ToShiftDr => exact ⟨rfl, List.cons_ne_nil _ _⟩
  case exit1drToShiftIr => exact ⟨rfl, List.cons_ne_nil _ _⟩
  case tlrToShiftDr => exact ⟨rfl, List.cons_ne_nil _ _⟩
  case shiftIr op => exact ⟨rfl, List.cons_ne_nil _ _⟩
  case loadCmd a sz rw => exact ⟨rfl, List.cons_ne_nil _ _⟩
  case writeData d seq => exact ⟨rfl, List.cons_ne_nil _ _⟩
  case readData => exact ⟨rfl, List.cons_ne_nil _ _⟩
  case seqExit x => exact ⟨rfl, List.cons_ne_nil _ _⟩
  all_goals exact (Option.some_ne_none _ h.symm).elim

/-- What the engine reckons of an action list beforehand: `tap_belief` and the bytes left in `rx_fifo` at its end, where every
primitive is in place, every read is flushed and has its bytes, and the list ends flushed. -/
def planned : List Action → Belief → Bool → Nat → Option (Belief × Nat)
  | [], b, sent, n => if sent then some (b, n) else none
  | .emit i :: rest, b, _, n => (primStep i b).bind fun b' => planned rest b' false (n + ((commands i).map responses).sum)
  | .flush :: rest, b, _, n => planned rest b true n
  | .readWord :: rest, b, sent, n => if sent ∧ 4 ≤ n then planned rest b sent (n - 4) else none
  | .progress _ _ :: rest, b, sent, n => planned rest b sent n

/-- `expect_rx` after an action list. -/
def expectAfter : List Action → Nat → Nat
  | [], e => e
  | .emit i :: rest, e => expectAfter rest (e + ((commands i).map responses).sum)
  | .flush :: rest, e => expectAfter rest e
  | .readWord :: rest, _ => expectAfter rest 0
  | .progress _ _ :: rest, e => expectAfter rest e

/-- A command of the engine queues as many bytes as `Emit` counts for it (R200). -/
theorem ran_rx_length (i : Instr) (s : State) (h : engineCommand i = true) :
    (ran i s).mpsse.rxFifo.length = s.mpsse.rxFifo.length + responses i := by
  refine engineCommand_cases (P := fun i => (ran i s).mpsse.rxFifo.length = s.mpsse.rxFifo.length + responses i)
    i h ?_ ?_ ?_ ?_ ?_
  · intro l b h; rw [ran_tmsOut _ _ _ h]; simp [responses]
  · intro l b h; rw [ran_bitsOut _ _ _ h]; simp [responses]
  · intro d h; rw [ran_bytesOut _ _ h]; simp [responses]
  · intro d h; rw [ran_bytesInout _ _ h]; simp [responses]
  · intro l h; rw [ran_clkOnly _ _ h]; simp [responses]

theorem ranAll_rx_length (cs : List Instr) (s : State) (h : cs.all engineCommand = true) :
    (ranAll cs s).mpsse.rxFifo.length = s.mpsse.rxFifo.length + (cs.map responses).sum := by
  induction cs generalizing s with
  | nil => rfl
  | cons c cs ih =>
    simp only [List.all_cons, Bool.and_eq_true] at h
    rw [ranAll_cons, ih _ h.2, ran_rx_length _ _ h.1]
    simp [Nat.add_assoc]

/-- The end of an action list: the target, the MPSSE engine and the words read as `play` leaves them, the engine's own
bookkeeping as it reckoned. -/
def playedEnd (acts : List Action) (b : Belief) (calls : Nat) (s q : State) : State :=
  q.around { q.engine with
      outbuf := []
      expectRx := expectAfter acts s.engine.expectRx
      pos := s.engine.pos + acts.length
      tapBelief := b }
    q.mpsse { s.usb with calls := calls } s.calls

/-- The state with other bookkeeping: the engine's `outbuf`, `expect_rx`, position and `tap_belief`, the driver, the calls. -/
def State.book (s : State) (ob : List Byte) (er p : Nat) (tb : Belief) (u : Usb) (c : List Call) : State :=
  s.around { s.engine with outbuf := ob, expectRx := er, pos := p, tapBelief := tb } s.mpsse u c

theorem ranAll_book (cs : List Instr) (s : State) (ob : List Byte) (er p : Nat) (tb : Belief) (u : Usb) (c : List Call)
    (h : cs.all engineCommand = true) : ranAll cs (s.book ob er p tb u c) = (ranAll cs s).book ob er p tb u c := by
  rw [State.book, ranAll_around _ _ _ _ _ h, State.book, ranAll_engine _ _ h]

/-- An action list whose commands are all the engine's. -/
def engineList : List Action → Bool
  | [] => true
  | .emit i :: rest => (commands i).all engineCommand && engineList rest
  | _ :: rest => engineList rest

/-- What an action list does owes nothing to the bookkeeping. -/
theorem play_book (acts : List Action) (s : State) (ob : List Byte) (er p : Nat) (tb : Belief) (u : Usb) (c : List Call)
    (h : engineList acts = true) : play acts (s.book ob er p tb u c) = (play acts s).book ob er p tb u c := by
  induction acts generalizing s with
  | nil => rfl
  | cons a acts ih =>
    cases a with
    | emit i =>
      simp only [engineList, Bool.and_eq_true] at h
      rw [play, play, ranAll_book _ _ _ _ _ _ _ _ h.1, ih _ h.2]
    | flush => exact ih s h
    | readWord =>
      exact ih ((appendOut (bytesWord (s.mpsse.rxFifo.take 4)) s).setMpsse (s.mpsse.rx (s.mpsse.rxFifo.drop 4))) h
    | progress d t => exact ih (callProgress d t s) h

theorem planned_engineList (acts : List Action) (b : Belief) (sent : Bool) (n : Nat) (r : Belief × Nat)
    (h : planned acts b sent n = some r) : engineList acts = true := by
  induction acts generalizing b sent n with
  | nil => rfl
  | cons a acts ih =>
    cases a with
    | emit i =>
      simp only [planned, Option.bind_eq_some_iff] at h
      obtain ⟨b', hb', h⟩ := h
      simp only [engineList, (primStep_commands i b b' hb').1, Bool.true_and]
      exact ih _ _ _ h
    | flush => exact ih _ _ _ h
    | readWord =>
      simp only [planned, Option.ite_none_right_eq_some] at h
      exact ih _ _ _ h.2
    | progress d t => exact ih _ _ _ h

/-- **An action list over a healthy driver.** From a state with the commands `cs` buffered, a list that is as planned runs to
its end, and the end is as if every command had been executed where it was emitted (R224, R225, R228). -/
theorem runActions_play (acts : List Action) (cs : List Instr) (s : State) (b : Belief) (n : Nat)
    (hcs : cs.all engineCommand = true) (hb : s.engine.outbuf = cs.flatMap encodeMpsse) (hs : s.engine.session ≠ none)
    (he : s.usb.events = []) (hin : s.mpsse.input = [])
    (hp : planned acts s.engine.tapBelief (decide (cs = [])) (ranAll cs s).mpsse.rxFifo.length = some (b, n)) :
    ∃ calls, runActions acts s = .ok (playedEnd acts b calls s (play acts (ranAll cs s))) := by
  induction acts generalizing cs s with
  | nil =>
    simp only [planned, decide_eq_true_eq, Option.ite_none_right_eq_some, Option.some.injEq, Prod.mk.injEq] at hp
    obtain ⟨rfl, rfl, rfl⟩ := hp
    refine ⟨s.usb.calls, ?_⟩
    have hb' : s.engine.outbuf = [] := hb
    simp only [runActions, playedEnd, play, ranAll_nil, expectAfter, List.length_nil, Nat.add_zero]
    rw [← hb']
    rfl
  | cons a acts ih =>
    cases a with
    | emit i =>
      simp only [planned, Option.bind_eq_some_iff] at hp
      obtain ⟨b', hb', hp⟩ := hp
      obtain ⟨hci, hne⟩ := primStep_commands i _ b' hb'
      have hall : (cs ++ commands i).all engineCommand = true := by rw [List.all_append, hcs, hci]; rfl
      have hs' : nextPos (setBelief b' (emit (commands i) s)) =
          s.book (s.engine.outbuf ++ (commands i).flatMap encodeMpsse)
            (s.engine.expectRx + ((commands i).map responses).sum) (s.engine.pos + 1) b' s.usb s.calls := rfl
      have hrun : ranAll (cs ++ commands i) (nextPos (setBelief b' (emit (commands i) s))) =
          (ranAll (commands i) (ranAll cs s)).book (s.engine.outbuf ++ (commands i).flatMap encodeMpsse)
            (s.engine.expectRx + ((commands i).map responses).sum) (s.engine.pos + 1) b' s.usb s.calls := by
        rw [hs', ranAll_book _ _ _ _ _ _ _ _ hall, ranAll_append]
      obtain ⟨calls, hrest⟩ := ih (cs ++ commands i) (nextPos (setBelief b' (emit (commands i) s))) hall
        (by show s.engine.outbuf ++ _ = _; rw [hb, List.flatMap_append]) hs he hin (by
          rw [hrun]
          have : decide (cs ++ commands i = []) = false := by simp [hne]
          rw [this, ← hp]
          congr 1
          exact ranAll_rx_length _ _ hci)
      refine ⟨calls, ?_⟩
      rw [runActions, runAction, runPrimitive_emits i s b' hs hb']
      simp only [Run.ofOutcome, Run.andThen]
      rw [hrest, hrun, play_book _ _ _ _ _ _ _ _ (planned_engineList _ _ _ _ _ hp), play]
      simp only [playedEnd, List.length_cons, expectAfter]
      have hp1 : (nextPos (setBelief b' (emit (commands i) s))).engine.pos + acts.length = s.engine.pos + (acts.length + 1) := by
        show s.engine.pos + 1 + acts.length = _; omega
      rw [hp1]; rfl
    | flush =>
      simp only [planned] at hp
      by_cases hnil : cs = []
      · subst hnil
        have hb' : s.engine.outbuf = [] := hb
        obtain ⟨calls, hrest⟩ := ih [] (nextPos s) rfl hb hs he hin
          (by show planned acts s.engine.tapBelief _ s.mpsse.rxFifo.length = _; simpa using hp)
        refine ⟨calls, ?_⟩
        rw [runActions, runAction, flush, flushWith, if_pos hb']
        simp only [Run.andThen]
        rw [hrest, play, ranAll_nil, ranAll_nil]
        have hbk : nextPos s = s.book s.engine.outbuf s.engine.expectRx (s.engine.pos + 1) s.engine.tapBelief s.usb s.calls := rfl
        rw [hbk, play_book _ _ _ _ _ _ _ _ (planned_engineList _ _ _ _ _ hp)]
        simp only [playedEnd, List.length_cons, expectAfter]
        have hp1 : (s.book s.engine.outbuf s.engine.expectRx (s.engine.pos + 1) s.engine.tapBelief s.usb s.calls).engine.pos
            + acts.length = s.engine.pos + (acts.length + 1) := by
          show s.engine.pos + 1 + acts.length = _; omega
        rw [hp1]; rfl
      · have hf := flush_healthy cs s hcs hnil hb he hin
        have hbk : nextPos (((ranAll cs s).setEngine { s.engine with outbuf := [] }).setUsb
              { s.usb with calls := s.usb.calls + 1 }) =
            (ranAll cs s).book [] s.engine.expectRx (s.engine.pos + 1) s.engine.tapBelief
              { s.usb with calls := s.usb.calls + 1 } s.calls := by
          rw [State.book, ranAll_engine _ _ hcs, ← ranAll_calls cs s hcs]; rfl
        have hi : (ranAll cs s).mpsse.input = [] := by
          have h2 := congrArg (fun t => t.mpsse.input) (ranAll_input cs s hcs s.mpsse.input)
          exact h2.trans hin
        obtain ⟨calls, hrest⟩ := ih [] ((ranAll cs s).book [] s.engine.expectRx (s.engine.pos + 1) s.engine.tapBelief
              { s.usb with calls := s.usb.calls + 1 } s.calls) rfl rfl
            (by show (ranAll cs s).engine.session ≠ none; rw [ranAll_engine _ _ hcs]; exact hs) he hi hp
        refine ⟨calls, ?_⟩
        rw [runActions, runAction, hf]
        simp only [Run.andThen]
        rw [hbk, hrest, ranAll_nil, play_book _ _ _ _ _ _ _ _ (planned_engineList _ _ _ _ _ hp), play]
        simp only [playedEnd, List.length_cons, expectAfter]
        have hp1 : ((ranAll cs s).book [] s.engine.expectRx (s.engine.pos + 1) s.engine.tapBelief
            { s.usb with calls := s.usb.calls + 1 } s.calls).engine.pos + acts.length = s.engine.pos + (acts.length + 1) := by
          show s.engine.pos + 1 + acts.length = _; omega
        rw [hp1]; rfl
    | readWord =>
      simp only [planned, decide_eq_true_eq, Option.ite_none_right_eq_some] at hp
      obtain ⟨⟨rfl, h4⟩, hp⟩ := hp
      have h4' : 4 ≤ s.mpsse.rxFifo.length := h4
      have hr := readExactly_healthy 4 s he h4' (by omega)
      have hbk : nextPos (appendOut (bytesWord (s.mpsse.rxFifo.take 4))
          (((s.setMpsse (s.mpsse.rx (s.mpsse.rxFifo.drop 4))).setEngine { s.engine with expectRx := 0 }).setUsb
            { s.usb with calls := s.usb.calls + 2 })) =
          ((appendOut (bytesWord (s.mpsse.rxFifo.take 4)) s).setMpsse (s.mpsse.rx (s.mpsse.rxFifo.drop 4))).book
            s.engine.outbuf 0 (s.engine.pos + 1) s.engine.tapBelief { s.usb with calls := s.usb.calls + 2 } s.calls := rfl
      obtain ⟨calls, hrest⟩ := ih [] (((appendOut (bytesWord (s.mpsse.rxFifo.take 4)) s).setMpsse
          (s.mpsse.rx (s.mpsse.rxFifo.drop 4))).book
            s.engine.outbuf 0 (s.engine.pos + 1) s.engine.tapBelief { s.usb with calls := s.usb.calls + 2 } s.calls)
          rfl hb hs he hin (by
            rw [← hp]
            congr 1
            show (s.mpsse.rxFifo.drop 4).length = _
            rw [List.length_drop]; rfl)
      refine ⟨calls, ?_⟩
      rw [runActions, runAction, hr]
      simp only [Run.andThen]
      rw [hbk, hrest, ranAll_nil, play_book _ _ _ _ _ _ _ _ (planned_engineList _ _ _ _ _ hp), play, ranAll_nil]
      simp only [playedEnd, List.length_cons, expectAfter]
      have hp1 : (((appendOut (bytesWord (s.mpsse.rxFifo.take 4)) s).setMpsse (s.mpsse.rx (s.mpsse.rxFifo.drop 4))).book
            s.engine.outbuf 0 (s.engine.pos + 1) s.engine.tapBelief { s.usb with calls := s.usb.calls + 2 }
            s.calls).engine.pos + acts.length = s.engine.pos + (acts.length + 1) := by
        show s.engine.pos + 1 + acts.length = _; omega
      rw [hp1]; rfl
    | progress d t =>
      simp only [planned] at hp
      have hbk : nextPos (callProgress d t s) =
          (callProgress d t s).book s.engine.outbuf s.engine.expectRx (s.engine.pos + 1) s.engine.tapBelief s.usb s.calls := rfl
      have hcp : ranAll cs (callProgress d t s) = callProgress d t (ranAll cs s) := by
        have h1 : callProgress d t s =
            s.around { s.engine with progress := s.engine.progress ++ [(d, t)] } s.mpsse s.usb s.calls := rfl
        rw [h1, ranAll_around _ _ _ _ _ hcs, callProgress, ranAll_engine _ _ hcs, ← ranAll_usb cs s hcs,
          ← ranAll_calls cs s hcs]
        rfl
      have hrun : ranAll cs (nextPos (callProgress d t s)) = (callProgress d t (ranAll cs s)).book s.engine.outbuf
          s.engine.expectRx (s.engine.pos + 1) s.engine.tapBelief s.usb s.calls := by
        rw [hbk, ranAll_book _ _ _ _ _ _ _ _ hcs, hcp]
      obtain ⟨calls, hrest⟩ := ih cs (nextPos (callProgress d t s)) hcs hb hs he hin (by rw [hrun]; exact hp)
      refine ⟨calls, ?_⟩
      rw [runActions, runAction]
      simp only [Run.andThen]
      rw [hrest, hrun, play_book _ _ _ _ _ _ _ _ (planned_engineList _ _ _ _ _ hp), play]
      simp only [playedEnd, List.length_cons, expectAfter]
      have hp1 : (nextPos (callProgress d t s)).engine.pos + acts.length = s.engine.pos + (acts.length + 1) := by
        show s.engine.pos + 1 + acts.length = _; omega
      rw [hp1]; rfl

end Sys2Proof.Machine
end

