-- ==== Sys2Proof/Laws/Scan.lean ====
section
/-! SUPPORT. What the commands of each primitive do to the target, from the TAP state the operations emit it in. -/

namespace Sys2Proof.Machine

open Sys2Proof

theorem setMpsse_setTarget (s : State) (m : Mpsse) (t : Target) :
    (s.setMpsse m).setTarget t = (s.setTarget t).setMpsse m := rfl

/-! ## Shifts in ShDR -/

/-- The bits of bytes in a row, each byte from bit 0 (R93). -/
def byteBits (ds : List Byte) : List Bool := ds.flatMap (lowBits 8)

@[simp] theorem byteBits_length (ds : List Byte) : (byteBits ds).length = 8 * ds.length := by
  induction ds with
  | nil => rfl
  | cons d ds ih =>
    rw [byteBits, List.flatMap_cons, List.length_append, lowBits_length, List.length_cons]
    rw [byteBits] at ih
    omega

theorem byteBits_cons (d : Byte) (ds : List Byte) : byteBits (d :: ds) = lowBits 8 d ++ byteBits ds := rfl

theorem bytesPins_eq (t : Bool) (ds : List Byte) : bytesPins t ds = (byteBits ds).map fun x => (t, x) := by
  induction ds with
  | nil => rfl
  | cons d ds ih => rw [bytesPins_cons, ih, byteBits_cons, List.map_append]; rfl

/-- The bytes of a word in order carry its bits in order (R64, R102). -/
theorem byteBits_wordBytes (w : Word) : byteBits (wordBytes w) = lowBits 32 w := by
  have h : ∀ (k : Nat), lowBits 8 (w.extractLsb' k 8) = (List.range 8).map fun i => w.getLsbD (k + i) := by
    intro k
    refine List.map_congr_left fun i hi => ?_
    have : i < 8 := List.mem_range.1 hi
    simp [this]
  simp only [byteBits, wordBytes, List.flatMap_cons, List.flatMap_nil, h]
  rfl

/-- The pins after bytes, TMS low: TDI at the last bit (R161). -/
def lastTdi : List Byte → Bool → Bool
  | [], x => x
  | d :: ds, _ => lastTdi ds (d.getLsbD 7)

theorem pinsAfter_bytesPins (t : Bool) (d : Byte) (ds : List Byte) (m : Mpsse) :
    pinsAfter (bytesPins t (d :: ds)) m = m.pins t (lastTdi (d :: ds) false) := by
  induction ds generalizing d m with
  | nil => rw [bytesPins_cons, pinsAfter_append, pinsAfter_bytePins]; rfl
  | cons e ds ih => rw [bytesPins_cons, pinsAfter_append, pinsAfter_bytePins, ih]; rfl

/-- Bits shifted into ShDR with TMS low. -/
theorem ran_bytesOut_shDR (d : Byte) (ds : List Byte) (s : State) (hl : bytesLengthOk (d :: ds) = true)
    (ht : s.target.tap = .shDR) (hd : s.target.dsr ≠ []) (hp : s.mpsse.tmsPin = false) :
    ran (.bytesOut (d :: ds)) s = (s.setTarget { s.target with
        dsr := (s.target.dsr ++ byteBits (d :: ds)).drop (8 * (ds.length + 1))
        clockCount := s.target.clockCount + 8 * (ds.length + 1) }).setMpsse
      (s.mpsse.pins false (lastTdi (d :: ds) false)) := by
  rw [ran_bytesOut _ _ hl, hp, pinsAfter_bytesPins, bytesPins_eq, clocked_shDR _ _ ht hd, byteBits_length]
  rfl

theorem ran_clkOnly_shDR (l : Byte) (s : State) (hl : bitsLengthOk l = true)
    (ht : s.target.tap = .shDR) (hd : s.target.dsr ≠ []) (hp : s.mpsse.tmsPin = false) :
    ran (.clkOnly l) s = (s.setTarget { s.target with
        dsr := (s.target.dsr ++ List.replicate (l.toNat + 1) s.mpsse.tdiPin).drop (l.toNat + 1)
        clockCount := s.target.clockCount + (l.toNat + 1) }).setMpsse (s.mpsse.pins false s.mpsse.tdiPin) := by
  have hh : heldPins false s.mpsse.tdiPin l = (List.replicate (l.toNat + 1) s.mpsse.tdiPin).map fun x => (false, x) := by
    simp [heldPins]
  rw [ran_clkOnly _ _ hl, hp, hh, clocked_shDR _ _ ht hd, List.length_replicate]

theorem ran_bitsOut_shDR (l b : Byte) (s : State) (hl : bitsLengthOk l = true)
    (ht : s.target.tap = .shDR) (hd : s.target.dsr ≠ []) (hp : s.mpsse.tmsPin = false) :
    ran (.bitsOut l b) s = (s.setTarget { s.target with
        dsr := (s.target.dsr ++ lowBits (l.toNat + 1) b).drop (l.toNat + 1)
        clockCount := s.target.clockCount + (l.toNat + 1) }).setMpsse (s.mpsse.pins false (b.getLsbD l.toNat)) := by
  rw [ran_bitsOut _ _ _ hl, hp, bitPins, clocked_shDR _ _ ht hd, lowBits_length]

theorem lastBitByte_tms (x t : Bool) : (lastBitByte x t).getLsbD 0 = t := by cases x <;> cases t <;> rfl
theorem lastBitByte_tdi (x t : Bool) : (lastBitByte x t).getLsbD 7 = x := by cases x <;> cases t <;> rfl

theorem tmsPins_last (x t : Bool) : tmsPins 0x00 (lastBitByte x t) = [(t, x)] := by cases x <;> cases t <;> rfl

/-- The last bit of a DR scan, TMS high. -/
theorem ran_lastBit_shDR (x : Bool) (s : State) (ht : s.target.tap = .shDR) :
    ran (.tmsOut 0x00 (lastBitByte x true)) s = (s.setTarget { s.target with
        tap := .ex1DR
        dsr := shiftDsr x s.target.dsr
        clockCount := s.target.clockCount + 1 }).setMpsse (s.mpsse.pins true x) := by
  rw [ran_tmsOut _ _ _ rfl, tmsPins_last, clocked, clock_shDR _ _ _ ht, clocked, lastBitByte_tdi]
  have : (lastBitByte x true).getLsbD (0x00 : Byte).toNat = true := lastBitByte_tms x true
  rw [this]
  rfl

/-- The last bit of an IR scan, TMS high. -/
theorem ran_lastBit_shIR (x : Bool) (s : State) (ht : s.target.tap = .shIR) :
    ran (.tmsOut 0x00 (lastBitByte x true)) s = (s.setTarget { s.target with
        tap := .ex1IR
        irsr := shiftIrsr x s.target.irsr
        clockCount := s.target.clockCount + 1 }).setMpsse (s.mpsse.pins true x) := by
  rw [ran_tmsOut _ _ _ rfl, tmsPins_last, clocked, clock_shIR _ _ _ ht, clocked, lastBitByte_tdi]
  have : (lastBitByte x true).getLsbD (0x00 : Byte).toNat = true := lastBitByte_tms x true
  rw [this]
  rfl

/-- Shifting at least its length replaces a register's content (R141 (b)). -/
theorem shifted_full (d xs : List Bool) (h : d.length ≤ xs.length) :
    (d ++ xs).drop xs.length = xs.drop (xs.length - d.length) := by
  rw [List.drop_append, List.drop_of_length_le h, List.nil_append]

/-! ## The walks -/

/-- `reset_to_tlr` from a state that passes no Update-DR. -/
theorem ran_reset_quiet (s : State) (h : scanFree s = true) :
    ∃ r, ran (.tmsOut 0x04 0x3F) s = (s.setTarget { s.target with
        tap := .tlr
        ir := s.params.idcodeOpcode
        irsr := r
        clockCount := s.target.clockCount + 5 }).setMpsse (s.mpsse.pins true false) := by
  rw [ran_tmsOut _ _ _ rfl]
  have hp : tmsPins 0x04 0x3F = [(true, false), (true, false), (true, false), (true, false), (true, false)] := rfl
  rw [hp]
  simp only [scanFree] at h
  cases ht : s.target.tap <;> simp only [ht, Bool.false_eq_true] at h <;>
    simp [clocked, clock, countClock, risingEdge, moveTap, fallingEdge, nextTap, loadIr, ht] <;>
    exact ⟨_, rfl⟩

/-- `tlr_to_shift_ir` from TLR. -/
theorem ran_tlrToShiftIr (s : State) (ht : s.target.tap = .tlr) :
    ran (.tmsOut 0x05 0x0D) s = (s.setTarget { s.target with
        tap := .shIR
        ir := s.params.idcodeOpcode
        irsr := s.params.irCapture
        clockCount := s.target.clockCount + 6 }).setMpsse (s.mpsse.pins false false) := by
  rw [ran_tmsOut _ _ _ rfl]
  have hp : tmsPins 0x05 0x0D =
    [(true, false), (false, false), (true, false), (true, false), (false, false), (false, false)] := rfl
  rw [hp]
  simp [clocked, clock, countClock, risingEdge, moveTap, fallingEdge, nextTap, loadIr, ht]

/-- `tlr_to_shift_dr` from TLR, while the IDCODE register is selected there. -/
theorem ran_tlrToShiftDr (s : State) (ht : s.target.tap = .tlr) (hsel : s.sel = .idcode) :
    ran (.tmsOut 0x03 0x02) s = (s.setTarget { s.target with
        tap := .shDR
        dsr := lowBits 32 s.params.idcodeValue
        clockCount := s.target.clockCount + 4 }).setMpsse (s.mpsse.pins false false) := by
  rw [ran_tmsOut _ _ _ rfl]
  have hp : tmsPins 0x03 0x02 = [(false, false), (true, false), (false, false), (false, false)] := rfl
  rw [hp]
  have hsel' : selectDr s.params.idcodeOpcode s.target.ir = .idcode := hsel
  simp [clocked, clock, countClock, risingEdge, moveTap, fallingEdge, nextTap, ht, captureDr, State.sel, hsel']

/-- `shift_ir op` from ShIR. -/
theorem ranAll_shiftIr (op : Nat) (s : State) (ht : s.target.tap = .shIR) (hp : s.mpsse.tmsPin = false) :
    ranAll (commands (.shiftIr op)) s = (s.setTarget { s.target with
        tap := .ex1IR
        irsr := BitVec.ofNat 6 op
        clockCount := s.target.clockCount + 6 }).setMpsse (s.mpsse.pins true (op.testBit 5)) := by
  show ran (.tmsOut 0x00 (lastBitByte (op.testBit 5) true)) (ran (.bitsOut 0x04 (BitVec.ofNat 8 (op % 32))) s) = _
  rw [ran_bitsOut _ _ _ rfl, hp, bitPins, clocked_shIR _ _ ht, ran_lastBit_shIR _ _ (by exact ht)]
  have hb : ∀ r, shiftIrsr (op.testBit 5) ((lowBits ((0x04 : Byte).toNat + 1) (BitVec.ofNat 8 (op % 32))).foldl
      (fun r x => shiftIrsr x r) r) = BitVec.ofNat 6 op := by
    intro r
    have hl : lowBits 6 (BitVec.ofNat 6 op) = lowBits 5 (BitVec.ofNat 8 (op % 32)) ++ [op.testBit 5] := by
      rw [lowBits_succ]
      congr 1
      · refine List.map_congr_left fun i hi => ?_
        have : i < 5 := List.mem_range.1 hi
        have h32 : (op % 32).testBit i = (decide (i < 5) && op.testBit i) := Nat.testBit_mod_two_pow op 5 i
        rw [BitVec.getLsbD_ofNat, BitVec.getLsbD_ofNat, h32]
        have h6 : i < 6 := by omega
        have h8 : i < 8 := by omega
        simp [this, h6, h8]
      · rw [BitVec.getLsbD_ofNat]; rfl
    have h := shiftIrsr_lowBits (BitVec.ofNat 6 op) r
    rw [hl, List.foldl_append] at h
    exact h
  simp only [setMpsse_target, setTarget_target, setMpsse_mpsse, hb, lowBits_length]
  rfl

/-! ## The DR scans of the operations -/

/-- The six zero bytes of blanking and the eight settle clocks (R247, R371): the register is zeros. -/
theorem ranAll_blanking (s : State) (ht : s.target.tap = .shDR) (hd : s.target.dsr ≠ []) (hl : s.target.dsr.length ≤ 56)
    (hp : s.mpsse.tmsPin = false) :
    ranAll (commands (.clockOnly Config.settleClocks)) (ranAll (commands (.shiftBytesOut blanking)) s) =
      (s.setTarget { s.target with
        dsr := List.replicate s.target.dsr.length false
        clockCount := s.target.clockCount + 56 }).setMpsse (s.mpsse.pins false false) := by
  have hc1 : commands (.clockOnly Config.settleClocks) = [.clkOnly 0x07] := rfl
  have hc2 : commands (.shiftBytesOut blanking) = [.bytesOut [0x00, 0x00, 0x00, 0x00, 0x00, 0x00]] := rfl
  have hz : byteBits [0x00, 0x00, 0x00, 0x00, 0x00, 0x00] = List.replicate 48 false := rfl
  have hlen : (s.target.dsr ++ List.replicate 48 false).drop 48 ≠ [] := by
    intro h
    have := congrArg List.length h
    simp only [List.length_drop, List.length_append, List.length_replicate, List.length_nil] at this
    exact hd (List.length_eq_zero_iff.1 (by omega))
  have hfin : ((s.target.dsr ++ List.replicate 48 false).drop 48
      ++ List.replicate 8 false).drop 8 = List.replicate s.target.dsr.length false := by
    rw [← List.drop_append_of_le_length (by simp), List.drop_drop, List.append_assoc, List.replicate_append_replicate]
    have h := shifted_full s.target.dsr (List.replicate 56 false) (by simpa using hl)
    rw [List.length_replicate] at h
    rw [h, List.drop_replicate]
    congr 1
    omega
  rw [hc1, hc2, ranAll_cons, ranAll_nil, ranAll_cons, ranAll_nil, ran_bytesOut_shDR _ _ _ rfl ht hd hp,
    ran_clkOnly_shDR _ _ rfl (by exact ht) (by rw [hz]; exact hlen) rfl]
  simp only [setMpsse_setTarget, setTarget_target, setMpsse_target, setMpsse_mpsse, setTarget_setTarget, setMpsse_setMpsse, hz]
  rw [← hfin]
  rfl

/-- `load_cmd a, s, rw` into a register of 35 bits: the register holds the command (R215, R142). -/
theorem ranAll_loadCmd (a : Word) (sz : BitVec 2) (rw : Bool) (s : State) (ht : s.target.tap = .shDR)
    (hl : s.target.dsr.length = 35) (hp : s.mpsse.tmsPin = false) :
    ranAll (commands (.loadCmd a sz rw)) s = (s.setTarget { s.target with
        tap := .ex1DR
        dsr := lowBits 35 (cmdValue a sz rw)
        clockCount := s.target.clockCount + 35 }).setMpsse (s.mpsse.pins true rw) := by
  have hne : ∀ xs : List Bool, ∀ d : List Bool, d.length = 35 → (d ++ xs).drop xs.length ≠ [] := by
    intro xs d hd h
    have := congrArg List.length h
    simp [hd] at this
  have hb := byteBits_wordBytes a
  have hbl : (byteBits (wordBytes a)).length = 32 := by rw [hb, lowBits_length]
  show ran (.tmsOut 0x00 (lastBitByte rw true)) (ran (.bitsOut 0x01 (sz.setWidth 8)) (ran (.bytesOut (wordBytes a)) s)) = _
  have hd0 : s.target.dsr ≠ [] := by intro h; rw [h] at hl; simp at hl
  have h1 := ran_bytesOut_shDR (a.extractLsb' 0 8) [a.extractLsb' 8 8, a.extractLsb' 16 8, a.extractLsb' 24 8] s rfl ht hd0 hp
  have hw : (a.extractLsb' 0 8 :: [a.extractLsb' 8 8, a.extractLsb' 16 8, a.extractLsb' 24 8]) = wordBytes a := rfl
  rw [hw, hb] at h1
  have hne1 : (s.target.dsr ++ lowBits 32 a).drop (8 * 4) ≠ [] := by
    have := hne (lowBits 32 a) s.target.dsr hl
    rwa [lowBits_length] at this
  rw [h1, ran_bitsOut_shDR _ _ _ rfl (by exact ht) (by exact hne1) rfl, ran_lastBit_shDR _ _ (by exact ht)]
  simp only [setMpsse_setTarget, setTarget_target, setMpsse_target, setMpsse_mpsse, setTarget_setTarget, setMpsse_setMpsse]
  have hsz : lowBits 2 (sz.setWidth 8) = lowBits 2 sz := by revert sz; decide
  have hfin : shiftDsr rw (((s.target.dsr ++ lowBits 32 a).drop (8 * 4) ++ lowBits 2 (sz.setWidth 8)).drop 2) =
      lowBits 35 (cmdValue a sz rw) := by
    rw [hsz, lowBits_cmdValue, shiftDsr, ← List.drop_one, List.drop_drop, List.drop_append, List.drop_drop, List.drop_append,
      List.drop_of_length_le (by omega)]
    simp [hl]
  rw [← hfin]
  rfl

/-- The state in UpdDR one clock after Exit1-DR: the update has happened (R138). -/
def updated (s : State) : State :=
  updateDr (s.setTarget { s.target with tap := .updDR, clockCount := s.target.clockCount + 1 })

/-- The state in ShDR after a capture at the clock of number n (R136). -/
def captured (n : Nat) (s : State) : State :=
  let c := captureDr (s.setTarget { s.target with tap := .capDR, clockCount := n })
  c.setTarget { c.target with tap := .shDR }

/-- `exit1_to_shift_dr` from Exit1-IR: the IR is updated, and the register it selects captured (R203). -/
theorem ran_exit1_ex1IR (s : State) (ht : s.target.tap = .ex1IR) :
    ran (.tmsOut 0x03 0x03) s =
      (captured (s.target.clockCount + 4) (s.setTarget { s.target with ir := s.target.irsr })).setMpsse
        (s.mpsse.pins false false) := by
  rw [ran_tmsOut _ _ _ rfl]
  have hp : tmsPins 0x03 0x03 = [(true, false), (true, false), (false, false), (false, false)] := rfl
  rw [hp]
  simp [clocked, clock, countClock, risingEdge, moveTap, fallingEdge, nextTap, loadIr, ht, captured]

/-- `exit1_to_shift_dr` from Exit1-DR: the update of one data scan, and the capture of the next (R203). -/
theorem ran_exit1_ex1DR (s : State) (ht : s.target.tap = .ex1DR) :
    ran (.tmsOut 0x03 0x03) s =
      (captured (s.target.clockCount + 4) (updated s)).setMpsse (s.mpsse.pins false false) := by
  rw [ran_tmsOut _ _ _ rfl]
  have hp : tmsPins 0x03 0x03 = [(true, false), (true, false), (false, false), (false, false)] := rfl
  rw [hp]
  simp [clocked, clock, countClock, risingEdge, moveTap, fallingEdge, nextTap, ht, captured, updated]

/-- `exit1dr_to_shift_ir` from Exit1-DR: the update, and the walk to Shift-IR (R204). -/
theorem ran_exit1drToShiftIr (s : State) (ht : s.target.tap = .ex1DR) :
    ran (.tmsOut 0x04 0x07) s = ((updated s).setTarget { (updated s).target with
        tap := .shIR
        irsr := s.params.irCapture
        clockCount := s.target.clockCount + 5 }).setMpsse (s.mpsse.pins false false) := by
  rw [ran_tmsOut _ _ _ rfl]
  have hp : tmsPins 0x04 0x07 = [(true, false), (true, false), (true, false), (false, false), (false, false)] := rfl
  rw [hp]
  simp [clocked, clock, countClock, risingEdge, moveTap, fallingEdge, nextTap, ht, updated]

/-- `reset_to_tlr` from Exit1-DR: its first clock is the update (R253). -/
theorem ran_reset_ex1DR (s : State) (ht : s.target.tap = .ex1DR) :
    ran (.tmsOut 0x04 0x3F) s = ((updated s).setTarget { (updated s).target with
        tap := .tlr
        ir := s.params.idcodeOpcode
        clockCount := s.target.clockCount + 5 }).setMpsse (s.mpsse.pins true false) := by
  rw [ran_tmsOut _ _ _ rfl]
  have hp : tmsPins 0x04 0x3F = [(true, false), (true, false), (true, false), (true, false), (true, false)] := rfl
  rw [hp]
  simp [clocked, clock, countClock, risingEdge, moveTap, fallingEdge, nextTap, ht, updated, loadIr]

/-- The state one clock with TMS high and TDI low after ShDR: a 0 is the scan's last bit. -/
def exited (s : State) : State :=
  s.setTarget { s.target with
    tap := .ex1DR
    dsr := shiftDsr false s.target.dsr
    clockCount := s.target.clockCount + 1 }

/-- `reset_to_tlr` from ShDR: its first clock shifts a 0, and its second is the update (R201). -/
theorem ran_reset_shDR (s : State) (ht : s.target.tap = .shDR) :
    ran (.tmsOut 0x04 0x3F) s = ((updated (exited s)).setTarget { (updated (exited s)).target with
        tap := .tlr
        ir := s.params.idcodeOpcode
        clockCount := s.target.clockCount + 5 }).setMpsse (s.mpsse.pins true false) := by
  rw [ran_tmsOut _ _ _ rfl]
  have hp : tmsPins 0x04 0x3F = [(true, false), (true, false), (true, false), (true, false), (true, false)] := rfl
  rw [hp]
  simp [clocked, clock, countClock, risingEdge, moveTap, fallingEdge, nextTap, ht, updated, exited, loadIr]

/-- `write_data d, seq` into a register of 33 bits: the register holds the data and SEQ (R216, R142). -/
theorem ranAll_writeData (d : Word) (seq : Bool) (s : State) (ht : s.target.tap = .shDR)
    (hl : s.target.dsr.length = 33) (hp : s.mpsse.tmsPin = false) :
    ranAll (commands (.writeData d seq)) s = (s.setTarget { s.target with
        tap := .ex1DR
        dsr := lowBits 33 (dataValue seq d)
        clockCount := s.target.clockCount + 33 }).setMpsse (s.mpsse.pins true seq) := by
  show ran (.tmsOut 0x00 (lastBitByte seq true)) (ran (.bytesOut (wordBytes d)) s) = _
  have hb := byteBits_wordBytes d
  have hd0 : s.target.dsr ≠ [] := by intro h; rw [h] at hl; simp at hl
  have h1 := ran_bytesOut_shDR (d.extractLsb' 0 8) [d.extractLsb' 8 8, d.extractLsb' 16 8, d.extractLsb' 24 8] s rfl ht hd0 hp
  have hw : (d.extractLsb' 0 8 :: [d.extractLsb' 8 8, d.extractLsb' 16 8, d.extractLsb' 24 8]) = wordBytes d := rfl
  rw [hw, hb] at h1
  rw [h1, ran_lastBit_shDR _ _ (by exact ht)]
  simp only [setMpsse_setTarget, setTarget_target, setMpsse_target, setMpsse_mpsse, setTarget_setTarget, setMpsse_setMpsse]
  have hfin : shiftDsr seq ((s.target.dsr ++ lowBits 32 d).drop (8 * 4)) = lowBits 33 (dataValue seq d) := by
    rw [lowBits_dataValue, shiftDsr, ← List.drop_one, List.drop_drop, List.drop_append, List.drop_of_length_le (by omega)]
    simp [hl]
  rw [← hfin]
  rfl

/-- A byte of eight samples is the byte they are the bits of. -/
theorem byteResponse_lowBits (b : Byte) : byteResponse (lowBits 8 b) = b := ofNat_packBits_lowBits b

/-- The bytes of a word from the samples of its bits (R168). -/
theorem byteResponses_lowBits (w : Word) : byteResponses 4 (lowBits 32 w) = wordBytes w := by
  rw [← byteBits_wordBytes]
  have h : ∀ (ds : List Byte), byteResponses ds.length (byteBits ds) = ds := by
    intro ds
    induction ds with
    | nil => rfl
    | cons d ds ih =>
      rw [byteBits_cons, List.length_cons, byteResponses, List.take_append_of_le_length (by simp),
        List.take_of_length_le (by simp), List.drop_append_of_le_length (by simp), List.drop_of_length_le (by simp),
        List.nil_append, ih, byteResponse_lowBits]
  exact h (wordBytes w)

/-- The engine parses a word's bytes back (R226). -/
theorem bytesWord_wordBytes (w : Word) (rest : List Byte) : bytesWord ((wordBytes w ++ rest).take 4) = w := by
  show w.extractLsb' 24 8 ++ w.extractLsb' 16 8 ++ w.extractLsb' 8 8 ++ w.extractLsb' 0 8 = w
  ext i hi
  simp only [BitVec.getElem_append, BitVec.getElem_extractLsb']
  split
  · simp [hi]
  · split
    · rw [← BitVec.getLsbD_eq_getElem]; congr 1; omega
    · split
      · rw [← BitVec.getLsbD_eq_getElem]; congr 1; omega
      · rw [← BitVec.getLsbD_eq_getElem]; congr 1; omega

/-- `read_data`: the register's low 32 bits are returned, zeros are shifted in, and the TAP stays (R217). -/
theorem ranAll_readData (w : Word) (rest : List Bool) (s : State) (ht : s.target.tap = .shDR)
    (hd : s.target.dsr = lowBits 32 w ++ rest) (hp : s.mpsse.tmsPin = false) (hlb : s.mpsse.loopback = false) :
    ranAll (commands .readData) s = (s.setTarget { s.target with
        dsr := rest ++ List.replicate 32 false
        clockCount := s.target.clockCount + 32 }).setMpsse
      ((s.mpsse.pins false false).rx (s.mpsse.rxFifo ++ wordBytes w)) := by
  have hc : commands .readData = [.bytesInout [0x00, 0x00, 0x00, 0x00]] := rfl
  have hz : byteBits [0x00, 0x00, 0x00, 0x00] = List.replicate 32 false := rfl
  have hd0 : s.target.dsr ≠ [] := by
    rw [hd]; intro h
    have := congrArg List.length h
    simp at this
  rw [hc, ranAll_cons, ranAll_nil, ran_bytesInout _ _ rfl, hp, pinsAfter_bytesPins, bytesPins_eq, hz]
  simp only [samplesOf, hlb, Bool.false_eq_true, if_false]
  rw [tdoLevels_shDR _ _ ht hd0, clocked_shDR _ _ ht hd0]
  have h1 : (s.target.dsr ++ List.replicate 32 false).take (List.replicate 32 false).length = lowBits 32 w := by
    rw [hd, List.append_assoc, List.take_append_of_le_length (by simp), List.take_of_length_le (by simp)]
  have h2 : (s.target.dsr ++ List.replicate 32 false).drop (List.replicate 32 false).length =
      rest ++ List.replicate 32 false := by
    rw [hd, List.append_assoc, List.drop_append_of_le_length (by simp), List.drop_of_length_le (by simp), List.nil_append]
  rw [h1, h2]
  have h3 := byteResponses_lowBits w
  have h4 : lastTdi [(0x00 : Byte), 0x00, 0x00, 0x00] false = false := rfl
  rw [h4, List.length_replicate]
  show _ = (s.setTarget _).setMpsse ((s.mpsse.pins false false).rx (s.mpsse.rxFifo ++ wordBytes w))
  rw [← h3]
  rfl

end Sys2Proof.Machine
end

