-- ==== Sys2Proof/Laws/Operation.lean ====
section
/-! SUPPORT. The pieces the operations are made of, on the target: captures and updates of each register, the command load
and the data select; and how an operation comes to its action list. -/

namespace Sys2Proof.Machine

open Sys2Proof

/-! ## Captures -/

theorem captured_cmd (n : Nat) (s : State) (h : s.target.ir = Config.codeAddrComm) :
    captured n s = s.setTarget { s.target with
      tap := .shDR
      dsr := lowBits 35 (Config.cmdCapture n)
      clockCount := n } := by
  have hs : State.sel (s.setTarget { s.target with tap := .capDR, clockCount := n }) = .cmd := by
    simp [State.sel, selectDr, h]
  simp only [captured, captureDr, hs]
  rfl

theorem captured_data (n : Nat) (s : State) (h : s.target.ir = Config.codeData) :
    captured n s = s.setTarget { s.target with
      tap := .shDR
      bridge := s.target.bridge.complete n
      dsr := lowBits 33 (captureDataValue (s.target.bridge.complete n) n)
      clockCount := n } := by
  have hs : State.sel (s.setTarget { s.target with tap := .capDR, clockCount := n }) = .data := by
    simp [State.sel, selectDr, h, Config.codeData, Config.codeAddrComm]
  simp only [captured, captureDr, hs]
  rfl

/-! ## Updates -/

/-- The update of a write command: the address, the size and the direction; no transfer (R242). -/
theorem updated_write (a : Word) (sz : BitVec 2) (s : State) (h : s.target.ir = Config.codeAddrComm)
    (hd : s.target.dsr = lowBits 35 (cmdValue a sz true)) :
    updated s = s.setTarget { s.target with
      tap := .updDR
      clockCount := s.target.clockCount + 1
      cmd := cmdValue a sz true
      bridge := { curAddr := a, curSize := sz, curW := true, pending := .none, rdata := s.target.bridge.rdata,
                  pastBlock := false } } := by
  have hs : State.sel (s.setTarget { s.target with tap := .updDR, clockCount := s.target.clockCount + 1 }) = .cmd := by
    simp [State.sel, selectDr, h]
  unfold updated updateDr
  rw [hs]
  show updateCmd (BitVec.ofNat 35 (packBits s.target.dsr)) _ = _
  rw [hd, ofNat_packBits_lowBits]
  simp [updateCmd, State.setBridge]

/-- The state whose bridge starts a read: the command is latched, at the clock of the update (R242). -/
def latchedRead (a : Word) (sz : BitVec 2) (s : State) : State :=
  s.setTarget { s.target with
    tap := .updDR
    clockCount := s.target.clockCount + 1
    cmd := cmdValue a sz false
    bridge := { curAddr := a, curSize := sz, curW := false, pending := s.target.bridge.pending,
                rdata := s.target.bridge.rdata, pastBlock := false } }

/-- The update of a read command starts its read at once (R242). -/
theorem updated_read (a : Word) (sz : BitVec 2) (s : State) (h : s.target.ir = Config.codeAddrComm)
    (hd : s.target.dsr = lowBits 35 (cmdValue a sz false)) :
    updated s = startRead (latchedRead a sz s) := by
  have hs : State.sel (s.setTarget { s.target with tap := .updDR, clockCount := s.target.clockCount + 1 }) = .cmd := by
    simp [State.sel, selectDr, h]
  unfold updated updateDr
  rw [hs]
  show updateCmd (BitVec.ofNat 35 (packBits s.target.dsr)) _ = _
  rw [hd, ofNat_packBits_lowBits]
  simp [updateCmd, latchedRead]

/-- The state in UpdDR with the data register updated, before the bridge acts (R243). -/
def dataLatched (v : BitVec 33) (s : State) : State :=
  s.setTarget { s.target with tap := .updDR, clockCount := s.target.clockCount + 1, data := v }

/-- The update of the data register (R243). -/
theorem updated_data (v : BitVec 33) (s : State) (h : s.target.ir = Config.codeData) (hd : s.target.dsr = lowBits 33 v) :
    updated s =
      if s.target.bridge.curW then
        let t := memWrite (dataLatched v s) s.target.bridge.curAddr s.target.bridge.curSize (dataField v)
        if seqFlag v then t.setBridge s.target.bridge.increment else t
      else if seqFlag v then startRead ((dataLatched v s).setBridge s.target.bridge.increment)
      else dataLatched v s := by
  have hs : State.sel (s.setTarget { s.target with tap := .updDR, clockCount := s.target.clockCount + 1 }) = .data := by
    simp [State.sel, selectDr, h, Config.codeData, Config.codeAddrComm]
  unfold updated updateDr
  rw [hs]
  show updateData (BitVec.ofNat 33 (packBits s.target.dsr)) _ = _
  rw [hd, ofNat_packBits_lowBits]
  rfl

/-! ## Reads -/

/-- A read takes 1 clock to `AHB_READ_LATENCY_TCK` clocks (R245). -/
theorem readClocks_bounds (s : State) : 1 ≤ readClocks s ∧ readClocks s ≤ max 1 s.params.ahbReadLatency := by
  unfold readClocks
  split
  · omega
  · next h =>
    have := Nat.mod_lt (Config.readDelay s.target.clockCount) (show 0 < s.params.ahbReadLatency by omega)
    omega

/-- A read whose clock has come is complete: its word is captured with `done` (R244). -/
theorem complete_done (b : Bridge) (t n : Nat) (w : Word) (hp : b.pending = .read t w) (ht : t ≤ n) :
    b.complete n = { b with rdata := w, pending := .none } := by
  simp [Bridge.complete, hp, ht]

theorem complete_waiting (b : Bridge) (t n : Nat) (w : Word) (hp : b.pending = .read t w) (ht : n < t) :
    b.complete n = b := by
  simp [Bridge.complete, hp, Nat.not_le.2 ht]

theorem complete_none (b : Bridge) (n : Nat) (hp : b.pending = .none) : b.complete n = b := by
  simp [Bridge.complete, hp]

theorem captureDataValue_done (b : Bridge) (n : Nat) (hw : b.curW = false) (hp : b.pending = .none) :
    captureDataValue b n = dataValue true b.rdata := by
  simp [captureDataValue, doneFlag, hw, hp]

theorem captureDataValue_waiting (b : Bridge) (t n : Nat) (w : Word) (hw : b.curW = false) (hp : b.pending = .read t w) :
    captureDataValue b n = dataValue false (Config.dataCapture n) := by
  simp [captureDataValue, doneFlag, hw, hp]

theorem captureDataValue_write (b : Bridge) (n : Nat) (hw : b.curW = true) :
    captureDataValue b n = dataValue true (Config.dataCapture n) := by
  simp [captureDataValue, doneFlag, hw]

/-! ## The command load and the data select -/

/-- `command_load` after its `reset_to_tlr`: the command stands in the shift register, and nothing is updated (R247). -/
theorem play_commandLoad_tail (a : Word) (sz : BitVec 2) (rw : Bool) (s : State) (ht : s.target.tap = .tlr) :
    play (commandLoad a sz rw).tail s = (s.setTarget { s.target with
        tap := .ex1DR
        ir := Config.codeAddrComm
        irsr := Config.codeAddrComm
        dsr := lowBits 35 (cmdValue a sz rw)
        clockCount := s.target.clockCount + 107 }).setMpsse (s.mpsse.pins true rw) := by
  show play [.emit .tlrToShiftIr, .emit (.shiftIr Config.codeAddrComm.toNat), .emit .exit1ToShiftDr,
   .emit (.shiftBytesOut blanking), .emit (.clockOnly Config.settleClocks), .emit (.loadCmd a sz rw)] s = _
  simp only [play]
  have h1 : ranAll (commands .tlrToShiftIr) s = _ := ran_tlrToShiftIr s ht
  have h3 : ∀ t, ranAll (commands .exit1ToShiftDr) t = ran (.tmsOut 0x03 0x03) t := fun _ => rfl
  rw [h1, ranAll_shiftIr _ _ rfl rfl, h3, ran_exit1_ex1IR _ rfl]
  simp only [setMpsse_setTarget, setTarget_target, setMpsse_target, setMpsse_mpsse, setTarget_setTarget, setMpsse_setMpsse,
    pins_pins]
  rw [captured_cmd _ _ rfl]
  simp only [setMpsse_setTarget, setTarget_target, setMpsse_target, setTarget_setTarget, setMpsse_setMpsse]
  rw [ranAll_blanking _ rfl (by simp [lowBits]) (by simp) rfl]
  simp only [setMpsse_setTarget, setTarget_target, setMpsse_target, setMpsse_mpsse, setTarget_setTarget, setMpsse_setMpsse,
    pins_pins]
  rw [ranAll_loadCmd _ _ _ _ rfl (by simp) rfl]
  simp only [setMpsse_setTarget, setTarget_target, setMpsse_target, setMpsse_mpsse, setTarget_setTarget, setMpsse_setMpsse,
    pins_pins]
  rfl

/-- `data_select`: the command is updated on the first clock, and the data register captured on the fifteenth (R248). -/
theorem play_dataSelect (s : State) (ht : s.target.tap = .ex1DR) :
    play dataSelect s = (captured (s.target.clockCount + 15)
      ((updated s).setTarget { (updated s).target with ir := Config.codeData, irsr := Config.codeData })).setMpsse
        (s.mpsse.pins false false) := by
  show play [.emit .exit1drToShiftIr, .emit (.shiftIr Config.codeData.toNat), .emit .exit1ToShiftDr] s = _
  simp only [play]
  have h1 : ranAll (commands .exit1drToShiftIr) s = _ := ran_exit1drToShiftIr s ht
  have h3 : ∀ t, ranAll (commands .exit1ToShiftDr) t = ran (.tmsOut 0x03 0x03) t := fun _ => rfl
  rw [h1, ranAll_shiftIr _ _ rfl rfl, h3, ran_exit1_ex1IR _ rfl]
  simp only [setMpsse_setTarget, setTarget_target, setMpsse_target, setMpsse_mpsse, setTarget_setTarget, setMpsse_setMpsse,
    pins_pins]
  rfl

end Sys2Proof.Machine
end

