-- ==== Sys2Proof/Laws/Session.lean ====
section
/-! SUPPORT. The laws of a session's driver calls: what a call that succeeds or fails comes to. -/

namespace Sys2Proof.Machine

open Sys2Proof

@[simp] theorem andThen_ok (s : State) (f : State → Run) : (Run.ok s).andThen f = f s := rfl
@[simp] theorem andThen_raised (s : State) (f : State → Run) : (Run.raised s).andThen f = .raised s := rfl
@[simp] theorem andThen_refused (r : Refusal) (f : State → Run) : (Run.refused r).andThen f = .refused r := rfl

/-- The driver after one more call: its outcome is taken off the list. -/
def Usb.next (u : Usb) : Usb := { u with events := u.events.tail, calls := u.calls + 1 }

theorem driverCall_snd (s : State) : (driverCall s).2 = s.setUsb s.usb.next := rfl

theorem driverCall_fst (s : State) : (driverCall s).1 = s.usb.events.headD .healthy := rfl

/-- With no partial command waiting, the purge empties both queues (R362 step 4). -/
theorem purge_empty (s : State) (h : s.mpsse.input = []) :
    purge s = s.setMpsse { s.mpsse with rxFifo := [], input := [] } := by
  unfold purge
  rw [h]
  cases Config.partialSurvivesPurge s.usb.calls <;> rfl

/-- A step of the open sequence whose driver call succeeds has its effect (R362). -/
theorem openCall_ok (st : OpenStage) (f : State → State) (s : State) (h : (s.usb.events.headD .healthy).failure = none) :
    openCall st f s = .ok (f (s.setUsb s.usb.next)) := by
  have h' : (driverCall s).1.failure = none := h
  unfold openCall
  rw [if_pos h']
  rfl

/-- A step whose driver call fails ends the sequence (R362). -/
theorem openCall_failed (st : OpenStage) (f : State → State) (s : State) (n : Nat)
    (h : (s.usb.events.headD .healthy).failure = some n) : openCall st f s = openFail st (s.setUsb s.usb.next) := by
  have h' : (driverCall s).1.failure ≠ none := by rw [driverCall_fst, h]; exact Option.some_ne_none _
  unfold openCall
  rw [if_neg h']
  rfl

/-- The purge step, its driver call healthy and no partial command waiting. -/
theorem openCall_purge (s : State) (h : (s.usb.events.headD .healthy).failure = none) (hi : s.mpsse.input = []) :
    openCall .purge purge s = .ok ((s.setUsb s.usb.next).setMpsse { s.mpsse with rxFifo := [], input := [] }) := by
  rw [openCall_ok _ _ _ h]
  exact congrArg Run.ok (purge_empty (s.setUsb s.usb.next) hi)

end Sys2Proof.Machine
end

