-- ==== Sys2Proof/Tests/Slice0.lean ====
section
/-! SUPPORT. Tests of the model on single steps. The expected values are those of 95_test_vectors.md, or worked by hand from
the rules named; the parameters are the example values of 95_test_vectors.md. -/

namespace Sys2Proof.Tests

open Sys2Proof Sys2Proof.Machine

/-! ## The states the tests start from -/

/-- The example parameters of 95_test_vectors.md. -/
def p0 : Config.Params :=
  { ahbReadLatency := 1, idcodeOpcode := 0x01, idcodeValue := 0x12345678, irCapture := 0x01,
    ramRegion := [⟨0x40000000, 0x800000⟩], targetQuiescent := true, measuredChain := ⟨1, 6, 35, 33⟩ }

/-- After reset, with the example parameters and a session, the target in TLR. -/
def s0 : State :=
  { State.reset with
    params := p0
    engine := { Engine.reset with session := some (newSession 0 .leon3) }
    target := { Target.reset with tap := .tlr, ir := 0x01 } }

/-- s0 with this belief. -/
def believing (t : TapState) : State := s0.setEngine { s0.engine with tapBelief := .at t }

/-- s0 with the target in this state, this IR and this shift register. -/
def targetAt (t : TapState) (ir : BitVec 6) (dsr : List Bool) : State :=
  s0.setTarget { s0.target with tap := t, ir := ir, dsr := dsr }

/-- s0 with these bytes of memory from 0x40000000 on. -/
def withBytes (bs : List Byte) : State :=
  s0.setMem ((List.range bs.length).zip bs |>.map fun c => (0x40000000 + c.1, c.2))

/-- A state where the data register holds v in Exit1-DR, the bridge at 0x40000000, word size. -/
def dataExit (w : Bool) (v : BitVec 33) : State :=
  s0.setTarget { s0.target with
    tap := .ex1DR, ir := 0x03, dsr := lowBits 33 v
    bridge := { Bridge.reset with curAddr := 0x40000000, curSize := 0b10, curW := w } }

/-- A driver with these coming outcomes. -/
def driven (s : State) (ev : List DriverEvent) : State := s.setUsb { s.usb with events := ev }

/-- The state an outcome goes on to, or the state itself. -/
def goesTo (o : Host.Outcome State Fault Refusal) (s : State) : State :=
  match o with
  | .next t => t
  | _ => s

/-- An outcome is a next state. -/
def isNext (o : Host.Outcome State Fault Refusal) : Bool :=
  match o with
  | .next _ => true
  | _ => false

theorem next_of_isNext {o : Host.Outcome State Fault Refusal} (h : isNext o = true) : ∃ t, o = .next t := by
  cases o with
  | next t => exact ⟨t, rfl⟩
  | fault f => cases h
  | refused r => cases h

/-! ## WellFormed: for each check a term it refuses -/

theorem test_illformed_tmsOut : Instr.wellFormed (.tmsOut 0x07 0x00) = false := by decide
theorem test_illformed_tmsOutRead : Instr.wellFormed (.tmsOutRead 0xFF 0x00) = false := by decide
theorem test_illformed_bitsOut : Instr.wellFormed (.bitsOut 0x08 0x00) = false := by decide
theorem test_illformed_bitsInout : Instr.wellFormed (.bitsInout 0x08 0x00) = false := by decide
theorem test_illformed_bitsIn : Instr.wellFormed (.bitsIn 0x80) = false := by decide
theorem test_illformed_bytesOut : Instr.wellFormed (.bytesOut []) = false := by decide
theorem test_illformed_bytesInout : Instr.wellFormed (.bytesInout []) = false := by decide
theorem test_illformed_clkOnly : Instr.wellFormed (.clkOnly 0x08) = false := by decide
theorem test_illformed_badCommand : Instr.wellFormed (.badCommand 0x4B) = false := by decide
theorem test_illformed_bypass : Instr.wellFormed (.bypass 0x02) = false := by decide
theorem test_illformed_shiftBitsOut : Instr.wellFormed (.shiftBitsOut 9 0x00) = false := by decide
theorem test_illformed_shiftBitsInout : Instr.wellFormed (.shiftBitsInout 0 0x00) = false := by decide
theorem test_illformed_shiftBitsIn : Instr.wellFormed (.shiftBitsIn 0) = false := by decide
theorem test_illformed_shiftBytesOut : Instr.wellFormed (.shiftBytesOut []) = false := by decide
theorem test_illformed_shiftBytesInout : Instr.wellFormed (.shiftBytesInout []) = false := by decide
theorem test_illformed_clockOnly : Instr.wellFormed (.clockOnly 9) = false := by decide
theorem test_illformed_shiftIr : Instr.wellFormed (.shiftIr 0x40) = false := by decide
theorem test_illformed_loadCmd : Instr.wellFormed (.loadCmd 0x40000000 0b11 false) = false := by decide
theorem test_illformed_read32 : Instr.wellFormed (.read32 0x40000002) = false := by decide
theorem test_illformed_read16 : Instr.wellFormed (.read16 0x40000001) = false := by decide
theorem test_illformed_write32 :
    Instr.wellFormed (.write32 0x40000001 0) = false ∧ Instr.wellFormed (.write32 0x40000000 0x100000000) = false := by decide
theorem test_illformed_write16 :
    Instr.wellFormed (.write16 0x40000001 0) = false ∧ Instr.wellFormed (.write16 0x40000000 0x10000) = false := by decide
theorem test_illformed_write8 : Instr.wellFormed (.write8 0x40000000 0x100) = false := by decide
theorem test_illformed_burstWrite :
    Instr.wellFormed (.burstWrite 0x40000000 []) = false ∧ Instr.wellFormed (.burstWrite 0x400003FC [0, 0]) = false := by decide
theorem test_illformed_burstRead :
    Instr.wellFormed (.burstRead 0x40000000 257) = false ∧ Instr.wellFormed (.burstRead 0x40000004 256) = false := by decide
theorem test_illformed_writeMany :
    Instr.wellFormed (.writeMany 0x40000000 [1, 2] 3 false) = false
    ∧ Instr.wellFormed (.writeMany 0x40000002 [1] 1 false) = false := by decide
theorem test_illformed_readMany :
    Instr.wellFormed (.readMany 0x40000300 65 false) = false ∧ Instr.wellFormed (.readMany 0x40000300 64 false) = true := by
  decide

/-! ## Decoding: words written out from the spec's encodings (R91 to R98, R28, R114, R257) -/

theorem test_decode_tmsOut : decodeMpsse [0x4B, 0x05, 0x0D] = .command (.tmsOut 0x05 0x0D) [] := by decide
theorem test_decode_tmsOutRead : decodeMpsse [0x6B, 0x00, 0x81] = .command (.tmsOutRead 0x00 0x81) [] := by decide
theorem test_decode_bitsOut : decodeMpsse [0x1B, 0x04, 0x02] = .command (.bitsOut 0x04 0x02) [] := by decide
theorem test_decode_bitsInout : decodeMpsse [0x3B, 0x07, 0xA5] = .command (.bitsInout 0x07 0xA5) [] := by decide
theorem test_decode_bitsIn : decodeMpsse [0x2A, 0x07] = .command (.bitsIn 0x07) [] := by decide
theorem test_decode_bytesOut : decodeMpsse [0x19, 0x00, 0x00, 0xFF, 0x84] = .command (.bytesOut [0xFF]) [0x84] := by decide
theorem test_decode_bytesInout : decodeMpsse [0x39, 0x01, 0x00, 0x5A, 0xC3] = .command (.bytesInout [0x5A, 0xC3]) [] := by
  decide
theorem test_decode_clkOnly : decodeMpsse [0x8E, 0x07] = .command (.clkOnly 0x07) [] := by decide
theorem test_decode_loopbackOn : decodeMpsse [0x84, 0xAB] = .command .loopbackOn [0xAB] := by decide
theorem test_decode_loopbackOff : decodeMpsse [0x85] = .command .loopbackOff [] := by decide
theorem test_decode_clockConfig :
    decodeMpsse [0x8A, 0x97, 0x8D] = .command .div5Off [0x97, 0x8D] ∧ decodeMpsse [0x97, 0x8D] = .command .adaptiveOff [0x8D]
    ∧ decodeMpsse [0x8D] = .command .threePhaseOff [] := by decide
theorem test_decode_setDivisor : decodeMpsse [0x86, 0x34, 0x12] = .command (.setDivisor 0x1234) [] := by decide
theorem test_decode_setLowByte : decodeMpsse [0x80, 0x08, 0x0B] = .command (.setLowByte 0x08 0x0B) [] := by decide
theorem test_decode_setHighByte : decodeMpsse [0x82, 0x01, 0x02] = .command (.setHighByte 0x01 0x02) [] := by decide
theorem test_decode_badCommand : decodeMpsse [0xAB] = .command (.badCommand 0xAB) [] := by decide
theorem test_decode_rejects : decodeMpsse [0x4B, 0x07, 0x00, 0x84] = .rejected .countOutOfRange [0x84] := by decide
/-- V41-17: two data bytes announced, one sent. -/
theorem test_decode_waits : decodeMpsse [0x19, 0x01, 0x00, 0xAA] = .waiting := by decide
theorem test_decode_ir :
    decodeIr 0x01 0x02 = .codeAddrComm ∧ decodeIr 0x01 0x03 = .codeData ∧ decodeIr 0x01 0x01 = .idcode
    ∧ decodeIr 0x01 0x1F = .bypass 0x1F := by decide
theorem test_decode_walks :
    decodePrimitive [0x4B, 0x04, 0x3F] = some .resetToTlr ∧ decodePrimitive [0x4B, 0x05, 0x0D] = some .tlrToShiftIr
    ∧ decodePrimitive [0x4B, 0x03, 0x03] = some .exit1ToShiftDr ∧ decodePrimitive [0x4B, 0x04, 0x07] = some .exit1drToShiftIr
    ∧ decodePrimitive [0x4B, 0x03, 0x02] = some .tlrToShiftDr := by decide +kernel
theorem test_decode_shifts :
    decodePrimitive [0x1B, 0x01, 0x02] = some (.shiftBitsOut 2 0x02)
    ∧ decodePrimitive [0x3B, 0x00, 0x00] = some (.shiftBitsInout 1 0x00)
    ∧ decodePrimitive [0x2A, 0x07] = some (.shiftBitsIn 8)
    ∧ decodePrimitive [0x19, 0x01, 0x00, 0xAA, 0x55] = some (.shiftBytesOut [0xAA, 0x55])
    ∧ decodePrimitive [0x39, 0x00, 0x00, 0xAA] = some (.shiftBytesInout [0xAA])
    ∧ decodePrimitive [0x8E, 0x07] = some (.clockOnly 8) := by decide +kernel
theorem test_decode_lastBits :
    decodePrimitive [0x4B, 0x00, 0x80] = some (.lastBitWithTms true false)
    ∧ decodePrimitive [0x6B, 0x00, 0x01] = some (.lastBitWithTmsRead false true)
    ∧ decodePrimitive [0x4B, 0x00, 0x81] = some (.seqExit true) := by decide +kernel
/-- V42-10, V42-13, V42-16, V42-17, V42-22. -/
theorem test_decode_scans :
    decodePrimitive [0x1B, 0x04, 0x1F, 0x4B, 0x00, 0x81] = some (.shiftIr 0x3F)
    ∧ decodePrimitive [0x19, 0x03, 0x00, 0x01, 0x00, 0x00, 0x40, 0x1B, 0x01, 0x00, 0x4B, 0x00, 0x81] =
      some (.loadCmd 0x40000001 0b00 true)
    ∧ decodePrimitive [0x19, 0x03, 0x00, 0x11, 0x11, 0x11, 0x11, 0x4B, 0x00, 0x81] = some (.writeData 0x11111111 true)
    ∧ decodePrimitive [0x39, 0x03, 0x00, 0x00, 0x00, 0x00, 0x00] = some .readData
    ∧ decodePrimitive [0x4B, 0x04, 0x3F, 0x4B, 0x03, 0x02, 0x39, 0x03, 0x00, 0x00, 0x00, 0x00, 0x00, 0x4B, 0x04, 0x3F] =
      some .readIdcode := by decide +kernel

/-- The 26 bytes before the command scan of every bridge operation (R247). -/
def head : List Byte :=
  [0x4B, 0x04, 0x3F, 0x4B, 0x05, 0x0D, 0x1B, 0x04, 0x02, 0x4B, 0x00, 0x01, 0x4B, 0x03, 0x03,
   0x19, 0x05, 0x00, 0x00, 0x00, 0x00, 0x00, 0x00, 0x00, 0x8E, 0x07]

/-- The 12 bytes of `data_select` (R248). -/
def select : List Byte := [0x4B, 0x04, 0x07, 0x1B, 0x04, 0x03, 0x4B, 0x00, 0x01, 0x4B, 0x03, 0x03]

/-- The command scan of address 0x4000000k, size s, and R/W byte (R215). -/
def command (k s rw : Byte) : List Byte := [0x19, 0x03, 0x00, k, 0x00, 0x00, 0x40, 0x1B, 0x01, s, 0x4B, 0x00, rw]

/-- P1: the streams of `read32 0x40000000` and, of the other sizes, of `read16 0x40000002` and `read8 0x40000003`. -/
theorem test_decode_reads :
    decodeOperation (head ++ command 0x00 0x02 0x01 ++ select ++ [0x39, 0x03, 0x00, 0x00, 0x00, 0x00, 0x00, 0x4B, 0x04, 0x3F]) =
      some (.read32 0x40000000)
    ∧ decodeOperation (head ++ command 0x02 0x01 0x01 ++ select
        ++ [0x39, 0x03, 0x00, 0x00, 0x00, 0x00, 0x00, 0x4B, 0x04, 0x3F]) = some (.read16 0x40000002)
    ∧ decodeOperation (head ++ command 0x03 0x00 0x01 ++ select
        ++ [0x39, 0x03, 0x00, 0x00, 0x00, 0x00, 0x00, 0x4B, 0x04, 0x3F]) = some (.read8 0x40000003) := by decide +kernel

/-- P1, V43-5, P2: the streams of `write32 0x40000000, 0xDEADBEEF`, `write16 0x40000002, 0xBEEF`, `write8 0x40000001, 0x42`. -/
theorem test_decode_writes :
    decodeOperation (head ++ command 0x00 0x02 0x81 ++ select
        ++ [0x19, 0x03, 0x00, 0xEF, 0xBE, 0xAD, 0xDE, 0x4B, 0x00, 0x01, 0x4B, 0x04, 0x3F]) = some (.write32 0x40000000 0xDEADBEEF)
    ∧ decodeOperation (head ++ command 0x02 0x01 0x81 ++ select
        ++ [0x19, 0x03, 0x00, 0xEF, 0xBE, 0x00, 0x00, 0x4B, 0x00, 0x01, 0x4B, 0x04, 0x3F]) = some (.write16 0x40000002 0xBEEF)
    ∧ decodeOperation (head ++ command 0x01 0x00 0x81 ++ select
        ++ [0x19, 0x03, 0x00, 0x00, 0x00, 0x42, 0x00, 0x4B, 0x00, 0x01, 0x4B, 0x04, 0x3F]) = some (.write8 0x40000001 0x42) := by
  decide +kernel

/-- P3: the streams of `burst_write 0x40000000, [0x11111111, 0x22222222]` and `burst_read 0x40000000, 2`. -/
theorem test_decode_bursts :
    decodeOperation (head ++ command 0x00 0x02 0x81 ++ select
        ++ [0x19, 0x03, 0x00, 0x11, 0x11, 0x11, 0x11, 0x4B, 0x00, 0x81, 0x4B, 0x03, 0x03]
        ++ [0x19, 0x03, 0x00, 0x22, 0x22, 0x22, 0x22, 0x4B, 0x00, 0x81, 0x4B, 0x04, 0x3F]) =
      some (.burstWrite 0x40000000 [0x11111111, 0x22222222])
    ∧ decodeOperation (head ++ command 0x00 0x02 0x01 ++ select
        ++ [0x39, 0x03, 0x00, 0x00, 0x00, 0x00, 0x00, 0x4B, 0x00, 0x81, 0x4B, 0x03, 0x03]
        ++ [0x39, 0x03, 0x00, 0x00, 0x00, 0x00, 0x00, 0x4B, 0x04, 0x3F]) = some (.burstRead 0x40000000 2) := by decide +kernel

/-- The command scan of address 0x40000400, word size, and R/W byte: the second chunk's (R290). -/
def command2 (rw : Byte) : List Byte := [0x19, 0x03, 0x00, 0x00, 0x04, 0x00, 0x40, 0x1B, 0x01, 0x02, 0x4B, 0x00, rw]

/-- R290, R291: the stream of 257 words of 0xA5A5A5A5 written: a chunk of 256 at 0x40000000, and one of 1 at 0x40000400. -/
theorem test_decode_writeMany :
    let word : List Byte := [0x19, 0x03, 0x00, 0xA5, 0xA5, 0xA5, 0xA5, 0x4B, 0x00, 0x81]
    decodeOperation (head ++ command 0x00 0x02 0x81 ++ select
        ++ (List.replicate 255 (word ++ [0x4B, 0x03, 0x03])).flatten ++ word ++ [0x4B, 0x04, 0x3F]
        ++ head ++ command2 0x81 ++ select ++ word ++ [0x4B, 0x04, 0x3F]) =
      some (.writeMany 0x40000000 (List.replicate 257 0xA5A5A5A5) 257 false) := by decide +kernel

/-- R290, R292: the stream of 257 words read. -/
theorem test_decode_readMany :
    let word : List Byte := [0x39, 0x03, 0x00, 0x00, 0x00, 0x00, 0x00]
    decodeOperation (head ++ command 0x00 0x02 0x01 ++ select
        ++ (List.replicate 255 (word ++ [0x4B, 0x00, 0x81, 0x4B, 0x03, 0x03])).flatten ++ word ++ [0x4B, 0x04, 0x3F]
        ++ head ++ command2 0x01 ++ select ++ word ++ [0x4B, 0x04, 0x3F]) =
      some (.readMany 0x40000000 257 false) := by decide +kernel
theorem test_decodeTableWord :
    decodeTableWord 24 0x3F044B = some (.tmsOut 0x04 0x3F) ∧ decodeTableWord 8 0x8E = some (.clkOnly 0x00)
    ∧ decodeTableWord 8 0x02 = some .codeAddrComm ∧ decodeTableWord 8 0x03 = some .codeData
    ∧ decodeTableWord 8 0xAB = some (.badCommand 0xAB) := by decide +kernel

/-! ## The TCK clock (V40-1, V40-3, V40-6, V40-7) -/

theorem test_clock_shifts :
    let r := clock true false (targetAt .shDR 0x1F [true, false, true])
    r.1 = true ∧ r.2.target.dsr = [false, true, false] ∧ r.2.target.tap = .ex1DR := by decide
theorem test_clocks_from_pauseIR :
    tapsOf fiveHigh (targetAt .pauseIR 0x02 []) = [.ex2IR, .updIR, .selDR, .selIR, .tlr]
    ∧ (leadingReset (targetAt .pauseIR 0x02 [])).target.ir = 0x01 := by decide
theorem test_clocks_read_idcode :
    tdoLevels (heldCycles false false 0x07) (targetAt .shDR 0x01 (lowBits 32 (0x12345678 : Word))) =
      [false, false, false, true, true, true, true, false] := by decide +kernel
theorem test_clock_updates_ir :
    (clock true false ((targetAt .ex1IR 0x01 []).setTarget { (targetAt .ex1IR 0x01 []).target with irsr := 0x02 })).2.target.ir =
      0x02 := by decide

/-! ## The MPSSE commands (41_mpsse.md, V41-1 to V41-16) -/

theorem test_tmsOut :
    let t := goesTo (exec (.tmsOut 0x04 0x3F) (targetAt .shDR 0x1F [true])) s0
    t.target.tap = .tlr ∧ t.target.ir = 0x01 ∧ t.mpsse.tmsPin = true ∧ t.mpsse.tdiPin = false ∧ t.mpsse.rxFifo = [] := by
  decide +kernel
theorem test_tmsOut_shifts_one_bit :
    let t := goesTo (exec (.tmsOut 0x00 0x81) (targetAt .shDR 0x1F [false])) s0
    t.target.tap = .ex1DR ∧ t.target.dsr = [true] ∧ t.mpsse.tdiPin = true := by decide +kernel
theorem test_tmsOutRead :
    let t := goesTo (exec (.tmsOutRead 0x00 0x81) (targetAt .shDR 0x1F [true])) s0
    t.target.tap = .ex1DR ∧ (t.mpsse.rxFifo.map fun b => b.getLsbD 7) = [true] := by
  refine ⟨rfl, ?_⟩
  show [(BitVec.ofNat 8 (1 * 2 ^ 7 + (Config.responseLowBits 1).toNat % 2 ^ 7)).getLsbD 7] = [true]
  have h : (Config.responseLowBits 1).toNat % 2 ^ 7 < 128 := Nat.mod_lt _ (by decide)
  rw [BitVec.getLsbD_ofNat, Nat.one_mul, Nat.testBit_two_pow_add_eq, Nat.testBit_lt_two_pow h]
  rfl
theorem test_bitsOut :
    (goesTo (exec (.bitsOut 0x04 0x02) (targetAt .shIR 0x01 [])) s0).target.irsr = 0x04 := by decide +kernel
theorem test_bitsInout :
    (goesTo (exec (.bitsInout 0x07 0xA5) (targetAt .shDR 0x1F [false])) s0).mpsse.rxFifo.map (fun b => lowBits 8 b) =
      [[false, true, false, true, false, false, true, false]] := by
  have h : ∀ n : Nat, n % 2 ^ 0 = 0 := fun n => Nat.mod_one n
  show [lowBits 8 (BitVec.ofNat 8 (0x4A * 2 ^ 0 + (Config.responseLowBits 8).toNat % 2 ^ 0))] = _
  rw [h]; decide
theorem test_bitsIn :
    (goesTo (exec (.bitsIn 0x07) (targetAt .shDR 0x01 (lowBits 32 (0x12345678 : Word)))) s0).mpsse.rxFifo = [0x78] := by
  have h : ∀ n : Nat, n % 2 ^ 0 = 0 := fun n => Nat.mod_one n
  show [BitVec.ofNat 8 (0x78 * 2 ^ 0 + (Config.responseLowBits 8).toNat % 2 ^ 0)] = _
  rw [h]; rfl
theorem test_bytesOut :
    (goesTo (exec (.bytesOut [0xFF]) (targetAt .shDR 0x01 (lowBits 32 (0x00123456 : Word)))) s0).target.dsr =
      lowBits 32 (0xFF001234 : Word) := by decide +kernel
/-- R168's example, and V41-11 under loopback. -/
theorem test_bytesInout :
    (goesTo (exec (.bytesInout [0, 0, 0, 0]) (targetAt .shDR 0x03 (lowBits 33 (0x1DEADBEEF : BitVec 33)))) s0).mpsse.rxFifo =
      [0xEF, 0xBE, 0xAD, 0xDE]
    ∧ (goesTo (exec (.bytesInout [0x5A, 0xC3]) (s0.setMpsse { s0.mpsse with loopback := true })) s0).mpsse.rxFifo =
      [0x5A, 0xC3] := by decide +kernel
theorem test_clkOnly :
    (goesTo (exec (.clkOnly 0x07) (targetAt .shDR 0x01 (lowBits 32 (0x12345678 : Word)))) s0).target.dsr =
      lowBits 32 (0x00123456 : Word) := by decide +kernel
theorem test_loopback :
    (goesTo (exec .loopbackOn s0) s0).mpsse.loopback = true
    ∧ (goesTo (exec .loopbackOff (s0.setMpsse { s0.mpsse with loopback := true })) s0).mpsse.loopback = false := by decide
theorem test_clockConfig :
    (goesTo (exec .div5Off s0) s0).mpsse.div5 = false ∧ (goesTo (exec .adaptiveOff s0) s0).mpsse.adaptive = false
    ∧ (goesTo (exec .threePhaseOff s0) s0).mpsse.threePhase = false := by decide
theorem test_setDivisor : (goesTo (exec (.setDivisor 0x0004) s0) s0).mpsse.divisor = 4 := by decide
theorem test_setLowByte :
    let m := (goesTo (exec (.setLowByte 0x08 0x0B) s0) s0).mpsse
    m.tckPin = false ∧ m.tdiPin = false ∧ m.tmsPin = true ∧ m.lowDir = 0x0B := by decide
theorem test_setHighByte :
    let m := (goesTo (exec (.setHighByte 0x12 0x34) s0) s0).mpsse
    m.highValue = 0x12 ∧ m.highDir = 0x34 := by decide
theorem test_badCommand : (goesTo (exec (.badCommand 0xAB) s0) s0).mpsse.rxFifo = [0xFA, 0xAB] := by decide

/-- R226: five samples 0, 1, 0, 0, 1 stand in bits 3 to 7. -/
theorem test_parseBits : parseBits 5 0b10010111 = 0b10010 := by decide

/-! ## The IR opcodes (R28, R138) -/

theorem test_codeAddrComm :
    let t := goesTo (exec .codeAddrComm s0) s0
    t.target.ir = 0x02 ∧ t.target.tap = .updIR ∧ drLen t.sel = 35 := by decide
theorem test_codeData : drLen (goesTo (exec .codeData s0) s0).sel = 33 := by decide
theorem test_idcode : drLen (goesTo (exec .idcode s0) s0).sel = 32 := by decide
theorem test_bypass : drLen (goesTo (exec (.bypass 0x3F) s0) s0).sel = 1 := by decide

/-! ## The TAP primitives (V42-1 to V42-21) -/

theorem test_resetToTlr :
    let t := goesTo (exec .resetToTlr s0) s0
    t.engine.outbuf = [0x4B, 0x04, 0x3F] ∧ t.engine.tapBelief = .at .tlr := by decide
theorem test_tlrToShiftIr :
    (goesTo (exec .tlrToShiftIr (believing .tlr)) s0).engine.outbuf = [0x4B, 0x05, 0x0D]
    ∧ exec .tlrToShiftIr (believing .ex1DR) = .refused .walkPrecondition := ⟨by decide, rfl⟩
theorem test_exit1ToShiftDr :
    (goesTo (exec .exit1ToShiftDr (believing .ex1IR)) s0).engine.outbuf = [0x4B, 0x03, 0x03]
    ∧ (goesTo (exec .exit1ToShiftDr (believing .ex1DR)) s0).engine.tapBelief = .at .shDR := by decide
theorem test_exit1drToShiftIr :
    (goesTo (exec .exit1drToShiftIr (believing .ex1DR)) s0).engine.outbuf = [0x4B, 0x04, 0x07]
    ∧ exec .exit1drToShiftIr (believing .ex1IR) = .refused .walkPrecondition := ⟨by decide, rfl⟩
theorem test_tlrToShiftDr :
    (goesTo (exec .tlrToShiftDr (believing .tlr)) s0).engine.outbuf = [0x4B, 0x03, 0x02] := by decide
theorem test_shiftBits :
    (goesTo (exec (.shiftBitsOut 2 0x02) s0) s0).engine.outbuf = [0x1B, 0x01, 0x02]
    ∧ (goesTo (exec (.shiftBitsInout 1 0x00) s0) s0).engine.expectRx = 1
    ∧ (goesTo (exec (.shiftBitsIn 8) s0) s0).engine.outbuf = [0x2A, 0x07]
    ∧ exec (.shiftBitsOut 9 0x00) s0 = .refused .countOutOfRange := ⟨by decide, by decide, by decide, rfl⟩
theorem test_shiftBytes :
    (goesTo (exec (.shiftBytesOut [0, 0, 0, 0, 0, 0]) s0) s0).engine.outbuf = [0x19, 0x05, 0x00, 0, 0, 0, 0, 0, 0]
    ∧ (goesTo (exec (.shiftBytesInout [1, 2]) s0) s0).engine.expectRx = 2 := by decide
theorem test_lastBits :
    (goesTo (exec (.lastBitWithTms true true) (believing .shDR)) s0).engine.outbuf = [0x4B, 0x00, 0x81]
    ∧ (goesTo (exec (.lastBitWithTms true true) (believing .shDR)) s0).engine.tapBelief = .at .ex1DR
    ∧ (goesTo (exec (.lastBitWithTmsRead false true) (believing .shIR)) s0).engine.tapBelief = .at .ex1IR
    ∧ (goesTo (exec (.lastBitWithTmsRead false true) (believing .shIR)) s0).engine.expectRx = 1 := by decide
theorem test_clockOnly :
    (goesTo (exec (.clockOnly 8) s0) s0).engine.outbuf = [0x8E, 0x07]
    ∧ exec (.clockOnly 0) s0 = .refused .countOutOfRange ∧ exec (.clockOnly 9) s0 = .refused .countOutOfRange :=
  ⟨by decide, rfl, rfl⟩
theorem test_shiftIr :
    (goesTo (exec (.shiftIr 0x3F) (believing .shIR)) s0).engine.outbuf = [0x1B, 0x04, 0x1F, 0x4B, 0x00, 0x81]
    ∧ exec (.shiftIr 0x40) (believing .shIR) = .refused .valueOutOfWidth := ⟨by decide, rfl⟩
theorem test_loadCmd :
    (goesTo (exec (.loadCmd 0x80000100 0b01 false) (believing .shDR)) s0).engine.outbuf =
      [0x19, 0x03, 0x00, 0x00, 0x01, 0x00, 0x80, 0x1B, 0x01, 0x01, 0x4B, 0x00, 0x01]
    ∧ exec (.loadCmd 0 0b11 false) (believing .shDR) = .refused .reservedSize := ⟨by decide, rfl⟩
theorem test_writeData :
    (goesTo (exec (.writeData 0xDEADBEEF false) (believing .shDR)) s0).engine.outbuf =
      [0x19, 0x03, 0x00, 0xEF, 0xBE, 0xAD, 0xDE, 0x4B, 0x00, 0x01] := by decide
theorem test_readData :
    let t := goesTo (exec .readData (believing .shDR)) s0
    t.engine.outbuf = [0x39, 0x03, 0x00, 0, 0, 0, 0] ∧ t.engine.expectRx = 4 ∧ t.engine.tapBelief = .at .shDR := by decide
theorem test_seqExit :
    (goesTo (exec (.seqExit true) (believing .shDR)) s0).engine.outbuf = [0x4B, 0x00, 0x81]
    ∧ exec (.seqExit true) (believing .ex1DR) = .refused .walkPrecondition := ⟨by decide, rfl⟩

/-! ## The bridge operations (V42-22, V43-1 to V43-16, V44-1, V44-2, V44-18, P1 to P3) -/

theorem test_readIdcode :
    let t := goesTo (exec .readIdcode s0) s0
    t.engine.returned = .word 0x12345678 ∧ t.target.clockCount = 46 ∧ t.mpsse.rxFifo = [] ∧ t.ahbLog = [] := by
  decide +kernel
theorem test_read32 :
    let t := goesTo (exec (.read32 0x40000000) (withBytes [0xDE, 0xAD, 0xBE, 0xEF])) s0
    t.engine.returned = .word 0xDEADBEEF ∧ t.target.clockCount = 164 ∧ t.usb.calls = 4
    ∧ t.ahbLog = [.read 0x40000000 0b10] := by decide +kernel
theorem test_read32_unaligned : exec (.read32 0x40000002) s0 = .refused .unaligned := rfl
/-- V43-3, V43-16: the lanes, and the transfer's size and address. -/
theorem test_read16 :
    halfOf 0xDEADBEEF 0x40000000 = 0xDEAD ∧ halfOf 0xDEADBEEF 0x40000002 = 0xBEEF
    ∧ (goesTo (exec (.read16 0x40000002) s0) s0).ahbLog = [.read 0x40000002 0b01] := by decide +kernel
/-- V43-4. -/
theorem test_read8 :
    [0x40000000, 0x40000001, 0x40000002, 0x40000003].map (byteOf 0xDEADBEEF) = [0xDE, 0xAD, 0xBE, 0xEF]
    ∧ (goesTo (exec (.read8 0x40000003) s0) s0).ahbLog = [.read 0x40000003 0b00] := by decide +kernel
theorem test_write32 :
    let t := goesTo (exec (.write32 0x40000000 0xDEADBEEF) s0) s0
    t.mem = (withBytes [0xDE, 0xAD, 0xBE, 0xEF]).mem ∧ t.target.clockCount = 165 ∧ t.usb.calls = 1
    ∧ t.target.bridge.curAddr = 0x40000000 := by decide +kernel
theorem test_write16 :
    (goesTo (exec (.write16 0x40000002 0xBEEF) (withBytes [0xA0, 0x42, 0xA2, 0xA3])) s0).mem =
      (withBytes [0xA0, 0x42, 0xBE, 0xEF]).mem
    ∧ exec (.write16 0x40000000 0x10000) s0 = .refused .valueOutOfWidth := ⟨by decide +kernel, rfl⟩
theorem test_write8 :
    (goesTo (exec (.write8 0x40000001 0x42) (withBytes [0xA0, 0xA1, 0xA2, 0xA3])) s0).mem =
      (withBytes [0xA0, 0x42, 0xA2, 0xA3]).mem
    ∧ exec (.write8 0x40000000 0x100) s0 = .refused .valueOutOfWidth := ⟨by decide +kernel, rfl⟩
theorem test_burstWrite :
    let t := goesTo (exec (.burstWrite 0x40000000 [0x11111111, 0x22222222]) s0) s0
    t.mem = (withBytes [0x11, 0x11, 0x11, 0x11, 0x22, 0x22, 0x22, 0x22]).mem ∧ t.target.clockCount = 202 ∧ t.usb.calls = 2
    ∧ t.target.bridge.curAddr = 0x40000008 := by decide +kernel
theorem test_burstRead :
    let t := goesTo (exec (.burstRead 0x40000000 2) (withBytes [0x11, 0x11, 0x11, 0x11, 0x22, 0x22, 0x22, 0x22])) s0
    t.engine.returned = .words [0x11111111, 0x22222222] ∧ t.target.clockCount = 201
    ∧ t.ahbLog = [.read 0x40000000 0b10, .read 0x40000004 0b10] := by decide +kernel
/-- V44-16, V44-15. -/
theorem test_writeMany :
    exec (.writeMany 0x40000003 [1, 2] 3 false) s0 = .refused .lengthMismatch
    ∧ (goesTo (exec (.writeMany 0x40000000 [0xA5A5A5A5] 1 true) s0) s0).engine.progress = [(1, 1)] := ⟨rfl, by decide +kernel⟩
theorem test_readMany :
    exec (.readMany 0x40000300 65 false) s0 = .refused .burstCrossesBoundary
    ∧ (goesTo (exec (.readMany 0x40000000 1 false) (withBytes [1, 2, 3, 4])) s0).engine.returned = .words [0x01020304] :=
  ⟨rfl, by decide +kernel⟩

/-! ## The calls, and errors (V60-1, V60-2, P5) -/

theorem test_open :
    let t := goesTo (runCall (.openSession 0 .leon3) State.reset) s0
    t.engine.session.isSome = true ∧ t.usb.calls = 17 ∧ t.mpsse.rxFifo = [] ∧ t.mpsse.tmsPin = true
    ∧ t.target.clockCount = 0 := by
  simp only [runCall, openSession, openSteps]
  rw [openCall_ok .usbReset _ _ rfl, andThen_ok, openCall_ok .usbParams _ _ rfl, andThen_ok, openCall_purge _ rfl rfl]
  decide +kernel
theorem test_open_fails :
    let t := goesTo (runCall (.openSession 0 .leon3) (driven State.reset (List.replicate 10 .healthy ++ [.failed 4 0]))) s0
    t.engine.returned = .error (.openFailed .bogusEcho) ∧ t.engine.session = none ∧ t.usb.calls = 12 := by
  simp only [runCall, openSession, openSteps]
  rw [openCall_ok .usbReset _ _ rfl, andThen_ok, openCall_ok .usbParams _ _ rfl, andThen_ok, openCall_purge _ rfl rfl]
  decide +kernel
/-- V60-1: 40 of 64 bytes delivered. -/
theorem test_short_write :
    let t := goesTo (exec (.write32 0x40000000 0xDEADBEEF) (driven s0 [.count 40])) s0
    t.engine.returned = .error (.shortWrite 40 64) ∧ t.target.tap = .ex1DR ∧ t.target.clockCount = 112
    ∧ t.mpsse.input = [0x4B] ∧ t.mem = [] ∧ t.engine.tapBelief = .unknown := by decide +kernel
/-- V60-2: two of four bytes read. -/
theorem test_short_read :
    let t := goesTo (exec (.read32 0x40000000) (driven (withBytes [0xDE, 0xAD, 0xBE, 0xEF]) [.healthy, .healthy, .count 2])) s0
    t.engine.returned = .error (.shortRead 2 4) ∧ t.target.tap = .shDR ∧ t.mpsse.rxFifo = [0xAD, 0xDE] := by decide +kernel
theorem test_startupCheck :
    let t := goesTo (runCall .startupCheck s0) s0
    t.engine.returned = .done ∧ t.target.tap = .tlr ∧ t.target.clockCount = 46 := by decide +kernel
/-- V60-5: the first failing check alone. -/
theorem test_startupCheck_fails :
    let s := { s0 with params := { p0 with measuredChain := ⟨2, 12, 36, 34⟩ } }
    let t := goesTo (runCall .startupCheck s) s0
    t.engine.returned = .error (.chainDeviceCount 2) ∧ t.engine.session = none := by decide +kernel
/-- U16 after V60-1: the waiting `4B` takes two bytes of the next stream's `4B 04 3F`, and the step goes on behind them. -/
theorem test_step_completes_partial :
    step (setInput ([0x4B] ++ [0x4B, 0x04, 0x3F]) s0) = .next (runUndescribed (setInput [0x3F] s0)) := rfl
/-- U16 after V60-1: the operation that meets the waiting `4B` is not refused by its delivery. -/
theorem test_drain_completes_partial : ∃ t, drain (setInput ([0x4B] ++ encode (.write32 0x40000000 1)) s0) = .ok t :=
  drain_goes_on _
theorem test_step_waits : step (setInput [0x19, 0x01, 0x00, 0xAA] s0) = .next (setInput [0x19, 0x01, 0x00, 0xAA] s0) := rfl

/-! ## Witnesses: concrete states and operands that meet the hypotheses of the statements, clause by clause -/

theorem healthy_s0 : healthy s0 := ⟨Option.some_ne_none _, rfl, rfl, rfl, rfl⟩

theorem all_inRam {p : Config.Params} {l : List Word} (h : l.all (inRam p) = true) : ∀ x ∈ l, inRam p x = true :=
  List.all_eq_true.mp h

theorem witness_TapNextStateTable (t : TapState) : (targetAt t 0x01 []).target.tap = t := rfl

theorem witness_FiveTmsHighReachTlr :
    [true, false, true, false, true].length = 5 ∧ [true, false, true, false].length = 4
    ∧ ∀ t ∈ ([.shDR, .shIR, .capDR, .capIR, .pauseDR, .pauseIR] : List TapState),
        (targetAt t 0x01 []).target.tap ∈ [.shDR, .shIR, .capDR, .capIR, .pauseDR, .pauseIR] := by decide

theorem witness_FixedWalksReachTheirEndStates :
    ∀ t ∈ ([.shDR, .ex1DR, .tlr, .ex1IR, .shIR] : List TapState), (targetAt t 0x01 []).target.tap = t := fun _ _ => rfl

/-- A clock in RTI updates, captures and shifts nothing; one with TMS high in SelIR ends in TLR. -/
theorem witness_ClockFrame :
    (let t := (clock false true (targetAt .rti 0x03 [])).2
     t.target.tap ≠ .updDR ∧ (targetAt .rti 0x03 []).target.tap ≠ .capDR ∧ (targetAt .rti 0x03 []).target.tap ≠ .shDR
     ∧ (targetAt .rti 0x03 []).target.tap ≠ .capIR ∧ (targetAt .rti 0x03 []).target.tap ≠ .shIR
     ∧ t.target.tap ≠ .tlr ∧ t.target.tap ≠ .updIR)
    ∧ (clock true true (targetAt .selIR 0x03 [])).2.target.tap = .tlr := by decide

theorem witness_ShiftClocks :
    (targetAt .shIR 0x02 []).target.tap = .shIR ∧ (targetAt .shDR 0x1F [true]).target.tap = .shDR
    ∧ (targetAt .shDR 0x1F [true]).target.dsr ≠ [] ∧ [false].length = (targetAt .shDR 0x1F [true]).target.dsr.length := by
  decide

/-- A capture state with this instruction and this bridge. -/
def capturing (t : TapState) (ir : BitVec 6) (b : Bridge) : State :=
  s0.setTarget { s0.target with tap := t, ir := ir, bridge := b }

/-- A read that completes at clock 1 has come at the first clock; one that completes at clock 2 has not. -/
theorem witness_CaptureClocks :
    (capturing .capIR 0x02 Bridge.reset).target.tap = .capIR
    ∧ (capturing .capDR 0x02 Bridge.reset).target.ir = 0x02
    ∧ (capturing .capDR 0x03 { Bridge.reset with curW := true }).target.bridge.curW = true
    ∧ (let s := capturing .capDR 0x03 { Bridge.reset with pending := .read 1 7 }
       s.target.bridge.pending = .read 1 7 ∧ 1 ≤ s.target.clockCount + 1 ∧ s.target.bridge.curW = false)
    ∧ (let s := capturing .capDR 0x03 { Bridge.reset with pending := .read 2 7 }
       s.target.bridge.pending = .read 2 7 ∧ s.target.clockCount + 1 < 2 ∧ s.target.bridge.curW = false)
    ∧ (capturing .capDR 0x03 Bridge.reset).target.bridge.pending = .none
    ∧ (let s := capturing .capDR 0x01 Bridge.reset
       s.target.ir = s.params.idcodeOpcode ∧ s.target.ir ≠ 0x02 ∧ s.target.ir ≠ 0x03)
    ∧ (let s := capturing .capDR 0x3F Bridge.reset
       s.target.ir ≠ s.params.idcodeOpcode ∧ s.target.ir ≠ 0x02 ∧ s.target.ir ≠ 0x03) := by decide

theorem witness_UpdateClocks :
    (targetAt .ex1IR 0x02 []).target.tap = .ex1IR ∧ (targetAt .ex2IR 0x02 []).target.tap = .ex2IR
    ∧ (let s := targetAt .ex2DR 0x01 []
       s.target.tap = .ex2DR ∧ s.target.ir ≠ 0x02 ∧ s.target.ir ≠ 0x03) := by decide

/-- A write command, and a read command whose transfer is described and lies at the last word of `RAM_REGION`. -/
theorem witness_CommandUpdate :
    (let v : BitVec 35 := cmdValue 0x40000000 0b10 true
     let s := targetAt .ex1DR 0x02 (lowBits 35 v)
     s.target.tap = .ex1DR ∧ s.target.ir = 0x02 ∧ s.target.dsr = lowBits 35 v ∧ 1 ≤ s.params.ahbReadLatency
     ∧ v.getLsbD 34 = true)
    ∧ (let v : BitVec 35 := cmdValue 0x407FFFFC 0b10 false
       let s := targetAt .ex2DR 0x02 (lowBits 35 v)
       s.target.tap = .ex2DR ∧ s.target.dsr = lowBits 35 v ∧ v.getLsbD 34 = false ∧ s.params.targetQuiescent = true
       ∧ transferDescribed (v.extractLsb' 0 32) (v.extractLsb' 32 2) = true
       ∧ ∀ x ∈ transferAddrs (v.extractLsb' 0 32) (v.extractLsb' 32 2), inRam s.params x = true) :=
  ⟨by decide +kernel, rfl, rfl, rfl, rfl, by decide +kernel, all_inRam (by decide +kernel)⟩

/-- A described write; a read with SEQ whose next word is the last of its 1 KiB block; a read without SEQ. -/
theorem witness_DataUpdate :
    (let s := dataExit true 0x1DEADBEEF
     s.target.tap = .ex1DR ∧ s.target.ir = 0x03 ∧ s.target.dsr = lowBits 33 (0x1DEADBEEF : BitVec 33)
     ∧ 1 ≤ s.params.ahbReadLatency ∧ s.target.bridge.curW = true ∧ Memory.wf s.mem = true
     ∧ s.target.bridge.pastBlock = false
     ∧ transferDescribed s.target.bridge.curAddr s.target.bridge.curSize = true)
    ∧ (let s := (dataExit false 0x100000000).setBridge { Bridge.reset with curAddr := 0x400003F8, curSize := 0b10 }
       s.target.bridge.curW = false ∧ (0x100000000 : BitVec 33).getLsbD 32 = true ∧ s.params.targetQuiescent = true
       ∧ (s.target.bridge.curAddr.toNat + 4) / 1024 = s.target.bridge.curAddr.toNat / 1024
       ∧ transferDescribed (s.target.bridge.curAddr + 4) s.target.bridge.curSize = true
       ∧ ∀ x ∈ transferAddrs (s.target.bridge.curAddr + 4) s.target.bridge.curSize, inRam s.params x = true)
    ∧ (dataExit false 0).target.bridge.curW = false ∧ (0 : BitVec 33).getLsbD 32 = false :=
  ⟨by decide +kernel, ⟨rfl, rfl, rfl, by decide +kernel, by decide +kernel, all_inRam (by decide +kernel)⟩, by decide⟩

/-- The shortest scans that fill the register: one bit into BYPASS, six into the IR. -/
theorem witness_ScanLaw :
    (let s := targetAt .capDR 0x1F []
     s.target.tap = .capDR ∧ (clock false false s).2.target.dsr.length ≤ [].length (α := Bool) + 1)
    ∧ (targetAt .capIR 0x02 []).target.tap = .capIR ∧ 6 ≤ [true, true, true, true, true].length + 1 := by decide

theorem witness_EngineScansLeaveTheirValues :
    (let s := targetAt .shDR 0x02 (lowBits 35 (0 : BitVec 35))
     s.mpsse.tmsPin = false ∧ s.target.tap = .shDR ∧ s.target.dsr.length = 35)
    ∧ (targetAt .shIR 0x02 []).target.tap = .shIR
    ∧ (let s := targetAt .shDR 0x03 (lowBits 33 (BitVec.ofBool true ++ (0xDEADBEEF : Word)))
       s.target.dsr.length = 33 ∧ s.mpsse.loopback = false
       ∧ s.target.dsr = lowBits 33 (BitVec.ofBool true ++ (0xDEADBEEF : Word))) := by decide +kernel

/-- The longest and the first refused length byte of each format, and the longest data. -/
theorem witness_ClockOutCommands :
    (0x06 : Byte).toNat ≤ 6 ∧ 7 ≤ (0x07 : Byte).toNat ∧ (0x07 : Byte).toNat ≤ 7 ∧ 8 ≤ (0x08 : Byte).toNat
    ∧ (List.replicate 65535 (0 : Byte)).length + 1 ≤ 65536 ∧ 65536 < (List.replicate 65537 (0 : Byte)).length := by
  simp only [List.length_replicate]; decide

theorem witness_ReadingCommands :
    (0x06 : Byte).toNat ≤ 6 ∧ 7 ≤ (0x07 : Byte).toNat ∧ (0x07 : Byte).toNat ≤ 7 ∧ 8 ≤ (0x08 : Byte).toNat
    ∧ (List.replicate 65535 (0 : Byte)).length + 1 ≤ 65536 ∧ 65536 < (List.replicate 65537 (0 : Byte)).length :=
  witness_ClockOutCommands

theorem witness_ConfigurationCommands :
    (s0.setMpsse { s0.mpsse with loopback := true }).mpsse.loopback = true ∧ s0.mpsse.loopback = false := by decide

theorem witness_BadCommandAnswered :
    (0x83 : Byte) ∉ ([0x4B, 0x6B, 0x1B, 0x3B, 0x2A, 0x19, 0x39, 0x8E, 0x84, 0x85, 0x8A, 0x97, 0x8D, 0x86, 0x80, 0x82] : List Byte) := by
  decide

theorem witness_ResponsesCounted :
    (Instr.bitsIn 0x07).isMpsse = true ∧ (∃ t, exec (.bitsIn 0x07) s0 = .next t)
    ∧ (Instr.badCommand 0xAB).isMpsse = true ∧ ∃ t, exec (.badCommand 0xAB) s0 = .next t :=
  ⟨rfl, ⟨_, rfl⟩, rfl, ⟨_, rfl⟩⟩

theorem witness_CommandLengths :
    (Instr.bytesOut [0xAA]).isMpsse = true ∧ (Instr.bytesOut [0xAA]).wellFormed = true
    ∧ 3 < (encodeMpsse (.bytesOut [0xAA])).length := by decide

theorem witness_MpsseDecodeEncode :
    (Instr.tmsOutRead 0x06 0xFF).isMpsse = true ∧ (Instr.tmsOutRead 0x06 0xFF).wellFormed = true := by decide

theorem witness_MpsseDecodeSound : decodeMpsse [0x8E, 0x07, 0x4B] = .command (.clkOnly 0x07) [0x4B] := by decide

theorem witness_IrDecodeEncode :
    (0x01 : BitVec 6) ≠ 0x02 ∧ (0x01 : BitVec 6) ≠ 0x03 ∧ (Instr.bypass 0x3F).wellFormed = true
    ∧ Instr.bypass 0x3F ≠ .bypass 0x01 ∧ encodeIr 0x01 (.bypass 0x3F) = some 0x3F := by decide

theorem witness_PrimitiveDecodeEncode :
    1 ≤ 8 ∧ 8 ≤ 8 ∧ 1 ≤ [(0x00 : Byte)].length ∧ (List.replicate 65536 (0 : Byte)).length ≤ 65536
    ∧ ([0x00, 0x00, 0x00] : List Byte) ≠ [0x00, 0x00, 0x00, 0x00] ∧ 63 < 64 ∧ (0b10 : BitVec 2) ≠ 0b11 := by
  simp only [List.length_replicate]; decide

theorem witness_SingleDecodeEncode :
    (0xFFFFFFFC : Word).toNat % 4 = 0 ∧ (0xFFFFFFFE : Word).toNat % 2 = 0 ∧ 0xFFFFFFFF < 2 ^ 32 ∧ 0xFFFF < 2 ^ 16 ∧ 0xFF < 2 ^ 8 := by
  decide

theorem witness_IrInstructionsSelect :
    s0.params.legal = true ∧ (0x00 : BitVec 6) ≠ 0x02 ∧ (0x00 : BitVec 6) ≠ 0x03 ∧ (0x00 : BitVec 6) ≠ s0.params.idcodeOpcode := by
  decide

theorem witness_StepRunsTheDecodedCommand :
    decodeMpsse (setInput [0x86, 0x04, 0x00, 0x84] s0).mpsse.input = .command (.setDivisor 0x0004) [0x84]
    ∧ decodeMpsse (setInput [0x4B, 0x4B, 0x04, 0x3F] s0).mpsse.input = .rejected .countOutOfRange [0x3F] := by decide

theorem witness_StepIssuesTheNextCall :
    (let s := s0.setCalls [.instr (.read32 0x40000000), .flush]
     decodeMpsse s.mpsse.input = .waiting ∧ s.calls = .instr (.read32 0x40000000) :: [.flush])
    ∧ (let s := setInput [0x4B] (s0.setCalls [.closeSession])
       decodeMpsse s.mpsse.input = .waiting ∧ s.calls = [.closeSession])
    ∧ decodeMpsse s0.mpsse.input = .waiting ∧ s0.calls = [] := by decide

theorem witness_FlushDivisionInvisible :
    drain (setInput [0x84, 0x86, 0x04] s0) =
      .ok (setInput [0x86, 0x04] (s0.setMpsse { s0.mpsse with loopback := true })) := by decide +kernel

/-- Every start state of the walks, and a belief that is none of them. -/
theorem witness_WalkPrimitives :
    (believing .tlr).engine.session ≠ none ∧ (believing .tlr).engine.tapBelief = .at .tlr
    ∧ (believing .ex1IR).engine.tapBelief = .at .ex1IR ∧ (believing .ex1DR).engine.tapBelief = .at .ex1DR
    ∧ s0.engine.tapBelief ≠ .at .tlr ∧ s0.engine.tapBelief ≠ .at .ex1IR ∧ s0.engine.tapBelief ≠ .at .ex1DR := by decide

theorem witness_ShiftPrimitives :
    s0.engine.session ≠ none ∧ 1 ≤ 8 ∧ 8 ≤ 8 ∧ 8 < 9 ∧ 1 ≤ [(0x00 : Byte)].length
    ∧ (List.replicate 65536 (0 : Byte)).length ≤ 65536 ∧ 65536 < (List.replicate 65537 (0 : Byte)).length := by
  simp only [List.length_replicate]; decide

theorem witness_LastBitPrimitives :
    (believing .shIR).engine.session ≠ none ∧ (believing .shIR).engine.tapBelief = .at .shIR
    ∧ (believing .shDR).engine.tapBelief = .at .shDR := by decide

theorem witness_ScanPrimitives :
    63 < 64 ∧ (believing .shIR).engine.tapBelief = .at .shIR ∧ (believing .shDR).engine.session ≠ none
    ∧ (believing .shDR).engine.tapBelief = .at .shDR ∧ (0b10 : BitVec 2) ≠ 0b11
    ∧ (believing .shDR).engine.tapBelief ≠ .at .shIR ∧ (believing .shIR).engine.tapBelief ≠ .at .shDR := by decide

theorem witness_NoSessionRefused :
    State.reset.engine.session = none ∧ (Instr.read32 0).isMpsse = false ∧ (Instr.read32 0).isJtagIr = false
    ∧ (Instr.clkOnly 0).isMpsse = true ∧ Instr.codeData.isJtagIr = true := by decide

theorem witness_RefusalPriority :
    s0.engine.session ≠ none ∧ [(1 : Word)].length ≠ 2 ∧ (0x40000002 : Word).toNat % 4 ≠ 0 ∧ [(1 : Word)] ≠ []
    ∧ (0x40000001 : Word).toNat % 2 ≠ 0 ∧ (0x40000000 : Word).toNat % 4 = 0 ∧ 2 ^ 32 ≤ 0x100000000
    ∧ (0x40000002 : Word).toNat % 2 = 0 ∧ 2 ^ 16 ≤ 0x10000 ∧ 2 ^ 8 ≤ 0x100 ∧ 64 ≤ 0x40 := by decide

/-- No word, 257 words, and two words across the boundary at 0x40000400. -/
theorem witness_BurstRefusals :
    s0.engine.session ≠ none ∧ (0x400003FC : Word).toNat % 4 = 0 ∧ ([] : List Word).length = 0
    ∧ 256 < (List.replicate 257 (0 : Word)).length ∧ 1 ≤ 2 ∧ 2 ≤ 256
    ∧ (0x400003FC : Word).toNat / 1024 ≠ ((0x400003FC : Word).toNat + 4 * 2 - 1) / 1024
    ∧ ([1, 2] : List Word).length = 2 := by
  simp only [List.length_replicate]; decide

theorem witness_ChunkRefusals :
    s0.engine.session ≠ none ∧ (0x400003FC : Word).toNat % 4 = 0 ∧ ([1, 2] : List Word) ≠ []
    ∧ 1024 < (0x400003FC : Word).toNat % 1024 + 4 * min 256 ([1, 2] : List Word).length := by decide

theorem witness_LeadingResetIsQuiet : Memory.wf s0.mem = true ∧ scanFree s0 = true := by decide

/-- s0 with this read latency. -/
def latent (k : Nat) : State := { s0 with params := { p0 with ahbReadLatency := k } }

theorem healthy_latent (k : Nat) : healthy (latent k) := ⟨Option.some_ne_none _, rfl, rfl, rfl, rfl⟩

/-- The last word, halfword and byte of `RAM_REGION`, and the latencies on both sides of the window's end. -/
theorem witness_SingleReads :
    healthy (latent 14) ∧ 1 ≤ (latent 14).params.ahbReadLatency ∧ healthy (latent 15)
    ∧ 1 ≤ (latent 15).params.ahbReadLatency ∧ (latent 14).params.targetQuiescent = true ∧ (0x407FFFFC : Word).toNat % 4 = 0
    ∧ (∀ x ∈ transferAddrs 0x407FFFFC 0b10, inRam (latent 14).params x = true) ∧ (0x407FFFFE : Word).toNat % 2 = 0
    ∧ (∀ x ∈ transferAddrs 0x407FFFFE 0b01, inRam (latent 14).params x = true)
    ∧ ∀ x ∈ transferAddrs 0x407FFFFF 0b00, inRam (latent 14).params x = true :=
  ⟨healthy_latent 14, by decide, healthy_latent 15, by decide, rfl, by decide, all_inRam (by decide +kernel), by decide,
    all_inRam (by decide +kernel), all_inRam (by decide +kernel)⟩

/-- The last word and halfword of `RAM_REGION`, at both ends of the latency window. -/
theorem witness_SingleReadValues :
    healthy (latent 1) ∧ 1 ≤ (latent 1).params.ahbReadLatency ∧ healthy (latent 14)
    ∧ (latent 14).params.ahbReadLatency ≤ 14 ∧ (latent 14).params.targetQuiescent = true
    ∧ (0x407FFFFC : Word).toNat % 4 = 0 ∧ wordsInRam (latent 14).params 0x407FFFFC 1 ∧ (0x407FFFFE : Word).toNat % 2 = 0
    ∧ inRam (latent 14).params 0x407FFFFE = true ∧ inRam (latent 14).params (0x407FFFFE + 1) = true :=
  ⟨healthy_latent 1, by decide, healthy_latent 14, by decide, rfl, by decide, by unfold wordsInRam; decide +kernel, by decide,
    by decide, by decide⟩

theorem witness_SingleWrites :
    healthy s0 ∧ Memory.wf s0.mem = true ∧ (0x407FFFFC : Word).toNat % 4 = 0 ∧ 0xFFFFFFFF < 2 ^ 32
    ∧ (0x407FFFFE : Word).toNat % 2 = 0 ∧ 0xFFFF < 2 ^ 16 ∧ 0xFF < 2 ^ 8 := ⟨healthy_s0, by decide⟩

theorem witness_ReadIdcodeReturnsTheIdcode :
    healthy s0 ∧ s0.params.idcodeOpcode ≠ 0x02 ∧ s0.params.idcodeOpcode ≠ 0x03 := ⟨healthy_s0, by decide⟩

/-- A burst that ends at the end of its 1 KiB block. -/
theorem witness_BurstWrite :
    healthy s0 ∧ (0x400003F8 : Word).toNat % 4 = 0 ∧ [(1 : Word)].length + 1 ≤ 256
    ∧ (0x400003F8 : Word).toNat % 1024 + 4 * ([(1 : Word)].length + 1) ≤ 1024 ∧ Memory.wf s0.mem = true :=
  ⟨healthy_s0, by decide⟩

/-- A whole block, and the latencies at the ends of the two windows. -/
theorem witness_BurstRead :
    healthy (latent 3) ∧ 1 ≤ (latent 3).params.ahbReadLatency ∧ (latent 3).params.ahbReadLatency ≤ 3
    ∧ healthy (latent 14) ∧ 1 ≤ (latent 14).params.ahbReadLatency ∧ (latent 14).params.ahbReadLatency ≤ 14
    ∧ (0x40000400 : Word).toNat % 4 = 0 ∧ 1 ≤ 256 ∧ 256 ≤ 256 ∧ (0x40000400 : Word).toNat % 1024 + 4 * 256 ≤ 1024
    ∧ (latent 3).params.targetQuiescent = true ∧ wordsInRam (latent 3).params 0x40000400 256
    ∧ (latent 14).params.targetQuiescent = true ∧ wordsInRam (latent 14).params 0x40000400 1 :=
  ⟨healthy_latent 3, by decide, by decide, healthy_latent 14, by decide, by decide, by decide, by decide, by decide, by decide,
    rfl, by unfold wordsInRam; decide +kernel, rfl, by unfold wordsInRam; decide +kernel⟩

theorem witness_WriteMany :
    healthy s0 ∧ (0x40000400 : Word).toNat % 4 = 0 ∧ 257 = (List.replicate 256 (1 : Word)).length + 1
    ∧ (0x40000400 : Word).toNat % 1024 + 4 * min 256 257 ≤ 1024 ∧ Memory.wf s0.mem = true :=
  ⟨healthy_s0, by decide, by rw [List.length_replicate], by decide, rfl⟩

/-- A chunk of a whole block and one of one word, at the end of the latency window; and no word. -/
theorem witness_ReadMany :
    healthy (latent 3) ∧ 1 ≤ (latent 3).params.ahbReadLatency ∧ (0x40000400 : Word).toNat % 4 = 0 ∧ 1 ≤ 257
    ∧ (0x40000400 : Word).toNat % 1024 + 4 * min 256 257 ≤ 1024 ∧ (latent 3).params.ahbReadLatency ≤ 3
    ∧ (latent 3).params.targetQuiescent = true ∧ wordsInRam (latent 3).params 0x40000400 257 ∧ s0.engine.session ≠ none :=
  ⟨healthy_latent 3, by decide, by decide, by decide, by decide, by decide, rfl, by unfold wordsInRam; decide +kernel,
    by decide⟩

theorem witness_EveryOperationEndsAtRest :
    healthy s0 ∧ s0.params.legal = true ∧ (Instr.read32 0x40000000).wellFormed = true ∧ program (.read32 0x40000000) ≠ [] :=
  ⟨healthy_s0, by decide +kernel⟩

theorem witness_OperationEndsInOneOfTwoWays :
    (setInput [0x4B] s0).engine.session ≠ none ∧ (setInput [0x4B] s0).mpsse.input = [0x4B]
    ∧ (Instr.write8 0x40000000 1).wellFormed = true
    ∧ program (.write8 0x40000000 1) ≠ [] ∧ (∃ t, exec (.write8 0x40000000 1) s0 = .next t)
    ∧ ∃ t, exec (.write8 0x40000000 1) (driven s0 [.failed 4 0]) = .next t :=
  ⟨by decide, rfl, by decide, by decide +kernel, next_of_isNext (by decide +kernel), next_of_isNext (by decide +kernel)⟩

/-- The last word of `RAM_REGION`, at the ends of the two latency windows. -/
theorem witness_WriteThenReadRoundTrip :
    healthy (latent 14) ∧ Memory.wf (latent 14).mem = true ∧ (latent 14).params.targetQuiescent = true
    ∧ 1 ≤ (latent 14).params.ahbReadLatency ∧ (latent 14).params.ahbReadLatency ≤ 14 ∧ (0x407FFFFC : Word).toNat % 4 = 0
    ∧ wordsInRam (latent 14).params 0x407FFFFC 1 ∧ inRam (latent 14).params 0x407FFFFC = true
    ∧ inRam (latent 14).params (0x407FFFFC + 1) = true
    ∧ healthy (latent 3) ∧ (latent 3).params.ahbReadLatency ≤ 3 ∧ wordsInRam (latent 3).params 0x407FFFFC 1
    ∧ [(5 : Word)].length < 2 ^ 30 ∧ (0x407FFFFC : Word).toNat % 1024 + 4 * min 256 [(5 : Word)].length ≤ 1024 :=
  ⟨healthy_latent 14, by decide, rfl, by decide, by decide, by decide, by unfold wordsInRam; decide +kernel, by decide,
    by decide, healthy_latent 3, by decide, by unfold wordsInRam; decide +kernel, by decide, by decide⟩

theorem witness_EmissionCounts :
    ([1] : List Word) ≠ [] ∧ (Instr.writeMany 0x40000000 [1] 1 true).wellFormed = true
    ∧ program (.writeMany 0x40000000 [1] 1 true) ≠ [] := by decide +kernel

/-- s0 with bytes buffered. -/
def buffered : State := s0.setEngine { s0.engine with outbuf := [0x84, 0x85] }

theorem witness_FlushOutcomes :
    s0.engine.session ≠ none ∧ s0.engine.outbuf = [] ∧ buffered.engine.outbuf ≠ [] ∧ buffered.usb.events = []
    ∧ (driven buffered [.healthy]).usb.events.head? = some .healthy
    ∧ (driven buffered [.count 2]).usb.events.head? = some (.count 2) ∧ buffered.engine.outbuf.length ≤ 2
    ∧ (driven buffered [.count 1]).usb.events.head? = some (.count 1) ∧ 1 < buffered.engine.outbuf.length
    ∧ (driven buffered [.failed 4 1]).usb.events.head? = some (.failed 4 1)
    ∧ (driven buffered [.timedOut]).usb.events.head? = some .timedOut := by decide

/-- s0 with bytes returned and two expected. -/
def returning (rx : List Byte) : State :=
  (s0.setEngine { s0.engine with expectRx := 2 }).setMpsse { s0.mpsse with rxFifo := rx }

/-- Each outcome of the poll, on an empty queue and on one that shows bytes; each outcome of the read behind a poll that shows
one; and the single reads of `SingleReads`, with the longest short read. -/
theorem witness_ReadExactlyOutcomes :
    healthy (latent 14) ∧ 1 ≤ (latent 14).params.ahbReadLatency ∧ (0x407FFFFC : Word).toNat % 4 = 0
    ∧ (0x407FFFFE : Word).toNat % 2 = 0 ∧ (latent 14).params.targetQuiescent = true
    ∧ (returning []).engine.session ≠ none ∧ 1 ≠ (returning []).engine.expectRx
    ∧ (driven (returning [1, 2]) [.failed 4 0]).usb.events = .failed 4 0 :: []
    ∧ (driven (returning [1, 2]) [.timedOut]).usb.events = .timedOut :: []
    ∧ (returning []).mpsse.rxFifo = [] ∧ (returning []).usb.events = []
    ∧ (driven (returning []) [.healthy, .count 1]).usb.events = .healthy :: [.count 1]
    ∧ min 0 (returning [1, 2]).mpsse.rxFifo.length = 0 ∧ min 1 (returning []).mpsse.rxFifo.length = 0
    ∧ (driven (returning []) [.count 1, .healthy]).usb.events = .count 1 :: [.healthy]
    ∧ (returning [1, 2]).mpsse.rxFifo ≠ [] ∧ (returning [1, 2]).usb.events = []
    ∧ (driven (returning [1, 2]) [.healthy, .timedOut]).usb.events = .healthy :: [.timedOut]
    ∧ 1 ≤ 1 ∧ (driven (returning [1, 2]) [.count 1, .failed 4 0]).usb.events = .count 1 :: [.failed 4 0]
    ∧ (driven (returning [1, 2]) [.healthy, .count 1]).usb.events = .healthy :: [.count 1]
    ∧ min 1 (returning [1, 2]).mpsse.rxFifo.length < (returning [1, 2]).engine.expectRx
    ∧ (driven (returning [1, 2]) [.healthy, .count 2]).usb.events = .healthy :: [.count 2]
    ∧ ¬ min 2 (returning [1, 2]).mpsse.rxFifo.length < (returning [1, 2]).engine.expectRx
    ∧ (driven (returning [1]) [.count 1, .healthy]).usb.events = .count 1 :: [.healthy]
    ∧ (returning [1]).mpsse.rxFifo.length < (returning [1]).engine.expectRx
    ∧ ¬ (returning [1, 2, 3]).mpsse.rxFifo.length < (returning [1, 2, 3]).engine.expectRx ∧ 3 < 4 :=
  ⟨healthy_latent 14, by decide⟩

/-- V60-3: the stale bytes of V60-2 come first; two of the new read's own stay. -/
theorem test_stale_bytes :
    let t := goesTo (exec (.read32 0x40000000)
      ((withBytes [0x11, 0x22, 0x33, 0x44]).setMpsse { s0.mpsse with rxFifo := [0xAD, 0xDE] })) s0
    t.engine.returned = .word 0x3344DEAD ∧ t.mpsse.rxFifo = [0x22, 0x11] ∧ t.target.tap = .tlr := by decide +kernel

/-- The longest short write, and the one of V60-1, of each width with its largest value. -/
theorem witness_ShortSingleWrite :
    healthy s0 ∧ scanFree s0 = true ∧ 63 < 64 ∧ 40 < 64 ∧ (Instr.write32 0x40000000 0xFFFFFFFF).wellFormed = true
    ∧ (Instr.write16 0x40000002 0xFFFF).wellFormed = true ∧ (Instr.write8 0x40000003 0xFF).wellFormed = true :=
  ⟨healthy_s0, by decide⟩

/-- A burst to the end of its 1 KiB block, its first and its last flush failing. -/
theorem witness_FailedBurstWriteLeavesAPrefix :
    healthy s0 ∧ scanFree s0 = true ∧ Memory.wf s0.mem = true ∧ (0x400003F8 : Word).toNat % 4 = 0
    ∧ ([1, 2] : List Word).length ≤ 256 ∧ 0 < ([1, 2] : List Word).length ∧ 1 < ([1, 2] : List Word).length
    ∧ (0x400003F8 : Word).toNat % 1024 + 4 * ([1, 2] : List Word).length ≤ 1024 := ⟨healthy_s0, by decide⟩

theorem witness_OpenConfiguresAndCreatesTheSession : State.reset.usb.events = [] ∧ State.reset.mpsse.input = [] := ⟨rfl, rfl⟩

theorem driven_events (s : State) (ev : List DriverEvent) : (driven s ev).usb.events = ev := rfl

theorem witness_OpenFailsAtEveryStage :
    16 < 17 ∧ (driven State.reset (List.replicate 16 .healthy ++ [.failed 4 0])).mpsse.input = []
    ∧ (driven State.reset (List.replicate 16 .healthy ++ [.failed 4 0])).usb.events =
        List.replicate 16 .healthy ++ [.failed 4 0] := ⟨by decide, rfl, driven_events _ _⟩

theorem witness_CloseEndsTheSession : State.reset.engine.session = none ∧ s0.engine.session ≠ none := by decide

/-- s0 with one device to list. -/
def listing : State := s0.setUsb { s0.usb with devices := [⟨0, "JTAG key", "1", 0x04036010⟩] }

theorem witness_EnumerateListsTheDevices :
    listing.usb.events = [] ∧ 1 ≤ listing.usb.devices.length
    ∧ (driven listing [.healthy, .failed 4 0]).usb.events = List.replicate 1 .healthy ++ [.failed 4 0] := by decide

/-- s0 with this measured chain and this identification. -/
def measuring (c : Config.Chain) (id : Word) : State := { s0 with params := { p0 with measuredChain := c, idcodeValue := id } }

theorem healthy_measuring (c : Config.Chain) (id : Word) : healthy (measuring c id) := ⟨Option.some_ne_none _, rfl, rfl, rfl, rfl⟩

theorem witness_StartupCheckOrder :
    State.reset.engine.session = none ∧ (∀ c id, healthy (measuring c id) ∧ (measuring c id).params.legal = true
      ∧ (measuring c id).params.measuredChain = c ∧ (measuring c id).params.idcodeValue = id)
    ∧ (0 ≠ 1 ∧ 5 ≠ 6 ∧ 1 ≠ 35 ∧ 36 ≠ 33) ∧ (0x12345678 : Word) ≠ 0 :=
  ⟨rfl, fun c id => ⟨healthy_measuring c id, rfl, rfl, rfl⟩, by decide, by decide⟩

theorem witness_StepKeepsWellFormed :
    wellFormed (s0.setCalls [.instr (.write8 0x40000000 1)]) = true
    ∧ ∃ t, step (s0.setCalls [.instr (.write8 0x40000000 1)]) = .next t :=
  ⟨by decide, next_of_isNext (by decide +kernel)⟩

theorem witness_StepFrame :
    Memory.wf (s0.setCalls [.instr (.write8 0x40000000 1)]).mem = true
    ∧ (∃ t, step (s0.setCalls [.instr (.write8 0x40000000 1)]) = .next t) ∧ inRam s0.params 0x40800000 = false :=
  ⟨by decide, next_of_isNext (by decide +kernel), by decide⟩

end Sys2Proof.Tests
end

section
/-! What a step can do to the target, the AHB memory and the AHB log, said once: it is made of TCK clocks, of entries into
Update-IR and of changes elsewhere (`step_moves`). The statement about steps is then one about single clocks. -/

namespace Sys2Proof.Machine

open Sys2Proof

/-! ## The moves a step is made of -/

/-- One move: a change around the target, the memory and the log, which stay as they are; a TCK clock (R140); or the clock
of an IR row, which enters Update-IR (R138). -/
inductive TargetMove : State → State → Prop
  | around (s : State) (e : Engine) (m : Mpsse) (u : Usb) (c : List Call) : TargetMove s (s.around e m u c)
  | clock (tms tdi : Bool) (s : State) : TargetMove s (clock tms tdi s).2
  | enterUpdateIr (op : BitVec 6) (s : State) : TargetMove s (enterUpdateIr op s)

/-- Any number of moves in a row. -/
def TargetMoves : State → State → Prop := Relation.ReflTransGen TargetMove

theorem TargetMoves.refl (s : State) : TargetMoves s s := Relation.ReflTransGen.refl

theorem TargetMoves.trans {s t u : State} (hst : TargetMoves s t) (htu : TargetMoves t u) : TargetMoves s u :=
  Relation.ReflTransGen.trans hst htu

theorem TargetMove.moves {s t : State} (h : TargetMove s t) : TargetMoves s t := Relation.ReflTransGen.single h

theorem setEngine_moves (s : State) (e : Engine) : TargetMoves s (s.setEngine e) :=
  (TargetMove.around s e s.mpsse s.usb s.calls).moves

theorem setMpsse_moves (s : State) (m : Mpsse) : TargetMoves s (s.setMpsse m) :=
  (TargetMove.around s s.engine m s.usb s.calls).moves

theorem setCalls_moves (s : State) (c : List Call) : TargetMoves s (s.setCalls c) :=
  (TargetMove.around s s.engine s.mpsse s.usb c).moves

theorem driverCall_moves (s : State) : TargetMoves s (driverCall s).2 :=
  (TargetMove.around s s.engine s.mpsse s.usb.next s.calls).moves

/-! ## The MPSSE commands -/

theorem clocked_moves (p : List (Bool × Bool)) (s : State) : TargetMoves s (clocked p s) := by
  induction p generalizing s with
  | nil => exact .refl s
  | cons x p ih => exact (TargetMove.clock x.1 x.2 s).moves.trans (ih _)

theorem clockOut_moves (p : List (Bool × Bool)) (s : State) : TargetMoves s (clockOut p s) := by
  rw [clockOut_eq]
  exact (clocked_moves p s).trans (setMpsse_moves _ _)

theorem clockBitsIn_moves (p : List (Bool × Bool)) (s : State) : TargetMoves s (clockBitsIn p s) := by
  rw [clockBitsIn_eq]
  exact (clocked_moves p s).trans (setMpsse_moves _ _)

theorem clockBytesOut_moves (ds : List Byte) (s : State) : TargetMoves s (clockBytesOut ds s) := by
  rw [clockBytesOut_eq]
  exact (clocked_moves _ s).trans (setMpsse_moves _ _)

theorem clockBytesIn_moves (ds : List Byte) (s : State) : TargetMoves s (clockBytesIn ds s) := by
  rw [clockBytesIn_eq]
  exact (clocked_moves _ s).trans (setMpsse_moves _ _)

theorem runUndescribed_moves (s : State) : TargetMoves s (runUndescribed s) := by
  rw [runUndescribed_eq]
  exact (clocked_moves _ s).trans (setMpsse_moves _ _)

/-- Where an outcome goes on from s, it goes on by moves. -/
def Moved (s : State) (o : Host.Outcome State Fault Refusal) : Prop := ∀ t, o = .next t → TargetMoves s t

theorem Moved.next {s t : State} (h : TargetMoves s t) : Moved s (.next t) := by
  rintro _ ⟨⟩
  exact h

theorem Moved.refused (s : State) (r : Refusal) : Moved s (.refused r) := by
  rintro _ ⟨⟩

theorem Moved.after {s t : State} {o : Host.Outcome State Fault Refusal} (h : TargetMoves s t) (ho : Moved t o) :
    Moved s o := fun u hu => h.trans (ho u hu)

theorem inRange_moved (ok : Bool) {s t : State} (h : TargetMoves s t) : Moved s (inRange ok t) := by
  unfold inRange
  split
  · exact Moved.next h
  · exact Moved.refused _ _

theorem runCommand_moved (i : Instr) (s : State) : Moved s (runCommand i s) := by
  cases i
  case tmsOut | bitsOut | clkOnly => exact inRange_moved _ (clockOut_moves _ s)
  case tmsOutRead | bitsInout | bitsIn => exact inRange_moved _ (clockBitsIn_moves _ s)
  case bytesOut => exact inRange_moved _ (clockBytesOut_moves _ s)
  case bytesInout => exact inRange_moved _ (clockBytesIn_moves _ s)
  case loopbackOn | loopbackOff | div5Off | adaptiveOff | threePhaseOff | setDivisor | setLowByte | setHighByte
      | badCommand => exact Moved.next (setMpsse_moves s _)
  all_goals exact Moved.next (.refl s)

/-! ## The primitives -/

theorem primitive_moved (ok : Bool) (bad : Refusal) (start : Belief → Bool) (i : Instr) (after : Belief → Belief)
    (s : State) : Moved s (primitive ok bad start i after s) := by
  unfold primitive
  split
  · exact Moved.refused _ _
  split
  · exact Moved.refused _ _
  split
  · exact Moved.refused _ _
  · exact Moved.next (setEngine_moves s _)

theorem walk_moved (start : Belief → Bool) (i : Instr) (t : TapState) (s : State) : Moved s (walk start i t s) :=
  primitive_moved _ _ _ _ _ s

theorem shift_moved (ok : Bool) (i : Instr) (s : State) : Moved s (shift ok i s) := primitive_moved _ _ _ _ _ s

theorem scan_moved (ok : Bool) (bad : Refusal) (t u : TapState) (i : Instr) (s : State) :
    Moved s (scan ok bad t u i s) := primitive_moved _ _ _ _ _ s

theorem runPrimitive_moved (i : Instr) (s : State) : Moved s (runPrimitive i s) := by
  unfold runPrimitive
  cases i
  case resetToTlr | tlrToShiftIr | exit1ToShiftDr | exit1drToShiftIr | tlrToShiftDr => exact walk_moved _ _ _ s
  case shiftBitsOut | shiftBitsInout | shiftBitsIn | shiftBytesOut | shiftBytesInout | clockOnly =>
    exact shift_moved _ _ s
  case lastBitWithTms | lastBitWithTmsRead => exact primitive_moved _ _ _ _ _ s
  case shiftIr | loadCmd | writeData | readData | seqExit => exact scan_moved _ _ _ _ _ s
  all_goals exact Moved.next (.refl s)

/-! ## The transport -/

/-- Where a piece of an operation leaves a state, it has come there from s by moves. -/
def Run.Moved (s : State) : Run → Prop
  | .ok t => TargetMoves s t
  | .raised t => TargetMoves s t
  | .refused _ => True

theorem Run.Moved.after {s t : State} {r : Run} (h : TargetMoves s t) (hr : r.Moved t) : r.Moved s := by
  cases r with
  | ok u => exact h.trans hr
  | raised u => exact h.trans hr
  | refused => trivial

theorem Run.Moved.andThen {s : State} {r : Run} {f : State → Run} (hr : r.Moved s) (hf : ∀ t, (f t).Moved t) :
    (r.andThen f).Moved s := by
  cases r with
  | ok t => exact (hf t).after hr
  | raised t => exact hr
  | refused => trivial

theorem Run.Moved.outcome {s : State} {r : Run} (hr : r.Moved s) : Machine.Moved s r.outcome := by
  cases r with
  | ok t => exact Moved.next hr
  | raised t => exact Moved.next hr
  | refused => exact Moved.refused _ _

theorem Moved.ofOutcome {s : State} {o : Host.Outcome State Fault Refusal} (ho : Moved s o) :
    (Run.ofOutcome o).Moved s := by
  cases o with
  | next t => exact ho t rfl
  | fault f => nomatch f
  | refused => trivial

theorem drainFuel_moved (fuel : Nat) (s : State) : (drainFuel fuel s).Moved s := by
  induction fuel generalizing s with
  | zero => exact .refl s
  | succ fuel ih =>
    unfold drainFuel
    split
    · next i rest _ =>
      exact ((runCommand_moved i _).ofOutcome.andThen ih).after (setMpsse_moves s _)
    · exact .refl s
    · next rest _ =>
      exact (ih _).after ((setMpsse_moves s _).trans (runUndescribed_moves _))

theorem drain_moved (s : State) : (drain s).Moved s := drainFuel_moved _ s

theorem usbWrite_moves (bs : List Byte) (s : State) : TargetMoves s (usbWrite bs s).2 :=
  (driverCall_moves s).trans (setMpsse_moves _ _)

theorem raise_moves (e : EngineError) (s : State) : TargetMoves s (raise e s) := setEngine_moves s _

theorem flushWith_moved {run : State → Run} (hrun : ∀ s, (run s).Moved s) (s : State) : (flushWith run s).Moved s := by
  unfold flushWith
  split
  · exact .refl s
  · have hwrite := (setEngine_moves s _).trans (usbWrite_moves s.engine.outbuf (clearOutbuf s))
    refine ((hrun _).after hwrite).andThen fun t => ?_
    split
    · exact raise_moves _ t
    · split
      · exact .refl t
      · exact raise_moves _ t

/-- The state a poll ends in. -/
def Poll.state : Poll → State
  | .ready s => s
  | .failed _ s => s
  | .timedOut s => s

theorem pollQueue_moves (fuel : Nat) (s : State) : TargetMoves s (pollQueue fuel s).state := by
  induction fuel generalizing s with
  | zero => exact .refl s
  | succ fuel ih =>
    have hcall := driverCall_moves s
    unfold pollQueue
    dsimp only
    split
    · split <;> exact hcall
    · split
      · exact hcall.trans (ih _)
      · exact hcall
    · exact hcall
    · exact hcall

/-- The state a read ends in. -/
def ReadRun.state : ReadRun → State
  | .got _ s => s
  | .raised s => s

theorem readChecked_moves (n k : Nat) (s : State) : TargetMoves s (readChecked n k s).state := by
  have htake : TargetMoves s (takeRx k s).2 := setMpsse_moves s _
  unfold readChecked
  dsimp only
  split
  · exact htake.trans (raise_moves _ _)
  · exact htake

theorem usbRead_moves (n : Nat) (s : State) : TargetMoves s (usbRead n s).state := by
  have hcall := driverCall_moves s
  unfold usbRead
  dsimp only
  split
  · exact hcall.trans (readChecked_moves _ _ _)
  · exact hcall.trans (readChecked_moves _ _ _)
  · exact hcall.trans (raise_moves _ _)
  · exact hcall.trans (raise_moves _ _)

theorem readExactly_moves (n : Nat) (s : State) : TargetMoves s (readExactly n s).state := by
  have hpoll := pollQueue_moves (s.usb.events.length + 1) s
  unfold readExactly
  split
  · next heq => rw [heq] at hpoll; exact hpoll.trans (raise_moves _ _)
  · next heq => rw [heq] at hpoll; exact hpoll.trans (raise_moves _ _)
  · next u heq =>
    rw [heq] at hpoll
    have hread := hpoll.trans (usbRead_moves n u)
    split
    · next heq' => rw [heq'] at hread; exact hread.trans (setEngine_moves _ _)
    · next heq' => rw [heq'] at hread; exact hread

/-! ## The operations -/

theorem runAction_moved (a : Action) (s : State) : (runAction a s).Moved s := by
  cases a with
  | emit i => exact (runPrimitive_moved i s).ofOutcome
  | flush => exact flushWith_moved drain_moved s
  | readWord =>
    have hread := readExactly_moves 4 s
    simp only [runAction]
    split
    · next heq => rw [heq] at hread; exact hread.trans (setEngine_moves _ _)
    · next heq => rw [heq] at hread; exact hread
  | progress d t => exact setEngine_moves s _

theorem runActions_moved (acts : List Action) (s : State) : (runActions acts s).Moved s := by
  induction acts generalizing s with
  | nil => exact .refl s
  | cons a rest ih => exact (runAction_moved a s).andThen fun t => (ih _).after (setEngine_moves t _)

theorem setReturned_moves (r : Returned) (s : State) : TargetMoves s (setReturned r s) := setEngine_moves s _

theorem operation_moved (acts : List Action) (result : List Word → Returned) (s : State) :
    Moved s (operation acts result s) := by
  have hacts : (runActions acts (issue s)).Moved s := (runActions_moved acts _).after (setEngine_moves s _)
  refine Run.Moved.outcome (hacts.andThen fun t => ?_)
  exact setReturned_moves _ t

theorem checked_moved (checks : List (Bool × Refusal)) (acts : List Action) (result : List Word → Returned) (s : State) :
    Moved s (checked checks acts result s) := by
  unfold checked
  split
  · exact Moved.refused _ _
  · exact operation_moved acts result s

/-- The four layers of the instructions: an MPSSE command, an IR row, a primitive, an operation behind its checks. -/
theorem exec_layers (i : Instr) (s : State) :
    exec i s = runCommand i s ∨ (∃ op, exec i s = .next (enterUpdateIr op s)) ∨ exec i s = runPrimitive i s
    ∨ ∃ checks acts result, exec i s = checked checks acts result s := by
  cases i
  case tmsOut | tmsOutRead | bitsOut | bitsInout | bitsIn | bytesOut | bytesInout | clkOnly | loopbackOn | loopbackOff
      | div5Off | adaptiveOff | threePhaseOff | setDivisor | setLowByte | setHighByte | badCommand => exact .inl rfl
  case codeAddrComm | codeData | idcode | bypass => exact .inr (.inl ⟨_, rfl⟩)
  case readIdcode | read32 | read16 | read8 | write32 | write16 | write8 | burstWrite | burstRead | writeMany
      | readMany => exact .inr (.inr (.inr ⟨_, _, _, rfl⟩))
  all_goals exact .inr (.inr (.inl rfl))

theorem exec_moved (i : Instr) (s : State) : Moved s (exec i s) := by
  obtain h | ⟨op, h⟩ | h | ⟨checks, acts, result, h⟩ := exec_layers i s <;> rw [h]
  · exact runCommand_moved i s
  · exact Moved.next (TargetMove.enterUpdateIr op s).moves
  · exact runPrimitive_moved i s
  · exact checked_moved checks acts result s

/-! ## The calls without a row -/

theorem endSession_moves (s : State) : TargetMoves s (endSession s) := setEngine_moves s _

theorem ignoredCall_moves {f : State → State} (hf : ∀ s, TargetMoves s (f s)) (s : State) :
    TargetMoves s (ignoredCall f s) := by
  unfold ignoredCall
  dsimp only
  split
  · exact (driverCall_moves s).trans (hf _)
  · exact driverCall_moves s

theorem closeCalls_moves (s : State) : TargetMoves s (closeCalls s) :=
  (ignoredCall_moves (fun t => setMpsse_moves t _) s).trans
    ((ignoredCall_moves .refl _).trans ((ignoredCall_moves .refl _).trans (endSession_moves _)))

theorem closeSession_moves (s : State) : TargetMoves s (closeSession s) := by
  unfold closeSession
  split
  · exact .refl s
  · exact (closeCalls_moves s).trans (setReturned_moves _ _)

theorem openFail_moved (st : OpenStage) (s : State) : (openFail st s).Moved s :=
  (ignoredCall_moves .refl s).trans ((endSession_moves _).trans (raise_moves _ _))

theorem openCall_moved (st : OpenStage) {f : State → State} (hf : ∀ s, TargetMoves s (f s)) (s : State) :
    (openCall st f s).Moved s := by
  unfold openCall
  dsimp only
  split
  · exact (driverCall_moves s).trans (hf _)
  · exact (openFail_moved st _).after (driverCall_moves s)

theorem openWrite_moved (st : OpenStage) (bs : List Byte) (s : State) : (openWrite st bs s).Moved s := by
  unfold openWrite
  refine ((drain_moved _).after (usbWrite_moves bs s)).andThen fun t => ?_
  split
  · exact .refl t
  · exact openFail_moved st t

theorem openQueueEmpty_moved (s : State) : (openQueueEmpty s).Moved s := by
  have hcall := driverCall_moves s
  have hfail := (openFail_moved .loopbackOn (driverCall s).2).after hcall
  unfold openQueueEmpty
  dsimp only
  split
  · split
    · exact hcall
    · exact hfail
  · split
    · exact hcall
    · exact hfail
  · exact hfail
  · exact hfail

theorem openEcho_moved (s : State) : (openEcho s).Moved s := by
  have hpoll := pollQueue_moves (s.usb.events.length + 1) s
  unfold openEcho
  split
  · next heq => rw [heq] at hpoll; exact (openFail_moved _ _).after hpoll
  · next heq => rw [heq] at hpoll; exact (openFail_moved _ _).after hpoll
  · next u heq =>
    rw [heq] at hpoll
    have hread := hpoll.trans (usbRead_moves 2 u)
    split
    · next heq' =>
      rw [heq'] at hread
      split
      · exact hread
      · exact (openFail_moved _ _).after hread
    · next heq' => rw [heq'] at hread; exact (openFail_moved _ _).after hread

theorem openSteps_moved (handle : Nat) (family : Family) (s : State) : (openSteps handle family s).Moved s :=
  (openCall_moved _ .refl s).andThen fun _ =>
  (openCall_moved _ (fun t => setMpsse_moves t _) _).andThen fun _ =>
  (openCall_moved _ (fun t => setMpsse_moves t _) _).andThen fun _ =>
  (openCall_moved _ (fun t => setMpsse_moves t _) _).andThen fun _ =>
  (openCall_moved _ (fun t => setMpsse_moves t _) _).andThen fun _ =>
  (openCall_moved _ (fun t => setMpsse_moves t _) _).andThen fun _ =>
  (openWrite_moved _ _ _).andThen fun _ =>
  (openQueueEmpty_moved _).andThen fun _ =>
  (openWrite_moved _ _ _).andThen fun _ =>
  (openEcho_moved _).andThen fun _ =>
  (openWrite_moved _ _ _).andThen fun _ =>
  (openWrite_moved _ _ _).andThen fun _ =>
  (openWrite_moved _ _ _).andThen fun _ =>
  (openWrite_moved _ _ _).andThen fun _ =>
  (openWrite_moved _ _ _).andThen fun t => setEngine_moves t _

theorem openSession_moved (index : Nat) (family : Family) (s : State) : (openSession index family s).Moved s := by
  have hcall := driverCall_moves s
  unfold openSession
  dsimp only
  split
  · exact (openSteps_moved _ family _).after hcall
  · exact hcall.trans ((endSession_moves _).trans (raise_moves _ _))

theorem detailCalls_moves (ds : List DeviceInfo) (s : State) : TargetMoves s (detailCalls ds s).2 := by
  induction ds generalizing s with
  | nil => exact .refl s
  | cons d ds ih =>
    unfold detailCalls
    dsimp only
    split
    · exact driverCall_moves s
    · exact (driverCall_moves s).trans (ih _)

theorem enumerate_moves (s : State) : TargetMoves s (enumerate s) := by
  have hcall := driverCall_moves s
  have hlist := hcall.trans (detailCalls_moves (driverCall s).2.usb.devices _)
  unfold enumerate
  dsimp only
  split
  · exact hcall.trans (raise_moves _ _)
  · split
    · exact hlist.trans (raise_moves _ _)
    · exact hlist.trans (setReturned_moves _ _)

theorem chainFail_moved (e : EngineError) (s : State) : (chainFail e s).Moved s :=
  (closeCalls_moves s).trans (raise_moves e _)

theorem startupCheck_moved (s : State) : (startupCheck s).Moved s := by
  unfold startupCheck
  split
  · trivial
  split
  · exact chainFail_moved _ s
  · refine ((runActions_moved _ _).after (setEngine_moves s _)).andThen fun t => ?_
    split
    · exact chainFail_moved _ t
    · exact setReturned_moves _ t

theorem callFlush_moved (s : State) : (callFlush s).Moved s := by
  unfold callFlush
  split
  · trivial
  · exact flushWith_moved (run := .ok) .refl s

theorem callReadExactly_moved (n : Nat) (s : State) : (callReadExactly n s).Moved s := by
  unfold callReadExactly
  split
  · trivial
  split
  · trivial
  · have hread := readExactly_moves n s
    split
    · next heq => rw [heq] at hread; exact hread.trans (setReturned_moves _ _)
    · next heq => rw [heq] at hread; exact hread

/-! ## A step -/

theorem runCall_moved (c : Call) (s : State) : Moved s (runCall c s) := by
  cases c with
  | instr i => exact exec_moved i s
  | flush => exact (callFlush_moved s).outcome
  | readExactly n => exact (callReadExactly_moved n s).outcome
  | openSession index family => exact (openSession_moved index family s).outcome
  | closeSession => exact Moved.next (closeSession_moves s)
  | enumerate => exact Moved.next (enumerate_moves s)
  | startupCheck => exact (startupCheck_moved s).outcome

theorem stepCall_moved (s : State) : Moved s (stepCall s) := by
  unfold stepCall
  split
  · exact Moved.next (.refl s)
  · exact (runCall_moved _ _).after (setCalls_moves s _)

/-- A step is made of moves: nothing but TCK clocks and entries into Update-IR touches the target, the memory and the log. -/
theorem step_moves {s t : State} (h : step s = .next t) : TargetMoves s t := by
  have hstep : Moved s (step s) := by
    unfold step
    split
    · exact (exec_moved _ _).after (setMpsse_moves s _)
    · exact Moved.next ((setMpsse_moves s _).trans (runUndescribed_moves _))
    · exact stepCall_moved s
  exact hstep t h

/-! ## What one clock does to the AHB -/

/-- What an update can do to the AHB: no transfer; one read, which leaves memory as it is (R62); or one write, which stores
some bytes where they lie in `RAM_REGION` (R63). -/
inductive AhbEffect (s t : State) : Prop
  | none (hlog : t.ahbLog = s.ahbLog) (hmem : t.mem = s.mem)
  | read (a : Word) (sz : BitVec 2) (hlog : t.ahbLog = s.ahbLog ++ [.read a sz]) (hmem : t.mem = s.mem)
  | write (a : Word) (sz : BitVec 2) (d : Word) (stores : List (Word × Byte))
      (hlog : t.ahbLog = s.ahbLog ++ [.write a sz d]) (hmem : t.mem = storeBytes s.params stores s.mem)

theorem updateCmd_ahb (v : BitVec 35) (s : State) : AhbEffect s (updateCmd v s) := by
  unfold updateCmd
  dsimp only
  split
  · exact .none rfl rfl
  · exact .read _ _ rfl rfl

theorem updateData_ahb (v : BitVec 33) (s : State) : AhbEffect s (updateData v s) := by
  unfold updateData
  dsimp only
  split
  · split
    · exact .write _ _ _ _ rfl rfl
    · exact .write _ _ _ _ rfl rfl
  · split
    · exact .read _ _ rfl rfl
    · exact .none rfl rfl

theorem updateDr_ahb (s : State) : AhbEffect s (updateDr s) := by
  unfold updateDr
  split
  · exact updateCmd_ahb _ s
  · exact updateData_ahb _ s
  · exact .none rfl rfl
  · exact .none rfl rfl

theorem fallingEdge_ahb (s : State) : AhbEffect s (fallingEdge s) := by
  unfold fallingEdge
  split
  · exact .none rfl rfl
  · exact .none rfl rfl
  · exact updateDr_ahb s
  · exact .none rfl rfl

@[simp] theorem risingEdge_mem (tdi : Bool) (s : State) : (risingEdge tdi s).mem = s.mem := by
  unfold risingEdge; split <;> simp

@[simp] theorem risingEdge_ahbLog (tdi : Bool) (s : State) : (risingEdge tdi s).ahbLog = s.ahbLog := by
  unfold risingEdge; split <;> simp

@[simp] theorem risingEdge_clockCount (tdi : Bool) (s : State) :
    (risingEdge tdi s).target.clockCount = s.target.clockCount := by
  unfold risingEdge; split <;> simp

@[simp] theorem fallingEdge_clockCount (s : State) : (fallingEdge s).target.clockCount = s.target.clockCount := by
  unfold fallingEdge; split <;> simp [loadIr]

/-- A clock counts itself, once (R140). -/
theorem clock_clockCount (tms tdi : Bool) (s : State) :
    (clock tms tdi s).2.target.clockCount = s.target.clockCount + 1 := by
  simp [clock, moveTap, countClock]

/-- A clock touches the AHB at its falling edge alone. -/
theorem clock_ahb (tms tdi : Bool) (s : State) : AhbEffect s (clock tms tdi s).2 := by
  have h := fallingEdge_ahb (moveTap tms (risingEdge tdi (countClock s)))
  have hlog : (moveTap tms (risingEdge tdi (countClock s))).ahbLog = s.ahbLog := by simp [moveTap, countClock]
  have hmem : (moveTap tms (risingEdge tdi (countClock s))).mem = s.mem := by simp [moveTap, countClock]
  have hparams : (moveTap tms (risingEdge tdi (countClock s))).params = s.params := by simp [moveTap, countClock]
  cases h with
  | none hl hm => exact .none (hl.trans hlog) (hm.trans hmem)
  | read a sz hl hm => exact .read a sz (by rw [← hlog]; exact hl) (hm.trans hmem)
  | write a sz d stores hl hm =>
    exact .write a sz d stores (by rw [← hlog]; exact hl) (by rw [← hparams, ← hmem]; exact hm)

/-! ## The frame of a step -/

/-- What moves from s to t keep, as a relation that chains. -/
structure StepKeeps (s t : State) : Prop where
  params : t.params = s.params
  clockCount : s.target.clockCount ≤ t.target.clockCount
  log : ∃ l : List AhbTransfer, t.ahbLog = s.ahbLog ++ l
    ∧ ((∀ x ∈ l, ∃ a sz, x = .read a sz) → t.mem = s.mem)
    ∧ (t.target.clockCount = s.target.clockCount → l = [])
  outside : ∀ x : Word, inRam s.params x = false → t.byteAt x = s.byteAt x
  wf : Memory.wf t.mem = true

theorem byteAt_of_mem {s t : State} (h : t.mem = s.mem) (x : Word) : t.byteAt x = s.byteAt x := by
  rw [State.byteAt, State.byteAt, h]

/-- Where neither the parameters, the clock count, the log nor the memory change, all is kept. -/
theorem StepKeeps.of_eq {s t : State} (hwf : Memory.wf s.mem = true) (hparams : t.params = s.params)
    (hcount : t.target.clockCount = s.target.clockCount) (hlog : t.ahbLog = s.ahbLog) (hmem : t.mem = s.mem) :
    StepKeeps s t where
  params := hparams
  clockCount := hcount.ge
  log := ⟨[], by rw [hlog, List.append_nil], fun _ => hmem, fun _ => rfl⟩
  outside x _ := byteAt_of_mem hmem x
  wf := hmem ▸ hwf

theorem StepKeeps.trans {s t u : State} (hst : StepKeeps s t) (htu : StepKeeps t u) : StepKeeps s u where
  params := htu.params.trans hst.params
  clockCount := hst.clockCount.trans htu.clockCount
  log := by
    obtain ⟨l, hl, hlmem, hlcount⟩ := hst.log
    obtain ⟨k, hk, hkmem, hkcount⟩ := htu.log
    have hle := hst.clockCount
    have hle' := htu.clockCount
    refine ⟨l ++ k, by rw [hk, hl, List.append_assoc], fun hreads => ?_, fun hcount => ?_⟩
    · have hut := hkmem fun x hx => hreads x (List.mem_append_right l hx)
      exact hut.trans (hlmem fun x hx => hreads x (List.mem_append_left k hx))
    · rw [hlcount (by omega), hkcount (by omega), List.append_nil]
  outside x hx := (htu.outside x (hst.params ▸ hx)).trans (hst.outside x hx)
  wf := htu.wf

/-- A clock counts itself, so whatever transfer it starts is one of a clocked target. -/
theorem clock_keeps (tms tdi : Bool) {s : State} (hwf : Memory.wf s.mem = true) : StepKeeps s (clock tms tdi s).2 := by
  have hcount := clock_clockCount tms tdi s
  have hne : (clock tms tdi s).2.target.clockCount ≠ s.target.clockCount := by omega
  cases clock_ahb tms tdi s with
  | none hlog hmem =>
    exact ⟨clock_params tms tdi s, by omega, ⟨[], by simpa using hlog, fun _ => hmem, fun _ => rfl⟩,
      fun x _ => byteAt_of_mem hmem x, hmem ▸ hwf⟩
  | read a sz hlog hmem =>
    exact ⟨clock_params tms tdi s, by omega, ⟨_, hlog, fun _ => hmem, fun h => absurd h hne⟩,
      fun x _ => byteAt_of_mem hmem x, hmem ▸ hwf⟩
  | write a sz d stores hlog hmem =>
    refine ⟨clock_params tms tdi s, by omega, ⟨_, hlog, fun hreads => ?_, fun h => absurd h hne⟩,
      fun x hx => ?_, hmem ▸ storeBytes_wf _ _ hwf⟩
    · obtain ⟨_, _, h⟩ := hreads _ (List.mem_singleton_self _)
      cases h
    · rw [State.byteAt, hmem]
      exact read_storeBytes_other s.params stores hwf x (.inl hx)

/-- Entering Update-IR is a clock from Exit1-IR (R138), where the rising edge does nothing. -/
theorem enterUpdateIr_eq_clock (op : BitVec 6) (s : State) :
    enterUpdateIr op s = (clock true false (s.setTarget { s.target with tap := .ex1IR, irsr := op })).2 := rfl

theorem TargetMove.keeps {s t : State} (h : TargetMove s t) (hwf : Memory.wf s.mem = true) : StepKeeps s t := by
  cases h with
  | around => exact .of_eq hwf rfl rfl rfl rfl
  | clock tms tdi => exact clock_keeps tms tdi hwf
  | enterUpdateIr op =>
    have hplace : StepKeeps s (s.setTarget { s.target with tap := .ex1IR, irsr := op }) := .of_eq hwf rfl rfl rfl rfl
    exact hplace.trans (enterUpdateIr_eq_clock op s ▸ clock_keeps true false hplace.wf)

theorem TargetMoves.keeps {s t : State} (h : TargetMoves s t) (hwf : Memory.wf s.mem = true) : StepKeeps s t := by
  induction h with
  | refl => exact .of_eq hwf rfl rfl rfl rfl
  | tail _ hmove ih => exact ih.trans (hmove.keeps ih.wf)

/-- Settles O59: a step is made of moves, each of which keeps the frame. -/
theorem stepFrame : Obligations.StepFrame := by
  intro s t hwf hstep
  obtain ⟨hparams, hcount, hlog, houtside, _⟩ := (step_moves hstep).keeps hwf
  exact ⟨hparams, hcount, hlog, houtside⟩

end Sys2Proof.Machine
end

section
/-! The JTAG instruction register (R28, R138), and the state at reset (R41). -/

namespace Sys2Proof.Machine

open Sys2Proof

/-! ## The IR opcodes -/

theorem encodeIr_decodeIr (idc w : BitVec 6) : encodeIr idc (decodeIr idc w) = some w := by
  unfold decodeIr
  split
  · next h => rw [h, encodeIr]
  split
  · next h => rw [h, encodeIr]
  split
  · next h => rw [h, encodeIr]
  · rw [encodeIr]

/-- Each well-formed IR row is what its opcode decodes to; the bypass of `IDCODE_OPCODE` is left out, which is no bypass. -/
theorem decodeIr_encodeIr {idc w : BitVec 6} (hcmd : idc ≠ Config.codeAddrComm) (hdata : idc ≠ Config.codeData) (i : Instr)
    (hwf : i.wellFormed = true) (hidc : i ≠ .bypass idc) (henc : encodeIr idc i = some w) : decodeIr idc w = i := by
  unfold decodeIr
  cases i
  case codeAddrComm =>
    cases henc
    exact if_pos rfl
  case codeData =>
    cases henc
    rw [if_neg (by decide), if_pos rfl]
  case idcode =>
    cases henc
    rw [if_neg hcmd, if_neg hdata, if_pos rfl]
  case bypass op =>
    cases henc
    simp only [Instr.wellFormed, Bool.and_eq_true, decide_eq_true_eq] at hwf
    have hne : w ≠ idc := fun h => hidc (h ▸ rfl)
    rw [if_neg hwf.1, if_neg hwf.2, if_neg hne]
  all_goals exact nomatch henc

/-- The length of the register that an opcode selects (R28). -/
theorem drLen_selectDr (idc w : BitVec 6) : drLen (selectDr idc w) =
    if w = Config.codeAddrComm then 35 else if w = Config.codeData then 33 else if w = idc then 32 else 1 := by
  simp only [selectDr, apply_ite drLen]
  rfl

/-- Settles O20, from the two round trips and the lengths. -/
theorem irDecodeEncode : Obligations.IrDecodeEncode := by
  intro idc hcmd hdata
  exact ⟨encodeIr_decodeIr idc, fun i w => decodeIr_encodeIr hcmd hdata i, drLen_selectDr idc⟩

/-- The clock of an IR row, from whatever state: Update-IR with the opcode current (R138). -/
theorem enterUpdateIr_eq (op : BitVec 6) (s : State) : enterUpdateIr op s = s.setTarget { s.target with
    tap := .updIR, irsr := op, ir := op, clockCount := s.target.clockCount + 1 } := rfl

theorem exec_codeAddrComm (s : State) : exec .codeAddrComm s = .next (enterUpdateIr Config.codeAddrComm s) := rfl
theorem exec_codeData (s : State) : exec .codeData s = .next (enterUpdateIr Config.codeData s) := rfl
theorem exec_idcode (s : State) : exec .idcode s = .next (enterUpdateIr s.params.idcodeOpcode s) := rfl
theorem exec_bypass (op : BitVec 6) (s : State) : exec (.bypass op) s = .next (enterUpdateIr op s) := rfl

theorem enterUpdateIr_sel (op : BitVec 6) (s : State) : (enterUpdateIr op s).sel = selectDr s.params.idcodeOpcode op := rfl

/-- Settles O24: each row is the clock into Update-IR, after which its opcode selects the register. -/
theorem irInstructionsSelect : Obligations.IrInstructionsSelect := by
  intro s hlegal
  simp only [Config.Params.legal, Bool.and_eq_true, decide_eq_true_eq] at hlegal
  obtain ⟨⟨_, hcmd⟩, hdata⟩ := hlegal
  simp only [← enterUpdateIr_eq, enterUpdateIr_sel, drLen_selectDr]
  refine ⟨⟨exec_codeAddrComm s, if_pos rfl⟩, ⟨exec_codeData s, rfl⟩, ⟨exec_idcode s, ?_⟩, fun op => ⟨exec_bypass op s, ?_⟩⟩
  · rw [if_neg hcmd, if_neg hdata, if_pos trivial]
  · intro hop2 hop3 hopidc
    exact (if_neg hop2).trans ((if_neg hop3).trans (if_neg hopidc))

/-- Reset stands in RTI, outside a DR scan, with a memory that lists nothing. -/
theorem reset_wellFormed : wellFormed State.reset = true := by
  rw [wellFormed, reset_mem_wf]
  rfl

/-- Settles O60, by the values of `State.reset`. -/
theorem resetState : Obligations.ResetState := ⟨rfl, rfl, rfl, rfl, rfl, reset_wellFormed⟩

end Sys2Proof.Machine
end

section
/-! The width of the DR shift register (R33): a capture loads it, shifts keep it, and nothing else in a DR scan touches it or
the selection. -/

namespace Sys2Proof.Machine

open Sys2Proof

theorem scanWidthOk_iff (s : State) : scanWidthOk s = true ↔
    (TapState.inDrScan s.target.tap = true → s.target.dsr.length = drLen s.sel) := by
  rw [scanWidthOk, Bool.or_eq_true, Bool.not_eq_true', decide_eq_true_eq, ← Bool.not_eq_true, imp_iff_not_or]

theorem wellFormed_iff (s : State) : wellFormed s = true ↔ Memory.wf s.mem = true ∧ scanWidthOk s = true := by
  rw [wellFormed, Bool.and_eq_true]

theorem drLen_pos (d : DrSel) : 0 < drLen d := by cases d <;> decide

theorem sel_eq_of_ir {s t : State} (hparams : t.params = s.params) (hir : t.target.ir = s.target.ir) : t.sel = s.sel := by
  rw [State.sel, State.sel, hparams, hir]

/-! ## The edges of a clock -/

@[simp] theorem risingEdge_tap (tdi : Bool) (s : State) : (risingEdge tdi s).target.tap = s.target.tap := by
  unfold risingEdge; split <;> simp

@[simp] theorem risingEdge_ir (tdi : Bool) (s : State) : (risingEdge tdi s).target.ir = s.target.ir := by
  unfold risingEdge; split <;> simp

@[simp] theorem fallingEdge_tap (s : State) : (fallingEdge s).target.tap = s.target.tap := by
  unfold fallingEdge; split <;> simp [loadIr]

@[simp] theorem fallingEdge_dsr (s : State) : (fallingEdge s).target.dsr = s.target.dsr := by
  unfold fallingEdge; split <;> simp [loadIr]

/-- Only Test-Logic-Reset and Update-IR load an instruction (R135, R138), and neither is in a DR scan. -/
theorem fallingEdge_ir_of_inDrScan (s : State) (h : TapState.inDrScan s.target.tap = true) :
    (fallingEdge s).target.ir = s.target.ir := by
  unfold fallingEdge
  split
  · next htap => rw [htap] at h; exact nomatch h
  · next htap => rw [htap] at h; exact nomatch h
  · exact updateDr_ir s
  · rfl

/-- The TAP controller moves along R132's table, once a clock. -/
@[simp] theorem clock_tap (tms tdi : Bool) (s : State) :
    (clock tms tdi s).2.target.tap = nextTap s.target.tap tms := by
  simp [clock, moveTap, countClock]

theorem length_shiftDsr (tdi : Bool) {d : List Bool} (h : 0 < d.length) : (shiftDsr tdi d).length = d.length := by
  rw [shiftDsr, List.length_append, List.length_tail, List.length_singleton]
  omega

/-- The rising edge of a clock into or within a DR scan leaves the register at the selected width: it captures, it shifts, or
it leaves the register alone. -/
theorem risingEdge_dsr_length (tms tdi : Bool) {s : State} (hwidth : scanWidthOk s = true)
    (hnext : TapState.inDrScan (nextTap s.target.tap tms) = true) :
    (risingEdge tdi s).target.dsr.length = drLen s.sel := by
  rw [scanWidthOk_iff] at hwidth
  unfold risingEdge
  cases htap : s.target.tap <;> rw [htap] at hwidth hnext
  case capDR => exact captureDr_dsr_length s
  case shDR =>
    have hlen := hwidth rfl
    exact (length_shiftDsr tdi (hlen ▸ drLen_pos s.sel)).trans hlen
  case ex1DR | pauseDR | ex2DR => exact hwidth rfl
  all_goals cases tms <;> exact nomatch hnext

theorem fallingEdge_scanWidth {s : State} (h : scanWidthOk s = true) : scanWidthOk (fallingEdge s) = true := by
  rw [scanWidthOk_iff] at h ⊢
  rw [fallingEdge_tap, fallingEdge_dsr]
  intro hscan
  rw [sel_eq_of_ir (fallingEdge_params s) (fallingEdge_ir_of_inDrScan s hscan)]
  exact h hscan

theorem clock_scanWidth (tms tdi : Bool) {s : State} (h : scanWidthOk s = true) :
    scanWidthOk (clock tms tdi s).2 = true := by
  refine fallingEdge_scanWidth ((scanWidthOk_iff _).2 fun hscan => ?_)
  have hcount : scanWidthOk (countClock s) = true := h
  have htap : (moveTap tms (risingEdge tdi (countClock s))).target.tap = nextTap (countClock s).target.tap tms := by
    simp [moveTap]
  have hsel : (moveTap tms (risingEdge tdi (countClock s))).sel = (countClock s).sel :=
    sel_eq_of_ir (by simp [moveTap]) (by simp [moveTap])
  rw [hsel]
  exact risingEdge_dsr_length tms tdi hcount (htap ▸ hscan)

/-! ## Every step -/

theorem TargetMove.scanWidth {s t : State} (h : TargetMove s t) (hwidth : scanWidthOk s = true) : scanWidthOk t = true := by
  cases h with
  | around => exact hwidth
  | clock tms tdi => exact clock_scanWidth tms tdi hwidth
  | enterUpdateIr op => rfl

theorem TargetMove.wellFormed {s t : State} (h : TargetMove s t) (hs : wellFormed s = true) : wellFormed t = true := by
  rw [wellFormed_iff] at hs ⊢
  obtain ⟨hmem, hwidth⟩ := hs
  exact ⟨(h.keeps hmem).wf, h.scanWidth hwidth⟩

theorem TargetMoves.wellFormed {s t : State} (h : TargetMoves s t) (hs : wellFormed s = true) : wellFormed t = true := by
  induction h with
  | refl => exact hs
  | tail _ hmove ih => exact hmove.wellFormed ih

/-- Settles O58: a step is made of moves, each of which keeps the state well formed. -/
theorem stepKeepsWellFormed : Obligations.StepKeepsWellFormed := fun _ _ hs hstep => (step_moves hstep).wellFormed hs

end Sys2Proof.Machine
end

section
/-! What every action list over a healthy driver keeps and where it ends, read off its plan: the plans of two lists join, the
`expect_rx` and `rx_fifo` of a list follow its plan, and a list whose last primitive is `reset_to_tlr` leaves the target in
TLR. -/

namespace Sys2Proof.Machine

open Sys2Proof

/-! ## Plans -/

/-- Where a list is as planned, the list behind it is planned from where it ends, flushed. -/
theorem planned_append {as bs : List Action} {b b' : Belief} {sent : Bool} {n n' : Nat}
    (h : planned as b sent n = some (b', n')) : planned (as ++ bs) b sent n = planned bs b' true n' := by
  induction as generalizing b sent n with
  | nil =>
    simp only [planned, Option.ite_none_right_eq_some, Option.some.injEq, Prod.mk.injEq] at h
    obtain ⟨rfl, rfl, rfl⟩ := h
    rfl
  | cons a as ih =>
    cases a with
    | emit i =>
      simp only [planned, Option.bind_eq_some_iff] at h
      obtain ⟨b₁, hb₁, h⟩ := h
      simp only [List.cons_append, planned, hb₁, Option.bind_some]
      exact ih h
    | flush => exact ih h
    | readWord =>
      simp only [planned, Option.ite_none_right_eq_some] at h
      simp only [List.cons_append, planned, if_pos h.1]
      exact ih h.2
    | progress d t => exact ih h

/-- No more bytes are expected than a plan leaves in `rx_fifo`: both grow by what a primitive returns, and a read takes the
expectation to 0. -/
theorem expectAfter_le_planned {acts : List Action} {b b' : Belief} {sent : Bool} {n n' e : Nat}
    (h : planned acts b sent n = some (b', n')) (he : e ≤ n) : expectAfter acts e ≤ n' := by
  induction acts generalizing b sent n e with
  | nil =>
    simp only [planned, Option.ite_none_right_eq_some, Option.some.injEq, Prod.mk.injEq] at h
    obtain ⟨_, _, rfl⟩ := h
    exact he
  | cons a acts ih =>
    cases a with
    | emit i =>
      simp only [planned, Option.bind_eq_some_iff] at h
      obtain ⟨_, _, h⟩ := h
      exact ih h (Nat.add_le_add_right he _)
    | flush => exact ih h he
    | readWord =>
      simp only [planned, Option.ite_none_right_eq_some] at h
      exact ih h.2 (Nat.zero_le _)
    | progress d t => exact ih h he

/-- A list that is as planned leaves the planned number of bytes in `rx_fifo`. -/
theorem play_rxFifo_length {acts : List Action} {b b' : Belief} {sent : Bool} {n' : Nat} {s : State}
    (h : planned acts b sent s.mpsse.rxFifo.length = some (b', n')) : (play acts s).mpsse.rxFifo.length = n' := by
  induction acts generalizing b sent s with
  | nil =>
    simp only [planned, Option.ite_none_right_eq_some, Option.some.injEq, Prod.mk.injEq] at h
    exact h.2.2
  | cons a acts ih =>
    cases a with
    | emit i =>
      simp only [planned, Option.bind_eq_some_iff] at h
      obtain ⟨b₁, hb₁, h⟩ := h
      rw [← ranAll_rx_length _ _ (primStep_commands i b b₁ hb₁).1] at h
      exact ih h
    | flush => exact ih h
    | readWord =>
      simp only [planned, Option.ite_none_right_eq_some] at h
      refine ih (b := b) (sent := sent) (s := (appendOut _ s).setMpsse (s.mpsse.rx (s.mpsse.rxFifo.drop 4))) ?_
      rw [setMpsse_mpsse, rx_rxFifo, List.length_drop]
      exact h.2
    | progress d t => exact ih (s := callProgress d t s) h

/-! ## What an action list keeps -/

theorem ranAll_keeps {P : State → Prop} (hran : ∀ c s, engineCommand c = true → P s → P (ran c s)) {cs : List Instr}
    (hcs : cs.all engineCommand = true) {s : State} (hs : P s) : P (ranAll cs s) := by
  induction cs generalizing s with
  | nil => exact hs
  | cons c cs ih =>
    rw [List.all_cons, Bool.and_eq_true] at hcs
    exact ih hcs.2 (hran c s hcs.1 hs)

/-- What the engine's commands, the reads and the progress calls keep, every action list keeps. -/
theorem play_keeps {P : State → Prop} (hran : ∀ c s, engineCommand c = true → P s → P (ran c s))
    (hread : ∀ w f s, P s → P ((appendOut w s).setMpsse (s.mpsse.rx f))) (hprogress : ∀ d t s, P s → P (callProgress d t s))
    {acts : List Action} (hl : engineList acts = true) {s : State} (hs : P s) : P (play acts s) := by
  induction acts generalizing s with
  | nil => exact hs
  | cons a acts ih =>
    cases a with
    | emit i =>
      rw [engineList, Bool.and_eq_true] at hl
      exact ih hl.2 (ranAll_keeps hran hl.1 hs)
    | flush => exact ih hl hs
    | readWord => exact ih hl (hread _ _ s hs)
    | progress d t => exact ih hl (hprogress d t s hs)

/-- The MPSSE engine with its pins as an operation leaves them and nothing queued for the host (R41): what is left of it to
compare is its configuration and its input. -/
def Mpsse.resting (m : Mpsse) : Mpsse := (m.pins true false).rx []

theorem resting_pins (m : Mpsse) (t d : Bool) : (m.pins t d).resting = m.resting := rfl
theorem resting_rx (m : Mpsse) (f : List Byte) : (m.rx f).resting = m.resting := rfl

theorem resting_pinsAfter (p : List (Bool × Bool)) (m : Mpsse) : (pinsAfter p m).resting = m.resting := by
  unfold pinsAfter; split <;> rfl

/-- A command of the engine changes the MPSSE engine's pins and queue alone. -/
theorem ran_resting (i : Instr) (s : State) (h : engineCommand i = true) :
    (ran i s).mpsse.resting = s.mpsse.resting := by
  refine engineCommand_cases (P := fun i => (ran i s).mpsse.resting = s.mpsse.resting) i h ?_ ?_ ?_ ?_ ?_
  · intro l b h; rw [ran_tmsOut _ _ _ h]; exact resting_pins _ _ _
  · intro l b h; rw [ran_bitsOut _ _ _ h]; exact resting_pins _ _ _
  · intro d h; rw [ran_bytesOut _ _ h]; exact resting_pinsAfter _ _
  · intro d h; rw [ran_bytesInout _ _ h]; exact (resting_rx _ _).trans (resting_pinsAfter _ _)
  · intro l h; rw [ran_clkOnly _ _ h]; exact resting_pins _ _ _

theorem play_resting {acts : List Action} (h : engineList acts = true) (s : State) :
    (play acts s).mpsse.resting = s.mpsse.resting :=
  play_keeps (P := fun t => t.mpsse.resting = s.mpsse.resting) (fun c t hc ht => (ran_resting c t hc).trans ht)
    (fun _ _ _ ht => ht) (fun _ _ _ ht => ht) h rfl

theorem play_params {acts : List Action} (h : engineList acts = true) (s : State) : (play acts s).params = s.params :=
  play_keeps (P := fun t => t.params = s.params) (fun c t hc ht => (ran_params c t hc).trans ht)
    (fun _ _ _ ht => ht) (fun _ _ _ ht => ht) h rfl

theorem play_session {acts : List Action} (h : engineList acts = true) (s : State) :
    (play acts s).engine.session = s.engine.session :=
  play_keeps (P := fun t => t.engine.session = s.engine.session)
    (fun c t hc ht => (congrArg Engine.session (ran_engine c t hc)).trans ht) (fun _ _ _ ht => ht) (fun _ _ _ ht => ht) h rfl

/-! ## The last reset -/

/-- The target in TLR with the IDCODE register selected, and the pins as `reset_to_tlr` leaves them (R41, R201). -/
structure Rested (s : State) : Prop where
  tap : s.target.tap = .tlr
  ir : s.target.ir = s.params.idcodeOpcode
  pins : s.mpsse.pins true false = s.mpsse

/-- The clock that enters TLR selects the IDCODE register (R135). -/
theorem clock_ir_of_tlr (tms tdi : Bool) (s : State) (h : nextTap s.target.tap tms = .tlr) :
    (clock tms tdi s).2.target.ir = s.params.idcodeOpcode := by
  have htap : (moveTap tms (risingEdge tdi (countClock s))).target.tap = .tlr := by simp [moveTap, countClock, h]
  rw [clock, fallingEdge, htap]
  simp [loadIr, moveTap, countClock]

/-- Five TMS-high moves end in TLR, from every TAP state (R132). -/
theorem nextTap_five_high (t : TapState) :
    nextTap (nextTap (nextTap (nextTap (nextTap t true) true) true) true) true = .tlr := by
  cases t <;> rfl

/-- `reset_to_tlr` ends so from every state (R201). -/
theorem ran_reset_rested (s : State) : Rested (ran (.tmsOut 0x04 0x3F) s) := by
  have hrun : ran (.tmsOut 0x04 0x3F) s = (leadingReset s).setMpsse (s.mpsse.pins true false) := ran_tmsOut _ _ s rfl
  have htlr := nextTap_five_high s.target.tap
  rw [hrun]
  constructor
  · simpa [leadingReset, fiveHigh, List.replicate, clocked] using htlr
  · refine (clock_ir_of_tlr true false _ ?_).trans ?_
    · simpa using htlr
    · simp [leadingReset]
  · rfl

/-- The primitive is `reset_to_tlr`. -/
def isReset : Instr → Bool
  | .resetToTlr => true
  | _ => false

/-- Whether the last primitive of a list is `reset_to_tlr`; `r` says it of the list before. -/
def resetLast : List Action → Bool → Bool
  | [], r => r
  | .emit i :: rest, _ => resetLast rest (isReset i)
  | .flush :: rest, r => resetLast rest r
  | .readWord :: rest, r => resetLast rest r
  | .progress _ _ :: rest, r => resetLast rest r

theorem resetLast_append (as bs : List Action) (r : Bool) : resetLast (as ++ bs) r = resetLast bs (resetLast as r) := by
  induction as generalizing r with
  | nil => rfl
  | cons a as ih => cases a <;> exact ih _

/-- A list whose last primitive is `reset_to_tlr` leaves the target in TLR: flushes, reads and progress calls clock nothing. -/
theorem play_rested {acts : List Action} {r : Bool} {s : State} (hs : r = true → Rested s) (h : resetLast acts r = true) :
    Rested (play acts s) := by
  induction acts generalizing r s with
  | nil => exact hs h
  | cons a acts ih =>
    cases a with
    | emit i =>
      refine ih (r := isReset i) (fun hi => ?_) h
      cases i
      case resetToTlr => exact ran_reset_rested s
      all_goals exact nomatch hi
    | flush => exact ih hs h
    | readWord =>
      refine ih (r := r) (fun hr => ?_) h
      obtain ⟨htap, hir, hpins⟩ := hs hr
      exact ⟨htap, hir, congrArg (Mpsse.rx · _) hpins⟩
    | progress d t =>
      refine ih (r := r) (fun hr => ?_) h
      obtain ⟨htap, hir, hpins⟩ := hs hr
      exact ⟨htap, hir, hpins⟩

end Sys2Proof.Machine
end

section
/-! The operations' own lists (R247 to R249, R253, R281, R283, R290): each is as planned, ends with nothing queued and the belief
TLR, and its last primitive is `reset_to_tlr`. -/

namespace Sys2Proof.Machine

open Sys2Proof

/-- A list that is as planned from the belief `b`, ends at rest with nothing queued, and leaves the target reset; `r` says that
the list before it did. -/
structure EndsAtRest (acts : List Action) (b : Belief) (sent r : Bool) : Prop where
  plan : planned acts b sent 0 = some (.at .tlr, 0)
  reset : resetLast acts r = true

theorem EndsAtRest.append {as bs : List Action} {b : Belief} {sent r : Bool} (has : EndsAtRest as b sent r)
    (hbs : EndsAtRest bs (.at .tlr) true true) : EndsAtRest (as ++ bs) b sent r where
  plan := (planned_append has.plan).trans hbs.plan
  reset := by rw [resetLast_append, has.reset, hbs.reset]

theorem EndsAtRest.flatMap {α : Type} {f : α → List Action} {ks : List α} (hf : ∀ k ∈ ks, ∀ b r, EndsAtRest (f k) b true r) :
    EndsAtRest (ks.flatMap f) (.at .tlr) true true := by
  induction ks with
  | nil => exact ⟨rfl, rfl⟩
  | cons k ks ih =>
    exact (hf k List.mem_cons_self _ _).append (ih fun j hj => hf j (List.mem_cons_of_mem k hj))

/-! ## The transfers -/

theorem planned_loadCmd (a : Word) {sz : BitVec 2} (rw : Bool) (hsz : sz ≠ Config.sizeReserved) (rest : List Action)
    (sent : Bool) (n : Nat) : planned (.emit (.loadCmd a sz rw) :: rest) (.at .shDR) sent n = planned rest (.at .ex1DR) false n := by
  have hstep : primStep (.loadCmd a sz rw) (.at .shDR) = some (.at .ex1DR) := if_pos ⟨hsz, rfl⟩
  rw [planned, hstep]
  rfl

/-- `command_load` and `data_select` bring the belief from anywhere to ShDR and queue nothing (R247, R248). -/
theorem planned_load_select (a : Word) {sz : BitVec 2} (rw : Bool) (hsz : sz ≠ Config.sizeReserved) (rest : List Action)
    (b : Belief) (sent : Bool) (n : Nat) :
    planned (commandLoad a sz rw ++ dataSelect ++ rest) b sent n = planned rest (.at .shDR) false n :=
  calc planned (commandLoad a sz rw ++ dataSelect ++ rest) b sent n
      = planned (.emit (.loadCmd a sz rw) :: (dataSelect ++ rest)) (.at .shDR) false n := rfl
    _ = planned (dataSelect ++ rest) (.at .ex1DR) false n := planned_loadCmd a rw hsz _ false n
    _ = planned rest (.at .shDR) false n := rfl

theorem EndsAtRest.load_select {rest : List Action} (h : EndsAtRest rest (.at .shDR) false false) (a : Word) {sz : BitVec 2}
    (rw : Bool) (hsz : sz ≠ Config.sizeReserved) (b : Belief) (sent r : Bool) :
    EndsAtRest (commandLoad a sz rw ++ dataSelect ++ rest) b sent r where
  plan := (planned_load_select a rw hsz rest b sent 0).trans h.plan
  reset := h.reset

theorem burstReadWords_endsAtRest : ∀ (n : Nat) (sent r : Bool), n ≠ 0 →
    EndsAtRest (burstReadWords n) (.at .shDR) sent r
  | 0, _, _, h => absurd rfl h
  | 1, _, _, _ => ⟨rfl, rfl⟩
  | n + 2, _, _, _ =>
    have ih := burstReadWords_endsAtRest (n + 1) false false n.succ_ne_zero
    ⟨ih.plan, ih.reset⟩

theorem burstWriteWords_endsAtRest : ∀ (ws : List Word) (sent r : Bool), ws ≠ [] →
    EndsAtRest (burstWriteWords ws) (.at .shDR) sent r
  | [], _, _, h => absurd rfl h
  | [_], _, _, _ => ⟨rfl, rfl⟩
  | _ :: w :: ws, _, _, _ =>
    have ih := burstWriteWords_endsAtRest (w :: ws) true false (List.cons_ne_nil w ws)
    ⟨ih.plan, ih.reset⟩

/-- A single read's words are those of a burst of one (R249, R283). -/
theorem singleRead_endsAtRest (a : Word) {sz : BitVec 2} (hsz : sz ≠ Config.sizeReserved) (b : Belief) (sent r : Bool) :
    EndsAtRest (singleRead a sz) b sent r :=
  (burstReadWords_endsAtRest 1 false false one_ne_zero).load_select a false hsz b sent r

theorem singleWrite_endsAtRest (a : Word) {sz : BitVec 2} (hsz : sz ≠ Config.sizeReserved) (w : Word) (b : Belief)
    (sent r : Bool) : EndsAtRest (singleWrite a sz w) b sent r :=
  EndsAtRest.load_select ⟨rfl, rfl⟩ a true hsz b sent r

theorem burstReadActions_endsAtRest (a : Word) {n : Nat} (hn : n ≠ 0) (b : Belief) (sent r : Bool) :
    EndsAtRest (burstReadActions a n) b sent r :=
  (burstReadWords_endsAtRest n false false hn).load_select a false (by decide) b sent r

theorem burstWriteActions_endsAtRest (a : Word) {ws : List Word} (hws : ws ≠ []) (b : Belief) (sent r : Bool) :
    EndsAtRest (burstWriteActions a ws) b sent r :=
  (burstWriteWords_endsAtRest ws false false hws).load_select a true (by decide) b sent r

/-! ## The chunks -/

theorem chunkProgress_endsAtRest (progress : Bool) (n k : Nat) :
    EndsAtRest (chunkProgress progress n k) (.at .tlr) true true := by
  cases progress <;> exact ⟨rfl, rfl⟩

/-- Every chunk starts inside the transfer (R290). -/
theorem chunk_start_lt {n k : Nat} (hk : k ∈ List.range (chunkCount n)) : Config.maxBurstWords * k < n := by
  simp only [List.mem_range, chunkCount, Config.maxBurstWords] at hk ⊢
  omega

theorem chunkWords_bounds {n k : Nat} (hk : k ∈ List.range (chunkCount n)) :
    1 ≤ chunkWords n k ∧ chunkWords n k ≤ min n Config.maxBurstWords := by
  have hlt := chunk_start_lt hk
  simp only [chunkWords, Config.maxBurstWords] at hlt ⊢
  omega

theorem readChunk_endsAtRest (addr : Word) (progress : Bool) {n k : Nat} (hk : k ∈ List.range (chunkCount n)) (b : Belief)
    (r : Bool) : EndsAtRest (readChunk addr n progress k) b true r :=
  (burstReadActions_endsAtRest _ (Nat.one_le_iff_ne_zero.1 (chunkWords_bounds hk).1) b true r).append
    (chunkProgress_endsAtRest progress n k)

theorem writeChunk_endsAtRest (addr : Word) {buf : List Word} (progress : Bool) {n k : Nat} (hlen : buf.length = n)
    (hk : k ∈ List.range (chunkCount n)) (b : Belief) (r : Bool) :
    EndsAtRest (writeChunk addr buf n progress k) b true r := by
  have hne : (buf.drop (Config.maxBurstWords * k)).take (chunkWords n k) ≠ [] := by
    have hstart := chunk_start_lt hk
    have hwords := (chunkWords_bounds hk).1
    rw [← List.length_pos_iff, List.length_take, List.length_drop, hlen]
    omega
  exact (burstWriteActions_endsAtRest _ hne b true r).append (chunkProgress_endsAtRest progress n k)

/-- A transfer of at least one chunk starts from any belief, since its first chunk does. -/
theorem chunks_endsAtRest {f : Nat → List Action} {ks : List Nat} (hne : ks.flatMap f ≠ [])
    (hf : ∀ k ∈ ks, ∀ b r, EndsAtRest (f k) b true r) (b : Belief) (r : Bool) : EndsAtRest (ks.flatMap f) b true r := by
  cases ks with
  | nil => exact absurd rfl hne
  | cons k ks =>
    exact (hf k List.mem_cons_self b r).append (EndsAtRest.flatMap fun j hj => hf j (List.mem_cons_of_mem k hj))

theorem wordAligned_iff (a : Word) : wordAligned a = true ↔ a.toNat % 4 = 0 := decide_eq_true_iff

theorem burstLengthOk_iff (n : Nat) : burstLengthOk n = true ↔ 1 ≤ n ∧ n ≤ 256 := by
  rw [burstLengthOk, Bool.and_eq_true, decide_eq_true_iff, decide_eq_true_iff, Config.maxBurstWords]

theorem inOneBlock_iff (b : Word) (n : Nat) : inOneBlock b n = true ↔ b.toNat / 1024 = (b.toNat + 4 * n - 1) / 1024 :=
  decide_eq_true_iff

theorem burstOk_iff (b : Word) (n : Nat) : burstOk b n = true ↔
    wordAligned b = true ∧ burstLengthOk n = true ∧ inOneBlock b n = true := by
  rw [burstOk, Bool.and_eq_true, Bool.and_eq_true, and_assoc]

theorem ne_zero_of_burstOk {b : Word} {n : Nat} (h : burstOk b n = true) : n ≠ 0 := by
  obtain ⟨_, hlen, _⟩ := (burstOk_iff b n).1 h
  exact Nat.one_le_iff_ne_zero.1 ((burstLengthOk_iff n).1 hlen).1

theorem manyOk_iff (addr : Word) (n : Nat) : manyOk addr n = true ↔
    n = 0 ∨ wordAligned addr = true ∧ inOneBlock addr (min n 256) = true := by
  rw [manyOk, Bool.or_eq_true, decide_eq_true_iff, Bool.and_eq_true, Config.maxBurstWords]

/-- Every well-formed operation that emits anything ends at rest, from whatever belief it starts. -/
theorem program_endsAtRest (i : Instr) (hwf : i.wellFormed = true) (hne : program i ≠ []) (b : Belief) :
    EndsAtRest (program i) b true false := by
  cases i
  case readIdcode => exact ⟨rfl, rfl⟩
  case read32 | read16 | read8 => exact singleRead_endsAtRest _ (by decide) b true false
  case write32 | write16 | write8 => exact singleWrite_endsAtRest _ (by decide) _ b true false
  case burstWrite => exact burstWriteActions_endsAtRest _ (by simpa using ne_zero_of_burstOk hwf) b true false
  case burstRead => exact burstReadActions_endsAtRest _ (ne_zero_of_burstOk hwf) b true false
  case writeMany addr buf n progress =>
    simp only [Instr.wellFormed, Bool.and_eq_true, decide_eq_true_eq] at hwf
    exact chunks_endsAtRest hne (fun k hk b r => writeChunk_endsAtRest addr progress hwf.1 hk b r) b false
  case readMany addr n progress =>
    exact chunks_endsAtRest hne (fun k hk b r => readChunk_endsAtRest addr progress hk b r) b false
  all_goals exact absurd rfl hne

/-! ## The checks -/

theorem firstRefusal_eq_none {checks : List (Bool × Refusal)} (h : ∀ c ∈ checks, c.1 = true) : firstRefusal checks = none := by
  induction checks with
  | nil => rfl
  | cons c checks ih =>
    rw [firstRefusal, if_pos (h c List.mem_cons_self)]
    exact ih fun d hd => h d (List.mem_cons_of_mem c hd)

theorem burstChecks_pass {b : Word} {n : Nat} (h : burstOk b n = true) : ∀ c ∈ burstChecks b n, c.1 = true := by
  obtain ⟨halign, hlen, hblock⟩ := (burstOk_iff b n).1 h
  simp [burstChecks, halign, hlen, hblock]

theorem chunkBase_toNat (addr : Word) (k : Nat) : (chunkBase addr k).toNat = (addr.toNat + 1024 * k) % 2 ^ 32 := by
  simp [chunkBase, Config.seqBoundaryBytes, BitVec.toNat_add]

/-- A chunk has its transfer's offset in a 1 KiB block, modulo 2^32 as well, and is no longer than the first (R290). -/
theorem chunk_burstOk {addr : Word} {n k : Nat} (h : manyOk addr n = true) (hk : k ∈ List.range (chunkCount n)) :
    burstOk (chunkBase addr k) (chunkWords n k) = true := by
  have hstart := chunk_start_lt hk
  obtain ⟨hpos, hle⟩ := chunkWords_bounds hk
  rw [Config.maxBurstWords] at hstart hle
  rw [manyOk_iff, wordAligned_iff, inOneBlock_iff] at h
  rw [burstOk_iff, wordAligned_iff, burstLengthOk_iff, inOneBlock_iff, chunkBase_toNat]
  omega

theorem chunkChecks_pass {addr : Word} {n : Nat} (h : manyOk addr n = true) : ∀ c ∈ chunkChecks addr n, c.1 = true := by
  intro c hc
  obtain ⟨k, hk, hck⟩ := List.mem_flatMap.1 hc
  exact burstChecks_pass (chunk_burstOk h hk) c hck

theorem checked_is_operation {checks : List (Bool × Refusal)} {acts : List Action} {result : List Word → Returned}
    {s : State} (hchecks : ∀ c ∈ checks, c.1 = true) (hresult : ∀ ws e, result ws ≠ .error e) : ∃ result' : List Word → Returned,
      (∀ ws e, result' ws ≠ .error e) ∧ checked checks acts result s = operation acts result' s :=
  ⟨result, hresult, by rw [checked, firstRefusal_eq_none hchecks]⟩

/-- A well-formed operation of an open session passes its checks, and what it returns is no error. -/
theorem exec_eq_operation (i : Instr) (s : State) (hs : s.engine.session ≠ none) (hwf : i.wellFormed = true)
    (hne : program i ≠ []) : ∃ result : List Word → Returned,
      (∀ ws e, result ws ≠ .error e) ∧ exec i s = operation (program i) result s := by
  have hsession : hasSession s = true := Option.isSome_iff_ne_none.2 hs
  cases i
  case readIdcode | read8 => exact checked_is_operation (by simp [hsession]) (by intro _ _; nofun)
  case read32 | read16 | write32 | write16 | write8 =>
    exact checked_is_operation (by simpa [hsession, Instr.wellFormed] using hwf) (by intro _ _; nofun)
  case burstWrite | burstRead =>
    exact checked_is_operation (List.forall_mem_cons.2 ⟨hsession, burstChecks_pass hwf⟩) (by intro _ _; nofun)
  case writeMany =>
    obtain ⟨hlen, hmany⟩ := Bool.and_eq_true_iff.1 hwf
    exact checked_is_operation (List.forall_mem_cons.2 ⟨hsession, List.forall_mem_cons.2 ⟨hlen, chunkChecks_pass hmany⟩⟩)
      (by intro _ _; nofun)
  case readMany => exact checked_is_operation (List.forall_mem_cons.2 ⟨hsession, chunkChecks_pass hwf⟩) (by intro _ _; nofun)
  all_goals exact absurd rfl hne

/-! ## Over a healthy transport -/

/-- A list that ends at rest, played with nothing queued before it, leaves the MPSSE engine as it was but for the pins. -/
theorem play_mpsse_of_endsAtRest {acts : List Action} {b : Belief} {s : State} (h : EndsAtRest acts b true false)
    (hrx : s.mpsse.rxFifo = []) :
    (play acts s).mpsse = { s.mpsse with tckPin := false, tdiPin := false, tmsPin := true } := by
  have hpins := (play_rested (r := false) (s := s) nofun h.reset).pins
  have hlen : (play acts s).mpsse.rxFifo.length = 0 := play_rxFifo_length (by rw [hrx]; exact h.plan)
  have hrest : (play acts s).mpsse.resting = (play acts s).mpsse := by
    rw [Mpsse.resting, hpins, ← List.eq_nil_of_length_eq_zero hlen, rx_self]
  have hkept : s.mpsse.resting = { s.mpsse with tckPin := false, tdiPin := false, tmsPin := true } := by
    rw [Mpsse.resting, ← hrx]
    rfl
  rw [← hrest, play_resting (planned_engineList _ _ _ _ _ h.plan), hkept]

/-- The run of an operation that ends at rest: it returns with its result, and the state is the played one with the engine's own
bookkeeping at rest. -/
theorem operation_endsAtRest {acts : List Action} {s : State} (hs : healthy s)
    (h : EndsAtRest acts s.engine.tapBelief true false) (result : List Word → Returned) :
    ∃ calls, operation acts result s = .next (setReturned (result (play acts (issue s)).engine.out)
      (playedEnd acts (.at .tlr) calls (issue s) (play acts (issue s)))) := by
  obtain ⟨hsession, hevents, hinput, hrx, _⟩ := hs
  have hplan : planned acts (issue s).engine.tapBelief true (issue s).mpsse.rxFifo.length = some (.at .tlr, 0) := by
    rw [show (issue s).mpsse.rxFifo = [] from hrx]
    exact h.plan
  obtain ⟨calls, hrun⟩ := runActions_play acts [] (issue s) (.at .tlr) 0 rfl rfl hsession hevents hinput hplan
  refine ⟨calls, ?_⟩
  rw [operation, hrun]
  rfl

/-- Settles O45: the operation's list ends at rest, and the state it is played to is read off its plan. -/
theorem everyOperationEndsAtRest : Obligations.EveryOperationEndsAtRest := by
  intro i s hs _ hwf hne
  have hends := program_endsAtRest i hwf hne s.engine.tapBelief
  obtain ⟨result, hresult, hexec⟩ := exec_eq_operation i s hs.1 hwf hne
  obtain ⟨calls, hrun⟩ := operation_endsAtRest hs hends result
  obtain ⟨hsession, hevents, hinput, hrx, hloop⟩ := hs
  have hlist := planned_engineList _ _ _ _ _ hends.plan
  have hrested : Rested (play (program i) (issue s)) := play_rested (r := false) nofun hends.reset
  have hmpsse : (play (program i) (issue s)).mpsse = { s.mpsse with tckPin := false, tdiPin := false, tmsPin := true } :=
    play_mpsse_of_endsAtRest hends hrx
  have hkeeps : (play (program i) (issue s)).engine.session = s.engine.session := play_session hlist (issue s)
  have hexpect : expectAfter (program i) 0 = 0 := Nat.le_zero.1 (expectAfter_le_planned hends.plan le_rfl)
  have hir : (play (program i) (issue s)).target.ir = s.params.idcodeOpcode := by
    rw [hrested.ir, play_params hlist]
    rfl
  refine ⟨_, hexec.trans hrun, hrested.tap, hir, rfl, rfl, hexpect, Nat.zero_add _, hresult _, hkeeps, hmpsse,
    hkeeps ▸ hsession, hevents, ?_, ?_, ?_⟩
  · exact (congrArg Mpsse.input hmpsse).trans hinput
  · exact (congrArg Mpsse.rxFifo hmpsse).trans hrx
  · exact (congrArg Mpsse.loopback hmpsse).trans hloop

end Sys2Proof.Machine
end

section
/-! The caller's calls (R75): where the MPSSE engine waits for more bytes, a step is the issue of the next call. -/

namespace Sys2Proof.Machine

open Sys2Proof

/-- The MPSSE engine comes first (R160): only where it waits does a step turn to the caller's calls. -/
theorem step_of_waiting {s : State} (h : decodeMpsse s.mpsse.input = .waiting) : step s = stepCall s := by
  rw [step, h]

theorem stepCall_nil {s : State} (h : s.calls = []) : stepCall s = .next s := by
  rw [stepCall, h]

theorem stepCall_cons {s : State} {c : Call} {rest : List Call} (h : s.calls = c :: rest) :
    stepCall s = runCall c (s.setCalls rest) := by
  rw [stepCall, h]

theorem runCall_instr (i : Instr) (s : State) : runCall (.instr i) s = exec i s := rfl

/-- Settles O26: with the MPSSE engine waiting, the step is that of the call list, read off its first entry. -/
theorem stepIssuesTheNextCall : Obligations.StepIssuesTheNextCall := by
  intro s hwait
  rw [step_of_waiting hwait]
  refine ⟨fun i rest hcalls => ?_, fun c rest hcalls => stepCall_cons hcalls, stepCall_nil⟩
  rw [stepCall_cons hcalls, runCall_instr]

end Sys2Proof.Machine
end

section
/-! The MPSSE command stream (R90 to R98): the commands decode from their bytes, and what the decoder gives is the command
whose bytes it took. -/

namespace Sys2Proof.Machine

open Sys2Proof

/-! ## Encode, then decode -/

theorem decodeLenByte_of_ok {ok : Byte → Bool} {l : Byte} (h : ok l = true) (mk : Byte → Byte → Instr) (b : Byte)
    (rest : List Byte) : decodeLenByte ok mk (l :: b :: rest) = .command (mk l b) rest := if_pos h

theorem decodeLen_of_ok {l : Byte} (h : bitsLengthOk l = true) (mk : Byte → Instr) (rest : List Byte) :
    decodeLen mk (l :: rest) = .command (mk l) rest := if_pos h

/-- A 16-bit value is its two bytes, bits 7:0 first (R96). -/
theorem extractLsb'_append_extractLsb' (v : BitVec 16) : v.extractLsb' 8 8 ++ v.extractLsb' 0 8 = v :=
  (BitVec.extractLsb'_append_extractLsb'_eq_extractLsb' rfl).trans BitVec.extractLsb'_eq_self

/-- A first byte of no row is a bad command of one byte (R98, R110). -/
theorem decodeMpsse_badCommand {op : Byte} (h : mpsseOpcodes.contains op = false) (rest : List Byte) :
    decodeMpsse (op :: rest) = .command (.badCommand op) rest := by
  simp only [mpsseOpcodes, List.contains_eq_mem, List.mem_cons, List.not_mem_nil, or_false, decide_eq_false_iff_not,
    not_or] at h
  simp only [decodeMpsse, h, if_false]

/-- Settles O18: each format reads back the operands that its encoder writes. -/
theorem mpsseDecodeEncode : Obligations.MpsseDecodeEncode := by
  intro i rest hmpsse hwf
  cases i
  case tmsOut l b => exact decodeLenByte_of_ok (ok := tmsLengthOk) hwf .tmsOut b rest
  case tmsOutRead l b => exact decodeLenByte_of_ok (ok := tmsLengthOk) hwf .tmsOutRead b rest
  case bitsOut l b => exact decodeLenByte_of_ok (ok := bitsLengthOk) hwf .bitsOut b rest
  case bitsInout l b => exact decodeLenByte_of_ok (ok := bitsLengthOk) hwf .bitsInout b rest
  case bitsIn l => exact decodeLen_of_ok hwf .bitsIn rest
  case clkOnly l => exact decodeLen_of_ok hwf .clkOnly rest
  case bytesOut d => exact decodeBytes_lenBytes .bytesOut d rest hwf
  case bytesInout d => exact decodeBytes_lenBytes .bytesInout d rest hwf
  case loopbackOn | loopbackOff | div5Off | adaptiveOff | threePhaseOff => rfl
  case setLowByte | setHighByte => rfl
  case setDivisor v => exact congrArg (fun w => MpsseDecode.command (.setDivisor w) rest) (extractLsb'_append_extractLsb' v)
  case badCommand op => exact decodeMpsse_badCommand (Bool.not_eq_true' _ ▸ hwf) rest
  all_goals exact nomatch hmpsse

/-! ## Decode, then encode -/

/-- A well-formed MPSSE command and its bytes. -/
def Spells (i : Instr) (bs : List Byte) : Prop := i.isMpsse = true ∧ i.wellFormed = true ∧ encodeMpsse i = bs

/-- How the bytes behind the first byte `op` are read: what is read is a well-formed command that stands in the bytes, and
nothing is read while a byte of the command is missing (R98, R160). -/
structure Format (op : Byte) (read : List Byte → MpsseDecode) : Prop where
  sound : ∀ {xs rest i}, read xs = .command i rest → ∃ bs, Spells i bs ∧ op :: xs = bs ++ rest
  waits : ∀ {xs}, (op :: xs).length < commandLength (op :: xs) → read xs = .waiting

theorem Format.lenByte {op : Byte} (ok : Byte → Bool) (mk : Byte → Byte → Instr) (hlen : ∀ xs, commandLength (op :: xs) = 3)
    (hspells : ∀ l b, ok l = true → Spells (mk l b) [op, l, b]) : Format op (decodeLenByte ok mk) where
  sound {xs rest i} h := by
    match xs with
    | [] | [_] => exact nomatch h
    | l :: b :: ys =>
      rw [decodeLenByte] at h
      split at h <;> cases h
      next hok => exact ⟨_, hspells l b hok, rfl⟩
  waits {xs} h := by
    rw [hlen] at h
    match xs with
    | [] | [_] => rfl
    | _ :: _ :: _ => exact absurd h (by simp)

theorem Format.len {op : Byte} (mk : Byte → Instr) (hlen : ∀ xs, commandLength (op :: xs) = 2)
    (hspells : ∀ l, bitsLengthOk l = true → Spells (mk l) [op, l]) : Format op (decodeLen mk) where
  sound {xs rest i} h := by
    match xs with
    | [] => exact nomatch h
    | l :: ys =>
      rw [decodeLen] at h
      split at h <;> cases h
      next hok => exact ⟨_, hspells l hok, rfl⟩
  waits {xs} h := by
    rw [hlen] at h
    match xs with
    | [] => rfl
    | _ :: _ => exact absurd h (by simp)

theorem Format.pair {op : Byte} (mk : Byte → Byte → Instr) (hlen : ∀ xs, commandLength (op :: xs) = 3)
    (hspells : ∀ x y, Spells (mk x y) [op, x, y]) : Format op (decodePair mk) where
  sound {xs rest i} h := by
    match xs with
    | [] | [_] => exact nomatch h
    | x :: y :: ys =>
      cases h
      exact ⟨_, hspells x y, rfl⟩
  waits {xs} h := by
    rw [hlen] at h
    match xs with
    | [] | [_] => rfl
    | _ :: _ :: _ => exact absurd h (by simp)

theorem Format.single {op : Byte} {i : Instr} (hlen : ∀ xs, commandLength (op :: xs) = 1) (hspells : Spells i [op]) :
    Format op (.command i) where
  sound {xs rest j} h := by
    cases h
    exact ⟨_, hspells, rfl⟩
  waits {xs} h := by
    rw [hlen] at h
    exact absurd h (by simp)

/-- The two length bytes are those of the count they give (R93). -/
theorem lenBytes_byteCount (lo hi : Byte) : lenBytes (byteCount lo hi) = [lo, hi] := by
  have hlo : (byteCount lo hi - 1) % 256 = lo.toNat := by rw [byteCount]; omega
  have hhi : (byteCount lo hi - 1) / 256 = hi.toNat := by rw [byteCount]; omega
  rw [lenBytes, hlo, hhi, BitVec.ofNat_toNat, BitVec.ofNat_toNat, BitVec.setWidth_eq, BitVec.setWidth_eq]

theorem byteCount_bounds (lo hi : Byte) : 1 ≤ byteCount lo hi ∧ byteCount lo hi ≤ 65536 := by
  rw [byteCount]
  omega

theorem Format.bytes {op : Byte} (mk : List Byte → Instr)
    (hlen : ∀ xs, commandLength (op :: xs) = 3 + byteCount (xs.getD 0 0) (xs.getD 1 0))
    (hspells : ∀ d, bytesLengthOk d = true → Spells (mk d) ([op] ++ lenBytes d.length ++ d)) :
    Format op (decodeBytes mk) where
  sound {xs rest i} h := by
    match xs with
    | [] | [_] => exact nomatch h
    | lo :: hi :: ys =>
      rw [decodeBytes] at h
      split at h <;> cases h
      next hle =>
        have hn : (ys.take (byteCount lo hi)).length = byteCount lo hi := List.length_take_of_le hle
        refine ⟨_, hspells (ys.take (byteCount lo hi)) ?_, ?_⟩
        · simpa only [bytesLengthOk, hn, Bool.and_eq_true, decide_eq_true_eq] using byteCount_bounds lo hi
        · simp [hn, lenBytes_byteCount]
  waits {xs} h := by
    rw [hlen] at h
    match xs with
    | [] | [_] => rfl
    | lo :: hi :: ys =>
      refine if_neg ?_
      simp only [List.length_cons, List.getD_cons_zero, List.getD_cons_succ] at h
      omega

theorem commandLength_badCommand {op : Byte} (h : mpsseOpcodes.contains op = false) (xs : List Byte) :
    commandLength (op :: xs) = 1 := by
  simp only [mpsseOpcodes, List.contains_eq_mem, List.mem_cons, List.not_mem_nil, or_false, decide_eq_false_iff_not,
    not_or] at h
  simp only [commandLength, h, or_self, if_false]

/-- The divisor's two bytes, low byte first (R96). -/
theorem encodeMpsse_setDivisor (lo hi : Byte) : encodeMpsse (.setDivisor (hi ++ lo)) = [0x86, lo, hi] :=
  congrArg₂ (fun x y => [0x86, x, y]) BitVec.extractLsb'_append_eq_right BitVec.extractLsb'_append_eq_left

/-- Every first byte decides a format (R98). -/
theorem decodeMpsse_format (op : Byte) : Format op fun xs => decodeMpsse (op :: xs) := by
  cases hop : mpsseOpcodes.contains op
  case false =>
    simp only [decodeMpsse_badCommand hop]
    exact .single (commandLength_badCommand hop) ⟨rfl, congrArg Bool.not hop, rfl⟩
  case true =>
    simp only [mpsseOpcodes, List.contains_eq_mem, List.mem_cons, List.not_mem_nil, or_false, decide_eq_true_eq] at hop
    rcases hop with rfl | rfl | rfl | rfl | rfl | rfl | rfl | rfl | rfl | rfl | rfl | rfl | rfl | rfl | rfl | rfl
    · exact .lenByte tmsLengthOk .tmsOut (fun _ => rfl) fun _ _ h => ⟨rfl, h, rfl⟩
    · exact .lenByte tmsLengthOk .tmsOutRead (fun _ => rfl) fun _ _ h => ⟨rfl, h, rfl⟩
    · exact .lenByte bitsLengthOk .bitsOut (fun _ => rfl) fun _ _ h => ⟨rfl, h, rfl⟩
    · exact .lenByte bitsLengthOk .bitsInout (fun _ => rfl) fun _ _ h => ⟨rfl, h, rfl⟩
    · exact .len .bitsIn (fun _ => rfl) fun _ h => ⟨rfl, h, rfl⟩
    · exact .bytes .bytesOut (fun _ => rfl) fun _ h => ⟨rfl, h, rfl⟩
    · exact .bytes .bytesInout (fun _ => rfl) fun _ h => ⟨rfl, h, rfl⟩
    · exact .len .clkOnly (fun _ => rfl) fun _ h => ⟨rfl, h, rfl⟩
    iterate 5 exact .single (fun _ => rfl) ⟨rfl, rfl, rfl⟩
    · exact .pair (fun lo hi => .setDivisor (hi ++ lo)) (fun _ => rfl) fun lo hi => ⟨rfl, rfl, encodeMpsse_setDivisor lo hi⟩
    · exact .pair .setLowByte (fun _ => rfl) fun _ _ => ⟨rfl, rfl, rfl⟩
    · exact .pair .setHighByte (fun _ => rfl) fun _ _ => ⟨rfl, rfl, rfl⟩

/-- Settles O19: the format of the first byte reads only what stands there. -/
theorem mpsseDecodeSound : Obligations.MpsseDecodeSound := by
  intro bs rest i h
  cases bs with
  | nil => exact nomatch h
  | cons op xs =>
    obtain ⟨bs, ⟨hmpsse, hwf, rfl⟩, hxs⟩ := (decodeMpsse_format op).sound h
    exact ⟨hmpsse, hwf, hxs⟩

/-! ## The lengths -/

/-- A command waits for the bytes that its first bytes announce (R98, R160). -/
theorem decodeMpsse_waiting {bs : List Byte} (h : bs.length < commandLength bs) : decodeMpsse bs = .waiting := by
  cases bs with
  | nil => rfl
  | cons op xs => exact (decodeMpsse_format op).waits h

/-- The length bytes of M-BYTES raise the length above what the first byte decides. -/
theorem commandLength_bytes {op : Byte} (h : op = 0x19 ∨ op = 0x39) (xs : List Byte) :
    commandLength (op :: xs) = 3 + byteCount (xs.getD 0 0) (xs.getD 1 0) := if_pos h

/-- In every other format the first byte alone decides the length (R98). -/
theorem commandLength_first {op : Byte} (h : ¬(op = 0x19 ∨ op = 0x39)) (xs ys : List Byte) :
    commandLength (op :: xs) = commandLength (op :: ys) := by
  simp only [commandLength, if_neg h]

/-- A cut short of the announced length leaves it longer than the cut. -/
theorem lt_commandLength_take {bs : List Byte} {k : Nat} (h : k < commandLength bs) : k < commandLength (bs.take k) := by
  match bs, k with
  | [], k => rwa [List.take_nil]
  | op :: xs, 0 => exact Nat.one_pos
  | op :: xs, k + 1 =>
    rw [List.take_succ_cons]
    by_cases hop : op = 0x19 ∨ op = 0x39
    case neg => rwa [commandLength_first hop _ xs]
    case pos =>
      match k with
      | 0 | 1 =>
        rw [commandLength_bytes hop]
        omega
      | k + 2 => simpa [commandLength_bytes hop, List.getElem?_take] using h

theorem length_bytes (op : Byte) (d : List Byte) : ([op] ++ lenBytes d.length ++ d).length = 3 + d.length := by
  rw [List.length_append]
  rfl

theorem commandLength_lenBytes {op : Byte} (hop : op = 0x19 ∨ op = 0x39) (d : List Byte) (hd : bytesLengthOk d = true) :
    commandLength ([op] ++ lenBytes d.length ++ d) = ([op] ++ lenBytes d.length ++ d).length := by
  rw [length_bytes]
  exact (commandLength_bytes hop _).trans (congrArg (3 + ·) (byteCount_lenBytes d hd))

theorem commandLength_encodeMpsse (i : Instr) (hmpsse : i.isMpsse = true) (hwf : i.wellFormed = true) :
    commandLength (encodeMpsse i) = (encodeMpsse i).length := by
  cases i
  case tmsOut | tmsOutRead | bitsOut | bitsInout | setDivisor | setLowByte | setHighByte => rfl
  case bitsIn | clkOnly => rfl
  case loopbackOn | loopbackOff | div5Off | adaptiveOff | threePhaseOff => rfl
  case bytesOut d => exact commandLength_lenBytes (.inl rfl) d hwf
  case bytesInout d => exact commandLength_lenBytes (.inr rfl) d hwf
  case badCommand op => exact commandLength_badCommand (Bool.not_eq_true' _ ▸ hwf) []
  all_goals exact nomatch hmpsse

/-- Settles O17: a command cut short announces more bytes than it has, so it waits. -/
theorem commandLengths : Obligations.CommandLengths := by
  refine ⟨fun l b v i hi => ?_, fun l i hi => ?_, fun op i hi => ?_, fun d i hi => ?_, fun i hmpsse hwf => ?_⟩
  · fin_cases hi <;> rfl
  · fin_cases hi <;> rfl
  · fin_cases hi <;> rfl
  · fin_cases hi <;> exact length_bytes _ d
  · have hlen := commandLength_encodeMpsse i hmpsse hwf
    refine ⟨hlen, fun k hk => decodeMpsse_waiting ?_⟩
    calc ((encodeMpsse i).take k).length
        = k := List.length_take_of_le hk.le
      _ < commandLength ((encodeMpsse i).take k) := lt_commandLength_take (hlen ▸ hk)

end Sys2Proof.Machine
end

section
/-! The byte strings of the primitives (R106, R114): a primitive's own bytes spell it, and so do a few words of the spec. -/

namespace Sys2Proof.Machine

open Sys2Proof

/-- A primitive's bytes spell it where the candidate they give is the primitive. -/
theorem decodePrimitive_of_candidate {i : Instr} (hcandidate : primitiveCandidate (encode i) = some i)
    (hwf : i.wellFormed = true) : decodePrimitive (encode i) = some i := by
  rw [decodePrimitive, hcandidate, Option.filter_some, if_pos]
  simpa using hwf

/-! ## The operands in their bytes -/

/-- A count of 1 to 8 stands in its length byte (R100). -/
theorem lenByte_count {c : Nat} (h : bitCountOk c = true) : (lenByte c).toNat + 1 = c := by
  simp only [bitCountOk, Bool.and_eq_true, decide_eq_true_eq] at h
  rw [lenByte, BitVec.toNat_ofNat]
  omega

/-- An opcode stands in its bits 4:0 and in bit 5, which the last clock shifts (R214). -/
theorem shiftIr_opcode {op : Nat} (h : op < 64) :
    (BitVec.ofNat 8 (op % 32)).toNat + (if (lastBitByte (op.testBit 5) true).getLsbD 7 then 32 else 0) = op := by
  rw [lastBitByte_tdi, BitVec.toNat_ofNat, Nat.testBit_eq_decide_div_mod_eq]
  simp only [decide_eq_true_eq]
  split <;> omega

theorem lenBytes_wordBytes (w : Word) : lenBytes (wordBytes w).length = [0x03, 0x00] :=
  show lenBytes 4 = [0x03, 0x00] from rfl

/-- A shift whose length bytes are those of four shifts four bytes (R93). -/
theorem eq_four_of_lenBytes {d : List Byte} (hd : bytesLengthOk d = true) (hlen : lenBytes d.length = [0x03, 0x00]) :
    ∃ d0 d1 d2 d3, d = [d0, d1, d2, d3] := by
  obtain ⟨hlo, hhi⟩ : BitVec.ofNat 8 ((d.length - 1) % 256) = 0x03 ∧ BitVec.ofNat 8 ((d.length - 1) / 256) = 0x00 := by
    simpa [lenBytes] using hlen
  refine List.length_eq_four.1 ?_
  rw [← byteCount_lenBytes d hd, hlo, hhi]
  rfl

/-! ## The byte shifts

`load_cmd`, `write_data` and `read_data` begin with the M-BYTES command of four bytes, so a byte shift of another length meets
none of them, and one of four bytes only `read_data`. -/

/-- A byte that a pattern of `0x00` does not meet. -/
theorem byte_eq_succ {b : Byte} (h : b ≠ 0x00) : ∃ n hn, b = ⟨⟨n + 1, hn⟩⟩ := by
  match b, h with
  | ⟨⟨0, _⟩⟩, h => exact absurd rfl h
  | ⟨⟨n + 1, hn⟩⟩, _ => exact ⟨n, hn, rfl⟩

/-- An M-BYTES command whose length is not four is a byte shift. -/
theorem candidate_bytes (lo hi : Byte) (d : List Byte) (h : ¬(lo = 0x03 ∧ hi = 0x00)) :
    primitiveCandidate (0x19 :: lo :: hi :: d) = some (.shiftBytesOut d)
    ∧ primitiveCandidate (0x39 :: lo :: hi :: d) = some (.shiftBytesInout d) := by
  match lo, h with
  | ⟨⟨0, _⟩⟩, _ | ⟨⟨1, _⟩⟩, _ | ⟨⟨2, _⟩⟩, _ | ⟨⟨n + 4, _⟩⟩, _ => exact ⟨rfl, rfl⟩
  | ⟨⟨3, _⟩⟩, h =>
    obtain ⟨n, hn, rfl⟩ := byte_eq_succ fun hhi => h ⟨rfl, hhi⟩
    exact ⟨rfl, rfl⟩

/-- Of four bytes, only zeros read back are `read_data`. -/
theorem candidate_bytesInout_four {d0 d1 d2 d3 : Byte} (h : [d0, d1, d2, d3] ≠ [0x00, 0x00, 0x00, 0x00]) :
    primitiveCandidate [0x39, 0x03, 0x00, d0, d1, d2, d3] = some (.shiftBytesInout [d0, d1, d2, d3]) := by
  match d0, d1, d2, d3, h with
  | ⟨⟨n + 1, _⟩⟩, _, _, _, _ => rfl
  | ⟨⟨0, _⟩⟩, ⟨⟨n + 1, _⟩⟩, _, _, _ => rfl
  | ⟨⟨0, _⟩⟩, ⟨⟨0, _⟩⟩, ⟨⟨n + 1, _⟩⟩, _, _ => rfl
  | ⟨⟨0, _⟩⟩, ⟨⟨0, _⟩⟩, ⟨⟨0, _⟩⟩, ⟨⟨n + 1, _⟩⟩, _ => rfl
  | ⟨⟨0, _⟩⟩, ⟨⟨0, _⟩⟩, ⟨⟨0, _⟩⟩, ⟨⟨0, _⟩⟩, h => exact absurd rfl h

theorem encode_shiftBytesOut (d : List Byte) : encode (.shiftBytesOut d) = 0x19 :: (lenBytes d.length ++ d) :=
  List.append_nil _

theorem encode_shiftBytesInout (d : List Byte) : encode (.shiftBytesInout d) = 0x39 :: (lenBytes d.length ++ d) :=
  List.append_nil _

theorem decodePrimitive_shiftBytesOut {d : List Byte} (hd : bytesLengthOk d = true) :
    decodePrimitive (encode (.shiftBytesOut d)) = some (.shiftBytesOut d) := by
  refine decodePrimitive_of_candidate ?_ hd
  rw [encode_shiftBytesOut]
  by_cases hlen : lenBytes d.length = [0x03, 0x00]
  case neg => exact (candidate_bytes _ _ d fun ⟨hlo, hhi⟩ => hlen (congrArg₂ ([·, ·]) hlo hhi)).1
  case pos =>
    obtain ⟨d0, d1, d2, d3, rfl⟩ := eq_four_of_lenBytes hd hlen
    rw [hlen]
    rfl

theorem decodePrimitive_shiftBytesInout {d : List Byte} (hd : bytesLengthOk d = true) (hne : d ≠ [0x00, 0x00, 0x00, 0x00]) :
    decodePrimitive (encode (.shiftBytesInout d)) = some (.shiftBytesInout d) := by
  refine decodePrimitive_of_candidate ?_ hd
  rw [encode_shiftBytesInout]
  by_cases hlen : lenBytes d.length = [0x03, 0x00]
  case neg => exact (candidate_bytes _ _ d fun ⟨hlo, hhi⟩ => hlen (congrArg₂ ([·, ·]) hlo hhi)).2
  case pos =>
    obtain ⟨d0, d1, d2, d3, rfl⟩ := eq_four_of_lenBytes hd hlen
    rw [hlen]
    exact candidate_bytesInout_four hne

/-! ## The bit shifts and the scans -/

theorem decodePrimitive_lastBit (x : Bool) :
    decodePrimitive (encode (.lastBitWithTms x false)) = some (.lastBitWithTms x false) := by
  cases x <;> exact decodePrimitive_of_candidate rfl rfl

theorem decodePrimitive_lastBitRead (x t : Bool) :
    decodePrimitive (encode (.lastBitWithTmsRead x t)) = some (.lastBitWithTmsRead x t) := by
  refine decodePrimitive_of_candidate ?_ rfl
  exact congrArg₂ (fun x t => some (Instr.lastBitWithTmsRead x t)) (lastBitByte_tdi x t) (lastBitByte_tms x t)

theorem decodePrimitive_seqExit (x : Bool) : decodePrimitive (encode (.seqExit x)) = some (.seqExit x) := by
  cases x <;> exact decodePrimitive_of_candidate rfl rfl

theorem decodePrimitive_shiftIr {op : Nat} (h : op < 64) : decodePrimitive (encode (.shiftIr op)) = some (.shiftIr op) :=
  decodePrimitive_of_candidate (congrArg (fun n => some (Instr.shiftIr n)) (shiftIr_opcode h)) (decide_eq_true h)

theorem encode_loadCmd (a : Word) (sz : BitVec 2) (rw : Bool) : encode (.loadCmd a sz rw) =
    0x19 :: (lenBytes (wordBytes a).length ++ wordBytes a ++ [0x1B, 0x01, sz.setWidth 8, 0x4B, 0x00, lastBitByte rw true]) :=
  rfl

theorem encode_writeData (d : Word) (seq : Bool) : encode (.writeData d seq) =
    0x19 :: (lenBytes (wordBytes d).length ++ wordBytes d ++ [0x4B, 0x00, lastBitByte seq true]) :=
  rfl

theorem decodePrimitive_loadCmd (a : Word) {sz : BitVec 2} (rw : Bool) (h : sz ≠ 0b11) :
    decodePrimitive (encode (.loadCmd a sz rw)) = some (.loadCmd a sz rw) := by
  have hword : bytesWord (wordBytes a) = a := bytesWord_wordBytes a []
  have hsize : (sz.setWidth 8).setWidth 2 = sz := by simp
  refine decodePrimitive_of_candidate ?_ (decide_eq_true h)
  rw [encode_loadCmd, lenBytes_wordBytes]
  show some (Instr.loadCmd (bytesWord (wordBytes a)) ((sz.setWidth 8).setWidth 2) ((lastBitByte rw true).getLsbD 7)) = _
  rw [hword, hsize, lastBitByte_tdi]

theorem decodePrimitive_writeData (d : Word) (seq : Bool) :
    decodePrimitive (encode (.writeData d seq)) = some (.writeData d seq) := by
  have hword : bytesWord (wordBytes d) = d := bytesWord_wordBytes d []
  refine decodePrimitive_of_candidate ?_ rfl
  rw [encode_writeData, lenBytes_wordBytes]
  show some (Instr.writeData (bytesWord (wordBytes d)) ((lastBitByte seq true).getLsbD 7)) = _
  rw [hword, lastBitByte_tdi]

theorem decodePrimitive_bits {c : Nat} (hc : bitCountOk c = true) (b : Byte) :
    decodePrimitive (encode (.shiftBitsOut c b)) = some (.shiftBitsOut c b)
    ∧ decodePrimitive (encode (.shiftBitsInout c b)) = some (.shiftBitsInout c b)
    ∧ decodePrimitive (encode (.shiftBitsIn c)) = some (.shiftBitsIn c)
    ∧ decodePrimitive (encode (.clockOnly c)) = some (.clockOnly c) := by
  have hcount := lenByte_count hc
  refine ⟨decodePrimitive_of_candidate ?_ hc, decodePrimitive_of_candidate ?_ hc, decodePrimitive_of_candidate ?_ hc,
    decodePrimitive_of_candidate ?_ hc⟩
  · exact congrArg (fun n => some (Instr.shiftBitsOut n b)) hcount
  · exact congrArg (fun n => some (Instr.shiftBitsInout n b)) hcount
  · exact congrArg (fun n => some (Instr.shiftBitsIn n)) hcount
  · exact congrArg (fun n => some (Instr.clockOnly n)) hcount

/-- The primitives of no operand are fixed words. -/
theorem decodePrimitive_fixed {i : Instr}
    (hi : i ∈ [.resetToTlr, .tlrToShiftIr, .exit1ToShiftDr, .exit1drToShiftIr, .tlrToShiftDr, .readData, .readIdcode]) :
    decodePrimitive (encode i) = some i := by
  fin_cases hi <;> exact decodePrimitive_of_candidate rfl rfl

/-- Settles O21, row by row. -/
theorem primitiveDecodeEncode : Obligations.PrimitiveDecodeEncode := by
  refine ⟨fun i hi => decodePrimitive_fixed hi, fun c b h1 h8 => ?_, fun d h1 hmax => ?_, fun x t => ?_,
    fun op => decodePrimitive_shiftIr, fun a sz rw => decodePrimitive_loadCmd a rw, decodePrimitive_writeData⟩
  · exact decodePrimitive_bits (by simp [bitCountOk, h1, h8]) b
  · have hd : bytesLengthOk d = true := by simp only [bytesLengthOk, h1, hmax, decide_true, Bool.and_self]
    exact ⟨decodePrimitive_shiftBytesOut hd, decodePrimitive_shiftBytesInout hd⟩
  · exact ⟨decodePrimitive_lastBit x, decodePrimitive_lastBitRead x t, decodePrimitive_seqExit x⟩

/-- Settles O23: each word is the bytes of its instruction. -/
theorem specWordsDecode : Obligations.SpecWordsDecode := by
  refine ⟨?_, ?_, ?_, rfl, rfl, ?_, ?_, ?_⟩
  · exact mpsseDecodeEncode (.tmsOut 0x04 0x3F) [] rfl rfl
  · exact mpsseDecodeEncode (.setDivisor 0x0004) [] rfl rfl
  · exact mpsseDecodeEncode (.badCommand 0xAB) [] rfl rfl
  · exact decodePrimitive_shiftIr (op := 0x02) (by decide)
  · exact decodePrimitive_loadCmd 0x40000000 (sz := 0b10) false (by decide)
  · exact decodePrimitive_writeData 0xDEADBEEF false

end Sys2Proof.Machine
end

section
/-! The walks (R201 to R205): each emits its bytes from its start beliefs and is refused from any other. -/

namespace Sys2Proof.Machine

open Sys2Proof

/-- A primitive that `primStep` admits emits its commands' bytes and leaves the belief it steps to (R200). -/
theorem runPrimitive_emitted {i : Instr} {s : State} {b : Belief} (hs : s.engine.session ≠ none)
    (h : primStep i s.engine.tapBelief = some b) :
    runPrimitive i s = .next (emitted s ((commands i).flatMap encodeMpsse) ((commands i).map responses).sum b) :=
  runPrimitive_emits i s b hs h

/-- A walk is refused from a belief that is not one of its start states (R327). -/
theorem walk_refused {start : Belief → Bool} {s : State} (hs : s.engine.session ≠ none)
    (hstart : start s.engine.tapBelief = false) (i : Instr) (t : TapState) : walk start i t s = .refused .walkPrecondition := by
  rw [walk, primitive, if_neg hs, if_neg (by decide), if_pos hstart]

theorem exec_tlrToShiftIr (s : State) :
    exec .tlrToShiftIr s = walk (fun b => decide (b = .at .tlr)) .tlrToShiftIr .shIR s := rfl
theorem exec_tlrToShiftDr (s : State) :
    exec .tlrToShiftDr s = walk (fun b => decide (b = .at .tlr)) .tlrToShiftDr .shDR s := rfl
theorem exec_exit1ToShiftDr (s : State) : exec .exit1ToShiftDr s =
    walk (fun b => decide (b = .at .ex1IR) || decide (b = .at .ex1DR)) .exit1ToShiftDr .shDR s := rfl
theorem exec_exit1drToShiftIr (s : State) :
    exec .exit1drToShiftIr s = walk (fun b => decide (b = .at .ex1DR)) .exit1drToShiftIr .shIR s := rfl

/-- Settles O28: the five walks from their start beliefs, their TMS bits, and their refusals. -/
theorem walkPrimitives : Obligations.WalkPrimitives := by
  intro s hs
  refine ⟨?_, fun htlr => ⟨?_, ?_⟩, fun hex1 => ?_, fun hex1 => ?_, rfl, rfl, rfl, rfl, rfl, fun htlr => ⟨?_, ?_⟩,
    fun hir hdr => ?_, fun hdr => ?_⟩
  · exact runPrimitive_emitted (i := .resetToTlr) hs rfl
  · exact runPrimitive_emitted (i := .tlrToShiftIr) hs (if_pos htlr)
  · exact runPrimitive_emitted (i := .tlrToShiftDr) hs (if_pos htlr)
  · exact runPrimitive_emitted (i := .exit1ToShiftDr) hs (if_pos hex1)
  · exact runPrimitive_emitted (i := .exit1drToShiftIr) hs (if_pos hex1)
  · exact (exec_tlrToShiftIr s).trans (walk_refused hs (decide_eq_false htlr) _ _)
  · exact (exec_tlrToShiftDr s).trans (walk_refused hs (decide_eq_false htlr) _ _)
  · have hstart : (decide (s.engine.tapBelief = .at .ex1IR) || decide (s.engine.tapBelief = .at .ex1DR)) = false := by
      rw [decide_eq_false hir, decide_eq_false hdr, Bool.or_self]
    exact (exec_exit1ToShiftDr s).trans (walk_refused hs hstart _ _)
  · exact (exec_exit1drToShiftIr s).trans (walk_refused hs (decide_eq_false hdr) _ _)

end Sys2Proof.Machine
end

section
/-! The TAP controller (R132 to R134): which state clocks end in depends on their TMS levels and the start state alone. -/

namespace Sys2Proof.Machine

open Sys2Proof

/-- Settles O1: a clock moves along `nextTap`, which has the rows of R132. -/
theorem tapNextStateTable : Obligations.TapNextStateTable := by
  intro row hrow tdi s htap
  rw [clock_tap, clock_tap, htap]
  fin_cases hrow <;> exact ⟨rfl, rfl⟩

/-! ## Clocks with TMS high -/

/-- Clocks with TMS high move the TAP controller once each, whatever TDI is. -/
theorem clocked_high_tap (ds : List Bool) (s : State) :
    (clocked (ds.map fun d => (true, d)) s).target.tap = (nextTap · true)^[ds.length] s.target.tap := by
  induction ds generalizing s with
  | nil => rfl
  | cons d ds ih => rw [List.map_cons, clocked, ih, clock_tap, List.length_cons, Function.iterate_succ_apply]

/-- Clocks that end in TLR leave the IDCODE register selected: the last of them does (R135). -/
theorem clocked_ir_of_tlr {p : List (Bool × Bool)} (hp : p ≠ []) {s : State} (h : (clocked p s).target.tap = .tlr) :
    (clocked p s).target.ir = s.params.idcodeOpcode := by
  obtain ⟨q, x, rfl⟩ := p.eq_nil_or_concat'.resolve_left hp
  rw [clocked_append] at h ⊢
  have hlast : nextTap (clocked q s).target.tap x.1 = .tlr := (clock_tap x.1 x.2 (clocked q s)).symm.trans h
  exact (clock_ir_of_tlr x.1 x.2 _ hlast).trans (by rw [clocked_params])

/-- The six states that are five TMS-high clocks away from TLR (R133). -/
theorem nextTap_four_high_ne_tlr {t : TapState} (h : t ∈ [.shDR, .shIR, .capDR, .capIR, .pauseDR, .pauseIR]) :
    nextTap (nextTap (nextTap (nextTap t true) true) true) true ≠ .tlr := by
  fin_cases h <;> decide

/-- Settles O2, by the TAP controller's moves; the `ir` clause is that of the last clock. -/
theorem fiveTmsHighReachTlr : Obligations.FiveTmsHighReachTlr := by
  intro ds s
  refine ⟨fun hlen => ?_, fun hlen hstart => ?_⟩
  · have htlr : (clocked (ds.map fun d => (true, d)) s).target.tap = .tlr := by
      rw [clocked_high_tap, hlen]
      exact nextTap_five_high s.target.tap
    have hne : (ds.map fun d => (true, d)) ≠ [] := List.ne_nil_of_length_pos (by simp [hlen])
    exact ⟨htlr, clocked_ir_of_tlr hne htlr⟩
  · rw [clocked_high_tap, hlen]
    exact nextTap_four_high_ne_tlr hstart

/-! ## The walks -/

/-- The states that TMS levels lead through (R132). -/
def tapPath : List Bool → TapState → List TapState
  | [], _ => []
  | tms :: rest, t => nextTap t tms :: tapPath rest (nextTap t tms)

theorem tapsOf_eq_tapPath (p : List (Bool × Bool)) (s : State) : tapsOf p s = tapPath (p.map Prod.fst) s.target.tap := by
  induction p generalizing s with
  | nil => rfl
  | cons x p ih => rw [tapsOf, ih, clock_tap, List.map_cons, tapPath]

/-- The TMS levels of M-TMS are the low bits of its byte (R91). -/
theorem tmsCycles_tms (l b : Byte) : (tmsCycles l b).map Prod.fst = lowBits (l.toNat + 1) b := by
  rw [tmsCycles, List.map_map, lowBits]
  rfl

theorem tapsOf_tmsCycles {s : State} {t : TapState} (h : s.target.tap = t) (l b : Byte) :
    tapsOf (tmsCycles l b) s = tapPath (lowBits (l.toNat + 1) b) t := by
  rw [tapsOf_eq_tapPath, tmsCycles_tms, h]

/-- The last bit of a scan is one clock with TMS high, whatever the bit (R211). -/
theorem tapsOf_lastBit {s : State} {t : TapState} (h : s.target.tap = t) (x : Bool) :
    tapsOf (tmsCycles 0x00 (lastBitByte x true)) s = [nextTap t true] := by
  have htms : lowBits ((0x00 : Byte).toNat + 1) (lastBitByte x true) = [true] :=
    congrArg (fun tms => [tms]) (lastBitByte_tms x true)
  rw [tapsOf_tmsCycles h, htms, tapPath, tapPath]

theorem tapsOf_reset_getLast (s : State) : (tapsOf (tmsCycles 0x04 0x3F) s).getLast? = some .tlr := by
  rw [tapsOf_tmsCycles rfl]
  cases s.target.tap <;> rfl

/-- Settles O3: each walk's TMS bits lead along the table. -/
theorem fixedWalksReachTheirEndStates : Obligations.FixedWalksReachTheirEndStates := by
  intro s
  have hwalk (l b : Byte) (t : TapState) (h : s.target.tap = t) := tapsOf_tmsCycles h l b
  exact ⟨tapsOf_reset_getLast s, hwalk 0x04 0x3F .shDR, hwalk 0x04 0x3F .ex1DR, hwalk 0x05 0x0D .tlr,
    hwalk 0x03 0x03 .ex1IR, hwalk 0x03 0x03 .ex1DR, hwalk 0x04 0x07 .ex1DR, hwalk 0x03 0x02 .tlr,
    fun x h => tapsOf_lastBit h x, fun x h => tapsOf_lastBit h x⟩

end Sys2Proof.Machine
end

section
/-! What one clock leaves as it is (R140): its rising edge touches the scan registers in the Capture and Shift states alone,
and its falling edge the instruction in TLR and Update-IR, the bridge and the AHB in Update-DR. -/

namespace Sys2Proof.Machine

open Sys2Proof

/-! ## The rising edge -/

@[simp] theorem captureDr_cmd (s : State) : (captureDr s).target.cmd = s.target.cmd := by
  unfold captureDr; dsimp only; split <;> rfl
@[simp] theorem captureDr_data (s : State) : (captureDr s).target.data = s.target.data := by
  unfold captureDr; dsimp only; split <;> rfl

@[simp] theorem risingEdge_cmd (tdi : Bool) (s : State) : (risingEdge tdi s).target.cmd = s.target.cmd := by
  unfold risingEdge; split <;> simp
@[simp] theorem risingEdge_data (tdi : Bool) (s : State) : (risingEdge tdi s).target.data = s.target.data := by
  unfold risingEdge; split <;> simp

/-- Of the rising edges, a capture alone reaches the bridge (R136, R244). -/
theorem risingEdge_bridge (tdi : Bool) {s : State} (h : s.target.tap ≠ .capDR) :
    (risingEdge tdi s).target.bridge = s.target.bridge := by
  unfold risingEdge
  cases htap : s.target.tap
  case capDR => exact absurd htap h
  all_goals rfl

theorem risingEdge_dsr (tdi : Bool) {s : State} (hcap : s.target.tap ≠ .capDR) (hsh : s.target.tap ≠ .shDR) :
    (risingEdge tdi s).target.dsr = s.target.dsr := by
  unfold risingEdge
  cases htap : s.target.tap
  case capDR => exact absurd htap hcap
  case shDR => exact absurd htap hsh
  all_goals rfl

theorem risingEdge_irsr (tdi : Bool) {s : State} (hcap : s.target.tap ≠ .capIR) (hsh : s.target.tap ≠ .shIR) :
    (risingEdge tdi s).target.irsr = s.target.irsr := by
  unfold risingEdge
  cases htap : s.target.tap
  case capIR => exact absurd htap hcap
  case shIR => exact absurd htap hsh
  case capDR => exact captureDr_irsr s
  all_goals rfl

/-! ## The falling edge -/

/-- Outside Update-DR the falling edge sets the instruction, to what it was where it loads none. -/
theorem fallingEdge_eq_loadIr {s : State} (h : s.target.tap ≠ .updDR) : ∃ op, fallingEdge s = loadIr op s := by
  unfold fallingEdge
  cases htap : s.target.tap
  case tlr => exact ⟨s.params.idcodeOpcode, rfl⟩
  case updIR => exact ⟨s.target.irsr, rfl⟩
  case updDR => exact absurd htap h
  all_goals exact ⟨s.target.ir, rfl⟩

theorem fallingEdge_ir {s : State} (htlr : s.target.tap ≠ .tlr) (hupd : s.target.tap ≠ .updIR) :
    (fallingEdge s).target.ir = s.target.ir := by
  unfold fallingEdge
  cases htap : s.target.tap
  case tlr => exact absurd htap htlr
  case updIR => exact absurd htap hupd
  case updDR => exact updateDr_ir s
  all_goals rfl

@[simp] theorem fallingEdge_irsr (s : State) : (fallingEdge s).target.irsr = s.target.irsr := by
  unfold fallingEdge; split <;> simp [loadIr]

/-! ## The clock -/

/-- The state between the edges of a clock: the TAP controller has moved, and the falling edge is to come (R140). -/
def midClock (tms tdi : Bool) (s : State) : State := moveTap tms (risingEdge tdi (countClock s))

theorem clock_eq_fallingEdge (tms tdi : Bool) (s : State) : (clock tms tdi s).2 = fallingEdge (midClock tms tdi s) := rfl

theorem midClock_tap (tms tdi : Bool) (s : State) : (midClock tms tdi s).target.tap = (clock tms tdi s).2.target.tap := by
  rw [clock_eq_fallingEdge, fallingEdge_tap]

/-- A clock that does not enter Update-DR leaves memory, the log and the update registers, and outside a capture the
bridge. -/
theorem clock_frame_of_ne_updDR {tms tdi : Bool} {s : State} (h : (clock tms tdi s).2.target.tap ≠ .updDR) :
    (clock tms tdi s).2.mem = s.mem ∧ (clock tms tdi s).2.ahbLog = s.ahbLog
    ∧ (clock tms tdi s).2.target.cmd = s.target.cmd ∧ (clock tms tdi s).2.target.data = s.target.data
    ∧ (s.target.tap ≠ .capDR → (clock tms tdi s).2.target.bridge = s.target.bridge) := by
  obtain ⟨op, hop⟩ := fallingEdge_eq_loadIr (midClock_tap tms tdi s ▸ h)
  rw [clock_eq_fallingEdge, hop]
  exact ⟨risingEdge_mem tdi (countClock s), risingEdge_ahbLog tdi (countClock s), risingEdge_cmd tdi (countClock s),
    risingEdge_data tdi (countClock s), fun hcap => risingEdge_bridge (s := countClock s) tdi hcap⟩

theorem clock_dsr (tms tdi : Bool) {s : State} (hcap : s.target.tap ≠ .capDR) (hsh : s.target.tap ≠ .shDR) :
    (clock tms tdi s).2.target.dsr = s.target.dsr := by
  rw [clock_eq_fallingEdge, fallingEdge_dsr]
  exact risingEdge_dsr (s := countClock s) tdi hcap hsh

theorem clock_irsr (tms tdi : Bool) {s : State} (hcap : s.target.tap ≠ .capIR) (hsh : s.target.tap ≠ .shIR) :
    (clock tms tdi s).2.target.irsr = s.target.irsr := by
  rw [clock_eq_fallingEdge, fallingEdge_irsr]
  exact risingEdge_irsr (s := countClock s) tdi hcap hsh

theorem clock_ir {tms tdi : Bool} {s : State} (htlr : (clock tms tdi s).2.target.tap ≠ .tlr)
    (hupd : (clock tms tdi s).2.target.tap ≠ .updIR) : (clock tms tdi s).2.target.ir = s.target.ir := by
  rw [← midClock_tap] at htlr hupd
  rw [clock_eq_fallingEdge, fallingEdge_ir htlr hupd]
  exact risingEdge_ir tdi (countClock s)

/-- TLR is entered from itself and from Select-IR (R132). -/
theorem eq_tlr_or_selIR_of_nextTap {t : TapState} {tms : Bool} (h : nextTap t tms = .tlr) :
    tms = true ∧ (t = .tlr ∨ t = .selIR) := by
  cases t <;> cases tms <;> simp_all [nextTap]

/-- The clock that enters TLR selects the IDCODE register and does nothing else (R135). -/
theorem clock_of_tlr {tms tdi : Bool} {s : State} (h : (clock tms tdi s).2.target.tap = .tlr) :
    (clock tms tdi s).2 = s.setTarget { s.target with
      tap := .tlr, ir := s.params.idcodeOpcode, clockCount := s.target.clockCount + 1 } := by
  rw [clock_tap] at h
  obtain ⟨rfl, htap | htap⟩ := eq_tlr_or_selIR_of_nextTap h <;>
    simp [clock, countClock, risingEdge, moveTap, fallingEdge, nextTap, loadIr, htap]

/-- Settles O4, edge by edge. -/
theorem clockFrame : Obligations.ClockFrame := by
  rintro tms tdi s t rfl
  exact ⟨clock_clockCount tms tdi s, clock_engine tms tdi s, clock_mpsse tms tdi s, clock_usb tms tdi s,
    clock_calls tms tdi s, clock_params tms tdi s, clock_frame_of_ne_updDR, clock_dsr tms tdi, clock_irsr tms tdi, clock_ir,
    clock_of_tlr⟩

/-! ## The clocks into the Update states -/

/-- The clock into Update-IR loads the instruction (R138). -/
theorem clock_enters_updIR (tdi : Bool) {s : State} (h : s.target.tap = .ex1IR ∨ s.target.tap = .ex2IR) :
    (clock true tdi s).2 = s.setTarget { s.target with
      tap := .updIR, ir := s.target.irsr, clockCount := s.target.clockCount + 1 } := by
  obtain htap | htap := h <;> simp [clock, countClock, risingEdge, moveTap, fallingEdge, nextTap, loadIr, htap]

/-- The clock into Update-DR is the update of the selected register (R138). -/
theorem clock_enters_updDR (tdi : Bool) {s : State} (h : s.target.tap = .ex1DR ∨ s.target.tap = .ex2DR) :
    (clock true tdi s).2 = updated s := by
  obtain htap | htap := h <;> simp [clock, countClock, risingEdge, moveTap, fallingEdge, nextTap, updated, htap]

theorem sel_of_ne {s : State} (hcmd : s.target.ir ≠ Config.codeAddrComm) (hdata : s.target.ir ≠ Config.codeData) :
    s.sel = if s.target.ir = s.params.idcodeOpcode then .idcode else .bypass := by
  rw [State.sel, selectDr, if_neg hcmd, if_neg hdata]

/-- The identification and the BYPASS register have no update. -/
theorem updateDr_of_ne {s : State} (hcmd : s.target.ir ≠ Config.codeAddrComm) (hdata : s.target.ir ≠ Config.codeData) :
    updateDr s = s := by
  rw [updateDr, sel_of_ne hcmd hdata]
  by_cases hidc : s.target.ir = s.params.idcodeOpcode
  · rw [if_pos hidc]
  · rw [if_neg hidc]

/-- Settles O7, by the two clocks into an Update state. -/
theorem updateClocks : Obligations.UpdateClocks := by
  intro tdi s
  refine ⟨clock_enters_updIR tdi, fun htap hcmd hdata => ?_⟩
  rw [clock_enters_updDR tdi htap]
  exact updateDr_of_ne hcmd hdata

end Sys2Proof.Machine
end

section
/-! The clocks taken in a Capture state (R136): what each register is loaded with, and what the capture of the data register
does to the bridge (R244). -/

namespace Sys2Proof.Machine

open Sys2Proof

theorem clock_capIR (tms tdi : Bool) {s : State} (h : s.target.tap = .capIR) :
    (clock tms tdi s).2 = s.setTarget { s.target with
      tap := nextTap .capIR tms
      irsr := s.params.irCapture
      clockCount := s.target.clockCount + 1 } := by
  cases tms <;> simp [clock, countClock, risingEdge, moveTap, fallingEdge, nextTap, h]

/-- The clock taken in Capture-DR is the capture at its own clock number, and the move. -/
theorem clock_capDR (tms tdi : Bool) {s : State} (h : s.target.tap = .capDR) :
    (clock tms tdi s).2 = (captureDr (countClock s)).setTarget { (captureDr (countClock s)).target with
      tap := nextTap .capDR tms } := by
  cases tms <;> simp [clock, countClock, risingEdge, moveTap, fallingEdge, nextTap, h]

/-! ## The four captures -/

theorem sel_of_codeAddrComm {s : State} (h : s.target.ir = Config.codeAddrComm) : s.sel = .cmd := by
  rw [State.sel, selectDr, if_pos h]

theorem sel_of_codeData {s : State} (h : s.target.ir = Config.codeData) : s.sel = .data := by
  rw [State.sel, h]
  rfl

theorem captureDr_of_cmd {s : State} (h : s.sel = .cmd) : captureDr s = s.setTarget { s.target with
    dsr := lowBits 35 (Config.cmdCapture s.target.clockCount) } := by
  rw [captureDr, h]
  rfl

theorem captureDr_of_data {s : State} (h : s.sel = .data) : captureDr s = s.setTarget { s.target with
    bridge := s.target.bridge.complete s.target.clockCount
    dsr := lowBits 33
      (captureDataValue (s.target.bridge.complete s.target.clockCount) s.target.clockCount) } := by
  rw [captureDr, h]
  rfl

theorem captureDr_of_idcode {s : State} (h : s.sel = .idcode) : captureDr s = s.setTarget { s.target with
    dsr := lowBits 32 s.params.idcodeValue } := by
  rw [captureDr, h]

theorem captureDr_of_bypass {s : State} (h : s.sel = .bypass) : captureDr s = s.setTarget { s.target with
    dsr := [false] } := by
  rw [captureDr, h]

/-- What the clock taken in Capture-DR leaves in the register and the bridge, where the data register is selected. -/
theorem clock_capDR_data (tms tdi : Bool) {s : State} (htap : s.target.tap = .capDR) (hir : s.target.ir = Config.codeData) :
    (clock tms tdi s).2.target.bridge = s.target.bridge.complete (s.target.clockCount + 1)
    ∧ (clock tms tdi s).2.target.dsr = lowBits 33
      (captureDataValue (s.target.bridge.complete (s.target.clockCount + 1)) (s.target.clockCount + 1)) := by
  rw [clock_capDR tms tdi htap, captureDr_of_data (s := countClock s) (sel_of_codeData hir)]
  exact ⟨rfl, rfl⟩

/-- Completing a read does not turn the bridge's direction. -/
theorem complete_curW (b : Bridge) (n : Nat) : (b.complete n).curW = b.curW := by
  cases hp : b.pending with
  | none => rw [complete_none b n hp]
  | read t w =>
    by_cases ht : t ≤ n
    · rw [complete_done b t n w hp ht]
    · rw [complete_waiting b t n w hp (by omega)]

/-- Settles O6: the selected register's capture, and for the data register what it finds pending. -/
theorem captureClocks : Obligations.CaptureClocks := by
  rintro tms tdi s t rfl
  refine ⟨fun htap => ?_, fun htap hir => ?_, fun htap hir hw => ?_, fun htap hir c w hp hc => ?_, fun htap hir c w hp hc => ?_,
    fun htap hir hp => ?_, fun htap hidc hcmd hdata => ?_, fun htap hidc hcmd hdata => ?_⟩
  · rw [clock_capIR tms tdi htap]
    rfl
  · rw [clock_capDR tms tdi htap, captureDr_of_cmd (s := countClock s) (sel_of_codeAddrComm hir)]
    exact ⟨lowBits_length _ _, rfl⟩
  · obtain ⟨-, hdsr⟩ := clock_capDR_data tms tdi htap hir
    rw [captureDataValue_write _ _ ((complete_curW _ _).trans hw)] at hdsr
    exact ⟨_, hdsr⟩
  · obtain ⟨hbridge, hdsr⟩ := clock_capDR_data tms tdi htap hir
    rw [complete_done _ c _ w hp hc] at hbridge hdsr
    exact ⟨hbridge, fun hw => hdsr.trans (congrArg _ (captureDataValue_done _ _ hw rfl))⟩
  · obtain ⟨hbridge, hdsr⟩ := clock_capDR_data tms tdi htap hir
    rw [complete_waiting _ c _ w hp hc] at hbridge hdsr
    exact ⟨hbridge, fun hw => ⟨_, hdsr.trans (congrArg _ (captureDataValue_waiting _ c _ w hw hp))⟩⟩
  · obtain ⟨hbridge, hdsr⟩ := clock_capDR_data tms tdi htap hir
    rw [complete_none _ _ hp] at hbridge hdsr
    exact ⟨hbridge, fun hw => hdsr.trans (congrArg _ (captureDataValue_done _ _ hw hp))⟩
  · have hsel : (countClock s).sel = .idcode := (sel_of_ne hcmd hdata).trans (if_pos hidc)
    rw [clock_capDR tms tdi htap, captureDr_of_idcode hsel]
    exact ⟨rfl, rfl⟩
  · have hsel : (countClock s).sel = .bypass := (sel_of_ne hcmd hdata).trans (if_neg hidc)
    rw [clock_capDR tms tdi htap, captureDr_of_bypass hsel]
    exact ⟨rfl, rfl⟩

end Sys2Proof.Machine
end

section
/-! Shifts and whole scans (R137, R141), of the data register and of the instruction register: both shift alike, seen as bits
from bit 0. -/

namespace Sys2Proof.Machine

open Sys2Proof

/-! ## The IR shift register as bits -/

theorem getLsbD_shiftIrsr_of_lt (x : Bool) (r : BitVec 6) {i : Nat} (hi : i < 5) :
    (shiftIrsr x r).getLsbD i = r.getLsbD (i + 1) := by
  have hlt : 1 + i < 6 := by omega
  rw [shiftIrsr, BitVec.getLsbD_append, if_pos hi, BitVec.getLsbD_extractLsb']
  simp [hi, Nat.add_comm]

theorem getLsbD_shiftIrsr_top (x : Bool) (r : BitVec 6) : (shiftIrsr x r).getLsbD 5 = x := by
  rw [shiftIrsr, BitVec.getLsbD_append, if_neg (by decide)]
  cases x <;> rfl

/-- A shift of the instruction register is one of its six bits (R137). -/
theorem lowBits_shiftIrsr (x : Bool) (r : BitVec 6) : lowBits 6 (shiftIrsr x r) = shiftDsr x (lowBits 6 r) := by
  have hlow : lowBits 5 (shiftIrsr x r) = (lowBits 6 r).tail :=
    calc lowBits 5 (shiftIrsr x r)
        = (List.range 5).map fun i => r.getLsbD (i + 1) :=
          List.map_congr_left fun i hi => getLsbD_shiftIrsr_of_lt x r (List.mem_range.1 hi)
      _ = (lowBits 6 r).tail := rfl
  rw [lowBits_succ, getLsbD_shiftIrsr_top, hlow, shiftDsr]

/-- Bits shifted in one after another push out as many at bit 0 (R137). -/
theorem foldl_shiftDsr (xs : List Bool) {d : List Bool} (hd : d ≠ []) :
    xs.foldl (fun d x => shiftDsr x d) d = (d ++ xs).drop xs.length := by
  induction xs generalizing d with
  | nil => simp
  | cons x xs ih =>
    obtain ⟨b, d, rfl⟩ := List.exists_cons_of_ne_nil hd
    rw [List.foldl_cons, ih (shiftDsr_ne_nil x _)]
    simp [shiftDsr]

theorem lowBits_ne_nil {w n : Nat} (hn : n ≠ 0) (v : BitVec w) : lowBits n v ≠ [] :=
  List.ne_nil_of_length_pos (by rw [lowBits_length]; omega)

theorem lowBits_foldl_shiftIrsr (xs : List Bool) (r : BitVec 6) :
    lowBits 6 (xs.foldl (fun r x => shiftIrsr x r) r) = (lowBits 6 r ++ xs).drop xs.length := by
  rw [← foldl_shiftDsr xs (lowBits_ne_nil (by decide) r)]
  exact (List.foldl_hom (lowBits 6) (g₁ := fun r x => shiftIrsr x r) (g₂ := fun d x => shiftDsr x d)
    fun r x => (lowBits_shiftIrsr x r).symm).symm

/-- The TDO levels of clocks with TMS low in ShIR: the register's bits from bit 0, then the bits shifted in (R139). -/
theorem tdoLevels_shIR (xs : List Bool) {s : State} (h : s.target.tap = .shIR) :
    tdoLevels (xs.map fun x => (false, x)) s = (lowBits 6 s.target.irsr ++ xs).take xs.length := by
  induction xs generalizing s with
  | nil => rfl
  | cons x xs ih =>
    rw [List.map_cons, tdoLevels, clock_shIR _ _ _ h, ih rfl, setTarget_target, lowBits_shiftIrsr]
    have hbits : lowBits 6 s.target.irsr = s.target.irsr.getLsbD 0 :: (lowBits 6 s.target.irsr).tail := rfl
    rw [hbits]
    simp [shiftDsr]

/-- Settles O5: the two shift clocks, and shifts in a row. -/
theorem shiftClocks : Obligations.ShiftClocks := by
  intro tms tdi s
  refine ⟨fun htap => ?_, fun htap hdsr => ?_⟩
  · rw [clock_shIR tms tdi s htap]
    refine ⟨rfl, fun i hi => getLsbD_shiftIrsr_of_lt tdi _ hi, getLsbD_shiftIrsr_top tdi _, fun op => ?_⟩
    rw [clocked_shIR _ s htap]
    exact shiftIrsr_lowBits op s.target.irsr
  · rw [clock_shDR tms tdi s htap]
    refine ⟨List.headD_eq_head?_getD, congrArg (· ++ [tdi]) List.drop_one.symm, fun xs hlen => ?_⟩
    rw [clocked_shDR xs s htap hdsr]
    exact (shifted_full _ xs hlen.ge).trans (by rw [hlen, Nat.sub_self, List.drop_zero])

/-! ## A scan: shifts with TMS low, and one with TMS high -/

/-- The pin levels of a scan of the bits `xs` and then `x` (R141). -/
def scanPins (xs : List Bool) (x : Bool) : List (Bool × Bool) := (xs.map fun b => (false, b)) ++ [(true, x)]

/-- The TDO level of a clock is there before its TMS counts, so a scan's are those of its bits with TMS low throughout. -/
theorem tdoLevels_scanPins (xs : List Bool) (x : Bool) (q : State) :
    tdoLevels (scanPins xs x) q = tdoLevels ((xs ++ [x]).map fun b => (false, b)) q := by
  rw [scanPins, List.map_append, tdoLevels_append, tdoLevels_append]
  rfl

/-- A scan of the data register leaves the last bits of the register with the bits shifted in behind it. -/
theorem clocked_scanDR (xs : List Bool) (x : Bool) {q : State} (htap : q.target.tap = .shDR) (hdsr : q.target.dsr ≠ []) :
    clocked (scanPins xs x) q = q.setTarget { q.target with
      tap := .ex1DR
      dsr := (q.target.dsr ++ (xs ++ [x])).drop (xs ++ [x]).length
      clockCount := q.target.clockCount + (xs.length + 1) } := by
  have hshift : shiftDsr x ((q.target.dsr ++ xs).drop xs.length) =
      (q.target.dsr ++ (xs ++ [x])).drop (xs ++ [x]).length := by
    rw [← foldl_shiftDsr xs hdsr, ← foldl_shiftDsr (xs ++ [x]) hdsr, List.foldl_append]
    rfl
  rw [scanPins, clocked_append, clocked_shDR xs q htap hdsr, ← hshift, clocked, clock_shDR true x _ (by exact htap)]
  rfl

theorem clocked_scanIR (xs : List Bool) (x : Bool) {q : State} (htap : q.target.tap = .shIR) :
    clocked (scanPins xs x) q = q.setTarget { q.target with
      tap := .ex1IR
      irsr := (xs ++ [x]).foldl (fun r x => shiftIrsr x r) q.target.irsr
      clockCount := q.target.clockCount + (xs.length + 1) } := by
  rw [scanPins, clocked_append, clocked_shIR xs q htap, List.foldl_append, clocked, clock_shIR true x _ (by exact htap)]
  rfl

theorem clock_capDR_dsr_length (tms tdi : Bool) {s : State} (h : s.target.tap = .capDR) :
    (clock tms tdi s).2.target.dsr.length = drLen s.sel := by
  rw [clock_capDR tms tdi h]
  exact captureDr_dsr_length (countClock s)

/-- Settles O10: a capture, and a scan of what it loaded. -/
theorem scanLaw : Obligations.ScanLaw := by
  intro y x xs s
  have hlast : (xs ++ [x]).length = xs.length + 1 := List.length_append
  refine ⟨fun htap => ?_, fun htap => ?_⟩
  · intro q c p
    have hlen : c.length = drLen s.sel := clock_capDR_dsr_length false y htap
    have hne : c ≠ [] := List.ne_nil_of_length_pos (hlen ▸ drLen_pos s.sel)
    have hq : q.target.tap = .shDR := (clock_tap false y s).trans (by rw [htap]; rfl)
    obtain ⟨hmem, hlog, -⟩ := clock_frame_of_ne_updDR (s := s) (by rw [hq]; decide)
    have htdo : tdoLevels p q = (c ++ (xs ++ [x])).take (xs ++ [x]).length :=
      (tdoLevels_scanPins xs x q).trans (tdoLevels_shDR _ q hq hne)
    have hrun : clocked p q = _ := clocked_scanDR xs x hq hne
    rw [hrun, htdo, ← hlast, List.append_assoc]
    exact ⟨hlen, rfl, rfl, shifted_full c (xs ++ [x]), hmem, hlog, rfl⟩
  · intro q p
    have hirsr : q.target.irsr = s.params.irCapture := congrArg (·.target.irsr) (clock_capIR false y htap)
    have hq : q.target.tap = .shIR := (clock_tap false y s).trans (by rw [htap]; rfl)
    obtain ⟨hmem, hlog, -⟩ := clock_frame_of_ne_updDR (s := s) (by rw [hq]; decide)
    have htdo : tdoLevels p q = (lowBits 6 s.params.irCapture ++ (xs ++ [x])).take (xs ++ [x]).length := by
      rw [← hirsr]
      exact (tdoLevels_scanPins xs x q).trans (tdoLevels_shIR _ hq)
    have hrun : clocked p q = _ := clocked_scanIR xs x hq
    rw [hrun, htdo, ← hlast, List.append_assoc]
    refine ⟨rfl, rfl, fun hle => ?_, hmem, hlog, rfl⟩
    have hbits := shifted_full (lowBits 6 q.target.irsr) (xs ++ [x]) (by rwa [lowBits_length])
    rw [lowBits_length] at hbits
    exact (lowBits_foldl_shiftIrsr (xs ++ [x]) q.target.irsr).trans hbits

end Sys2Proof.Machine
end

section
/-! The engine's scans as the commands they are (R142): each is a composition of the primitives' command lists, and what those
leave in the target is known. -/

namespace Sys2Proof.Machine

open Sys2Proof

/-- An engine command, executed as an instruction, is the command the MPSSE engine runs. -/
theorem exec_of_engineCommand {i : Instr} (h : engineCommand i = true) (s : State) : exec i s = .next (ran i s) := by
  rw [← runCommand_engine i s h]
  refine engineCommand_cases (P := fun i => exec i s = runCommand i s) i h ?_ ?_ ?_ ?_ ?_ <;> intros <;> rfl

theorem execAll_of_engineCommand {cs : List Instr} (h : cs.all engineCommand = true) (s : State) :
    execAll cs s = .next (ranAll cs s) := by
  induction cs generalizing s with
  | nil => rfl
  | cons c cs ih =>
    rw [List.all_cons, Bool.and_eq_true] at h
    rw [execAll, exec_of_engineCommand h.1]
    exact ih h.2 (ran c s)

/-- The blanking, the settle clocks and the command scan of a command load: behind them the register holds the command. -/
theorem ranAll_blanked_loadCmd (a : Word) (sz : BitVec 2) (rw : Bool) {s : State} (htap : s.target.tap = .shDR)
    (hlen : s.target.dsr.length = 35) (hpin : s.mpsse.tmsPin = false) :
    ranAll (commands (.shiftBytesOut blanking) ++ commands (.clockOnly Config.settleClocks) ++ commands (.loadCmd a sz rw)) s =
      (s.setTarget { s.target with
        tap := .ex1DR
        dsr := lowBits 35 (cmdValue a sz rw)
        clockCount := s.target.clockCount + 91 }).setMpsse (s.mpsse.pins true rw) := by
  have hne : s.target.dsr ≠ [] := List.ne_nil_of_length_pos (by omega)
  rw [ranAll_append, ranAll_append, ranAll_blanking s htap hne (by omega) hpin,
    ranAll_loadCmd a sz rw _ (by exact htap) (by simpa using hlen) rfl]
  rfl

/-- A read of the data register and its exit: the word is returned, and the exit clock's TDI is the register's top bit. -/
theorem ranAll_readData_exit (done : Bool) (w : Word) (x : Bool) {s : State} (htap : s.target.tap = .shDR)
    (hdsr : s.target.dsr = lowBits 33 (dataValue done w)) (hpin : s.mpsse.tmsPin = false) (hloop : s.mpsse.loopback = false) :
    ranAll (commands .readData ++ commands (.lastBitWithTms x true)) s =
      (s.setTarget { s.target with
        tap := .ex1DR
        dsr := List.replicate 32 false ++ [x]
        clockCount := s.target.clockCount + 33 }).setMpsse
      ((s.mpsse.pins true x).rx (s.mpsse.rxFifo ++ wordBytes w)) := by
  rw [ranAll_append, ranAll_readData w [done] s htap (hdsr.trans (lowBits_dataValue done w)) hpin hloop]
  exact ran_lastBit_shDR x _ htap

/-- The low five bits of an opcode, as the byte that carries them. -/
theorem opcode_low_byte (op : BitVec 6) : (op &&& 0x1F).setWidth 8 = BitVec.ofNat 8 (op.toNat % 32) := by
  revert op; decide

/-- Settles O11: each list is that of its primitives, run by the MPSSE engine. -/
theorem engineScansLeaveTheirValues : Obligations.EngineScansLeaveTheirValues := by
  intro s hpin
  refine ⟨fun a sz rw htap hlen => ?_, fun op htap => ?_, fun d seq htap hlen => ?_, fun done w x htap hloop hdsr => ?_⟩
  · exact (execAll_of_engineCommand rfl s).trans (congrArg _ (ranAll_blanked_loadCmd a sz rw htap hlen hpin))
  · rw [opcode_low_byte]
    have hrun := ranAll_shiftIr op.toNat s htap hpin
    rw [BitVec.ofNat_toNat, BitVec.setWidth_eq] at hrun
    exact (execAll_of_engineCommand rfl s).trans (congrArg _ hrun)
  · exact (execAll_of_engineCommand rfl s).trans (congrArg _ (ranAll_writeData d seq s htap hlen hpin))
  · exact (execAll_of_engineCommand rfl s).trans (congrArg _ (ranAll_readData_exit done w x htap hdsr hpin hloop))

end Sys2Proof.Machine
end

section
/-! The MPSSE commands by name (R161 to R178): those that clock, read or not, each the cycles of its format on the target; those
that configure; and the answer to a bad one. -/

namespace Sys2Proof.Machine

open Sys2Proof

/-! ## The operand ranges (R91 to R94, R112) -/

theorem tmsLengthOk_iff (l : Byte) : tmsLengthOk l = true ↔ l.toNat ≤ 6 := decide_eq_true_iff

theorem bitsLengthOk_iff (l : Byte) : bitsLengthOk l = true ↔ l.toNat ≤ 7 := decide_eq_true_iff

theorem bytesLengthOk_iff (d : List Byte) : bytesLengthOk d = true ↔ 1 ≤ d.length ∧ d.length ≤ 65536 := by
  rw [bytesLengthOk, Bool.and_eq_true, decide_eq_true_iff, decide_eq_true_iff]

theorem bytesLengthOk_concat {data : List Byte} (d : Byte) (h : data.length + 1 ≤ 65536) :
    bytesLengthOk (data ++ [d]) = true := by
  rw [bytesLengthOk_iff, List.length_append, List.length_singleton]
  omega

theorem inRange_of_ok {ok : Bool} (h : ok = true) (s : State) : inRange ok s = .next s := if_pos h

theorem inRange_of_not_ok {ok : Bool} (h : ¬ ok = true) (s : State) : inRange ok s = .refused .countOutOfRange := if_neg h

theorem not_tmsLengthOk {l : Byte} (h : 7 ≤ l.toNat) : ¬ tmsLengthOk l = true := by
  rw [tmsLengthOk_iff]
  omega

theorem not_bitsLengthOk {l : Byte} (h : 8 ≤ l.toNat) : ¬ bitsLengthOk l = true := by
  rw [bitsLengthOk_iff]
  omega

theorem not_bytesLengthOk {data : List Byte} (h : data = [] ∨ 65536 < data.length) : ¬ bytesLengthOk data = true := by
  rw [bytesLengthOk_iff]
  rcases h with rfl | h
  · simp
  · omega

/-! ## The cycles of the formats are the pin levels clocked -/

theorem tmsCycles_eq (l b : Byte) : tmsCycles l b = tmsPins l b := by
  rw [tmsCycles, tmsPins, lowBits, List.map_map]
  rfl

theorem bitCycles_eq (t : Bool) (l b : Byte) : bitCycles t l b = bitPins t l b := by
  rw [bitCycles, bitPins, lowBits, List.map_map]
  rfl

theorem heldCycles_eq (t d : Bool) (l : Byte) : heldCycles t d l = heldPins t d l := by
  rw [heldCycles, heldPins, List.map_const', List.length_range]

theorem byteCycles_eq (t : Bool) (data : List Byte) : byteCycles t data = bytesPins t data := by
  exact congrArg data.flatMap (funext fun d => (List.map_map (l := List.range 8)).symm)

theorem recorded_eq (p : List (Bool × Bool)) (s : State) : recorded p s = samplesOf p s := rfl

/-- After M-BYTES, TDI stands at bit 7 of the last byte (R161). -/
theorem pinsAfter_bytesPins_concat (t : Bool) (data : List Byte) (d : Byte) (m : Mpsse) :
    pinsAfter (bytesPins t (data ++ [d])) m = m.pins t (d.getLsbD 7) := by
  rw [bytesPins, List.flatMap_append, List.flatMap_singleton, pinsAfter_append, pinsAfter_bytePins]
  unfold pinsAfter
  split <;> rfl

/-! ## The commands that clock and read nothing -/

/-- The length bytes are the low and the high byte of the count less one (R93). -/
theorem lenBytes_succ (n : Nat) : lenBytes (n + 1) = [BitVec.ofNat 8 n, BitVec.ofNat 8 (n / 256)] := by
  rw [lenBytes, Nat.add_sub_cancel]
  congr 1
  exact BitVec.eq_of_toNat_eq (by simp only [BitVec.toNat_ofNat]; omega)

theorem exec_tmsOut {l : Byte} (h : l.toNat ≤ 6) (b : Byte) (s : State) : exec (.tmsOut l b) s =
    .next ((clocked (tmsCycles l b) s).setMpsse (s.mpsse.at (b.getLsbD l.toNat) (b.getLsbD 7))) := by
  have hok := (tmsLengthOk_iff l).2 h
  rw [exec_of_engineCommand (i := .tmsOut l b) hok, ran_tmsOut l b s hok, tmsCycles_eq]
  rfl

theorem exec_bitsOut {l : Byte} (h : l.toNat ≤ 7) (b : Byte) (s : State) : exec (.bitsOut l b) s =
    .next ((clocked (bitCycles s.mpsse.tmsPin l b) s).setMpsse (s.mpsse.at s.mpsse.tmsPin (b.getLsbD l.toNat))) := by
  have hok := (bitsLengthOk_iff l).2 h
  rw [exec_of_engineCommand (i := .bitsOut l b) hok, ran_bitsOut l b s hok, bitCycles_eq]
  rfl

theorem exec_clkOnly {l : Byte} (h : l.toNat ≤ 7) (s : State) : exec (.clkOnly l) s =
    .next ((clocked (heldCycles s.mpsse.tmsPin s.mpsse.tdiPin l) s).setMpsse (s.mpsse.at s.mpsse.tmsPin s.mpsse.tdiPin)) := by
  have hok := (bitsLengthOk_iff l).2 h
  rw [exec_of_engineCommand (i := .clkOnly l) hok, ran_clkOnly l s hok, heldCycles_eq]
  rfl

theorem exec_bytesOut {data : List Byte} (h : data.length + 1 ≤ 65536) (d : Byte) (s : State) :
    exec (.bytesOut (data ++ [d])) s = .next ((clocked (byteCycles s.mpsse.tmsPin (data ++ [d])) s).setMpsse
      (s.mpsse.at s.mpsse.tmsPin (d.getLsbD 7))) := by
  have hok := bytesLengthOk_concat d h
  rw [exec_of_engineCommand (i := .bytesOut _) hok, ran_bytesOut _ s hok, pinsAfter_bytesPins_concat, byteCycles_eq]
  rfl

theorem encodeMpsse_bytesOut_concat (data : List Byte) (d : Byte) : encodeMpsse (.bytesOut (data ++ [d])) =
    [0x19, BitVec.ofNat 8 data.length, BitVec.ofNat 8 (data.length / 256)] ++ data ++ [d] := by
  have hlen : lenBytes (data ++ [d]).length = [BitVec.ofNat 8 data.length, BitVec.ofNat 8 (data.length / 256)] := by
    rw [List.length_append, List.length_singleton, lenBytes_succ]
  have henc : encodeMpsse (.bytesOut (data ++ [d])) = 0x19 :: lenBytes (data ++ [d]).length ++ (data ++ [d]) := rfl
  rw [henc, hlen, List.append_assoc]

/-- Settles O12: a command in its range is one of the engine's, whose run is known; out of it the range check refuses. -/
theorem clockOutCommands : Obligations.ClockOutCommands := by
  intro s
  refine ⟨fun l b => ⟨rfl, fun h => exec_tmsOut h b s, fun h => ?_⟩,
    fun l b => ⟨rfl, fun h => exec_bitsOut h b s, fun h => ?_⟩,
    fun data d h => ⟨encodeMpsse_bytesOut_concat data d, exec_bytesOut h d s⟩, fun data h => ?_,
    fun l => ⟨rfl, fun h => exec_clkOnly h s, fun h => ?_⟩⟩
  · exact inRange_of_not_ok (not_tmsLengthOk h) _
  · exact inRange_of_not_ok (not_bitsLengthOk h) _
  · exact inRange_of_not_ok (not_bytesLengthOk h) _
  · exact inRange_of_not_ok (not_bitsLengthOk h) _

/-! ## The response bytes (R99) -/

theorem eight_sub_succ (n : Nat) : 8 - (n + 1) = 7 - n := Nat.add_sub_add_right 7 1 n

theorem getElem?_eq_testBit_packBits {xs : List Bool} {i : Nat} (hi : i < xs.length) :
    xs[i]? = some ((packBits xs).testBit i) := by
  rw [testBit_packBits, List.getD_eq_getElem _ _ hi, List.getElem?_eq_getElem hi]

/-- Sample i of a byte-mode response stands in bit i. -/
theorem getElem?_eq_byteResponse {xs : List Bool} (hlen : xs.length ≤ 8) {i : Nat} (hi : i < xs.length) :
    xs[i]? = some ((byteResponse xs).getLsbD i) := by
  rw [getElem?_eq_testBit_packBits hi, byteResponse, BitVec.getLsbD_ofNat, decide_eq_true (by omega), Bool.true_and]

/-- The samples of a bit-mode response stand in its top bits, whatever the bits below are. -/
theorem getElem?_eq_bitResponse {xs : List Bool} (low : Byte) (hlen : xs.length ≤ 8) {i : Nat} (hi : i < xs.length) :
    xs[i]? = some ((bitResponse xs low).getLsbD (8 - xs.length + i)) := by
  have hlow : low.toNat % 2 ^ (8 - xs.length) < 2 ^ (8 - xs.length) := Nat.mod_lt _ (Nat.two_pow_pos _)
  rw [getElem?_eq_testBit_packBits hi, bitResponse, BitVec.getLsbD_ofNat, decide_eq_true (by omega), Bool.true_and,
    Nat.mul_comm, Nat.testBit_two_pow_mul_add _ hlow, if_neg (by omega), Nat.add_sub_cancel_left]

/-- Byte j of a byte-mode read holds the samples of cycles 8j to 8j + 7 (R168). -/
theorem getElem?_eq_byteResponses {n : Nat} {xs : List Bool} (hlen : xs.length = 8 * n) {j i : Nat} (hj : j < n) (hi : i < 8) :
    xs[8 * j + i]? = some (((byteResponses n xs).getD j 0).getLsbD i) := by
  induction n generalizing xs j with
  | zero => omega
  | succ n ih =>
    cases j with
    | zero =>
      have htake : (xs.take 8).length = 8 := List.length_take_of_le (by omega)
      rw [byteResponses, List.getD_cons_zero, ← getElem?_eq_byteResponse htake.le (by omega), List.getElem?_take_of_lt hi,
        Nat.mul_zero, Nat.zero_add]
    | succ j =>
      rw [byteResponses, List.getD_cons_succ, ← ih (by rw [List.length_drop]; omega) (by omega), List.getElem?_drop]
      congr 1
      omega

/-- The engine's parse takes the top bits of a bit-mode byte, the first sample in bit 0 (R226). -/
theorem testBit_parseBits {k : Nat} (r : Byte) {i : Nat} (hi : i < k) :
    (parseBits k r).testBit i = r.getLsbD (8 - k + i) := by
  rw [parseBits, Nat.testBit_mod_two_pow, decide_eq_true hi, Bool.true_and, Nat.testBit_div_two_pow, BitVec.getLsbD,
    Nat.add_comm]

/-! ## The commands that clock and read -/

/-- A bit-mode read of l + 1 cycles: the cycles on the target, and one byte with their samples in its top bits. -/
theorem clockBitsIn_response {l : Byte} (h : l.toNat ≤ 7) {p : List (Bool × Bool)} (hp : p.length = l.toNat + 1) (s : State) :
    ∃ r : Byte, (∀ i, i ≤ l.toNat → (recorded p s)[i]? = some (r.getLsbD (7 - l.toNat + i)))
      ∧ clockBitsIn p s = (clocked p s).setMpsse ((pinsAfter p s.mpsse).rx (s.mpsse.rxFifo ++ [r])) := by
  refine ⟨_, fun i hi => ?_, clockBitsIn_eq p s⟩
  have hlen : (samplesOf p s).length = l.toNat + 1 := (samplesOf_length p s).trans hp
  rw [recorded_eq, getElem?_eq_bitResponse _ (by omega) (by omega), hlen, eight_sub_succ]

theorem exec_tmsOutRead {l : Byte} (h : l.toNat ≤ 6) (b : Byte) (s : State) : ∃ r : Byte,
    (∀ i, i ≤ l.toNat → (recorded (tmsCycles l b) s)[i]? = some (r.getLsbD (7 - l.toNat + i)))
    ∧ exec (.tmsOutRead l b) s = .next ((clocked (tmsCycles l b) s).setMpsse
        { s.mpsse.at (b.getLsbD l.toNat) (b.getLsbD 7) with rxFifo := s.mpsse.rxFifo ++ [r] }) := by
  obtain ⟨r, hsamples, hrun⟩ := clockBitsIn_response (Nat.le_succ_of_le h) (tmsPins_length l b) s
  rw [pinsAfter_tmsPins] at hrun
  rw [tmsCycles_eq]
  exact ⟨r, hsamples, (inRange_of_ok ((tmsLengthOk_iff l).2 h) _).trans (congrArg _ hrun)⟩

theorem exec_bitsInout {l : Byte} (h : l.toNat ≤ 7) (b : Byte) (s : State) : ∃ r : Byte,
    (∀ i, i ≤ l.toNat → (recorded (bitCycles s.mpsse.tmsPin l b) s)[i]? = some (r.getLsbD (7 - l.toNat + i)))
    ∧ exec (.bitsInout l b) s = .next ((clocked (bitCycles s.mpsse.tmsPin l b) s).setMpsse
        { s.mpsse.at s.mpsse.tmsPin (b.getLsbD l.toNat) with rxFifo := s.mpsse.rxFifo ++ [r] }) := by
  obtain ⟨r, hsamples, hrun⟩ := clockBitsIn_response h (bitPins_length s.mpsse.tmsPin l b) s
  rw [pinsAfter_bitPins] at hrun
  rw [bitCycles_eq]
  exact ⟨r, hsamples, (inRange_of_ok ((bitsLengthOk_iff l).2 h) _).trans (congrArg _ hrun)⟩

theorem exec_bitsIn {l : Byte} (h : l.toNat ≤ 7) (s : State) : ∃ r : Byte,
    (∀ i, i ≤ l.toNat →
      (recorded (heldCycles s.mpsse.tmsPin s.mpsse.tdiPin l) s)[i]? = some (r.getLsbD (7 - l.toNat + i)))
    ∧ exec (.bitsIn l) s = .next ((clocked (heldCycles s.mpsse.tmsPin s.mpsse.tdiPin l) s).setMpsse
        { s.mpsse.at s.mpsse.tmsPin s.mpsse.tdiPin with rxFifo := s.mpsse.rxFifo ++ [r] }) := by
  obtain ⟨r, hsamples, hrun⟩ := clockBitsIn_response h (heldPins_length s.mpsse.tmsPin s.mpsse.tdiPin l) s
  rw [pinsAfter_heldPins] at hrun
  rw [heldCycles_eq]
  exact ⟨r, hsamples, (inRange_of_ok ((bitsLengthOk_iff l).2 h) _).trans (congrArg _ hrun)⟩

theorem exec_bytesInout {data : List Byte} (h : data.length + 1 ≤ 65536) (d : Byte) (s : State) :
    ∃ rs : List Byte, rs.length = data.length + 1
    ∧ (∀ j i, j < rs.length → i < 8 →
        (recorded (byteCycles s.mpsse.tmsPin (data ++ [d])) s)[8 * j + i]? = some ((rs.getD j 0).getLsbD i))
    ∧ exec (.bytesInout (data ++ [d])) s = .next ((clocked (byteCycles s.mpsse.tmsPin (data ++ [d])) s).setMpsse
        { s.mpsse.at s.mpsse.tmsPin (d.getLsbD 7) with rxFifo := s.mpsse.rxFifo ++ rs }) := by
  have hok := bytesLengthOk_concat d h
  have hrun := exec_of_engineCommand (i := .bytesInout (data ++ [d])) hok s
  rw [ran_bytesInout _ s hok, pinsAfter_bytesPins_concat] at hrun
  rw [byteCycles_eq]
  refine ⟨_, (byteResponses_length _ _).trans List.length_append, fun j i hj hi => ?_, hrun⟩
  rw [byteResponses_length] at hj
  exact getElem?_eq_byteResponses ((samplesOf_length _ s).trans (bytesPins_length _ _)) hj hi

/-- Settles O13: each response is made of the samples of the command's cycles, and the parse is the bit-mode layout read back. -/
theorem readingCommands : Obligations.ReadingCommands := by
  intro s
  refine ⟨fun l b h => exec_tmsOutRead h b s, fun l b h => exec_bitsInout h b s, fun l h => exec_bitsIn h s,
    fun data d h => exec_bytesInout h d s, fun l b h => ?_, fun l b h => ?_, fun l h => ?_, fun data h => ?_,
    fun l r h => ⟨Nat.mod_lt _ (Nat.two_pow_pos _), fun i hi => ?_⟩⟩
  · exact inRange_of_not_ok (not_tmsLengthOk h) _
  · exact inRange_of_not_ok (not_bitsLengthOk h) _
  · exact inRange_of_not_ok (not_bitsLengthOk h) _
  · exact inRange_of_not_ok (not_bytesLengthOk h) _
  · rw [testBit_parseBits r (Nat.lt_add_one_of_le hi), eight_sub_succ]

/-! ## Configuration, and the bad command -/

/-- One clock's sample: the TDI level just driven while loopback is on, else the target's TDO level (R160, R170). -/
theorem clockPin_sample (tms tdi : Bool) (s : State) :
    (clockPin tms tdi s).1 = if s.mpsse.loopback then tdi else (clock tms tdi s).1 := by
  have hdrive : drivePins tms tdi s = s.setMpsse (s.mpsse.pins tms tdi) := rfl
  rw [clockPin, hdrive, clock_setMpsse]
  rfl

/-- Settles O14: the meanings are these field writes by definition; under loopback the sample is the pin's level. -/
theorem configurationCommands : Obligations.ConfigurationCommands := by
  intro s
  refine ⟨rfl, rfl, rfl, rfl, rfl, fun _ => rfl, fun _ _ => ⟨rfl, rfl⟩, rfl, rfl, rfl, rfl, rfl, fun _ => rfl, fun _ _ => rfl,
    fun _ _ => rfl, fun hon tms tdi => ?_, fun hoff tms tdi => ?_⟩
  · rw [clockPin_sample, if_pos hon]
  · rw [clockPin_sample, if_neg (Bool.eq_false_iff.1 hoff)]

/-- Settles O15: the bytes of the table are the first bytes that the decoder knows. -/
theorem badCommandAnswered : Obligations.BadCommandAnswered := by
  intro op rest s hop
  have hunknown : mpsseOpcodes.contains op = false := by
    rw [List.contains_eq_mem]
    exact decide_eq_false hop
  exact ⟨decodeMpsse_badCommand hunknown rest, rfl⟩

end Sys2Proof.Machine
end

section
/-! A step at the front of the MPSSE engine's input (R160, R335): a whole command is executed; one whose length byte has no
described effect is as long as its first byte says, and its effect is free. -/

namespace Sys2Proof.Machine

open Sys2Proof

/-! ## What a rejected command takes -/

/-- Behind the first byte `op`, a rejected command takes the bytes its first byte announces (R98). -/
def RejectsWhole (op : Byte) (read : List Byte → MpsseDecode) : Prop :=
  ∀ xs e rest, read xs = .rejected e rest → rest = (op :: xs).drop (commandLength (op :: xs))

theorem RejectsWhole.lenByte {op : Byte} (ok : Byte → Bool) (mk : Byte → Byte → Instr)
    (hlen : ∀ xs, commandLength (op :: xs) = 3) : RejectsWhole op (decodeLenByte ok mk) := by
  intro xs e rest h
  match xs with
  | [] | [_] => exact nomatch h
  | l :: b :: ys =>
    rw [decodeLenByte] at h
    split at h <;> cases h
    rw [hlen]
    rfl

theorem RejectsWhole.len {op : Byte} (mk : Byte → Instr) (hlen : ∀ xs, commandLength (op :: xs) = 2) :
    RejectsWhole op (decodeLen mk) := by
  intro xs e rest h
  match xs with
  | [] => exact nomatch h
  | l :: ys =>
    rw [decodeLen] at h
    split at h <;> cases h
    rw [hlen]
    rfl

theorem RejectsWhole.bytes (op : Byte) (mk : List Byte → Instr) : RejectsWhole op (decodeBytes mk) := by
  intro xs e rest h
  match xs with
  | [] | [_] => exact nomatch h
  | lo :: hi :: ys =>
    rw [decodeBytes] at h
    split at h <;> exact nomatch h

theorem RejectsWhole.pair (op : Byte) (mk : Byte → Byte → Instr) : RejectsWhole op (decodePair mk) := by
  intro xs e rest h
  match xs with
  | [] | [_] | _ :: _ :: _ => exact nomatch h

theorem RejectsWhole.single (op : Byte) (i : Instr) : RejectsWhole op (.command i) :=
  fun _ _ _ h => nomatch h

theorem decodeMpsse_rejectsWhole (op : Byte) : RejectsWhole op fun xs => decodeMpsse (op :: xs) := by
  cases hop : mpsseOpcodes.contains op
  case false =>
    simp only [decodeMpsse_badCommand hop]
    exact .single op _
  case true =>
    simp only [mpsseOpcodes, List.contains_eq_mem, List.mem_cons, List.not_mem_nil, or_false, decide_eq_true_eq] at hop
    rcases hop with rfl | rfl | rfl | rfl | rfl | rfl | rfl | rfl | rfl | rfl | rfl | rfl | rfl | rfl | rfl | rfl
    · exact .lenByte tmsLengthOk .tmsOut fun _ => rfl
    · exact .lenByte tmsLengthOk .tmsOutRead fun _ => rfl
    · exact .lenByte bitsLengthOk .bitsOut fun _ => rfl
    · exact .lenByte bitsLengthOk .bitsInout fun _ => rfl
    · exact .len .bitsIn fun _ => rfl
    · exact .bytes _ .bytesOut
    · exact .bytes _ .bytesInout
    · exact .len .clkOnly fun _ => rfl
    iterate 5 exact .single _ _
    · exact .pair _ fun lo hi => .setDivisor (hi ++ lo)
    · exact .pair _ .setLowByte
    · exact .pair _ .setHighByte

theorem rest_of_rejected {bs rest : List Byte} {e : DecodeError} (h : decodeMpsse bs = .rejected e rest) :
    rest = bs.drop (commandLength bs) := by
  cases bs with
  | nil => exact nomatch h
  | cons op xs => exact decodeMpsse_rejectsWhole op xs e rest h

/-! ## The step -/

theorem step_of_command {s : State} {i : Instr} {rest : List Byte} (h : decodeMpsse s.mpsse.input = .command i rest) :
    step s = exec i (setInput rest s) := by
  rw [step, h]

theorem step_of_rejected {s : State} {e : DecodeError} {rest : List Byte} (h : decodeMpsse s.mpsse.input = .rejected e rest) :
    step s = .next (runUndescribed (setInput rest s)) := by
  rw [step, h]

/-- A command of no described effect, its bytes taken off the input (U16). -/
theorem runUndescribed_setInput (rest : List Byte) (s : State) :
    runUndescribed (setInput rest s) = (clocked (Config.undescribedClocks s.mpsse.undescribed) s).setMpsse
      { pinsAfter (Config.undescribedClocks s.mpsse.undescribed) s.mpsse with
        input := rest
        rxFifo := s.mpsse.rxFifo ++ Config.undescribedResponse s.mpsse.undescribed
        undescribed := s.mpsse.undescribed + 1 } := by
  have hinput : setInput rest s = s.setMpsse (s.mpsse.inp rest) := rfl
  rw [runUndescribed_eq, hinput, clocked_setMpsse, setMpsse_mpsse, pinsAfter_inp, setMpsse_setMpsse]
  rfl

/-- Settles O25: the step follows the decoder's answer; the free levels and bytes of an undescribed command are drawn by its
number. -/
theorem stepRunsTheDecodedCommand : Obligations.StepRunsTheDecodedCommand := by
  intro s
  refine ⟨fun i rest h => step_of_command h, fun e rest h => ⟨rest_of_rejected h,
    Config.undescribedClocks s.mpsse.undescribed, Config.undescribedResponse s.mpsse.undescribed, ?_⟩⟩
  rw [step_of_rejected h, runUndescribed_setInput, pinsAfter]
  cases (Config.undescribedClocks s.mpsse.undescribed).getLast? <;> rfl

end Sys2Proof.Machine
end

section
/-! The shifts, the last bits and the scans (R206 to R218): each emits its bytes where its operands are in range and
`tap_belief` is its start state, and is refused otherwise. -/

namespace Sys2Proof.Machine

open Sys2Proof

/-! ## A primitive's three ends -/

section
variable {s : State} (hs : s.engine.session ≠ none)
include hs

/-- A primitive in range at its start state emits its commands' bytes (R200). -/
theorem primitive_emitted {ok : Bool} {bad : Refusal} {start : Belief → Bool} (i : Instr) (after : Belief → Belief)
    (hok : ok = true) (hstart : start s.engine.tapBelief = true) : primitive ok bad start i after s =
      .next (emitted s ((commands i).flatMap encodeMpsse) ((commands i).map responses).sum (after s.engine.tapBelief)) := by
  rw [primitive, if_neg hs, if_neg (by rw [hok]; decide), if_neg (by rw [hstart]; decide)]
  rfl

/-- An operand out of range is the first refusal (R327). -/
theorem primitive_operand_refused {ok : Bool} (hok : ¬ ok = true) (bad : Refusal) (start : Belief → Bool) (i : Instr)
    (after : Belief → Belief) : primitive ok bad start i after s = .refused bad := by
  rw [primitive, if_neg hs, if_pos (Bool.eq_false_iff.2 hok)]

/-- In range, a primitive is refused from a belief that is not its start state (R327). -/
theorem primitive_start_refused {ok : Bool} {start : Belief → Bool} (hok : ok = true)
    (hstart : start s.engine.tapBelief = false) (bad : Refusal) (i : Instr) (after : Belief → Belief) :
    primitive ok bad start i after s = .refused .walkPrecondition := by
  rw [primitive, if_neg hs, if_neg (by rw [hok]; decide), if_pos hstart]

/-! ## The shifts and the clock count -/

theorem shift_emitted {ok : Bool} (hok : ok = true) (i : Instr) : shift ok i s =
    .next (emitted s ((commands i).flatMap encodeMpsse) ((commands i).map responses).sum s.engine.tapBelief) :=
  primitive_emitted hs i id hok rfl

theorem shift_refused {ok : Bool} (hok : ¬ ok = true) (i : Instr) : shift ok i s = .refused .countOutOfRange :=
  primitive_operand_refused hs hok _ _ i _

end

theorem bitCountOk_iff (c : Nat) : bitCountOk c = true ↔ 1 ≤ c ∧ c ≤ 8 := by
  rw [bitCountOk, Bool.and_eq_true, decide_eq_true_iff, decide_eq_true_iff]

theorem not_bitCountOk {c : Nat} (h : c = 0 ∨ 8 < c) : ¬ bitCountOk c = true := by
  rw [bitCountOk_iff]
  omega

/-- The bytes of a byte shift: its length bytes and the data (R209, R210). -/
theorem shiftBytesOut_bytes (d : List Byte) : (commands (.shiftBytesOut d)).flatMap encodeMpsse =
    [0x19, BitVec.ofNat 8 ((d.length - 1) % 256), BitVec.ofNat 8 ((d.length - 1) / 256)] ++ d := List.append_nil _

theorem shiftBytesInout_bytes (d : List Byte) : (commands (.shiftBytesInout d)).flatMap encodeMpsse =
    [0x39, BitVec.ofNat 8 ((d.length - 1) % 256), BitVec.ofNat 8 ((d.length - 1) / 256)] ++ d := List.append_nil _

/-- Settles O29: each shift is one command, whose bytes and responses are its own. -/
theorem shiftPrimitives : Obligations.ShiftPrimitives := by
  intro s hs
  refine ⟨fun c b h1 h8 => ?_, fun c b h => ?_, fun d h1 hmax => ?_, fun d h => ?_⟩
  · have hc := (bitCountOk_iff c).2 ⟨h1, h8⟩
    exact ⟨shift_emitted hs hc (.shiftBitsOut c b), shift_emitted hs hc (.shiftBitsInout c b),
      shift_emitted hs hc (.shiftBitsIn c), shift_emitted hs hc (.clockOnly c)⟩
  · have hc := not_bitCountOk h
    exact ⟨shift_refused hs hc _, shift_refused hs hc _, shift_refused hs hc _, shift_refused hs hc _⟩
  · have hd := (bytesLengthOk_iff d).2 ⟨h1, hmax⟩
    have hout := shift_emitted hs hd (.shiftBytesOut d)
    have hinout := shift_emitted hs hd (.shiftBytesInout d)
    rw [shiftBytesOut_bytes] at hout
    rw [shiftBytesInout_bytes] at hinout
    exact ⟨hout, hinout⟩
  · have hd := not_bytesLengthOk h
    exact ⟨shift_refused hs hd _, shift_refused hs hd _⟩

/-! ## The last bits -/

/-- The byte of a single TMS bit: TDI in bit 7, TMS in bit 0 (R101). -/
theorem lastBitByte_high (x : Bool) : lastBitByte x true = if x then 0x81 else 0x01 := by cases x <;> rfl

theorem lastBitByte_low (x : Bool) : lastBitByte x false = if x then 0x80 else 0x00 := by cases x <;> rfl

/-- Settles O30: a last bit is one command of one clock, and the belief moves with TMS high alone. -/
theorem lastBitPrimitives : Obligations.LastBitPrimitives := by
  intro x s hs
  have hemit (i : Instr) (t : Bool) := primitive_emitted hs (bad := .countOutOfRange) (start := fun _ => true) i
    (beliefAfterLastBit t) rfl rfl
  rw [← lastBitByte_high, ← lastBitByte_low]
  refine ⟨⟨beliefAfterLastBit true s.engine.tapBelief, hemit (.lastBitWithTms x true) true,
    hemit (.lastBitWithTmsRead x true) true, fun hir => ?_, fun hdr => ?_⟩,
    hemit (.lastBitWithTms x false) false, hemit (.lastBitWithTmsRead x false) false⟩
  · rw [hir]; rfl
  · rw [hdr]; rfl

/-! ## The scans -/

theorem scan_emitted {ok : Bool} {s : State} {t : TapState} (hs : s.engine.session ≠ none) (hok : ok = true)
    (hbelief : s.engine.tapBelief = .at t) (bad : Refusal) (u : TapState) (i : Instr) : scan ok bad t u i s =
      .next (emitted s ((commands i).flatMap encodeMpsse) ((commands i).map responses).sum (.at u)) :=
  primitive_emitted hs i (fun _ => .at u) hok (decide_eq_true hbelief)

theorem scan_refused {ok : Bool} {s : State} {t : TapState} (hs : s.engine.session ≠ none) (hok : ok = true)
    (hbelief : s.engine.tapBelief ≠ .at t) (bad : Refusal) (u : TapState) (i : Instr) :
    scan ok bad t u i s = .refused .walkPrecondition :=
  primitive_start_refused hs hok (decide_eq_false hbelief) bad i _

/-- Bit 5 of an opcode of 6 bits, by its value (R214). -/
theorem testBit_five {op : Nat} (h : op < 64) : op.testBit 5 = decide (32 ≤ op) := by
  rw [Nat.testBit_eq_decide_div_mod_eq]
  congr 1
  exact propext (by omega)

/-- A word is sent as an M-BYTES command of its four bytes (R215, R216). -/
theorem encodeMpsse_bytesOut_wordBytes (w : Word) :
    encodeMpsse (.bytesOut (wordBytes w)) = [0x19, 0x03, 0x00] ++ wordBytes w :=
  congrArg (fun len => [0x19] ++ len ++ wordBytes w) (lenBytes_wordBytes w)

theorem loadCmd_bytes (a : Word) (sz : BitVec 2) (rw : Bool) : (commands (.loadCmd a sz rw)).flatMap encodeMpsse =
    [0x19, 0x03, 0x00] ++ wordBytes a ++ [0x1B, 0x01, sz.setWidth 8, 0x4B, 0x00, lastBitByte rw true] :=
  congrArg (· ++ [0x1B, 0x01, sz.setWidth 8, 0x4B, 0x00, lastBitByte rw true]) (encodeMpsse_bytesOut_wordBytes a)

theorem writeData_bytes (d : Word) (seq : Bool) : (commands (.writeData d seq)).flatMap encodeMpsse =
    [0x19, 0x03, 0x00] ++ wordBytes d ++ [0x4B, 0x00, lastBitByte seq true] :=
  congrArg (· ++ [0x4B, 0x00, lastBitByte seq true]) (encodeMpsse_bytesOut_wordBytes d)

/-- Settles O31: each scan is its commands in a row, emitted from its Shift state. -/
theorem scanPrimitives : Obligations.ScanPrimitives := by
  intro s hs
  refine ⟨fun op hop hir => ?_, fun hdr => ⟨fun a sz rw hsz => ?_, fun d seq => ?_, ?_, fun x => ?_⟩,
    fun op hop hir => ?_, fun hdr => ⟨fun a sz rw hsz => ?_, fun d seq => ?_, ?_, fun x => ?_⟩⟩
  · have hbyte : (if 32 ≤ op then 0x81 else 0x01) = lastBitByte (op.testBit 5) true := by
      rw [lastBitByte_high, testBit_five hop]
      simp only [decide_eq_true_eq]
    rw [hbyte]
    exact scan_emitted hs (decide_eq_true hop) hir _ _ (.shiftIr op)
  · have hemit := scan_emitted hs (decide_eq_true hsz) hdr .reservedSize .ex1DR (.loadCmd a sz rw)
    rw [loadCmd_bytes, lastBitByte_high] at hemit
    exact hemit
  · have hemit := scan_emitted hs rfl hdr .walkPrecondition .ex1DR (.writeData d seq)
    rw [writeData_bytes, lastBitByte_high] at hemit
    exact hemit
  · exact scan_emitted hs rfl hdr _ _ .readData
  · rw [← lastBitByte_high]
    exact scan_emitted hs rfl hdr _ _ (.seqExit x)
  · exact scan_refused hs (decide_eq_true hop) hir _ _ _
  · exact scan_refused hs (decide_eq_true hsz) hdr _ _ _
  · exact scan_refused hs rfl hdr _ _ _
  · exact scan_refused hs rfl hdr _ _ _
  · exact scan_refused hs rfl hdr _ _ _

end Sys2Proof.Machine
end

section
/-! `Flush` and `ReadExactly` for every drawn outcome of their driver calls (R224, R225, R330). -/

namespace Sys2Proof.Machine

open Sys2Proof

/-! ## `Flush` by a caller -/

/-- The state in which a flush looks at its write's status: `outbuf` empty, its first k bytes delivered (R224). -/
def delivered (s : State) (k : Nat) : State :=
  { s with
    engine := { s.engine with outbuf := [] }
    mpsse := s.mpsse.inp (s.mpsse.input ++ s.engine.outbuf.take k)
    usb := s.usb.next }

section
variable {s : State}

/-- The outcome of the driver's next call (R330). -/
theorem driverCall_of_head {ev : DriverEvent} (h : s.usb.events.head? = some ev) : (driverCall s).1 = ev := by
  rw [driverCall_fst, List.headD_eq_head?_getD, h]
  rfl

/-- The outcome of a call past the end of the list is healthy. -/
theorem driverCall_of_nil (h : s.usb.events = []) : (driverCall s).1 = .healthy := by
  rw [driverCall_fst, h]
  rfl

/-- What a flush's write comes to: the bytes its outcome lets through are delivered. -/
theorem usbWrite_outbuf (s : State) : usbWrite s.engine.outbuf (clearOutbuf s) =
    ((driverCall s).1, delivered s ((driverCall s).1.sent s.engine.outbuf.length)) := rfl

/-- No more bytes are sent than are buffered. -/
theorem delivered_min (k : Nat) : delivered s (min k s.engine.outbuf.length) = delivered s k := by
  rw [delivered, delivered, ← List.take_eq_take_min]

variable (hs : s.engine.session ≠ none) (hne : s.engine.outbuf ≠ [])
include hs

theorem callFlush_eq : callFlush s = flushWith .ok s := if_neg hs

include hne

theorem callFlush_sent (hok : (driverCall s).1.failure = none)
    (hall : (driverCall s).1.sent s.engine.outbuf.length = s.engine.outbuf.length) :
    callFlush s = .ok (delivered s s.engine.outbuf.length) := by
  rw [callFlush_eq hs, flushWith, if_neg hne]
  simp only [usbWrite_outbuf, andThen_ok, hok, hall, if_true]

/-- A short count with an OK status is `ShortWrite`, its bytes delivered all the same (R328). -/
theorem callFlush_short {k : Nat} (hok : (driverCall s).1.failure = none)
    (hsent : (driverCall s).1.sent s.engine.outbuf.length = k) (hk : k < s.engine.outbuf.length) :
    callFlush s = .raised (raise (.shortWrite k s.engine.outbuf.length) (delivered s k)) := by
  rw [callFlush_eq hs, flushWith, if_neg hne]
  simp only [usbWrite_outbuf, andThen_ok, hok, hsent, hk.ne, if_false]

/-- A failure status is `TransportError`, whatever was sent (R328). -/
theorem callFlush_failed {st k : Nat} (h : (driverCall s).1 = .failed st k) :
    callFlush s = .raised (raise (.transportError st) (delivered s k)) := by
  rw [callFlush_eq hs, flushWith, if_neg hne]
  simp only [usbWrite_outbuf, h, andThen_ok, DriverEvent.failure, DriverEvent.sent, delivered_min]

end

theorem runCall_flush (s : State) : runCall .flush s = (callFlush s).outcome := rfl

/-- Settles O49, by the outcome of the one write. -/
theorem flushOutcomes : Obligations.FlushOutcomes := by
  intro s hs
  rw [runCall_flush]
  refine ⟨fun hnil => ?_, fun hne => ?_⟩
  · rw [callFlush_eq hs, flushWith, if_pos hnil]
    rfl
  intro n after
  refine ⟨fun hev => ?_, fun k hev hk => ?_, fun k hev hk => ?_, fun st k hev => ?_, fun hev => ?_⟩
  · have hcall : (driverCall s).1 = .healthy := hev.elim driverCall_of_nil driverCall_of_head
    rw [callFlush_sent hs hne (by rw [hcall]; rfl) (by rw [hcall]; rfl)]
    rfl
  · have hcall := driverCall_of_head hev
    rw [callFlush_sent hs hne (by rw [hcall]; rfl) (by rw [hcall]; exact min_eq_right hk)]
    rfl
  · have hcall := driverCall_of_head hev
    rw [callFlush_short hs hne (by rw [hcall]; rfl) (by rw [hcall]; exact min_eq_left hk.le) hk]
    rfl
  · rw [callFlush_failed hs hne (driverCall_of_head hev)]
    rfl
  · have hcall := driverCall_of_head hev
    rw [callFlush_short hs hne (by rw [hcall]; rfl) (by rw [hcall]; rfl) (List.length_pos_of_ne_nil hne)]
    rfl

end Sys2Proof.Machine
end

section
/-! A command of the MPSSE stream leaves the engine, the driver and the calls alone, answers with the bytes that `Emit` counts
(R200), and does not look at the bytes behind it (R160): so how the delivered bytes are cut makes no difference (R228). -/

namespace Sys2Proof.Machine

open Sys2Proof

/-! ## What a command leaves, and how many bytes it answers -/

/-- From s to t a command ran that answered with n bytes: everything but the target side, the pins and `rx_fifo` is as it was. -/
structure Answered (n : Nat) (s t : State) : Prop where
  response : ∃ rs : List Byte, t.mpsse.rxFifo = s.mpsse.rxFifo ++ rs ∧ rs.length = n
  engine : t.engine = s.engine
  usb : t.usb = s.usb
  calls : t.calls = s.calls
  params : t.params = s.params
  input : t.mpsse.input = s.mpsse.input

/-- Clocks leave all of it, so what the MPSSE engine becomes is all there is to see. -/
theorem Answered.of_clocked (p : List (Bool × Bool)) {s : State} {m : Mpsse} (rs : List Byte)
    (hrx : m.rxFifo = s.mpsse.rxFifo ++ rs) (hin : m.input = s.mpsse.input) :
    Answered rs.length s ((clocked p s).setMpsse m) :=
  ⟨⟨rs, hrx, rfl⟩, clocked_engine p s, clocked_usb p s, clocked_calls p s, clocked_params p s, hin⟩

theorem Answered.of_setMpsse {s : State} {m : Mpsse} (rs : List Byte) (hrx : m.rxFifo = s.mpsse.rxFifo ++ rs)
    (hin : m.input = s.mpsse.input) : Answered rs.length s (s.setMpsse m) :=
  Answered.of_clocked [] rs hrx hin

theorem clockOut_answered (p : List (Bool × Bool)) (s : State) : Answered 0 s (clockOut p s) := by
  rw [clockOut_eq]
  exact .of_clocked p [] (by simp) (by simp)

theorem clockBitsIn_answered (p : List (Bool × Bool)) (s : State) : Answered 1 s (clockBitsIn p s) := by
  rw [clockBitsIn_eq]
  exact .of_clocked p [_] rfl (by simp)

theorem clockBytesOut_answered (ds : List Byte) (s : State) : Answered 0 s (clockBytesOut ds s) := by
  rw [clockBytesOut_eq]
  exact .of_clocked _ [] (by simp) (by simp)

theorem clockBytesIn_answered (ds : List Byte) (s : State) : Answered ds.length s (clockBytesIn ds s) := by
  rw [clockBytesIn_eq]
  simpa only [byteResponses_length] using Answered.of_clocked (bytesPins s.mpsse.tmsPin ds)
    (m := (pinsAfter (bytesPins s.mpsse.tmsPin ds) s.mpsse).rx _)
    (byteResponses ds.length (samplesOf (bytesPins s.mpsse.tmsPin ds) s)) rfl (by simp)

/-- A command that runs is in its range. -/
theorem inRange_next {ok : Bool} {s t : State} (h : inRange ok s = .next t) : s = t := by
  unfold inRange at h
  split at h
  · exact Host.Outcome.next.inj h
  · exact nomatch h

/-- How many bytes a command answers with: as many as `Emit` counts, and two for a bad command (R176, R200). -/
def answers : Instr → Nat
  | .badCommand _ => 2
  | i => responses i

theorem runCommand_answered (i : Instr) {s t : State} (hmpsse : i.isMpsse = true) (h : runCommand i s = .next t) :
    Answered (answers i) s t := by
  cases i
  case tmsOut | bitsOut | clkOnly => exact inRange_next h ▸ clockOut_answered _ s
  case tmsOutRead | bitsInout | bitsIn => exact inRange_next h ▸ clockBitsIn_answered _ s
  case bytesOut d => exact inRange_next h ▸ clockBytesOut_answered d s
  case bytesInout d => exact inRange_next h ▸ clockBytesIn_answered d s
  case loopbackOn | loopbackOff | div5Off | adaptiveOff | threePhaseOff | setDivisor | setLowByte | setHighByte =>
    cases h
    exact .of_setMpsse [] (List.append_nil _).symm rfl
  case badCommand op =>
    cases h
    exact .of_setMpsse [0xFA, op] rfl rfl
  all_goals exact nomatch hmpsse

theorem answers_of_ne {i : Instr} (h : ∀ op, i ≠ .badCommand op) : answers i = responses i := by
  cases i
  case badCommand op => exact absurd rfl (h op)
  all_goals rfl

theorem exec_of_isMpsse {i : Instr} (h : i.isMpsse = true) (s : State) : exec i s = runCommand i s := by
  cases i
  case tmsOut | tmsOutRead | bitsOut | bitsInout | bitsIn | bytesOut | bytesInout | clkOnly | loopbackOn | loopbackOff
      | div5Off | adaptiveOff | threePhaseOff | setDivisor | setLowByte | setHighByte | badCommand => rfl
  all_goals exact nomatch h

/-- Settles O16: each command is clocks of the target and a change of the MPSSE engine's pins, fields and queue. -/
theorem responsesCounted : Obligations.ResponsesCounted := by
  intro i s t hmpsse hexec
  rw [exec_of_isMpsse hmpsse] at hexec
  obtain ⟨⟨rs, hrx, hlen⟩, hengine, husb, hcalls, hparams, hinput⟩ := runCommand_answered i hmpsse hexec
  refine ⟨⟨rs, hrx, fun hne => hlen.trans (answers_of_ne hne), fun op hop => ?_⟩, hengine, husb, hcalls, hparams, hinput⟩
  rw [hlen, hop, answers]

/-! ## A command does not look at the bytes behind it -/

theorem setInput_eq (bs : List Byte) (s : State) : setInput bs s = s.setMpsse (s.mpsse.inp bs) := rfl

theorem setInput_self (s : State) : setInput s.mpsse.input s = s := rfl

theorem setInput_setInput (as bs : List Byte) (s : State) : setInput as (setInput bs s) = setInput as s := rfl

section
variable (bs : List Byte) (s : State)

theorem clockOut_setInput (p : List (Bool × Bool)) : clockOut p (setInput bs s) = setInput bs (clockOut p s) := by
  simp [clockOut_eq, setInput_eq, clocked_setMpsse]

theorem samplesOf_setInput (p : List (Bool × Bool)) : samplesOf p (setInput bs s) = samplesOf p s :=
  samplesOf_setMpsse p s _ rfl

theorem clockBitsIn_setInput (p : List (Bool × Bool)) : clockBitsIn p (setInput bs s) = setInput bs (clockBitsIn p s) := by
  rw [clockBitsIn_eq, clockBitsIn_eq, samplesOf_setInput]
  simp [setInput_eq, clocked_setMpsse]

theorem clockBytesOut_setInput (ds : List Byte) : clockBytesOut ds (setInput bs s) = setInput bs (clockBytesOut ds s) := by
  simp [clockBytesOut_eq, setInput_eq, clocked_setMpsse]

theorem clockBytesIn_setInput (ds : List Byte) : clockBytesIn ds (setInput bs s) = setInput bs (clockBytesIn ds s) := by
  rw [clockBytesIn_eq, clockBytesIn_eq, samplesOf_setInput]
  simp [setInput_eq, clocked_setMpsse]

/-- The bytes behind an undescribed command stay behind it. -/
theorem runUndescribed_behind : runUndescribed (setInput bs s) = setInput bs (runUndescribed s) := by
  rw [runUndescribed_setInput, runUndescribed_eq]
  rfl

end

/-- The outcome with other bytes not yet executed. -/
def outcomeInput (bs : List Byte) : Host.Outcome State Fault Refusal → Host.Outcome State Fault Refusal
  | .next t => .next (setInput bs t)
  | .fault f => .fault f
  | .refused r => .refused r

theorem inRange_setInput (ok : Bool) (bs : List Byte) {s t : State} (h : t = setInput bs s) :
    inRange ok t = outcomeInput bs (inRange ok s) := by
  cases ok
  · rfl
  · exact congrArg _ h

theorem runCommand_setInput (i : Instr) (bs : List Byte) (s : State) :
    runCommand i (setInput bs s) = outcomeInput bs (runCommand i s) := by
  cases i
  case tmsOut | bitsOut | clkOnly => exact inRange_setInput _ bs (clockOut_setInput bs s _)
  case tmsOutRead | bitsInout | bitsIn => exact inRange_setInput _ bs (clockBitsIn_setInput bs s _)
  case bytesOut d => exact inRange_setInput _ bs (clockBytesOut_setInput bs s d)
  case bytesInout d => exact inRange_setInput _ bs (clockBytesIn_setInput bs s d)
  all_goals rfl

/-! ## The decoder takes the front of the stream (R98) -/

/-- What the decoder finds, with more bytes behind it. -/
def followedBy (q : List Byte) : MpsseDecode → MpsseDecode
  | .command i rest => .command i (rest ++ q)
  | .waiting => .waiting
  | .rejected e rest => .rejected e (rest ++ q)

/-- Where a whole command is found, more bytes behind it change nothing. -/
def ReadsFront (read : List Byte → MpsseDecode) : Prop :=
  ∀ xs q, read xs ≠ .waiting → read (xs ++ q) = followedBy q (read xs)

theorem ReadsFront.ite (c : Prop) [Decidable c] {f g : List Byte → MpsseDecode} (hf : ReadsFront f) (hg : ReadsFront g) :
    ReadsFront fun xs => if c then f xs else g xs := by
  intro xs q h
  by_cases hc : c
  · simp only [if_pos hc] at h ⊢
    exact hf xs q h
  · simp only [if_neg hc] at h ⊢
    exact hg xs q h

theorem ReadsFront.lenByte (ok : Byte → Bool) (mk : Byte → Byte → Instr) : ReadsFront (decodeLenByte ok mk) := by
  intro xs q h
  match xs with
  | [] | [_] => exact absurd rfl h
  | l :: b :: ys =>
    simp only [List.cons_append, decodeLenByte]
    cases ok l <;> rfl

theorem ReadsFront.len (mk : Byte → Instr) : ReadsFront (decodeLen mk) := by
  intro xs q h
  match xs with
  | [] => exact absurd rfl h
  | l :: ys =>
    simp only [List.cons_append, decodeLen]
    cases bitsLengthOk l <;> rfl

theorem ReadsFront.pair (mk : Byte → Byte → Instr) : ReadsFront (decodePair mk) := by
  intro xs q h
  match xs with
  | [] | [_] => exact absurd rfl h
  | _ :: _ :: _ => rfl

theorem ReadsFront.bytes (mk : List Byte → Instr) : ReadsFront (decodeBytes mk) := by
  intro xs q h
  match xs with
  | [] | [_] => exact absurd rfl h
  | lo :: hi :: ys =>
    simp only [List.cons_append, decodeBytes] at h ⊢
    by_cases hle : byteCount lo hi ≤ ys.length
    · have hle' : byteCount lo hi ≤ (ys ++ q).length := by rw [List.length_append]; omega
      rw [if_pos hle, if_pos hle', List.take_append_of_le_length hle, List.drop_append_of_le_length hle]
      rfl
    · exact absurd (if_neg hle) h

theorem ReadsFront.single (i : Instr) : ReadsFront (.command i) := fun _ _ _ => rfl

theorem decodeMpsse_readsFront : ReadsFront decodeMpsse := by
  intro xs q h
  cases xs with
  | nil => exact absurd rfl h
  | cons op xs =>
    have hread : ReadsFront fun xs => decodeMpsse (op :: xs) :=
      .ite _ (.lenByte _ _) <| .ite _ (.lenByte _ _) <| .ite _ (.lenByte _ _) <| .ite _ (.lenByte _ _) <|
      .ite _ (.len _) <| .ite _ (.bytes _) <| .ite _ (.bytes _) <| .ite _ (.len _) <|
      .ite _ (.single _) <| .ite _ (.single _) <| .ite _ (.single _) <| .ite _ (.single _) <| .ite _ (.single _) <|
      .ite _ (.pair _) <| .ite _ (.pair _) <| .ite _ (.pair _) (.single _)
    exact hread xs q h

theorem commandLength_pos (bs : List Byte) : 0 < commandLength bs := by
  unfold commandLength
  split
  · exact Nat.one_pos
  · split
    · omega
    · split
      · decide
      · split <;> decide

/-- A whole command takes at least one byte. -/
theorem rest_length_lt_of_command {bs rest : List Byte} {i : Instr} (h : decodeMpsse bs = .command i rest) :
    rest.length < bs.length := by
  obtain ⟨hmpsse, hwf, rfl⟩ := mpsseDecodeSound bs rest i h
  have hpos := commandLength_pos (encodeMpsse i)
  rw [commandLength_encodeMpsse i hmpsse hwf] at hpos
  rw [List.length_append]
  omega

theorem rest_length_lt_of_rejected {bs rest : List Byte} {e : DecodeError} (h : decodeMpsse bs = .rejected e rest) :
    rest.length < bs.length := by
  have hpos := commandLength_pos bs
  have hne : 0 < bs.length := by
    cases bs with
    | nil => exact nomatch h
    | cons => exact Nat.succ_pos _
  rw [rest_of_rejected h, List.length_drop]
  omega

/-! ## The loop -/

section
variable {s t : State} {i : Instr} {e : DecodeError} {rest : List Byte}

/-- A command takes its own bytes off the input and no other. -/
theorem runCommand_input (h : runCommand i (setInput rest s) = .next t) : t.mpsse.input = rest := by
  have hbehind := runCommand_setInput i rest (setInput rest s)
  rw [setInput_setInput, h] at hbehind
  exact congrArg (·.mpsse.input) (Host.Outcome.next.inj hbehind)

theorem runUndescribed_input (rest : List Byte) (s : State) : (runUndescribed (setInput rest s)).mpsse.input = rest := by
  rw [runUndescribed_behind]
  rfl

theorem drainFuel_of_waiting (n : Nat) (h : decodeMpsse s.mpsse.input = .waiting) : drainFuel n s = .ok s := by
  cases n with
  | zero => rfl
  | succ n => rw [drainFuel, h]

theorem drainFuel_of_command (n : Nat) (h : decodeMpsse s.mpsse.input = .command i rest)
    (hrun : runCommand i (setInput rest s) = .next t) : drainFuel (n + 1) s = drainFuel n t := by
  rw [drainFuel, h]
  simp only [hrun, Run.ofOutcome, andThen_ok]

theorem drainFuel_of_rejected (n : Nat) (h : decodeMpsse s.mpsse.input = .rejected e rest) :
    drainFuel (n + 1) s = drainFuel n (runUndescribed (setInput rest s)) := by
  rw [drainFuel, h]

/-- Fuel for every byte of the input is enough, since a command takes at least one. -/
theorem drainFuel_enough {n m : Nat} (hn : s.mpsse.input.length ≤ n) (hm : s.mpsse.input.length ≤ m) :
    drainFuel n s = drainFuel m s := by
  induction n generalizing m s with
  | zero =>
    have hwait : decodeMpsse s.mpsse.input = .waiting := by rw [List.eq_nil_of_length_eq_zero (Nat.le_zero.1 hn)]; rfl
    rw [drainFuel_of_waiting _ hwait, drainFuel_of_waiting _ hwait]
  | succ n ih =>
    cases hd : decodeMpsse s.mpsse.input with
    | waiting => rw [drainFuel_of_waiting _ hd, drainFuel_of_waiting _ hd]
    | command i rest =>
      have hlt := rest_length_lt_of_command hd
      obtain ⟨t, hrun⟩ := decoded_runs _ _ i (setInput rest s) hd
      obtain ⟨m, rfl⟩ := Nat.exists_eq_add_one_of_ne_zero (show m ≠ 0 by omega)
      have hinput := runCommand_input hrun
      rw [drainFuel_of_command n hd hrun, drainFuel_of_command m hd hrun]
      exact ih (by rw [hinput]; omega) (by rw [hinput]; omega)
    | rejected e rest =>
      have hlt := rest_length_lt_of_rejected hd
      obtain ⟨m, rfl⟩ := Nat.exists_eq_add_one_of_ne_zero (show m ≠ 0 by omega)
      have hinput := runUndescribed_input rest s
      rw [drainFuel_of_rejected n hd, drainFuel_of_rejected m hd]
      exact ih (by rw [hinput]; omega) (by rw [hinput]; omega)

theorem drain_of_waiting (h : decodeMpsse s.mpsse.input = .waiting) : drain s = .ok s := drainFuel_of_waiting _ h

/-- The loop runs the first command and goes on with the bytes behind it (R160). -/
theorem drain_of_command (h : decodeMpsse s.mpsse.input = .command i rest)
    (hrun : runCommand i (setInput rest s) = .next t) : drain s = drain t := by
  have hlt := rest_length_lt_of_command h
  have hinput := runCommand_input hrun
  rw [drain, drainFuel_enough le_rfl (Nat.le_succ _), drainFuel_of_command _ h hrun]
  exact drainFuel_enough (by rw [hinput]; omega) le_rfl

theorem drain_of_rejected (h : decodeMpsse s.mpsse.input = .rejected e rest) :
    drain s = drain (runUndescribed (setInput rest s)) := by
  have hlt := rest_length_lt_of_rejected h
  have hinput := runUndescribed_input rest s
  rw [drain, drainFuel_enough le_rfl (Nat.le_succ _), drainFuel_of_rejected _ h]
  exact drainFuel_enough (by rw [hinput]; omega) le_rfl

end

/-- A delivery that is executed, and then what follows behind the bytes it left waiting, is one delivery of both. -/
theorem drain_append {p : List Byte} (q : List Byte) {s t : State} (h : drain (setInput p s) = .ok t) :
    drain (setInput (t.mpsse.input ++ q) t) = drain (setInput (p ++ q) s) := by
  induction hn : p.length using Nat.strong_induction_on generalizing p s with
  | _ n ih =>
    subst hn
    cases hd : decodeMpsse p with
    | waiting =>
      rw [drain_of_waiting (s := setInput p s) hd] at h
      cases h
      rfl
    | command i rest =>
      have hfront : decodeMpsse (p ++ q) = .command i (rest ++ q) := by
        rw [decodeMpsse_readsFront p q (by rw [hd]; nofun), hd, followedBy]
      obtain ⟨u, hrun⟩ := decoded_runs _ _ i (setInput rest s) hd
      have hrun' : runCommand i (setInput (rest ++ q) s) = .next (setInput (rest ++ q) u) := by
        rw [← setInput_setInput _ rest, runCommand_setInput, hrun, outcomeInput]
      have hu : setInput rest u = u := runCommand_input hrun ▸ setInput_self u
      rw [drain_of_command (s := setInput p s) hd hrun, ← hu] at h
      rw [drain_of_command (s := setInput (p ++ q) s) hfront hrun']
      exact ih rest.length (rest_length_lt_of_command hd) h rfl
    | rejected e rest =>
      have hfront : decodeMpsse (p ++ q) = .rejected e (rest ++ q) := by
        rw [decodeMpsse_readsFront p q (by rw [hd]; nofun), hd, followedBy]
      rw [drain_of_rejected (s := setInput p s) hd, setInput_setInput, runUndescribed_behind] at h
      rw [drain_of_rejected (s := setInput (p ++ q) s) hfront, setInput_setInput, runUndescribed_behind]
      exact ih rest.length (rest_length_lt_of_rejected hd) h rfl

/-- Settles O27, by induction on the first part's commands. -/
theorem flushDivisionInvisible : Obligations.FlushDivisionInvisible := fun _ q _ _ h => drain_append q h

end Sys2Proof.Machine
end

section
/-! The leading reset (R201): five clocks with TMS high, which pass Update-DR at most once. -/

namespace Sys2Proof.Machine

open Sys2Proof

/-- Clocks count themselves (R140). -/
theorem clocked_clockCount (p : List (Bool × Bool)) (s : State) :
    (clocked p s).target.clockCount = s.target.clockCount + p.length := by
  induction p generalizing s with
  | nil => rfl
  | cons x p ih => rw [clocked, ih, clock_clockCount, List.length_cons]; omega

/-- One clock starts at most one transfer (R240). -/
theorem clock_log (tms tdi : Bool) (s : State) :
    ∃ l, (clock tms tdi s).2.ahbLog = s.ahbLog ++ l ∧ l.length ≤ 1 := by
  cases clock_ahb tms tdi s with
  | none hlog => exact ⟨[], hlog.trans (List.append_nil _).symm, Nat.zero_le 1⟩
  | read a sz hlog => exact ⟨_, hlog, le_rfl⟩
  | write a sz d stores hlog => exact ⟨_, hlog, le_rfl⟩

/-- Clocks start no more transfers than they enter Update-DR (R138, R240). -/
theorem clocked_log (p : List (Bool × Bool)) (s : State) :
    ∃ l, (clocked p s).ahbLog = s.ahbLog ++ l ∧ l.length ≤ (tapsOf p s).count .updDR := by
  induction p generalizing s with
  | nil => exact ⟨[], (List.append_nil _).symm, le_rfl⟩
  | cons x p ih =>
    obtain ⟨k, hk, hkcount⟩ := ih (clock x.1 x.2 s).2
    by_cases hupd : (clock x.1 x.2 s).2.target.tap = .updDR
    · obtain ⟨l, hl, hone⟩ := clock_log x.1 x.2 s
      refine ⟨l ++ k, by rw [clocked, hk, hl, List.append_assoc], ?_⟩
      rw [tapsOf, List.count_cons, hupd, List.length_append]
      simp only [beq_self_eq_true, if_true]
      omega
    · obtain ⟨-, hlog, -⟩ := clock_frame_of_ne_updDR hupd
      refine ⟨k, by rw [clocked, hk, hlog], hkcount.trans ?_⟩
      rw [tapsOf]
      exact List.count_le_count_cons

/-- Five TMS-high clocks enter Update-DR at most once, from every state (R132). -/
theorem tapPath_five_high_updDR (t : TapState) : (tapPath (List.replicate 5 true) t).count .updDR ≤ 1 := by
  cases t <;> decide

theorem leadingReset_tap (s : State) : (leadingReset s).target.tap = .tlr := by
  obtain ⟨htlr, -⟩ := (fiveTmsHighReachTlr (List.replicate 5 false) s).1 rfl
  exact htlr

theorem leadingReset_ir (s : State) : (leadingReset s).target.ir = s.params.idcodeOpcode :=
  clocked_ir_of_tlr (List.cons_ne_nil _ _) (leadingReset_tap s)

theorem leadingReset_clockCount (s : State) : (leadingReset s).target.clockCount = s.target.clockCount + 5 :=
  clocked_clockCount fiveHigh s

/-- The command that `reset_to_tlr` emits does the leading reset. -/
theorem ran_reset (s : State) : ran (.tmsOut 0x04 0x3F) s = (leadingReset s).setMpsse (s.mpsse.pins true false) :=
  ran_tmsOut _ _ s rfl

/-- Where five TMS-high clocks pass no Update-DR, the reset moves the TAP and sets the instruction registers alone (R135). -/
theorem leadingReset_quiet {s : State} (h : scanFree s = true) : ∃ r : BitVec 6, leadingReset s = s.setTarget { s.target with
    tap := .tlr, ir := s.params.idcodeOpcode, irsr := r, clockCount := s.target.clockCount + 5 } := by
  obtain ⟨r, hr⟩ := ran_reset_quiet s h
  rw [ran_reset] at hr
  have hmpsse : (leadingReset s).setMpsse s.mpsse = leadingReset s :=
    (congrArg _ (clocked_mpsse fiveHigh s).symm).trans (setMpsse_self _)
  exact ⟨r, hmpsse.symm.trans (congrArg (State.setMpsse · s.mpsse) hr)⟩

/-- Settles O36, from the states that the five clocks pass. -/
theorem leadingResetIsQuiet : Obligations.LeadingResetIsQuiet := by
  intro s
  refine ⟨leadingReset_tap s, leadingReset_ir s, leadingReset_clockCount s, fun hwf => ((clocked_moves fiveHigh s).keeps hwf).wf,
    ?_, leadingReset_quiet⟩
  obtain ⟨l, hlog, hcount⟩ := clocked_log fiveHigh s
  have hone : l.length ≤ 1 := hcount.trans (tapsOf_eq_tapPath fiveHigh s ▸ tapPath_five_high_updDR s.target.tap)
  match l, hone with
  | [], _ => exact .inl (hlog.trans (List.append_nil _))
  | [x], _ => exact .inr ⟨x, hlog⟩

end Sys2Proof.Machine
end

section
/-! `ReadExactly` for every drawn outcome of its poll and of its read (R225, R330). -/

namespace Sys2Proof.Machine

open Sys2Proof

section
variable {s : State} {n k st : Nat}

/-! ## The outcomes drawn -/

/-- The driver's next call has the outcome `ev`, and those behind it are `rest`. -/
structure Draws (s : State) (ev : DriverEvent) (rest : List DriverEvent) : Prop where
  outcome : (driverCall s).1 = ev
  next : s.usb.next = { s.usb with events := rest, calls := s.usb.calls + 1 }

theorem Draws.of_cons {ev : DriverEvent} {rest : List DriverEvent} (h : s.usb.events = ev :: rest) : Draws s ev rest :=
  ⟨driverCall_of_head (by rw [h]; rfl), by rw [Usb.next, h]; rfl⟩

/-- Past the end of the list a call is healthy (R330). -/
theorem Draws.of_nil (h : s.usb.events = []) : Draws s .healthy [] := ⟨driverCall_of_nil h, by rw [Usb.next, h]; rfl⟩

theorem Draws.of_healthy {rest : List DriverEvent}
    (h : (s.usb.events = [] ∧ rest = []) ∨ s.usb.events = .healthy :: rest) : Draws s .healthy rest := by
  obtain ⟨hnil, rfl⟩ | hcons := h
  · exact .of_nil hnil
  · exact .of_cons hcons

/-- What is drawn behind the next call. -/
theorem Draws.second {ev ev' : DriverEvent} {rest more : List DriverEvent} (h : Draws s ev rest)
    (h' : Draws (s.setUsb { s.usb with events := rest, calls := s.usb.calls + 1 }) ev' more) :
    (driverCall (s.setUsb s.usb.next)).1 = ev'
    ∧ (s.setUsb s.usb.next).usb.next = { s.usb with events := more, calls := s.usb.calls + 2 } := by
  rw [h.next]
  exact ⟨h'.outcome, h'.next⟩

/-! ## The poll -/

theorem readExactly_poll_failed (h : (driverCall s).1 = .failed st k) :
    readExactly n s = .raised (raise (.queueStatusFailed st) (s.setUsb s.usb.next)) := by
  simp only [readExactly, pollQueue, h, driverCall_snd]

theorem readExactly_poll_timedOut (h : (driverCall s).1 = .timedOut) :
    readExactly n s = .raised (raise .timeout (s.setUsb s.usb.next)) := by
  simp only [readExactly, pollQueue, h, driverCall_snd]

/-- A healthy poll of an empty queue ends in `Timeout` (R225; log entry 39). -/
theorem readExactly_poll_empty (h : (driverCall s).1 = .healthy) (hrx : s.mpsse.rxFifo = []) :
    readExactly n s = .raised (raise .timeout (s.setUsb s.usb.next)) := by
  simp only [readExactly, pollQueue, h, driverCall_snd, setUsb_mpsse, hrx, if_true]

/-- A poll that shows no byte is followed by another (R225). -/
theorem readExactly_poll_again {rest : List DriverEvent} (h : s.usb.events = .count k :: rest)
    (hk : min k s.mpsse.rxFifo.length = 0) : readExactly n s = readExactly n (s.setUsb s.usb.next) := by
  have hcall : (driverCall s).1 = .count k := driverCall_of_head (by rw [h]; rfl)
  have hfuel : s.usb.events.length = (s.setUsb s.usb.next).usb.events.length + 1 := by
    rw [setUsb_usb, Usb.next, h]
    rfl
  rw [readExactly, pollQueue]
  simp only [hcall, driverCall_snd, setUsb_mpsse, hk, if_true]
  rw [hfuel, readExactly]

/-- A read that comes to its end takes the expectation to 0 (R225). -/
def expectNone : ReadRun → ReadRun
  | .got bs s => .got bs (s.setEngine { s.engine with expectRx := 0 })
  | .raised s => .raised s

/-- The driver's next outcome is a poll that shows a byte of a queue that holds one (R330). -/
def ShowsByte (s : State) : Prop := (driverCall s).1 = .healthy ∨ ∃ k, 1 ≤ k ∧ (driverCall s).1 = .count k

theorem readExactly_polled (h : ShowsByte s) (hrx : s.mpsse.rxFifo ≠ []) :
    readExactly n s = expectNone (usbRead n (s.setUsb s.usb.next)) := by
  have hpoll (fuel : Nat) : pollQueue (fuel + 1) s = .ready (s.setUsb s.usb.next) := by
    have hlen := List.length_pos_of_ne_nil hrx
    obtain h | ⟨k, hk, h⟩ := h
    · simp only [pollQueue, h, driverCall_snd, setUsb_mpsse, hrx, if_false]
    · have hmin : min k s.mpsse.rxFifo.length ≠ 0 := by omega
      simp only [pollQueue, h, driverCall_snd, setUsb_mpsse, hmin, if_false]
  simp only [readExactly, hpoll]
  cases usbRead n (s.setUsb s.usb.next) <;> rfl

/-! ## The read -/

theorem usbRead_failed (h : (driverCall s).1 = .failed st k) :
    usbRead n s = .raised (raise (.transportError st) (s.setUsb s.usb.next)) := by
  simp only [usbRead, h, driverCall_snd]

theorem usbRead_timedOut (h : (driverCall s).1 = .timedOut) :
    usbRead n s = .raised (raise .timeout (s.setUsb s.usb.next)) := by
  simp only [usbRead, h, driverCall_snd]

/-- The driver's next outcome moves at most k bytes of the n asked for; a healthy one moves them all (R330). -/
def Moves (s : State) (n k : Nat) : Prop := (driverCall s).1 = .healthy ∧ k = n ∨ (driverCall s).1 = .count k

/-- The state behind a driver call that took k bytes of `rx_fifo`. -/
def afterRead (k : Nat) (s : State) : State :=
  (s.setUsb s.usb.next).setMpsse (s.mpsse.rx (s.mpsse.rxFifo.drop k))

theorem usbRead_of_moves (h : Moves s n k) : usbRead n s = readChecked n (min k n) (s.setUsb s.usb.next) := by
  obtain ⟨h, rfl⟩ | h := h
  · simp only [usbRead, h, driverCall_snd, min_self]
  · simp only [usbRead, h, driverCall_snd]

/-- A read of fewer bytes than were asked for is `ShortRead`, and what it took is gone (R225, R328). -/
theorem usbRead_short (h : Moves s n k) (hlt : min k s.mpsse.rxFifo.length < n) :
    usbRead n s = .raised (raise (.shortRead (min k s.mpsse.rxFifo.length) n) (afterRead k s)) := by
  have hlen : (s.mpsse.rxFifo.take (min k n)).length = min k s.mpsse.rxFifo.length := by
    rw [List.length_take]
    omega
  have hdrop : s.mpsse.rxFifo.drop (min k n) = s.mpsse.rxFifo.drop k := by
    by_cases hk : k ≤ n
    · rw [min_eq_left hk]
    · rw [List.drop_of_length_le (by omega), List.drop_of_length_le (by omega)]
  simp only [usbRead_of_moves h, readChecked, takeRx, setUsb_mpsse, hlen, hlt, if_true, hdrop]
  rfl

/-- A read of all the bytes asked for takes the oldest (R225). -/
theorem usbRead_got (h : Moves s n k) (hle : n ≤ min k s.mpsse.rxFifo.length) :
    usbRead n s = .got (s.mpsse.rxFifo.take n) (afterRead n s) := by
  have hmin : min k n = n := by omega
  have hlen : ¬ (s.mpsse.rxFifo.take n).length < n := by
    rw [List.length_take]
    omega
  simp only [usbRead_of_moves h, readChecked, takeRx, setUsb_mpsse, hmin, hlen, if_false]
  rfl

/-! ## By a caller -/

variable {t : State} {bs : List Byte} (hs : s.engine.session ≠ none)
include hs

theorem runCall_readExactly_mismatch (h : n ≠ s.engine.expectRx) :
    runCall (.readExactly n) s = .refused .readCountMismatch := by
  rw [runCall, callReadExactly, if_neg hs, if_pos h]
  rfl

/-- What a caller's read answers: the bytes, or the error raised. -/
def readAnswer : ReadRun → Run
  | .got bs s => .ok (setReturned (.bytes bs) s)
  | .raised s => .raised s

theorem runCall_readExactly (hn : n = s.engine.expectRx) :
    runCall (.readExactly n) s = (readAnswer (readExactly n s)).outcome := by
  rw [runCall, callReadExactly, if_neg hs, if_neg (not_not_intro hn)]
  cases readExactly n s <;> rfl

theorem runCall_readExactly_raised (h : readExactly s.engine.expectRx s = .raised t) :
    runCall (.readExactly s.engine.expectRx) s = .next t := by
  rw [runCall_readExactly hs rfl, h]
  rfl

theorem runCall_readExactly_again {rest : List DriverEvent} (h : s.usb.events = .count k :: rest)
    (hk : min k s.mpsse.rxFifo.length = 0) :
    runCall (.readExactly s.engine.expectRx) s = runCall (.readExactly s.engine.expectRx) (s.setUsb s.usb.next) := by
  have hnext : (s.setUsb s.usb.next).engine.session ≠ none := hs
  rw [runCall_readExactly hs rfl, runCall_readExactly (n := s.engine.expectRx) hnext rfl, readExactly_poll_again h hk]

variable (hpoll : ShowsByte s) (hrx : s.mpsse.rxFifo ≠ [])
include hpoll hrx

/-- Behind a poll that shows a byte, a call raises what its read raises. -/
theorem runCall_readExactly_read_raised (h : usbRead s.engine.expectRx (s.setUsb s.usb.next) = .raised t) :
    runCall (.readExactly s.engine.expectRx) s = .next t := by
  refine runCall_readExactly_raised hs ?_
  rw [readExactly_polled hpoll hrx, h, expectNone]

theorem runCall_readExactly_read_got (h : usbRead s.engine.expectRx (s.setUsb s.usb.next) = .got bs t) :
    runCall (.readExactly s.engine.expectRx) s =
      .next (setReturned (.bytes bs) (t.setEngine { t.engine with expectRx := 0 })) := by
  rw [runCall_readExactly hs rfl, readExactly_polled hpoll hrx, h]
  rfl

end

end Sys2Proof.Machine
end

section
/-! An action list run in stretches of primitives with a flush behind each, whatever the driver's later outcomes are: what an
operation that reads one word comes to up to its read, and from there on. -/

namespace Sys2Proof.Machine

open Sys2Proof

theorem clocked_around (p : List (Bool × Bool)) (s : State) (e : Engine) (m : Mpsse) (u : Usb) (c : List Call) :
    clocked p (s.around e m u c) = (clocked p s).around e m u c := by
  induction p generalizing s with
  | nil => rfl
  | cons x p ih => rw [clocked, clocked, clock_around, ih]

theorem ranAll_mpsse_input {cs : List Instr} (hcs : cs.all engineCommand = true) (s : State) :
    (ranAll cs s).mpsse.input = s.mpsse.input :=
  congrArg (·.mpsse.input) (ranAll_input cs s hcs s.mpsse.input)

/-! ## A stretch of primitives -/

/-- `tap_belief` behind primitives in a row, each in range and at its start state. -/
def believed : List Instr → Belief → Option Belief
  | [], b => some b
  | i :: is, b => (primStep i b).bind (believed is)

theorem believed_cons {i : Instr} {is : List Instr} {b b' : Belief} (h : believed (i :: is) b = some b') :
    ∃ b₁, primStep i b = some b₁ ∧ believed is b₁ = some b' := Option.bind_eq_some_iff.1 h

/-- The commands that primitives in a row emit are the engine's. -/
theorem believed_commands {is : List Instr} {b b' : Belief} (h : believed is b = some b') :
    (is.flatMap commands).all engineCommand = true := by
  induction is generalizing b with
  | nil => rfl
  | cons i is ih =>
    obtain ⟨b₁, hi, his⟩ := believed_cons h
    rw [List.flatMap_cons, List.all_append, (primStep_commands i b b₁ hi).1, ih his, Bool.and_self]

theorem believed_commands_ne_nil {is : List Instr} {b b' : Belief} (h : believed is b = some b') (hne : is ≠ []) :
    is.flatMap commands ≠ [] := by
  obtain ⟨i, is, rfl⟩ := List.exists_cons_of_ne_nil hne
  obtain ⟨b₁, hi, -⟩ := believed_cons h
  rw [List.flatMap_cons]
  exact List.append_ne_nil_of_left_ne_nil (primStep_commands i b b₁ hi).2 _

/-- Primitives in a row buffer their commands' bytes, and count their responses (R200). -/
theorem runActions_emits {is : List Instr} {b : Belief} {s : State} (hs : s.engine.session ≠ none)
    (h : believed is s.engine.tapBelief = some b) (rest : List Action) :
    runActions (is.map .emit ++ rest) s = runActions rest
      (s.book (s.engine.outbuf ++ (is.flatMap commands).flatMap encodeMpsse)
        (s.engine.expectRx + ((is.flatMap commands).map responses).sum) (s.engine.pos + is.length) b s.usb s.calls) := by
  induction is generalizing s with
  | nil =>
    cases h
    simp only [List.flatMap_nil, List.append_nil]
    rfl
  | cons i is ih =>
    obtain ⟨b₁, hi, his⟩ := believed_cons h
    have hemit : nextPos (setBelief b₁ (emit (commands i) s)) =
        s.book (s.engine.outbuf ++ (commands i).flatMap encodeMpsse)
          (s.engine.expectRx + ((commands i).map responses).sum) (s.engine.pos + 1) b₁ s.usb s.calls := rfl
    rw [List.map_cons, List.cons_append, runActions, runAction, runPrimitive_emits i s b₁ hs hi, Run.ofOutcome, andThen_ok,
      hemit, ih (by exact hs) his, List.flatMap_cons, List.flatMap_append, List.map_append, List.sum_append,
      ← List.append_assoc, ← Nat.add_assoc, List.length_cons, Nat.add_comm is.length 1, ← Nat.add_assoc]
    rfl

/-- A flush whose write is healthy runs the buffered commands, whatever the driver's later outcomes (R224, R160). -/
theorem flush_runs {cs : List Instr} {s : State} (hcs : cs.all engineCommand = true) (hne : cs ≠ [])
    (hbuf : s.engine.outbuf = cs.flatMap encodeMpsse) (hcall : (driverCall s).1 = .healthy) (hin : s.mpsse.input = []) :
    flush s = .ok ((ranAll cs s).book [] s.engine.expectRx s.engine.pos s.engine.tapBelief s.usb.next s.calls) := by
  have hout : s.engine.outbuf ≠ [] := fun h => hne (encode_nil cs hcs (hbuf.symm.trans h))
  have hbooked : delivered s s.engine.outbuf.length = setInput (cs.flatMap encodeMpsse)
      (s.book [] s.engine.expectRx s.engine.pos s.engine.tapBelief s.usb.next s.calls) := by
    rw [delivered, hin, List.take_length, hbuf]
    rfl
  have hran : setInput [] (ranAll cs s) = ranAll cs s := by
    rw [← hin, ← ranAll_mpsse_input hcs]
    rfl
  have hdrain : drain (delivered s s.engine.outbuf.length) =
      .ok ((ranAll cs s).book [] s.engine.expectRx s.engine.pos s.engine.tapBelief s.usb.next s.calls) := by
    rw [hbooked, drain_commands cs [] _ hcs rfl (List.append_nil _).symm, ranAll_input _ _ hcs, setInput_setInput,
      ranAll_book _ _ _ _ _ _ _ _ hcs, ← hran]
    rfl
  rw [flush, flushWith, if_neg hout]
  simp only [usbWrite_outbuf, hcall, DriverEvent.sent, hdrain, andThen_ok, DriverEvent.failure, if_true]

/-- Primitives in a row and a flush whose write is healthy. -/
theorem runActions_stretch {is : List Instr} {b : Belief} {s : State} (hs : s.engine.session ≠ none) (hne : is ≠ [])
    (hbuf : s.engine.outbuf = []) (hin : s.mpsse.input = []) (hcall : (driverCall s).1 = .healthy)
    (h : believed is s.engine.tapBelief = some b) (rest : List Action) :
    runActions (is.map .emit ++ .flush :: rest) s = runActions rest
      ((ranAll (is.flatMap commands) s).book [] (s.engine.expectRx + ((is.flatMap commands).map responses).sum)
        (s.engine.pos + is.length + 1) b s.usb.next s.calls) := by
  have hcs := believed_commands h
  have hflush := flush_runs (s := s.book (s.engine.outbuf ++ (is.flatMap commands).flatMap encodeMpsse)
      (s.engine.expectRx + ((is.flatMap commands).map responses).sum) (s.engine.pos + is.length) b s.usb s.calls)
    hcs (believed_commands_ne_nil h hne) (by rw [hbuf]; rfl) hcall hin
  rw [runActions_emits hs h, runActions, runAction, hflush, ranAll_book _ _ _ _ _ _ _ _ hcs]
  rfl

/-! ## One word fetched -/

/-- The list of an operation that reads one word: primitives, the word, and the trailing reset (R219, R249). -/
def fetch (is : List Instr) : List Action :=
  is.map .emit ++ .flush :: .readWord :: ([.resetToTlr].map .emit ++ .flush :: [])

theorem runActions_readWord_raised {s t : State} (h : readExactly 4 s = .raised t) (rest : List Action) :
    runActions (.readWord :: rest) s = .raised t := by
  rw [runActions, runAction, h, andThen_raised]

theorem runActions_readWord_got {bs : List Byte} {s t : State} (h : readExactly 4 s = .got bs t) (rest : List Action) :
    runActions (.readWord :: rest) s = runActions rest (nextPos (appendOut (bytesWord bs) t)) := by
  rw [runActions, runAction, h, andThen_ok]

section
variable (is : List Instr) (b : Belief) (s : State)

/-- What an operation's commands do to the target and the MPSSE engine. -/
def commanded : State := ranAll (is.flatMap commands) (issue s)

/-- The state an operation that reads one word is in before its read: its commands have run, the position is at the read. -/
def atRead : State :=
  (commanded is s).around
    { s.engine with outbuf := [], expectRx := ((is.flatMap commands).map responses).sum, pos := is.length + 1, out := [],
                    progress := [], tapBelief := b }
    (commanded is s).mpsse s.usb.next s.calls

/-- The word that a read of four bytes takes from `rx_fifo` (R226). -/
def oldestWord (s : State) : Word := bytesWord (s.mpsse.rxFifo.take 4)

/-- The state behind that read, where the driver is healthy and the word's bytes are there. -/
def behindRead : State :=
  (commanded is s).around
    { s.engine with outbuf := [], expectRx := 0, pos := is.length + 2, out := [oldestWord (commanded is s)], progress := [],
                    tapBelief := b }
    ((commanded is s).mpsse.rx ((commanded is s).mpsse.rxFifo.drop 4)) { s.usb with calls := s.usb.calls + 3 } s.calls

/-- The state that an operation which read one word leaves: the word taken from `rx_fifo`, the target reset, the engine at
rest. -/
def fetched (ret : Returned) : State :=
  (leadingReset (commanded is s)).around
    { s.engine with outbuf := [], expectRx := 0, pos := is.length + 4, out := [oldestWord (commanded is s)], progress := [],
                    tapBelief := .at .tlr, returned := ret }
    (((commanded is s).mpsse.rx ((commanded is s).mpsse.rxFifo.drop 4)).pins true false)
    { s.usb with calls := s.usb.calls + 4 } s.calls

end

section
variable {is : List Instr} {b : Belief} {s : State} (hs : s.engine.session ≠ none) (hin : s.mpsse.input = [])
  (hne : is ≠ []) (hbelief : believed is s.engine.tapBelief = some b)
include hs hin hne hbelief

/-- Up to the read, with the first write healthy. -/
theorem runActions_fetch (hcall : (driverCall s).1 = .healthy) : runActions (fetch is) (issue s) =
    runActions (.readWord :: ([.resetToTlr].map .emit ++ .flush :: [])) (atRead is b s) := by
  have hrun := runActions_stretch (s := issue s) hs hne rfl hin hcall hbelief
    (.readWord :: ([.resetToTlr].map .emit ++ .flush :: []))
  rw [fetch, hrun, atRead, State.book, ranAll_engine _ _ (believed_commands hbelief)]
  simp only [issue, setEngine_engine, Nat.zero_add]
  rfl

/-- Where the read raises an error, so does the operation. -/
theorem operation_fetch_raised (hcall : (driverCall s).1 = .healthy) {t : State}
    (h : readExactly 4 (atRead is b s) = .raised t) (result : List Word → Returned) :
    operation (fetch is) result s = .next t := by
  rw [operation, runActions_fetch hs hin hne hbelief hcall, runActions_readWord_raised h]
  rfl

end

/-- A healthy call leaves the driver as it was, one call later. -/
theorem usb_next_of_nil {u : Usb} (h : u.events = []) : u.next = { u with calls := u.calls + 1 } := by
  rw [Usb.next, h, List.tail_nil, ← h]

theorem runActions_read (is : List Instr) (b : Belief) {s : State} (hev : s.usb.events = [])
    (hrx : 4 ≤ (commanded is s).mpsse.rxFifo.length) (rest : List Action) :
    runActions (.readWord :: rest) (atRead is b s) = runActions rest (behindRead is b s) := by
  have hnext := usb_next_of_nil hev
  have hread := readExactly_healthy 4 (atRead is b s) (by rw [atRead, hnext]; exact hev) hrx (by decide)
  rw [runActions_readWord_got hread, atRead, hnext]
  rfl

/-- The trailing reset and its flush. -/
theorem runActions_trailing_reset {is : List Instr} (b : Belief) {s : State} (hs : s.engine.session ≠ none)
    (hin : (commanded is s).mpsse.input = []) (hev : s.usb.events = []) :
    runActions ([.resetToTlr].map .emit ++ .flush :: []) (behindRead is b s) = .ok (fetched is s s.engine.returned) := by
  have hcall : (driverCall (behindRead is b s)).1 = .healthy := driverCall_of_nil hev
  have hrun := runActions_stretch (is := [.resetToTlr]) (b := .at .tlr) (s := behindRead is b s) hs (List.cons_ne_nil _ _) rfl
    hin hcall rfl []
  have hreset : ranAll ([Instr.resetToTlr].flatMap commands) (behindRead is b s) = _ := ran_reset (behindRead is b s)
  have hnext : (behindRead is b s).usb.next = { s.usb with calls := s.usb.calls + 4 } :=
    usb_next_of_nil (u := (behindRead is b s).usb) hev
  rw [hrun, hreset, hnext, leadingReset, behindRead, clocked_around]
  rfl

/-- Over a healthy driver, with a word's bytes queued behind its commands, the operation returns the oldest word. -/
theorem operation_fetch {is : List Instr} {b : Belief} {s : State} (hs : s.engine.session ≠ none) (hin : s.mpsse.input = [])
    (hne : is ≠ []) (hbelief : believed is s.engine.tapBelief = some b) (hev : s.usb.events = [])
    (hrx : 4 ≤ (commanded is s).mpsse.rxFifo.length) (result : List Word → Returned) :
    operation (fetch is) result s = .next (fetched is s (result [oldestWord (commanded is s)])) := by
  have hcmdin : (commanded is s).mpsse.input = [] := (ranAll_mpsse_input (believed_commands hbelief) _).trans hin
  rw [operation, runActions_fetch hs hin hne hbelief (driverCall_of_nil hev), runActions_read is b hev hrx,
    runActions_trailing_reset b hs hcmdin hev]
  rfl

end Sys2Proof.Machine
end

section
/-! `read_idcode` (R219): it reads the identification register, whose update does nothing, so the reset behind it is quiet. -/

namespace Sys2Proof.Machine

open Sys2Proof

/-- The leading reset touches the target side alone. -/
theorem leadingReset_eq (s : State) : leadingReset s =
    { s with
      target := (leadingReset s).target
      mem := (leadingReset s).mem
      ahbLog := (leadingReset s).ahbLog } := by
  have hparams : (leadingReset s).params = s.params := clocked_params fiveHigh s
  have haround : leadingReset s = (leadingReset s).around s.engine s.mpsse s.usb s.calls := clocked_around fiveHigh s _ _ _ _
  rw [← hparams]
  exact haround

theorem leadingReset_around (s : State) (e : Engine) (m : Mpsse) (u : Usb) (c : List Call) :
    leadingReset (s.around e m u c) = (leadingReset s).around e m u c := clocked_around fiveHigh s e m u c

/-- The reset out of a scan of a register without an update: its first clock shifts a 0. -/
theorem leadingReset_of_shDR {s : State} (htap : s.target.tap = .shDR) (hcmd : s.target.ir ≠ Config.codeAddrComm)
    (hdata : s.target.ir ≠ Config.codeData) : leadingReset s = s.setTarget { s.target with
      tap := .tlr
      ir := s.params.idcodeOpcode
      dsr := shiftDsr false s.target.dsr
      clockCount := s.target.clockCount + 5 } := by
  have hrun := ran_reset_shDR s htap
  have hupd : updated (exited s) = (exited s).setTarget { (exited s).target with
      tap := .updDR, clockCount := (exited s).target.clockCount + 1 } := updateDr_of_ne hcmd hdata
  rw [ran_reset, hupd] at hrun
  have hmpsse : (leadingReset s).setMpsse s.mpsse = leadingReset s :=
    (congrArg _ (clocked_mpsse fiveHigh s).symm).trans (setMpsse_self _)
  exact hmpsse.symm.trans (congrArg (State.setMpsse · s.mpsse) hrun)

/-- The primitives of `read_idcode` before its read. -/
def idcodeHead : List Instr := [.resetToTlr, .tlrToShiftDr, .readData]

theorem program_readIdcode : program .readIdcode = fetch idcodeHead := rfl

/-- They return the identification register's value, and shift zeros into it (R34, R219). -/
theorem ranAll_idcodeHead {s : State} (hcmd : s.params.idcodeOpcode ≠ Config.codeAddrComm)
    (hdata : s.params.idcodeOpcode ≠ Config.codeData) (hloop : s.mpsse.loopback = false) :
    ranAll (idcodeHead.flatMap commands) s = ((leadingReset s).setTarget { (leadingReset s).target with
        tap := .shDR
        dsr := List.replicate 32 false
        clockCount := s.target.clockCount + 41 }).setMpsse
      ((s.mpsse.pins false false).rx (s.mpsse.rxFifo ++ wordBytes s.params.idcodeValue)) := by
  have hsplit : ranAll (idcodeHead.flatMap commands) s =
      ranAll (commands .readData) (ranAll (commands .tlrToShiftDr) (ranAll (commands .resetToTlr) s)) := by
    rw [← ranAll_append, ← ranAll_append]
    rfl
  have hreset : ranAll (commands .resetToTlr) s = ran (.tmsOut 0x04 0x3F) s := rfl
  have hwalk (t : State) : ranAll (commands .tlrToShiftDr) t = ran (.tmsOut 0x03 0x02) t := rfl
  have hparams : (leadingReset s).params = s.params := clocked_params fiveHigh s
  have hir := leadingReset_ir s
  have hsel : ((leadingReset s).setMpsse (s.mpsse.pins true false)).sel = .idcode := by
    refine (sel_of_ne (s := leadingReset s) ?_ ?_).trans (if_pos (hir.trans (congrArg _ hparams.symm)))
    · rwa [hir]
    · rwa [hir]
  rw [hsplit, hreset, hwalk, ran_reset, ran_tlrToShiftDr ((leadingReset s).setMpsse (s.mpsse.pins true false)) (leadingReset_tap s) hsel,
    ranAll_readData s.params.idcodeValue [] _ rfl (by simp [hparams]) rfl (by exact hloop)]
  simp [setMpsse_setTarget, leadingReset_clockCount]

theorem checked_eq_operation {checks : List (Bool × Refusal)} (h : ∀ c ∈ checks, c.1 = true) (acts : List Action)
    (result : List Word → Returned) (s : State) : checked checks acts result s = operation acts result s := by
  rw [checked, firstRefusal_eq_none h]

theorem hasSession_of_ne {s : State} (h : s.engine.session ≠ none) : hasSession s = true := Option.isSome_iff_ne_none.2 h

theorem exec_readIdcode {s : State} (hs : s.engine.session ≠ none) :
    exec .readIdcode s = operation (fetch idcodeHead) (fun ws => .word (firstWord ws)) s := by
  rw [← program_readIdcode]
  exact checked_eq_operation (by simp [hasSession_of_ne hs]) _ _ s

section
variable {s : State} (hs : healthy s) (hcmd : s.params.idcodeOpcode ≠ Config.codeAddrComm)
  (hdata : s.params.idcodeOpcode ≠ Config.codeData)
include hs hcmd hdata

/-- The state before the read of `read_idcode`, its 41 clocks past. -/
theorem commanded_idcodeHead : commanded idcodeHead s = { issue s with
    mpsse := (s.mpsse.pins false false).rx (wordBytes s.params.idcodeValue)
    target := { (leadingReset s).target with
      tap := .shDR
      dsr := List.replicate 32 false
      clockCount := s.target.clockCount + 41 }
    mem := (leadingReset s).mem
    ahbLog := (leadingReset s).ahbLog } := by
  obtain ⟨-, -, -, hrx, hloop⟩ := hs
  have hissue : leadingReset (issue s) = (leadingReset s).around (issue s).engine s.mpsse s.usb s.calls :=
    leadingReset_around s (issue s).engine s.mpsse s.usb s.calls
  have hqueue : (issue s).mpsse.rxFifo = [] := hrx
  rw [commanded, ranAll_idcodeHead (s := issue s) hcmd hdata hloop, hissue, leadingReset_eq s, hqueue]
  rfl

/-- The trailing reset of `read_idcode` is quiet, since the identification register has no update (R138). -/
theorem leadingReset_commanded_idcodeHead : leadingReset (commanded idcodeHead s) =
    (commanded idcodeHead s).setTarget { (leadingReset s).target with
      dsr := List.replicate 32 false
      clockCount := s.target.clockCount + 46 } := by
  have hir := leadingReset_ir s
  have hq : (leadingReset s).target = { (leadingReset s).target with tap := .tlr, ir := s.params.idcodeOpcode } := by
    rw [← leadingReset_tap s, ← hir]
  rw [commanded_idcodeHead hs hcmd hdata, hq]
  exact leadingReset_of_shDR rfl hcmd hdata

end

/-- With nothing queued, the pins at rest are all there is to say of the MPSSE engine. -/
theorem at_eq_of_rxFifo {m : Mpsse} (h : m.rxFifo = []) (tms tdi : Bool) : m.at tms tdi = (m.pins tms tdi).rx [] := by
  rw [← h]
  rfl

/-- Settles O40: the list fetches the identification register's value, and the reset behind it is quiet. -/
theorem readIdcodeReturnsTheIdcode : Obligations.ReadIdcodeReturnsTheIdcode := by
  intro s hs hcmd hdata q
  have ⟨hsession, hev, hin, hrx, _⟩ := hs
  have hcommanded := commanded_idcodeHead hs hcmd hdata
  have hword : oldestWord (commanded idcodeHead s) = s.params.idcodeValue := by
    rw [hcommanded]
    exact bytesWord_wordBytes _ []
  have hrun := operation_fetch (is := idcodeHead) (b := .at .shDR) hsession hin (List.cons_ne_nil _ _) rfl hev
    (by rw [hcommanded]; exact le_rfl) fun ws => .word (firstWord ws)
  rw [exec_readIdcode hsession, hrun, fetched, leadingReset_commanded_idcodeHead hs hcmd hdata, hword, hcommanded, atRest,
    at_eq_of_rxFifo hrx]
  rfl

end Sys2Proof.Machine
end

section
/-! What an AHB read returns (R61, R62): in `RAM_REGION` of a quiescent target, the bytes of memory on the transfer's lanes. -/

namespace Sys2Proof.Machine

open Sys2Proof

/-- Lane j of a word put together from its four lanes. -/
theorem extractLsb'_lanes (b3 b2 b1 b0 : Byte) {j : Nat} (hj : j < 4) :
    (b3 ++ b2 ++ b1 ++ b0 : Word).extractLsb' (8 * j) 8 = [b0, b1, b2, b3].getD j 0 := by
  ext i hi
  rw [BitVec.getElem_extractLsb', BitVec.getLsbD_append, BitVec.getLsbD_append, BitVec.getLsbD_append,
    ← BitVec.getLsbD_eq_getElem]
  obtain rfl | rfl | rfl | rfl : j = 0 ∨ j = 1 ∨ j = 2 ∨ j = 3 := by omega
  · rw [if_pos (by omega)]
    exact congrArg b0.getLsbD (by omega)
  · rw [if_neg (by omega), if_pos (by omega)]
    exact congrArg b1.getLsbD (by omega)
  · rw [if_neg (by omega), if_neg (by omega), if_pos (by omega)]
    exact congrArg b2.getLsbD (by omega)
  · rw [if_neg (by omega), if_neg (by omega), if_neg (by omega)]
    exact congrArg b3.getLsbD (by omega)

theorem laneByte_loadWord (s : State) (a x : Word) (sz : BitVec 2) (other : Word) :
    laneByte (loadWord s a sz other) x = loadLane s a sz other (3 - x.toNat % 4) := by
  have hj : 3 - x.toNat % 4 < 4 := by omega
  rw [laneByte, byteShift, loadWord, extractLsb'_lanes _ _ _ _ hj]
  obtain h | h | h | h : 3 - x.toNat % 4 = 0 ∨ 3 - x.toNat % 4 = 1 ∨ 3 - x.toNat % 4 = 2 ∨ 3 - x.toNat % 4 = 3 := by omega
  all_goals rw [h]; rfl

/-- The bytes of a described transfer lie in one word of memory (R61, R66). -/
theorem transferAddrs_word {a x : Word} {sz : BitVec 2} (h : transferDescribed a sz = true) (hx : x ∈ transferAddrs a sz) :
    x.toNat / 4 = a.toNat / 4 := by
  obtain ⟨i, hi, rfl⟩ := List.mem_map.1 hx
  have hlt := List.mem_range.1 hi
  have ha := a.isLt
  rw [BitVec.toNat_add, BitVec.toNat_ofNat]
  unfold transferDescribed at h
  unfold sizeBytes at hlt
  split at h
  · next hsz =>
    rw [if_pos hsz] at hlt
    omega
  split at h
  · next hbyte hsz =>
    rw [if_neg hbyte, if_pos hsz] at hlt
    have halign : a.toNat % 2 = 0 := of_decide_eq_true h
    omega
  split at h
  · next hbyte hhalf hsz =>
    rw [if_neg hbyte, if_neg hhalf, if_pos hsz] at hlt
    have halign : a.toNat % 4 = 0 := of_decide_eq_true h
    omega
  · exact nomatch h

/-- The byte on an address's own lane, in the word it lies in, is the byte at that address (R61). -/
theorem laneAddr_own {a x : Word} (h : x.toNat / 4 = a.toNat / 4) : laneAddr a (3 - x.toNat % 4) = x := by
  refine BitVec.eq_of_toNat_eq ?_
  rw [laneAddr, BitVec.toNat_ofNat]
  have := x.isLt
  omega

/-- A described read returns memory's bytes (R62). -/
theorem laneByte_memRead {s : State} {a x : Word} {sz : BitVec 2} (h : transferDescribed a sz = true)
    (hquiet : s.params.targetQuiescent = true) (hblock : s.target.bridge.pastBlock = false)
    (hram : ∀ y ∈ transferAddrs a sz, inRam s.params y = true) (hx : x ∈ transferAddrs a sz) :
    laneByte (memRead s a sz) x = s.byteAt x := by
  have hdescribed : readDescribed s a sz = true := by
    rw [readDescribed, h, hquiet, hblock, List.all_eq_true.2 hram]
    rfl
  rw [memRead, if_pos hdescribed, laneByte_loadWord, loadLane, laneAddr_own (transferAddrs_word h hx),
    if_pos (List.contains_iff_mem.2 hx)]

end Sys2Proof.Machine
end

section
/-! A single read up to its `ReadExactly` (R249): what its commands leave of the target, and the word it returns. -/

namespace Sys2Proof.Machine

open Sys2Proof

/-- The primitives of a single read before its read of four bytes (R247 to R249). -/
def singleReadHead (a : Word) (sz : BitVec 2) : List Instr :=
  [.resetToTlr, .tlrToShiftIr, .shiftIr Config.codeAddrComm.toNat, .exit1ToShiftDr, .shiftBytesOut blanking,
   .clockOnly Config.settleClocks, .loadCmd a sz false, .exit1drToShiftIr, .shiftIr Config.codeData.toNat, .exit1ToShiftDr,
   .readData]

theorem singleRead_eq_fetch (a : Word) (sz : BitVec 2) : singleRead a sz = fetch (singleReadHead a sz) := rfl

theorem believed_singleReadHead (a : Word) {sz : BitVec 2} (hsz : sz ≠ Config.sizeReserved) (b : Belief) :
    believed (singleReadHead a sz) b = some (.at .shDR) := by
  have hload : primStep (.loadCmd a sz false) (.at .shDR) = some (.at .ex1DR) := if_pos ⟨hsz, rfl⟩
  have hrest : believed [.exit1drToShiftIr, .shiftIr Config.codeData.toNat, .exit1ToShiftDr, .readData] (.at .ex1DR) =
      some (.at .shDR) := rfl
  show (primStep (.loadCmd a sz false) (.at .shDR)).bind _ = _
  rw [hload]
  exact hrest

/-- Primitives played one by one are their commands run in a row. -/
theorem play_emits (is : List Instr) (s : State) : play (is.map .emit) s = ranAll (is.flatMap commands) s := by
  induction is generalizing s with
  | nil => rfl
  | cons i is ih => rw [List.map_cons, play, ih, List.flatMap_cons, ranAll_append]

section
variable (a : Word) (sz : BitVec 2) (s : State)

/-- The state behind the command load: the command stands in the shift register (R247). -/
def readLoaded : State := (leadingReset s).setTarget { (leadingReset s).target with
  tap := .ex1DR
  ir := Config.codeAddrComm
  irsr := Config.codeAddrComm
  dsr := lowBits 35 (cmdValue a sz false)
  clockCount := s.target.clockCount + 112 }

/-- The state in which the read starts: its command is updated (R242). -/
def readIssued : State := latchedRead a sz (readLoaded a sz s)

/-- How many clocks the read takes (R245). -/
def readDuration : Nat := readClocks (readIssued a sz s)

/-- The word it reads. -/
def wordRead : Word := memRead (readIssued a sz s) a sz

/-- The word that is captured 14 clocks behind the update (R244). -/
def wordSeen : Word :=
  if readDuration a sz s ≤ 14 then wordRead a sz s else Config.dataCapture (s.target.clockCount + 127)

/-- The bridge at that capture. -/
def bridgeSeen : Bridge where
  curAddr := a
  curSize := sz
  curW := false
  pending :=
    if readDuration a sz s ≤ 14 then .none else .read (s.target.clockCount + 113 + readDuration a sz s) (wordRead a sz s)
  rdata := if readDuration a sz s ≤ 14 then wordRead a sz s else (leadingReset s).target.bridge.rdata
  pastBlock := false

theorem startRead_readIssued : startRead (readIssued a sz s) = { leadingReset s with
    target := {
      tap := .updDR
      ir := Config.codeAddrComm
      irsr := Config.codeAddrComm
      cmd := cmdValue a sz false
      data := (leadingReset s).target.data
      dsr := lowBits 35 (cmdValue a sz false)
      bridge := {
        curAddr := a
        curSize := sz
        curW := false
        pending := .read (s.target.clockCount + 113 + readDuration a sz s) (wordRead a sz s)
        rdata := (leadingReset s).target.bridge.rdata
        pastBlock := false }
      clockCount := s.target.clockCount + 113 }
    ahbLog := (leadingReset s).ahbLog ++ [.read a sz] } := by
  unfold readDuration wordRead readIssued readLoaded
  generalize leadingReset s = q
  rfl

/-- The captured bridge is the one that started the read, completed where its clock has come. -/
theorem complete_startRead_readIssued :
    (startRead (readIssued a sz s)).target.bridge.complete (s.target.clockCount + 127) = bridgeSeen a sz s := by
  have hpending : (startRead (readIssued a sz s)).target.bridge.pending =
      .read (s.target.clockCount + 113 + readDuration a sz s) (wordRead a sz s) := by
    rw [startRead_readIssued]
  by_cases hk : readDuration a sz s ≤ 14
  · rw [complete_done _ _ _ _ hpending (by omega), bridgeSeen, if_pos hk, if_pos hk]
    rfl
  · rw [complete_waiting _ _ _ _ hpending (by omega), bridgeSeen, if_neg hk, if_neg hk]
    rfl

theorem captureDataValue_bridgeSeen : captureDataValue (bridgeSeen a sz s) (s.target.clockCount + 127) =
    dataValue (decide (readDuration a sz s ≤ 14)) (wordSeen a sz s) := by
  by_cases hk : readDuration a sz s ≤ 14
  · rw [captureDataValue_done _ _ rfl (if_pos hk), decide_eq_true hk, wordSeen, if_pos hk]
    exact congrArg _ (if_pos hk)
  · rw [captureDataValue_waiting _ _ _ _ rfl (if_neg hk), decide_eq_false hk, wordSeen, if_neg hk]

/-- The state with the register `dsr` in ShDR, n clocks on: the read has started, and the data scan has captured (R248). -/
def dataScan (dsr : List Bool) (n : Nat) : State := (startRead (readIssued a sz s)).setTarget {
  (startRead (readIssued a sz s)).target with
  tap := .shDR
  ir := Config.codeData
  irsr := Config.codeData
  dsr := dsr
  bridge := bridgeSeen a sz s
  clockCount := s.target.clockCount + n }

/-- The data shifted out of a single read's data scan, `done` is what is left of the capture (R217). -/
def shiftedOut : State := dataScan a sz s (decide (readDuration a sz s ≤ 14) :: List.replicate 32 false) 159

theorem play_commandLoad_reset : play (commandLoad a sz false) s = (readLoaded a sz s).setMpsse (s.mpsse.pins true false) := by
  have hreset : play (commandLoad a sz false) s = play (commandLoad a sz false).tail (ran (.tmsOut 0x04 0x3F) s) := rfl
  have hload := play_commandLoad_tail a sz false ((leadingReset s).setMpsse (s.mpsse.pins true false)) (leadingReset_tap s)
  have hclock : ((leadingReset s).setMpsse (s.mpsse.pins true false)).target.clockCount + 107 = s.target.clockCount + 112 :=
    congrArg (· + 107) (leadingReset_clockCount s)
  rw [hreset, ran_reset, hload, hclock]
  rfl

theorem play_dataSelect_readLoaded (m : Mpsse) : play dataSelect ((readLoaded a sz s).setMpsse m) =
    (dataScan a sz s (lowBits 32 (wordSeen a sz s) ++ [decide (readDuration a sz s ≤ 14)]) 127).setMpsse
      (m.pins false false) := by
  have hstart : startRead (latchedRead a sz ((readLoaded a sz s).setMpsse m)) = (startRead (readIssued a sz s)).setMpsse m := rfl
  have hclock : ((readLoaded a sz s).setMpsse m).target.clockCount + 15 = s.target.clockCount + 127 := rfl
  rw [play_dataSelect _ rfl, updated_read a sz _ rfl rfl, hstart, hclock, captured_data _ _ (by exact rfl), ← lowBits_dataValue,
    ← captureDataValue_bridgeSeen, dataScan, ← complete_startRead_readIssued]
  generalize startRead (readIssued a sz s) = t
  rfl

/-- The commands of a single read before its read (R249). -/
theorem ranAll_singleReadHead (hloop : s.mpsse.loopback = false) :
    ranAll ((singleReadHead a sz).flatMap commands) s =
      (shiftedOut a sz s).setMpsse ((s.mpsse.pins false false).rx (s.mpsse.rxFifo ++ wordBytes (wordSeen a sz s))) := by
  have hsplit : ranAll ((singleReadHead a sz).flatMap commands) s =
      ranAll (commands .readData) (play dataSelect (play (commandLoad a sz false) s)) := by
    rw [← play_emits]
    rfl
  rw [hsplit, play_commandLoad_reset, play_dataSelect_readLoaded,
    ranAll_readData (wordSeen a sz s) [decide (readDuration a sz s ≤ 14)] _ rfl rfl rfl (by exact hloop)]
  unfold shiftedOut dataScan
  generalize startRead (readIssued a sz s) = t
  rfl

end

/-! ## Whatever the engine side is -/

section
variable (a : Word) (sz : BitVec 2) (s : State) (e : Engine) (m : Mpsse) (u : Usb) (c : List Call)

theorem readIssued_around : readIssued a sz (s.around e m u c) = (readIssued a sz s).around e m u c := by
  rw [readIssued, readLoaded, leadingReset_around]
  rfl

theorem readDuration_around : readDuration a sz (s.around e m u c) = readDuration a sz s := by
  rw [readDuration, readIssued_around]
  rfl

theorem wordRead_around : wordRead a sz (s.around e m u c) = wordRead a sz s := by
  rw [wordRead, readIssued_around]
  rfl

theorem wordSeen_around : wordSeen a sz (s.around e m u c) = wordSeen a sz s := by
  rw [wordSeen, readDuration_around, wordRead_around]
  rfl

theorem shiftedOut_around : shiftedOut a sz (s.around e m u c) = (shiftedOut a sz s).around e m u c := by
  rw [shiftedOut, dataScan, bridgeSeen, readIssued_around, readDuration_around, wordRead_around, leadingReset_around,
    startRead_around]
  rfl

/-- What a single read's commands do, over whatever queue and driver. -/
theorem commanded_singleReadHead (hloop : m.loopback = false) :
    commanded (singleReadHead a sz) (s.around s.engine m u s.calls) =
      (shiftedOut a sz s).around (issue s).engine ((m.pins false false).rx (m.rxFifo ++ wordBytes (wordSeen a sz s))) u
        s.calls := by
  have hissue : issue (s.around s.engine m u s.calls) = s.around (issue s).engine m u s.calls := rfl
  rw [commanded, hissue, ranAll_singleReadHead _ _ _ hloop, shiftedOut_around, wordSeen_around]
  rfl

end

/-- The target side the commands leave, in full. -/
theorem shiftedOut_eq (a : Word) (sz : BitVec 2) (s : State) : shiftedOut a sz s = { s with
    target := {
      tap := .shDR
      ir := Config.codeData
      irsr := Config.codeData
      cmd := cmdValue a sz false
      data := (leadingReset s).target.data
      dsr := decide (readDuration a sz s ≤ 14) :: List.replicate 32 false
      bridge := bridgeSeen a sz s
      clockCount := s.target.clockCount + 159 }
    mem := (leadingReset s).mem
    ahbLog := (leadingReset s).ahbLog ++ [.read a sz] } := by
  have hparams : (leadingReset s).params = s.params := clocked_params fiveHigh s
  have haround : shiftedOut a sz s = (shiftedOut a sz s).around s.engine s.mpsse s.usb s.calls := shiftedOut_around a sz s _ _ _ _
  rw [haround, shiftedOut, dataScan, startRead_readIssued, ← hparams]
  rfl

end Sys2Proof.Machine
end

section
/-! `ReadExactly` inside a single read (R249, R225): it fails with the data scan shifted out and no trailing reset, and it takes
the bytes of an earlier operation first (R334). -/

namespace Sys2Proof.Machine

open Sys2Proof

/-! ## The three single reads -/

/-- The operation `i` is the single read of a described transfer, its result taken from the words read (R250 to R252). -/
structure ReadsOnce (i : Instr) (a : Word) (sz : BitVec 2) (result : List Word → Returned) : Prop where
  described : transferDescribed a sz = true
  exec_eq : ∀ s : State, s.engine.session ≠ none → exec i s = operation (singleRead a sz) result s

theorem readsOnce_read32 {a : Word} (h : a.toNat % 4 = 0) : ReadsOnce (.read32 a) a 0b10 fun ws => .word (firstWord ws) where
  described := decide_eq_true h
  exec_eq s hs := checked_eq_operation (by simp [hasSession_of_ne hs, wordAligned, h]) _ _ s

theorem readsOnce_read16 {a : Word} (h : a.toNat % 2 = 0) :
    ReadsOnce (.read16 a) a 0b01 fun ws => .half (halfOf (firstWord ws) a) where
  described := decide_eq_true h
  exec_eq s hs := checked_eq_operation (by simp [hasSession_of_ne hs, halfAligned, h]) _ _ s

theorem readsOnce_read8 (a : Word) : ReadsOnce (.read8 a) a 0b00 fun ws => .byte (byteOf (firstWord ws) a) where
  described := rfl
  exec_eq s hs := checked_eq_operation (by simp [hasSession_of_ne hs]) _ _ s

/-- The halfword at an aligned address lies in one half of its word (R251). -/
theorem halfOf_eq (w : Word) {a : Word} (h : a.toNat % 2 = 0) :
    halfOf w a = if a.toNat % 4 = 0 then w.extractLsb' 16 16 else w.extractLsb' 0 16 := by
  split
  · have hshift : halfShift a = 16 := by
      unfold halfShift
      omega
    rw [halfOf, hshift]
  · have hshift : halfShift a = 0 := by
      unfold halfShift
      omega
    rw [halfOf, hshift]

theorem ReadsOnce.size_ne {i : Instr} {a : Word} {sz : BitVec 2} {result : List Word → Returned} (h : ReadsOnce i a sz result) :
    sz ≠ Config.sizeReserved := by
  rintro rfl
  exact nomatch h.described

section
variable (is : List Instr) (s : State) (ret : Returned)

theorem fetched_tap : (fetched is s ret).target.tap = .tlr := leadingReset_tap (commanded is s)

theorem fetched_rxFifo : (fetched is s ret).mpsse.rxFifo = (commanded is s).mpsse.rxFifo.drop 4 := rfl

theorem fetched_returned : (fetched is s ret).engine.returned = ret := rfl

end

section
variable {i : Instr} {a : Word} {sz : BitVec 2} {result : List Word → Returned} (h : ReadsOnce i a sz result) {s : State}
  (hs : s.engine.session ≠ none) (hin : s.mpsse.input = [])
include h hs hin

/-- Where `ReadExactly` raises an error, so does the single read. -/
theorem ReadsOnce.raised {t : State} (hcall : (driverCall s).1 = .healthy)
    (hraised : readExactly 4 (atRead (singleReadHead a sz) (.at .shDR) s) = .raised t) : exec i s = .next t := by
  rw [h.exec_eq s hs, singleRead_eq_fetch]
  exact operation_fetch_raised hs hin (List.cons_ne_nil _ _) (believed_singleReadHead a h.size_ne _) hcall hraised result

theorem ReadsOnce.returned (hev : s.usb.events = [])
    (hrx : 4 ≤ (commanded (singleReadHead a sz) s).mpsse.rxFifo.length) :
    exec i s = .next (fetched (singleReadHead a sz) s (result [oldestWord (commanded (singleReadHead a sz) s)])) := by
  rw [h.exec_eq s hs, singleRead_eq_fetch]
  exact operation_fetch hs hin (List.cons_ne_nil _ _) (believed_singleReadHead a h.size_ne _) hev hrx result

end

/-! ## Before the read -/

section
variable (a : Word) (sz : BitVec 2) (s : State)

/-- The state a single read's `ReadExactly` starts in, with this queue and this driver. -/
def readReady (rx : List Byte) (u : Usb) : State := (shiftedOut a sz s).around
  { s.engine with outbuf := [], expectRx := 4, pos := 12, out := [], progress := [], tapBelief := .at .shDR }
  ((s.mpsse.pins false false).rx rx) u s.calls

/-- The state of a single read whose `ReadExactly` raised the error e. -/
def readLeft (e : EngineError) (rx : List Byte) (calls : Nat) : State := (shiftedOut a sz s).around
  { s.engine with tapBelief := .unknown, outbuf := [], expectRx := 0, pos := 12, out := [], progress := []
                  returned := .error e }
  { s.mpsse.at false false with rxFifo := rx } { s.usb with calls := s.usb.calls + calls } s.calls

theorem raise_readReady (e : EngineError) (rx : List Byte) (n : Nat) :
    raise e (readReady a sz s rx { s.usb with calls := s.usb.calls + n }) = readLeft a sz s e rx n := by
  unfold readReady readLeft
  generalize shiftedOut a sz s = t
  rfl

variable {a sz s}

theorem atRead_singleReadHead (hloop : s.mpsse.loopback = false) (hrx : s.mpsse.rxFifo = []) (u : Usb) :
    atRead (singleReadHead a sz) (.at .shDR) (s.around s.engine s.mpsse u s.calls) =
      readReady a sz s (wordBytes (wordSeen a sz s)) u.next := by
  rw [atRead, commanded_singleReadHead _ _ _ _ _ hloop, hrx]
  rfl

variable {i : Instr} {result : List Word → Returned} (hread : ReadsOnce i a sz result)
include hread

/-- A single read whose `ReadExactly` raises an error behind a healthy flush. -/
theorem exec_read_raised (hs : healthy s) {rest : List DriverEvent} {t : State}
    (h : readExactly 4 (readReady a sz s (wordBytes (wordSeen a sz s)) { s.usb with events := rest, calls := s.usb.calls + 1 }) =
      .raised t) :
    exec i (s.setUsb { s.usb with events := .healthy :: rest }) = .next t := by
  obtain ⟨hsession, -, hin, hrx, hloop⟩ := hs
  have hready := atRead_singleReadHead (a := a) (sz := sz) hloop hrx { s.usb with events := .healthy :: rest }
  exact hread.raised (s := s.setUsb { s.usb with events := .healthy :: rest }) hsession hin rfl ((congrArg _ hready).trans h)

/-- The state of the error raised, with the driver's outcomes used up. -/
theorem exec_read_left (hs : healthy s) {rest : List DriverEvent} {e : EngineError} {rx : List Byte} {n : Nat}
    (h : readExactly 4 (readReady a sz s (wordBytes (wordSeen a sz s)) { s.usb with events := rest, calls := s.usb.calls + 1 }) =
      .raised (raise e (readReady a sz s rx { s.usb with events := [], calls := s.usb.calls + n }))) :
    exec i (s.setUsb { s.usb with events := .healthy :: rest }) = .next (readLeft a sz s e rx n) := by
  have ⟨_, hev, _⟩ := hs
  rw [exec_read_raised hread hs h, ← raise_readReady, ← hev]

/-- Behind a healthy poll, the read's error. -/
theorem exec_read_left_polled (hs : healthy s) {rest : List DriverEvent} {e : EngineError} {rx : List Byte} {n : Nat}
    (h : usbRead 4 (readReady a sz s (wordBytes (wordSeen a sz s)) { s.usb with events := rest, calls := s.usb.calls + 2 }) =
      .raised (raise e (readReady a sz s rx { s.usb with events := [], calls := s.usb.calls + n }))) :
    exec i (s.setUsb { s.usb with events := .healthy :: .healthy :: rest }) = .next (readLeft a sz s e rx n) := by
  refine exec_read_left hread hs ?_
  rw [readExactly_polled (.inl rfl) (List.cons_ne_nil _ _)]
  exact congrArg expectNone h

/-- Over a healthy driver a single read takes the oldest four bytes of its queue, and resets the target (R334). -/
theorem exec_read_stale (hs : healthy s) (stale : List Byte) :
    ∃ t, exec i (s.setMpsse { s.mpsse with rxFifo := stale }) = .next t
      ∧ t.engine.returned = result [bytesWord ((stale ++ wordBytes (wordSeen a sz s)).take 4)]
      ∧ t.mpsse.rxFifo = (stale ++ wordBytes (wordSeen a sz s)).drop 4 ∧ t.target.tap = .tlr := by
  have ⟨hsession, hev, hin, _, hloop⟩ := hs
  have hcommanded : commanded (singleReadHead a sz) (s.setMpsse { s.mpsse with rxFifo := stale }) = _ :=
    commanded_singleReadHead a sz s { s.mpsse with rxFifo := stale } s.usb hloop
  have hqueue : (commanded (singleReadHead a sz) (s.setMpsse { s.mpsse with rxFifo := stale })).mpsse.rxFifo =
      stale ++ wordBytes (wordSeen a sz s) := by
    rw [hcommanded]
    rfl
  have hlen : (wordBytes (wordSeen a sz s)).length = 4 := rfl
  refine ⟨_, hread.returned (s := s.setMpsse { s.mpsse with rxFifo := stale }) hsession hin hev ?_, ?_, ?_, fetched_tap _ _ _⟩
  · rw [hqueue, List.length_append, hlen]
    exact Nat.le_add_left 4 _
  · rw [fetched_returned, oldestWord, hqueue]
  · rw [fetched_rxFifo, hqueue]

end

/-! ## The word the read returns -/

/-- A read takes at least one clock, and at most the latency (R245). -/
theorem readDuration_bounds (a : Word) (sz : BitVec 2) {s : State} (h : 1 ≤ s.params.ahbReadLatency) :
    1 ≤ readDuration a sz s ∧ readDuration a sz s ≤ s.params.ahbReadLatency := by
  have hparams : (readIssued a sz s).params = s.params := clocked_params fiveHigh s
  have hbounds := readClocks_bounds (readIssued a sz s)
  rw [hparams, max_eq_right h] at hbounds
  exact hbounds

/-- A read in `RAM_REGION` of a quiescent target returns memory's bytes as the leading reset left them (R62). -/
theorem laneByte_wordRead {a : Word} {sz : BitVec 2} {s : State} (h : transferDescribed a sz = true)
    (hquiet : s.params.targetQuiescent = true) (hram : ∀ y ∈ transferAddrs a sz, inRam s.params y = true) {x : Word}
    (hx : x ∈ transferAddrs a sz) : laneByte (wordRead a sz s) x = (leadingReset s).byteAt x := by
  have hparams : (readIssued a sz s).params = s.params := clocked_params fiveHigh s
  rw [← hparams] at hquiet hram
  exact laneByte_memRead h hquiet rfl hram hx

/-- Settles O50. By a caller: the outcomes of the poll, and behind one that shows a byte those of the read. In a single read: its
commands have run when `ReadExactly` starts, so an error leaves the data scan shifted out. -/
theorem readExactlyOutcomes : Obligations.ReadExactlyOutcomes := by
  refine ⟨?_, ?_⟩
  · intro s hs n fifo after
    refine ⟨fun m hm => runCall_readExactly_mismatch hs hm, fun st k rest hev => ?_, fun rest hev => ?_,
      fun rest hrx hev => ?_, fun k rest hk hev => ?_, fun rest hrx hev => ?_⟩
    · obtain ⟨hcall, hnext⟩ := Draws.of_cons hev
      rw [runCall_readExactly_raised hs (readExactly_poll_failed hcall), hnext]
      rfl
    · obtain ⟨hcall, hnext⟩ := Draws.of_cons hev
      rw [runCall_readExactly_raised hs (readExactly_poll_timedOut hcall), hnext]
      rfl
    · obtain ⟨hcall, hnext⟩ := Draws.of_healthy hev
      rw [runCall_readExactly_raised hs (readExactly_poll_empty hcall hrx), hnext]
      rfl
    · rw [runCall_readExactly_again hs hev hk, (Draws.of_cons hev).next]
      rfl
    · obtain ⟨ev, hdraws, hshows⟩ : ∃ ev, Draws s ev rest ∧ ShowsByte s := by
        obtain hev | hev | ⟨k, hk, hev⟩ := hev
        · exact ⟨_, .of_healthy (.inl hev), .inl (driverCall_of_nil hev.1)⟩
        · exact ⟨_, .of_cons hev, .inl (Draws.of_cons hev).outcome⟩
        · exact ⟨_, .of_cons hev, .inr ⟨k, hk, (Draws.of_cons hev).outcome⟩⟩
      refine ⟨fun st k more hmore => ?_, fun more hmore => ?_, fun k more hmore => ?_, fun more hmore => ?_⟩
      · obtain ⟨hcall, hnext⟩ := hdraws.second (.of_cons hmore)
        rw [runCall_readExactly_read_raised hs hshows hrx (usbRead_failed hcall), hnext]
        rfl
      · obtain ⟨hcall, hnext⟩ := hdraws.second (.of_cons hmore)
        rw [runCall_readExactly_read_raised hs hshows hrx (usbRead_timedOut hcall), hnext]
        rfl
      · obtain ⟨hcall, hnext⟩ := hdraws.second (.of_cons hmore)
        split
        · next hlt =>
          rw [runCall_readExactly_read_raised hs hshows hrx (usbRead_short (.inr hcall) hlt), afterRead, hnext]
          rfl
        · next hle =>
          rw [runCall_readExactly_read_got hs hshows hrx (usbRead_got (.inr hcall) (not_lt.1 hle)), afterRead, hnext]
          rfl
      · obtain ⟨hcall, hnext⟩ := hdraws.second (.of_healthy hmore)
        split
        · next hlt =>
          have hmin : min n fifo.length = fifo.length := min_eq_right hlt.le
          have hshort := usbRead_short (n := n) (.inl ⟨hcall, rfl⟩) (hmin.trans_lt hlt)
          rw [runCall_readExactly_read_raised hs hshows hrx hshort, afterRead, hnext, ← List.drop_of_length_le hlt.le]
          exact congrArg (fun m => Host.Outcome.next (after (s.engine.failed (.shortRead m n)) (fifo.drop n) more 2)) hmin
        · next hle =>
          have hgot := usbRead_got (n := n) (.inl ⟨hcall, rfl⟩) (le_min le_rfl (not_lt.1 hle))
          rw [runCall_readExactly_read_got hs hshows hrx hgot, afterRead, hnext]
          rfl
  · intro i a sz r s hs hlatency hi q drawn
    obtain ⟨result, hread, hr⟩ : ∃ result, ReadsOnce i a sz result ∧ ∀ w, result [w] = r w := by
      obtain ⟨rfl, rfl, ha, rfl⟩ | ⟨rfl, rfl, ha, rfl⟩ | ⟨rfl, rfl, rfl⟩ := hi
      · exact ⟨_, readsOnce_read32 ha, fun _ => rfl⟩
      · exact ⟨_, readsOnce_read16 ha, fun w => congrArg Returned.half (halfOf_eq w ha)⟩
      · exact ⟨_, readsOnce_read8 a, fun _ => rfl⟩
    obtain ⟨hmin, hmax⟩ := readDuration_bounds a sz hlatency
    refine ⟨readDuration a sz s, wordRead a sz s, wordSeen a sz s, hmin, hmax, fun hk => if_pos hk,
      fun hquiet hram x hx => laneByte_wordRead hread.described hquiet hram hx, ?_, fun stale => ?_⟩
    · intro left
      have hleft (e : EngineError) (rx : List Byte) (n : Nat) : left e rx n = readLeft a sz s e rx n := by
        rw [readLeft, shiftedOut_eq]
        rfl
      simp only [hleft]
      refine ⟨fun st m => exec_read_left hread hs (readExactly_poll_failed rfl),
        exec_read_left hread hs (readExactly_poll_timedOut rfl),
        fun st m => exec_read_left_polled hread hs (usbRead_failed rfl),
        exec_read_left_polled hread hs (usbRead_timedOut rfl), fun m hm => exec_read_left_polled hread hs ?_⟩
      have hmin : min m 4 = m := min_eq_left hm.le
      refine (usbRead_short (k := m) (.inr rfl) (hmin.trans_lt hm)).trans ?_
      exact congrArg (fun j => ReadRun.raised (raise (.shortRead j 4) _)) hmin
    · rw [← hr]
      exact exec_read_stale hread hs stale

end Sys2Proof.Machine
end

section
/-! The updates of the command and of the data register (R242, R243) at the clock into Update-DR, and what the stores of a write
leave memory reading as (R63). -/

namespace Sys2Proof.Machine

open Sys2Proof

/-! ## The command register -/

/-- A 35-bit command is its three fields (R29). -/
theorem cmdValue_fields (v : BitVec 35) : cmdValue (cmdAddr v) (cmdSize v) (cmdWrite v) = v := by
  refine BitVec.eq_of_getLsbD_eq fun i hi => ?_
  rw [cmdValue, BitVec.getLsbD_append, BitVec.getLsbD_append, cmdAddr, cmdSize, BitVec.getLsbD_extractLsb',
    BitVec.getLsbD_extractLsb']
  split
  · next hlow => simp [hlow]
  · split
    · next hmid =>
      have hidx : 32 + (i - 32) = i := by omega
      simp [hmid, hidx]
    · next hlow hmid =>
      obtain rfl : i = 34 := by omega
      exact BitVec.getLsbD_ofBool (cmdWrite v) 0

/-- Settles O8: a write command is latched, and a read command starts its read at once. -/
theorem commandUpdate : Obligations.CommandUpdate := by
  rintro tdi v s t htap hir hdsr hlatency rfl
  obtain ⟨a, sz, rw, rfl⟩ : ∃ a sz rw, v = cmdValue a sz rw := ⟨_, _, _, (cmdValue_fields v).symm⟩
  have haddr : (cmdValue a sz rw).extractLsb' 0 32 = a := cmdAddr_cmdValue a sz rw
  have hsize : (cmdValue a sz rw).extractLsb' 32 2 = sz := cmdSize_cmdValue a sz rw
  have hwrite : (cmdValue a sz rw).getLsbD 34 = rw := cmdWrite_cmdValue a sz rw
  rw [clock_enters_updDR tdi htap]
  simp only [haddr, hsize, hwrite]
  cases rw with
  | true =>
    rw [updated_write a sz s hir hdsr]
    exact ⟨rfl, fun _ => ⟨rfl, rfl⟩, nofun⟩
  | false =>
    rw [updated_read a sz s hir hdsr]
    obtain ⟨hmin, hmax⟩ := readClocks_bounds (latchedRead a sz s)
    exact ⟨rfl, nofun, fun _ => ⟨rfl, readClocks (latchedRead a sz s), memRead (latchedRead a sz s) a sz, hmin,
      hmax.trans (max_eq_right hlatency).le,
      fun hquiet hdescribed hram x hx => laneByte_memRead (s := latchedRead a sz s) hdescribed hquiet rfl hram hx, rfl⟩⟩

/-! ## Stores -/

/-- The last of some stores to an address is what the address reads as after them, inside `RAM_REGION` (R63). -/
theorem read_storeBytes (p : Config.Params) (stores : List (Word × Byte)) {m : List Host.Cell} (h : Memory.wf m = true)
    (x : Word) : Memory.read (storeBytes p stores m) x.toNat =
      if inRam p x then ((stores.reverse.find? fun c => c.1 == x).map Prod.snd).getD (Memory.read m x.toNat)
      else Memory.read m x.toNat := by
  induction stores generalizing m with
  | nil => exact (ite_self _).symm
  | cons c rest ih =>
    obtain ⟨a, v⟩ := c
    rw [storeBytes, ih (storeByte_wf p h a v), read_storeByte p h, List.reverse_cons, List.find?_append]
    by_cases hram : inRam p x = true
    · rw [if_pos hram, if_pos hram]
      cases rest.reverse.find? fun c => c.1 == x with
      | some c => rfl
      | none =>
        by_cases hx : x = a
        · subst hx
          simp [hram]
        · simp [hx, Ne.symm hx]
    · rw [if_neg hram, if_neg hram, if_neg]
      rintro ⟨rfl, ha⟩
      exact hram ha

theorem storesExactly_storeBytes (p : Config.Params) (stores : List (Word × Byte)) {m : List Host.Cell}
    (h : Memory.wf m = true) : storesExactly p stores m (storeBytes p stores m) :=
  ⟨storeBytes_wf p stores h, read_storeBytes p stores h⟩

theorem storeBytes_append (p : Config.Params) (as bs : List (Word × Byte)) (m : List Host.Cell) :
    storeBytes p (as ++ bs) m = storeBytes p bs (storeBytes p as m) := by
  induction as generalizing m with
  | nil => rfl
  | cons c as ih => exact ih _

/-- A described write stores its transfer's bytes, each from its lane (R61, R63). -/
theorem memWrite_mem {s : State} {a : Word} {sz : BitVec 2} (d : Word) (h : transferDescribed a sz = true)
    (hblock : s.target.bridge.pastBlock = false) :
    (memWrite s a sz d).mem = storeBytes s.params ((transferAddrs a sz).map fun x => (x, laneByte d x)) s.mem := by
  rw [memWrite, writeStores, h, hblock]
  rfl

/-! ## The data register -/

section
variable {v : BitVec 33} {s : State} (hir : s.target.ir = Config.codeData) (hdsr : s.target.dsr = lowBits 33 v)
include hir hdsr

/-- The update of the data register while the direction is write: one write, and with SEQ the next address (R243, R246). -/
theorem updated_data_write (hw : s.target.bridge.curW = true) : updated s =
    (memWrite (dataLatched v s) s.target.bridge.curAddr s.target.bridge.curSize (dataField v)).setBridge
      (if seqFlag v then s.target.bridge.increment else s.target.bridge) := by
  rw [updated_data v s hir hdsr, if_pos hw]
  cases seqFlag v <;> rfl

/-- While the direction is read, SEQ starts the next read (R243, R246). -/
theorem updated_data_next (hw : s.target.bridge.curW = false) (hseq : seqFlag v = true) :
    updated s = startRead ((dataLatched v s).setBridge s.target.bridge.increment) := by
  rw [updated_data v s hir hdsr, if_neg (by rw [hw]; nofun), if_pos hseq]

/-- Without SEQ a read's update does nothing (R243). -/
theorem updated_data_idle (hw : s.target.bridge.curW = false) (hseq : seqFlag v = false) : updated s = dataLatched v s := by
  rw [updated_data v s hir hdsr, if_neg (by rw [hw]; nofun), if_neg (by rw [hseq]; nofun)]

end

/-- An increment inside a 1 KiB block leaves the sequence in it (R246). -/
theorem increment_pastBlock_of_same {b : Bridge} (hblock : b.pastBlock = false)
    (h : (b.curAddr.toNat + 4) / 1024 = b.curAddr.toNat / 1024) : b.increment.pastBlock = false := by
  simp [Bridge.increment, hblock, Config.seqBoundaryBytes, h]

/-- Settles O9: by direction and SEQ, each update one of three. -/
theorem dataUpdate : Obligations.DataUpdate := by
  rintro tdi v s t htap hir hdsr hlatency rfl
  rw [clock_enters_updDR tdi htap]
  have hseq : v.getLsbD 32 = seqFlag v := rfl
  rw [hseq]
  cases hw : s.target.bridge.curW with
  | true =>
    rw [updated_data_write hir hdsr hw]
    have hstores : Memory.wf s.mem = true → s.target.bridge.pastBlock = false →
        transferDescribed s.target.bridge.curAddr s.target.bridge.curSize = true →
        storesExactly s.params ((transferAddrs s.target.bridge.curAddr s.target.bridge.curSize).map fun x =>
            (x, laneByte (dataField v) x)) s.mem
          (memWrite (dataLatched v s) s.target.bridge.curAddr s.target.bridge.curSize (dataField v)).mem := by
      intro hwf hblock hdescribed
      rw [memWrite_mem (s := dataLatched v s) _ hdescribed hblock]
      exact storesExactly_storeBytes _ _ hwf
    cases seqFlag v <;>
      exact ⟨rfl, rfl, rfl, rfl, rfl, rfl, rfl, rfl, hw, rfl, fun _ => ⟨rfl, rfl, hstores⟩, nofun, nofun, nofun⟩
  | false =>
    cases hseq : seqFlag v with
    | false =>
      rw [updated_data_idle hir hdsr hw hseq]
      exact ⟨rfl, rfl, rfl, rfl, rfl, rfl, rfl, rfl, hw, rfl, nofun, fun _ => rfl, fun _ _ => ⟨rfl, rfl⟩, nofun⟩
    | true =>
      rw [updated_data_next hir hdsr hw hseq]
      obtain ⟨hmin, hmax⟩ := readClocks_bounds ((dataLatched v s).setBridge s.target.bridge.increment)
      refine ⟨rfl, rfl, rfl, rfl, rfl, rfl, rfl, rfl, hw, rfl, nofun, fun _ => rfl, nofun, fun _ _ => ⟨rfl, _, _, hmin,
        hmax.trans (max_eq_right hlatency).le, rfl, fun hquiet hblock hsame hdescribed hram x hx => ?_⟩⟩
      exact laneByte_memRead (s := (dataLatched v s).setBridge s.target.bridge.increment) hdescribed hquiet
        (increment_pastBlock_of_same hblock hsame) hram hx

end Sys2Proof.Machine
end

section
/-! The byte streams of the operations (R228, R257, R294): a single transfer's stream spells it, and how many bytes stand between
two flush points. -/

namespace Sys2Proof.Machine

open Sys2Proof

/-- The bytes of an action list, flush points left out (R228). -/
def streamOf (acts : List Action) : List Byte := (acts.flatMap Action.commands).flatMap encodeMpsse

theorem encode_eq_streamOf {i : Instr} (h : program i ≠ []) : encode i = streamOf (program i) := by
  cases i
  case readIdcode | read32 | read16 | read8 | write32 | write16 | write8 | burstWrite | burstRead | writeMany | readMany => rfl
  all_goals exact absurd rfl h

/-! ## What the decoder finds in a single transfer's stream -/

theorem bytesWord_wordBytes_self (w : Word) : bytesWord (wordBytes w) = w := bytesWord_wordBytes w []

section
variable (a : Word) (sz : BitVec 2) (d : Word)

/-- A read of 61 bytes is the single read of its size (R257). -/
theorem operationCandidate_singleRead : operationCandidate (streamOf (singleRead a sz)) =
    if sz.setWidth 8 = 0 then some (.read8 a) else if sz.setWidth 8 = 1 then some (.read16 a) else some (.read32 a) := by
  have hlen : (streamOf (singleRead a sz)).length = 61 := rfl
  have haddr : wordAt (streamOf (singleRead a sz)) (loadPrefixLen + 3) = a := bytesWord_wordBytes_self a
  have hsize : (streamOf (singleRead a sz)).getD (loadPrefixLen + 9) 0 = sz.setWidth 8 := rfl
  have hwrite : ((streamOf (singleRead a sz)).getD (loadPrefixLen + 12) 0).getLsbD 7 = false := lastBitByte_tdi false true
  simp only [operationCandidate, hlen, haddr, hsize, hwrite]
  rfl

/-- A write of 64 bytes without SEQ is the single write of its size (R257). -/
theorem operationCandidate_singleWrite : operationCandidate (streamOf (singleWrite a sz d)) =
    if sz.setWidth 8 = 0 then some (.write8 a ((d >>> byteShift a).toNat % 2 ^ 8))
    else if sz.setWidth 8 = 1 then some (.write16 a ((d >>> halfShift a).toNat % 2 ^ 16))
    else some (.write32 a d.toNat) := by
  have hlen : (streamOf (singleWrite a sz d)).length = 64 := rfl
  have haddr : wordAt (streamOf (singleWrite a sz d)) (loadPrefixLen + 3) = a := bytesWord_wordBytes_self a
  have hsize : (streamOf (singleWrite a sz d)).getD (loadPrefixLen + 9) 0 = sz.setWidth 8 := rfl
  have hwrite : ((streamOf (singleWrite a sz d)).getD (loadPrefixLen + 12) 0).getLsbD 7 = true := lastBitByte_tdi true true
  have hword : wordAt (streamOf (singleWrite a sz d)) (burstHeadLen + 3) = d := bytesWord_wordBytes_self d
  have hseq : ((streamOf (singleWrite a sz d)).getD 60 0).getLsbD 7 = false := lastBitByte_tdi false true
  simp only [operationCandidate, hlen, haddr, hsize, hwrite, hword, hseq, and_self, if_true]

end

/-! ## The writes' values in their lanes -/

/-- A value shifted into its lane and out again, where it fits (R255, R256). -/
theorem toNat_shifted_back {v k : Nat} (h : v * 2 ^ k < 2 ^ 32) : ((BitVec.ofNat 32 v <<< k) >>> k).toNat = v := by
  have hpos : 0 < 2 ^ k := Nat.two_pow_pos k
  have hv : v < 2 ^ 32 := (Nat.le_mul_of_pos_right v hpos).trans_lt h
  rw [BitVec.toNat_ushiftRight, BitVec.toNat_shiftLeft, BitVec.toNat_ofNat, Nat.mod_eq_of_lt hv, Nat.shiftLeft_eq,
    Nat.mod_eq_of_lt h, Nat.shiftRight_eq_div_pow, Nat.mul_div_cancel _ hpos]

theorem mul_byteShift_lt {v : Nat} (h : v < 2 ^ 8) (a : Word) : v * 2 ^ byteShift a < 2 ^ 32 := by
  have hpow : 2 ^ byteShift a ≤ 2 ^ 24 := Nat.pow_le_pow_right (by decide) (by unfold byteShift; omega)
  have := Nat.mul_le_mul_left v hpow
  omega

theorem mul_halfShift_lt {v : Nat} (h : v < 2 ^ 16) (a : Word) : v * 2 ^ halfShift a < 2 ^ 32 := by
  have hpow : 2 ^ halfShift a ≤ 2 ^ 16 := Nat.pow_le_pow_right (by decide) (by unfold halfShift; omega)
  have := Nat.mul_le_mul_left v hpow
  omega

/-! ## Encode, then decode -/

/-- An operation's stream spells it where the candidate it gives is the operation. -/
theorem decodeOperation_of_candidate {i : Instr} (hcandidate : operationCandidate (encode i) = some i)
    (hwf : i.wellFormed = true) : decodeOperation (encode i) = some i := by
  rw [decodeOperation, hcandidate, Option.filter_some, if_pos]
  simpa using hwf

theorem decodeOperation_write32 {a : Word} {v : Nat} (h : wordAligned a = true) (hv : v < 2 ^ 32) :
    decodeOperation (encode (.write32 a v)) = some (.write32 a v) := by
  refine decodeOperation_of_candidate ((operationCandidate_singleWrite a Config.sizeWord _).trans ?_) ?_
  · show some (Instr.write32 a (BitVec.ofNat 32 v).toNat) = _
    rw [BitVec.toNat_ofNat, Nat.mod_eq_of_lt hv]
  · exact Bool.and_eq_true_iff.2 ⟨h, decide_eq_true hv⟩

theorem decodeOperation_write16 {a : Word} {v : Nat} (h : halfAligned a = true) (hv : v < 2 ^ 16) :
    decodeOperation (encode (.write16 a v)) = some (.write16 a v) := by
  refine decodeOperation_of_candidate ((operationCandidate_singleWrite a Config.sizeHalf _).trans ?_) ?_
  · show some (Instr.write16 a (((BitVec.ofNat 32 v <<< halfShift a) >>> halfShift a).toNat % 2 ^ 16)) = _
    rw [toNat_shifted_back (mul_halfShift_lt hv a), Nat.mod_eq_of_lt hv]
  · exact Bool.and_eq_true_iff.2 ⟨h, decide_eq_true hv⟩

theorem decodeOperation_write8 (a : Word) {v : Nat} (hv : v < 2 ^ 8) :
    decodeOperation (encode (.write8 a v)) = some (.write8 a v) := by
  refine decodeOperation_of_candidate ((operationCandidate_singleWrite a Config.sizeByte _).trans ?_) (decide_eq_true hv)
  show some (Instr.write8 a (((BitVec.ofNat 32 v <<< byteShift a) >>> byteShift a).toNat % 2 ^ 8)) = _
  rw [toNat_shifted_back (mul_byteShift_lt hv a), Nat.mod_eq_of_lt hv]

/-- Settles O22, width by width. -/
theorem singleDecodeEncode : Obligations.SingleDecodeEncode :=
  ⟨fun a h => decodeOperation_of_candidate (operationCandidate_singleRead a Config.sizeWord) (decide_eq_true h),
    fun a h => decodeOperation_of_candidate (operationCandidate_singleRead a Config.sizeHalf) (decide_eq_true h),
    fun a => decodeOperation_of_candidate (operationCandidate_singleRead a Config.sizeByte) rfl,
    fun _ _ h => decodeOperation_write32 (decide_eq_true h), fun _ _ h => decodeOperation_write16 (decide_eq_true h),
    fun a _ => decodeOperation_write8 a⟩

/-! ## Between two flush points -/

/-- An action list that ends flushed, with the bytes `ks` before its flushes: what follows starts afresh. -/
def Flushes (acts : List Action) (n : Nat) (ks : List Nat) : Prop :=
  ∀ rest, flushSizes (acts ++ rest) n = ks ++ flushSizes rest 0

theorem Flushes.sizes {acts : List Action} {n : Nat} {ks : List Nat} (h : Flushes acts n ks) :
    flushSizes acts n = ks ++ [0] := by
  rw [← List.append_nil acts]
  exact h []

theorem Flushes.append {as bs : List Action} {n : Nat} {ks ls : List Nat} (has : Flushes as n ks) (hbs : Flushes bs 0 ls) :
    Flushes (as ++ bs) n (ks ++ ls) := fun rest => by
  rw [List.append_assoc, has, hbs, List.append_assoc]

/-- A command load and a data select are 39 and 12 bytes (R257, R294). -/
theorem Flushes.load_select {acts : List Action} {n : Nat} {ks : List Nat} (h : Flushes acts (n + 51) ks) (a : Word)
    (sz : BitVec 2) (rw : Bool) : Flushes (commandLoad a sz rw ++ dataSelect ++ acts) n ks := h

/-- A word of a burst write is ten bytes, and three lead to the next (R294). -/
theorem burstWriteWords_flushes (w : Word) (ws : List Word) (n : Nat) :
    Flushes (burstWriteWords (w :: ws)) n ((n + 13) :: List.replicate ws.length 13) := by
  induction ws generalizing w n with
  | nil => exact fun _ => rfl
  | cons w' ws ih => exact fun rest => congrArg ((n + 13) :: ·) (ih w' 0 rest)

/-- A word of a burst read is seven bytes, and six lead from the one before; three are the last reset (R294). -/
theorem burstReadWords_flushes (n m : Nat) :
    Flushes (burstReadWords (n + 1)) m ((m + 7) :: List.replicate n 13 ++ [3]) := by
  induction n generalizing m with
  | zero => exact fun _ => rfl
  | succ n ih => exact fun rest => congrArg ((m + 7) :: ·) (ih 6 rest)

theorem burstWriteActions_flushes (b w : Word) (ws : List Word) :
    Flushes (burstWriteActions b (w :: ws)) 0 (64 :: List.replicate ws.length 13) :=
  (burstWriteWords_flushes w ws 51).load_select b Config.sizeWord true

theorem burstReadActions_flushes (b : Word) (n : Nat) :
    Flushes (burstReadActions b (n + 1)) 0 (58 :: List.replicate n 13 ++ [3]) :=
  (burstReadWords_flushes n 51).load_select b Config.sizeWord false

/-- What is flushed, flush by flush, is the stream (R228). -/
theorem sum_flushSizes (acts : List Action) (n : Nat) : (flushSizes acts n).sum = n + (streamOf acts).length := by
  induction acts generalizing n with
  | nil => simp [flushSizes, streamOf]
  | cons a acts ih =>
    cases a with
    | emit i =>
      rw [flushSizes, ih, Nat.add_assoc, streamOf, ← List.length_append, ← List.flatMap_append]
      rfl
    | flush => rw [flushSizes, List.sum_cons, ih, Nat.zero_add]; rfl
    | readWord => exact ih n
    | progress d t => exact ih n

/-- An operation's bytes are those it flushes. -/
theorem length_encode {i : Instr} {ks : List Nat} (hne : program i ≠ []) (h : flushSizes (program i) 0 = ks) :
    (encode i).length = ks.sum := by
  rw [encode_eq_streamOf hne, ← h, sum_flushSizes, Nat.zero_add]

/-! ## At most 64 bytes at a time -/

/-- The list ends flushed, and never has more than 64 bytes to flush. -/
def FlushesSmall (acts : List Action) : Prop := ∃ ks, Flushes acts 0 ks ∧ ∀ k ∈ ks, k ≤ 64

theorem FlushesSmall.append {as bs : List Action} (has : FlushesSmall as) (hbs : FlushesSmall bs) : FlushesSmall (as ++ bs) := by
  obtain ⟨ks, hks, hsmall⟩ := has
  obtain ⟨ls, hls, hsmall'⟩ := hbs
  exact ⟨ks ++ ls, hks.append hls, List.forall_mem_append.2 ⟨hsmall, hsmall'⟩⟩

theorem FlushesSmall.flatMap {α : Type} {f : α → List Action} {xs : List α} (h : ∀ x ∈ xs, FlushesSmall (f x)) :
    FlushesSmall (xs.flatMap f) := by
  induction xs with
  | nil => exact ⟨[], fun _ => rfl, nofun⟩
  | cons x xs ih => exact (h x List.mem_cons_self).append (ih fun y hy => h y (List.mem_cons_of_mem x hy))

theorem burstWriteActions_flushesSmall (b : Word) {ws : List Word} (h : ws ≠ []) : FlushesSmall (burstWriteActions b ws) := by
  obtain ⟨w, ws, rfl⟩ := List.exists_cons_of_ne_nil h
  refine ⟨_, burstWriteActions_flushes b w ws, List.forall_mem_cons.2 ⟨le_rfl, fun k hk => ?_⟩⟩
  rw [List.eq_of_mem_replicate hk]
  decide

theorem burstReadActions_flushesSmall (b : Word) {n : Nat} (h : n ≠ 0) : FlushesSmall (burstReadActions b n) := by
  obtain ⟨n, rfl⟩ := Nat.exists_eq_succ_of_ne_zero h
  refine ⟨_, burstReadActions_flushes b n, List.forall_mem_append.2 ⟨List.forall_mem_cons.2 ⟨by decide, fun k hk => ?_⟩, ?_⟩⟩
  · rw [List.eq_of_mem_replicate hk]
    decide
  · simp

theorem chunkProgress_flushesSmall (progress : Bool) (n k : Nat) : FlushesSmall (chunkProgress progress n k) := by
  refine ⟨[], fun rest => ?_, nofun⟩
  cases progress <;> rfl

theorem singleRead_flushes (a : Word) (sz : BitVec 2) : Flushes (singleRead a sz) 0 [58, 3] := fun _ => rfl

theorem singleWrite_flushes (a : Word) (sz : BitVec 2) (d : Word) : Flushes (singleWrite a sz d) 0 [64] := fun _ => rfl

theorem readIdcode_flushes : Flushes (program .readIdcode) 0 [13, 3] := fun _ => rfl

theorem chunkWords_ne_zero {n k : Nat} (hk : k ∈ List.range (chunkCount n)) : chunkWords n k ≠ 0 := by
  obtain ⟨hpos, -⟩ := chunkWords_bounds hk
  omega

/-- Every chunk of a transfer has words of its own (R290, R291). -/
theorem writeChunk_words_ne_nil {buf : List Word} {n k : Nat} (hlen : buf.length = n) (hk : k ∈ List.range (chunkCount n)) :
    (buf.drop (Config.maxBurstWords * k)).take (chunkWords n k) ≠ [] := by
  have hstart := chunk_start_lt hk
  obtain ⟨hwords, -⟩ := chunkWords_bounds hk
  rw [← List.length_pos_iff, List.length_take, List.length_drop, hlen]
  omega

/-- No well-formed operation flushes more than 64 bytes at a time (R294, R378). -/
theorem program_flushesSmall (i : Instr) (hwf : i.wellFormed = true) (hne : program i ≠ []) : FlushesSmall (program i) := by
  cases i
  case readIdcode => exact ⟨_, readIdcode_flushes, by simp⟩
  case read32 | read16 | read8 => exact ⟨_, singleRead_flushes _ _, by simp⟩
  case write32 | write16 | write8 => exact ⟨_, singleWrite_flushes _ _ _, by simp⟩
  case burstWrite => exact burstWriteActions_flushesSmall _ (by simpa using ne_zero_of_burstOk hwf)
  case burstRead => exact burstReadActions_flushesSmall _ (ne_zero_of_burstOk hwf)
  case writeMany addr buf n progress =>
    obtain ⟨hlen, -⟩ := Bool.and_eq_true_iff.1 hwf
    exact .flatMap fun k hk => (burstWriteActions_flushesSmall _ (writeChunk_words_ne_nil (of_decide_eq_true hlen) hk)).append
      (chunkProgress_flushesSmall progress n k)
  case readMany addr n progress =>
    exact .flatMap fun k hk => (burstReadActions_flushesSmall _ (chunkWords_ne_zero hk)).append
      (chunkProgress_flushesSmall progress n k)
  all_goals exact absurd rfl hne

/-- Settles O48: the sizes of the flushes, read off the lists, and the streams' lengths as their sums. -/
theorem emissionCounts : Obligations.EmissionCounts := by
  refine ⟨fun a i hi => ?_, fun a v i hi => ?_, rfl, fun b ws hws => ?_, fun b n => ?_, fun i hwf hne k hk => ?_,
    readIdcode_flushes.sizes, fun b w ws => (burstWriteActions_flushes b w ws).sizes⟩
  · obtain ⟨hne, hsizes⟩ : program i ≠ [] ∧ flushSizes (program i) 0 = [58, 3, 0] := by
      fin_cases hi <;> exact ⟨List.cons_ne_nil _ _, (singleRead_flushes a _).sizes⟩
    exact ⟨length_encode hne hsizes, hsizes⟩
  · obtain ⟨hne, hsizes⟩ : program i ≠ [] ∧ flushSizes (program i) 0 = [64, 0] := by
      fin_cases hi <;> exact ⟨List.cons_ne_nil _ _, (singleWrite_flushes a _ _).sizes⟩
    exact ⟨length_encode hne hsizes, hsizes⟩
  · obtain ⟨w, ws, rfl⟩ := List.exists_cons_of_ne_nil hws
    rw [length_encode (i := .burstWrite b (w :: ws)) (List.cons_ne_nil _ _) (burstWriteActions_flushes b w ws).sizes]
    simp only [List.cons_append, List.sum_cons, List.sum_append, List.sum_replicate, List.sum_nil, List.length_cons, smul_eq_mul]
    omega
  · rw [length_encode (i := .burstRead b (n + 1)) (List.cons_ne_nil _ _) (burstReadActions_flushes b n).sizes]
    simp only [List.cons_append, List.sum_cons, List.sum_append, List.sum_replicate, List.sum_nil, smul_eq_mul]
    omega
  · obtain ⟨ks, hks, hsmall⟩ := program_flushesSmall i hwf hne
    rw [hks.sizes] at hk
    obtain hk | hk := List.mem_append.1 hk
    · exact hsmall k hk
    · rw [List.mem_singleton.1 hk]
      decide

end Sys2Proof.Machine
end

section
/-! The single reads in full (R249 to R252): the trailing reset's update does nothing, so the state is the one their commands leave,
in TLR; and what they return of memory (R61, R62). -/

namespace Sys2Proof.Machine

open Sys2Proof

/-! ## The trailing reset -/

/-- The reset is told from the run of its command. -/
theorem leadingReset_eq_of_ran {s t : State} (hmpsse : t.mpsse = s.mpsse)
    (h : ran (.tmsOut 0x04 0x3F) s = t.setMpsse (s.mpsse.pins true false)) : leadingReset s = t := by
  rw [ran_reset] at h
  calc leadingReset s
      = ((leadingReset s).setMpsse (s.mpsse.pins true false)).setMpsse s.mpsse := by
        rw [setMpsse_setMpsse, ← clocked_mpsse fiveHigh s]
        rfl
    _ = t := by rw [h, setMpsse_setMpsse, ← hmpsse, setMpsse_self]

/-- The reset out of a read's data scan whose data have been shifted out: its update, of zeros, does nothing (R243, R249). -/
theorem leadingReset_of_readScan {s : State} {done : Bool} (htap : s.target.tap = .shDR) (hir : s.target.ir = Config.codeData)
    (hdsr : s.target.dsr = done :: List.replicate 32 false) (hw : s.target.bridge.curW = false) :
    leadingReset s = s.setTarget { s.target with
      tap := .tlr
      ir := s.params.idcodeOpcode
      data := 0
      dsr := List.replicate 33 false
      clockCount := s.target.clockCount + 5 } := by
  have hzeros : shiftDsr false s.target.dsr = List.replicate 33 false := by
    rw [hdsr]
    rfl
  have hupd : updated (exited s) = dataLatched 0 (exited s) := updated_data_idle hir hzeros hw rfl
  have hrun := ran_reset_shDR s htap
  rw [hupd, dataLatched, exited, hzeros] at hrun
  exact leadingReset_eq_of_ran rfl hrun

/-! ## The whole read -/

/-- The operation is a single read: its list, and its result of the one word read. -/
structure IsSingleRead (i : Instr) (a : Word) (sz : BitVec 2) (r : Word → Returned) : Prop where
  list : program i = singleRead a sz
  reads : ∃ result, ReadsOnce i a sz result ∧ ∀ w, result [w] = r w

theorem isSingleRead_read32 {a : Word} (h : a.toNat % 4 = 0) : IsSingleRead (.read32 a) a 0b10 .word :=
  ⟨rfl, _, readsOnce_read32 h, fun _ => rfl⟩

theorem isSingleRead_read16 {a : Word} (h : a.toNat % 2 = 0) : IsSingleRead (.read16 a) a 0b01
    fun w => .half (if a.toNat % 4 = 0 then w.extractLsb' 16 16 else w.extractLsb' 0 16) :=
  ⟨rfl, _, readsOnce_read16 h, fun w => congrArg Returned.half (halfOf_eq w h)⟩

theorem isSingleRead_read8 (a : Word) : IsSingleRead (.read8 a) a 0b00
    fun w => .byte (w.extractLsb' (8 * (3 - a.toNat % 4)) 8) :=
  ⟨rfl, _, readsOnce_read8 a, fun _ => rfl⟩

/-- The target a single read leaves (R249, R259). -/
def readTarget (a : Word) (sz : BitVec 2) (s : State) : Target where
  tap := .tlr
  ir := s.params.idcodeOpcode
  irsr := 0x03
  cmd := BitVec.ofBool false ++ sz ++ a
  data := 0
  dsr := List.replicate 33 false
  bridge := bridgeSeen a sz s
  clockCount := s.target.clockCount + 164

theorem leadingReset_shiftedOut (a : Word) (sz : BitVec 2) (s : State) : leadingReset (shiftedOut a sz s) = { s with
    target := readTarget a sz s
    mem := (leadingReset s).mem
    ahbLog := (leadingReset s).ahbLog ++ [.read a sz] } := by
  have hreset := leadingReset_of_readScan (s := shiftedOut a sz s) (done := decide (readDuration a sz s ≤ 14)) rfl rfl rfl rfl
  rw [hreset, shiftedOut_eq]
  rfl

/-- A single read over a healthy transport (R249). -/
theorem exec_singleRead {i : Instr} {a : Word} {sz : BitVec 2} {r : Word → Returned} {s : State} (hi : IsSingleRead i a sz r)
    (hs : healthy s) : exec i s = .next (atRest s (s.engine.returnedFrom i [wordSeen a sz s] [] (r (wordSeen a sz s)))
      (readTarget a sz s) (leadingReset s).mem ((leadingReset s).ahbLog ++ [.read a sz]) 4) := by
  obtain ⟨hlist, result, hread, hresult⟩ := hi
  obtain ⟨hsession, hev, hin, hrx, hloop⟩ := hs
  have hcommanded : commanded (singleReadHead a sz) s = _ := commanded_singleReadHead a sz s s.mpsse s.usb hloop
  rw [hrx, List.nil_append] at hcommanded
  have hword : oldestWord (commanded (singleReadHead a sz) s) = wordSeen a sz s := by
    rw [hcommanded]
    exact bytesWord_wordBytes_self _
  have hpos : (program i).length = 15 := congrArg List.length hlist
  rw [hread.returned hsession hin hev (by rw [hcommanded]; exact le_rfl), fetched, hword, hresult, hcommanded,
    leadingReset_around, leadingReset_shiftedOut, atRest, at_eq_of_rxFifo hrx, Engine.returnedFrom, hpos]
  rfl

/-- Settles O37, by the one run of the three reads. -/
theorem singleReads : Obligations.SingleReads := by
  intro i a sz r s hs hlatency hi q
  have hread : IsSingleRead i a sz r := by
    obtain ⟨rfl, rfl, ha, rfl⟩ | ⟨rfl, rfl, ha, rfl⟩ | ⟨rfl, rfl, rfl⟩ := hi
    · exact isSingleRead_read32 ha
    · exact isSingleRead_read16 ha
    · exact isSingleRead_read8 a
  obtain ⟨_, hreads, _⟩ := hread.reads
  obtain ⟨hmin, hmax⟩ := readDuration_bounds a sz hlatency
  exact ⟨readDuration a sz s, wordRead a sz s, wordSeen a sz s, hmin, hmax, fun hk => if_pos hk,
    fun hquiet hram _ hx => laneByte_wordRead hreads.described hquiet hram hx, exec_singleRead hread hs⟩

/-! ## What the reads return of memory -/

theorem toNat_add_ofNat {a : Word} {n : Nat} (h : a.toNat + n < 2 ^ 32) : (a + BitVec.ofNat 32 n).toNat = a.toNat + n := by
  rw [BitVec.toNat_add, BitVec.toNat_ofNat, Nat.mod_eq_of_lt (a := n) (by omega), Nat.mod_eq_of_lt h]

/-- An address inside the word or halfword at an aligned address lies on the lane that many below (R61). -/
theorem byteShift_add {a : Word} {n : Nat} (h : a.toNat % 4 + n < 4) :
    byteShift (a + BitVec.ofNat 32 n) = 8 * (3 - (a.toNat % 4 + n)) := by
  rw [byteShift, toNat_add_ofNat (by have := a.isLt; omega)]
  omega

/-- The lanes of an aligned word's four bytes, the first the highest (R61). -/
theorem laneByte_word (w : Word) {a : Word} (h : a.toNat % 4 = 0) :
    laneByte w a = w.extractLsb' 24 8 ∧ laneByte w (a + 1) = w.extractLsb' 16 8 ∧ laneByte w (a + 2) = w.extractLsb' 8 8
    ∧ laneByte w (a + 3) = w.extractLsb' 0 8 := by
  have hlane {n : Nat} (hn : n < 4) : byteShift (a + BitVec.ofNat 32 n) = 8 * (3 - n) := by
    rw [byteShift_add (by omega), h, Nat.zero_add]
  have h0 : byteShift a = 24 := by rw [byteShift, h]
  have h1 : byteShift (a + 1) = 16 := hlane (n := 1) (by decide)
  have h2 : byteShift (a + 2) = 8 := hlane (n := 2) (by decide)
  have h3 : byteShift (a + 3) = 0 := hlane (n := 3) (by decide)
  rw [laneByte, laneByte, laneByte, laneByte, h0, h1, h2, h3]
  exact ⟨rfl, rfl, rfl, rfl⟩

theorem word_eq_lanes (w : Word) {a : Word} (h : a.toNat % 4 = 0) :
    laneByte w a ++ laneByte w (a + 1) ++ laneByte w (a + 2) ++ laneByte w (a + 3) = w := by
  obtain ⟨h0, h1, h2, h3⟩ := laneByte_word w h
  rw [h0, h1, h2, h3]
  exact bytesWord_wordBytes_self w

theorem extractLsb'_halves (w : Word) (k : Nat) : w.extractLsb' (k + 8) 8 ++ w.extractLsb' k 8 = w.extractLsb' k 16 := by
  ext i hi
  rw [BitVec.getElem_append]
  split
  · simp
  · rw [BitVec.getElem_extractLsb', BitVec.getElem_extractLsb']
    congr 1
    omega

theorem half_eq_lanes (w : Word) {a : Word} (h : a.toNat % 2 = 0) :
    laneByte w a ++ laneByte w (a + 1) = if a.toNat % 4 = 0 then w.extractLsb' 16 16 else w.extractLsb' 0 16 := by
  have h1 : byteShift (a + 1) = 8 * (3 - (a.toNat % 4 + 1)) := byteShift_add (a := a) (n := 1) (by omega)
  rw [laneByte, laneByte, h1, byteShift]
  split
  · next h4 =>
    rw [h4]
    exact extractLsb'_halves w 16
  · next h4 =>
    have h2 : a.toNat % 4 = 2 := by omega
    rw [h2]
    exact extractLsb'_halves w 0

/-- What one single read returns of memory, where its word completes before the capture. -/
theorem exec_singleRead_lanes {i : Instr} {a : Word} {sz : BitVec 2} {r : Word → Returned} {s : State}
    (hi : IsSingleRead i a sz r) (hs : healthy s) (hlatency : 1 ≤ s.params.ahbReadLatency)
    (hwindow : s.params.ahbReadLatency ≤ 14) (hquiet : s.params.targetQuiescent = true)
    (hram : ∀ x ∈ transferAddrs a sz, inRam s.params x = true) :
    ∃ t w, exec i s = .next t ∧ t.engine.returned = r w ∧ ∀ x ∈ transferAddrs a sz, laneByte w x = (leadingReset s).byteAt x := by
  obtain ⟨_, hreads, _⟩ := hi.reads
  obtain ⟨-, hmax⟩ := readDuration_bounds a sz hlatency
  have hseen : wordSeen a sz s = wordRead a sz s := if_pos (hmax.trans hwindow)
  exact ⟨_, wordSeen a sz s, exec_singleRead hi hs, rfl, fun x hx => by
    rw [hseen]
    exact laneByte_wordRead hreads.described hquiet hram hx⟩

theorem transferAddrs_word_eq (a : Word) : transferAddrs a 0b10 = [a, a + 1, a + 2, a + 3] := by
  simp [transferAddrs, sizeBytes, Config.sizeByte, Config.sizeHalf, Config.sizeWord, List.range_succ]

theorem transferAddrs_half_eq (a : Word) : transferAddrs a 0b01 = [a, a + 1] := by
  simp [transferAddrs, sizeBytes, Config.sizeByte, Config.sizeHalf, List.range_succ]

theorem transferAddrs_byte_eq (a : Word) : transferAddrs a 0b00 = [a] := by
  simp [transferAddrs, sizeBytes, Config.sizeByte]

/-- Settles O38: the lanes of the word read, put together as each width returns them. -/
theorem singleReadValues : Obligations.SingleReadValues := by
  intro a s hs hlatency hwindow hquiet q
  refine ⟨fun ha hram => ?_, fun ha hram hram1 => ?_, fun hram => ?_⟩
  · have hram' : ∀ x ∈ transferAddrs a 0b10, inRam s.params x = true := by
      intro x hx
      obtain ⟨j, hj, rfl⟩ := List.mem_map.1 hx
      exact hram j (List.mem_range.1 hj)
    obtain ⟨t, w, hexec, hret, hlanes⟩ :=
      exec_singleRead_lanes (isSingleRead_read32 ha) hs hlatency hwindow hquiet hram'
    refine ⟨t, hexec, hret.trans (congrArg Returned.word ?_)⟩
    simp only [transferAddrs_word_eq, List.forall_mem_cons] at hlanes
    obtain ⟨h0, h1, h2, h3, -⟩ := hlanes
    rw [← word_eq_lanes w ha, h0, h1, h2, h3]
    rfl
  · obtain ⟨t, w, hexec, hret, hlanes⟩ := exec_singleRead_lanes (isSingleRead_read16 ha) hs hlatency hwindow hquiet
      (transferAddrs_half_eq a ▸ List.forall_mem_cons.2 ⟨hram, List.forall_mem_singleton.2 hram1⟩)
    refine ⟨t, hexec, hret.trans (congrArg Returned.half ?_)⟩
    simp only [transferAddrs_half_eq, List.forall_mem_cons] at hlanes
    obtain ⟨h0, h1, -⟩ := hlanes
    rw [← half_eq_lanes w ha, h0, h1]
  · obtain ⟨t, w, hexec, hret, hlanes⟩ := exec_singleRead_lanes (isSingleRead_read8 a) hs hlatency hwindow hquiet
      (transferAddrs_byte_eq a ▸ List.forall_mem_singleton.2 hram)
    exact ⟨t, hexec, hret.trans (congrArg Returned.byte (hlanes a (transferAddrs_byte_eq a ▸ List.mem_singleton_self a)))⟩

end Sys2Proof.Machine
end

section
/-! The write direction on the target (R243, R247, R248, R281): what the head of a write leaves, what one word's scan stores, and
the three single writes. -/

namespace Sys2Proof.Machine

open Sys2Proof

/-! ## The data scan of a write -/

/-- The target in ShDR of the data register, about to take the word of a described write; the pins as a walk leaves them. -/
structure WriteScan (s : State) : Prop where
  tap : s.target.tap = .shDR
  ir : s.target.ir = Config.codeData
  width : s.target.dsr.length = 33
  write : s.target.bridge.curW = true
  fits : transferDescribed s.target.bridge.curAddr s.target.bridge.curSize = true
  inBlock : s.target.bridge.pastBlock = false
  idle : s.target.bridge.pending = .none
  pin : s.mpsse.tmsPin = false

/-- The state in Exit1-DR with a word and its SEQ scanned in (R216). -/
def wordScanned (d : Word) (seq : Bool) (s : State) : State := s.setTarget { s.target with
  tap := .ex1DR
  dsr := lowBits 33 (dataValue seq d)
  clockCount := s.target.clockCount + 33 }

/-- The state one clock on: the word is written (R243). -/
def wordWritten (d : Word) (seq : Bool) (s : State) : State := { s with
  target := { s.target with
    tap := .updDR
    data := dataValue seq d
    dsr := lowBits 33 (dataValue seq d)
    bridge := if seq then s.target.bridge.increment else s.target.bridge
    clockCount := s.target.clockCount + 34 }
  mem := storeBytes s.params ((transferAddrs s.target.bridge.curAddr s.target.bridge.curSize).map fun x => (x, laneByte d x))
    s.mem
  ahbLog := s.ahbLog ++ [.write s.target.bridge.curAddr s.target.bridge.curSize d] }

/-- The state in ShDR of the next word's scan, the word written: the capture of a write has no data of its own (R244). -/
def wordMoved (d : Word) (seq : Bool) (s : State) : State := (wordWritten d seq s).setTarget { (wordWritten d seq s).target with
  tap := .shDR
  dsr := lowBits 33 (dataValue true (Config.dataCapture (s.target.clockCount + 37)))
  clockCount := s.target.clockCount + 37 }

section
variable {s : State} (h : WriteScan s) (d : Word) (seq : Bool)
include h

theorem WriteScan.ranAll_writeData :
    ranAll (commands (.writeData d seq)) s = (wordScanned d seq s).setMpsse (s.mpsse.pins true seq) :=
  Sys2Proof.Machine.ranAll_writeData d seq s h.tap h.width h.pin

theorem WriteScan.updated_wordScanned (m : Mpsse) :
    updated ((wordScanned d seq s).setMpsse m) = (wordWritten d seq s).setMpsse m := by
  have hupd := updated_data_write (s := (wordScanned d seq s).setMpsse m) h.ir rfl h.write
  have hmem := memWrite_mem (s := dataLatched (dataValue seq d) ((wordScanned d seq s).setMpsse m)) d h.fits h.inBlock
  rw [dataField_dataValue, seqFlag_dataValue] at hupd
  have hstores : (memWrite (dataLatched (dataValue seq d) ((wordScanned d seq s).setMpsse m)) s.target.bridge.curAddr
      s.target.bridge.curSize d).mem = (wordWritten d seq s).mem := hmem
  rw [hupd, ← setMem_self (State.setBridge _ _), setBridge_mem]
  exact (congrArg _ hstores).trans rfl

/-- The last word, and the reset behind it, whose first clock writes it (R253, R282). -/
theorem WriteScan.word_reset : ranAll (commands .resetToTlr) (ranAll (commands (.writeData d seq)) s) =
    ((wordWritten d seq s).setTarget { (wordWritten d seq s).target with
      tap := .tlr
      ir := s.params.idcodeOpcode
      clockCount := s.target.clockCount + 38 }).setMpsse (s.mpsse.pins true false) := by
  have hreset := ran_reset_ex1DR ((wordScanned d seq s).setMpsse (s.mpsse.pins true seq)) rfl
  rw [h.updated_wordScanned] at hreset
  rw [h.ranAll_writeData]
  exact hreset

/-- A word, and the walk to the next word's scan, whose first clock writes it (R281). -/
theorem WriteScan.word_next : ranAll (commands .exit1ToShiftDr) (ranAll (commands (.writeData d seq)) s) =
    (wordMoved d seq s).setMpsse (s.mpsse.pins false false) := by
  have hwalk := ran_exit1_ex1DR ((wordScanned d seq s).setMpsse (s.mpsse.pins true seq)) rfl
  have hidle : (wordWritten d seq s).target.bridge.pending = .none := by
    cases seq <;> exact h.idle
  have hw : (wordWritten d seq s).target.bridge.curW = true := by
    cases seq <;> exact h.write
  rw [h.updated_wordScanned, captured_data _ _ (by exact h.ir), complete_none _ _ (by exact hidle),
    captureDataValue_write _ _ (by exact hw)] at hwalk
  rw [h.ranAll_writeData]
  exact hwalk

end

/-! ## The head of a write -/

/-- The state in ShDR behind a write's command load and data select: the command is latched, and no transfer has started
(R242, R247, R248). -/
def writeHead (a : Word) (sz : BitVec 2) (s : State) : State := { s with
  target := {
    tap := .shDR
    ir := Config.codeData
    irsr := Config.codeData
    cmd := cmdValue a sz true
    data := (leadingReset s).target.data
    dsr := lowBits 33 (dataValue true (Config.dataCapture (s.target.clockCount + 127)))
    bridge := { curAddr := a, curSize := sz, curW := true, pending := .none, rdata := (leadingReset s).target.bridge.rdata,
                pastBlock := false }
    clockCount := s.target.clockCount + 127 }
  mem := (leadingReset s).mem
  ahbLog := (leadingReset s).ahbLog }

/-- The state behind a write's command load (R247). -/
def writeLoaded (a : Word) (sz : BitVec 2) (s : State) : State := (leadingReset s).setTarget { (leadingReset s).target with
  tap := .ex1DR
  ir := Config.codeAddrComm
  irsr := Config.codeAddrComm
  dsr := lowBits 35 (cmdValue a sz true)
  clockCount := s.target.clockCount + 112 }

theorem play_writeHead (a : Word) (sz : BitVec 2) (s : State) :
    play (commandLoad a sz true ++ dataSelect) s = (writeHead a sz s).setMpsse (s.mpsse.pins false false) := by
  have hload := play_commandLoad_tail a sz true ((leadingReset s).setMpsse (s.mpsse.pins true false)) (leadingReset_tap s)
  have hclock : ((leadingReset s).setMpsse (s.mpsse.pins true false)).target.clockCount + 107 = s.target.clockCount + 112 :=
    congrArg (· + 107) (leadingReset_clockCount s)
  have hreset : play (commandLoad a sz true) s = (writeLoaded a sz s).setMpsse (s.mpsse.pins true true) := by
    show play (commandLoad a sz true).tail (ran (.tmsOut 0x04 0x3F) s) = _
    rw [ran_reset, hload, hclock]
    rfl
  rw [play_append, hreset, play_dataSelect _ rfl, updated_write a sz _ rfl rfl, captured_data _ _ (by exact rfl)]
  simp only [setTarget_target, complete_none, captureDataValue_write]
  rw [writeLoaded, leadingReset_eq]
  rfl

theorem writeHead_writeScan {a : Word} {sz : BitVec 2} (h : transferDescribed a sz = true) (s : State) :
    WriteScan ((writeHead a sz s).setMpsse (s.mpsse.pins false false)) where
  tap := rfl
  ir := rfl
  width := lowBits_length _ _
  write := rfl
  fits := h
  inBlock := rfl
  idle := rfl
  pin := rfl

/-! ## The single writes -/

/-- The operation is the single write of the word d (R253). -/
structure IsSingleWrite (i : Instr) (a : Word) (sz : BitVec 2) (d : Word) : Prop where
  fits : transferDescribed a sz = true
  list : program i = singleWrite a sz d
  exec_eq : ∀ s : State, s.engine.session ≠ none → exec i s = operation (program i) (fun _ => .done) s

theorem isSingleWrite_write32 {a : Word} {v : Nat} (h : a.toNat % 4 = 0) (hv : v < 2 ^ 32) :
    IsSingleWrite (.write32 a v) a 0b10 (BitVec.ofNat 32 v) where
  fits := decide_eq_true h
  list := rfl
  exec_eq s hs := checked_eq_operation
    (List.forall_mem_cons.2 ⟨hasSession_of_ne hs, List.forall_mem_cons.2 ⟨decide_eq_true h,
      List.forall_mem_singleton.2 (decide_eq_true hv)⟩⟩) _ _ s

theorem isSingleWrite_write16 {a : Word} {v : Nat} (h : a.toNat % 2 = 0) (hv : v < 2 ^ 16) :
    IsSingleWrite (.write16 a v) a 0b01 (BitVec.ofNat 32 v <<< halfShift a) where
  fits := decide_eq_true h
  list := rfl
  exec_eq s hs := checked_eq_operation
    (List.forall_mem_cons.2 ⟨hasSession_of_ne hs, List.forall_mem_cons.2 ⟨decide_eq_true h,
      List.forall_mem_singleton.2 (decide_eq_true hv)⟩⟩) _ _ s

theorem isSingleWrite_write8 (a : Word) {v : Nat} (hv : v < 2 ^ 8) :
    IsSingleWrite (.write8 a v) a 0b00 (BitVec.ofNat 32 v <<< byteShift a) where
  fits := rfl
  list := rfl
  exec_eq s hs := checked_eq_operation
    (List.forall_mem_cons.2 ⟨hasSession_of_ne hs, List.forall_mem_singleton.2 (decide_eq_true hv)⟩) _ _ s

/-- The primitives of a single write. -/
def singleWriteHead (a : Word) (sz : BitVec 2) (d : Word) : List Instr :=
  [.resetToTlr, .tlrToShiftIr, .shiftIr Config.codeAddrComm.toNat, .exit1ToShiftDr, .shiftBytesOut blanking,
   .clockOnly Config.settleClocks, .loadCmd a sz true, .exit1drToShiftIr, .shiftIr Config.codeData.toNat, .exit1ToShiftDr,
   .writeData d false, .resetToTlr]

theorem believed_singleWriteHead (a : Word) {sz : BitVec 2} (d : Word) (hsz : sz ≠ Config.sizeReserved) (b : Belief) :
    believed (singleWriteHead a sz d) b = some (.at .tlr) := by
  have hload : primStep (.loadCmd a sz true) (.at .shDR) = some (.at .ex1DR) := if_pos ⟨hsz, rfl⟩
  have hrest : believed [.exit1drToShiftIr, .shiftIr Config.codeData.toNat, .exit1ToShiftDr, .writeData d false, .resetToTlr]
      (.at .ex1DR) = some (.at .tlr) := rfl
  show (primStep (.loadCmd a sz true) (.at .shDR)).bind _ = _
  rw [hload]
  exact hrest

/-- The target a single write leaves (R253, R259). -/
def writeTarget (a : Word) (sz : BitVec 2) (d : Word) (s : State) : Target where
  tap := .tlr
  ir := s.params.idcodeOpcode
  irsr := 0x03
  cmd := BitVec.ofBool true ++ sz ++ a
  data := BitVec.ofBool false ++ d
  dsr := lowBits 33 (BitVec.ofBool false ++ d)
  bridge := { curAddr := a, curSize := sz, curW := true, pending := .none, rdata := (leadingReset s).target.bridge.rdata
              pastBlock := false }
  clockCount := s.target.clockCount + 165

/-- The commands of a single write. -/
theorem ranAll_singleWriteHead {a : Word} {sz : BitVec 2} (d : Word) (h : transferDescribed a sz = true) (s : State) :
    ranAll ((singleWriteHead a sz d).flatMap commands) s = { s with
      target := writeTarget a sz d s
      mem := storeBytes s.params ((transferAddrs a sz).map fun x => (x, laneByte d x)) (leadingReset s).mem
      ahbLog := (leadingReset s).ahbLog ++ [.write a sz d]
      mpsse := s.mpsse.pins true false } := by
  have hsplit : ranAll ((singleWriteHead a sz d).flatMap commands) s = ranAll (commands .resetToTlr)
      (ranAll (commands (.writeData d false)) (play (commandLoad a sz true ++ dataSelect) s)) := by
    rw [← play_emits]
    rfl
  rw [hsplit, play_writeHead, (writeHead_writeScan h s).word_reset]
  rfl

/-- A single write over a healthy transport (R253). -/
theorem exec_singleWrite {i : Instr} {a : Word} {sz : BitVec 2} {d : Word} {s : State} (hi : IsSingleWrite i a sz d)
    (hs : healthy s) : exec i s = .next (atRest s (s.engine.returnedFrom i [] [] .done) (writeTarget a sz d s)
      (storeBytes s.params ((transferAddrs a sz).map fun x => (x, laneByte d x)) (leadingReset s).mem)
      ((leadingReset s).ahbLog ++ [.write a sz d]) 1) := by
  obtain ⟨hfits, hlist, hexec⟩ := hi
  obtain ⟨hsession, hev, hin, hrx, -⟩ := hs
  have hsz : sz ≠ Config.sizeReserved := by
    rintro rfl
    exact nomatch hfits
  have hissue : leadingReset (issue s) = (leadingReset s).around (issue s).engine s.mpsse s.usb s.calls :=
    leadingReset_around s (issue s).engine s.mpsse s.usb s.calls
  have htarget : writeTarget a sz d (issue s) = writeTarget a sz d s := by
    rw [writeTarget, hissue]
    rfl
  have hpos : (program i).length = 13 := congrArg List.length hlist
  have hrun := runActions_stretch (is := singleWriteHead a sz d) (s := issue s) hsession (List.cons_ne_nil _ _) rfl hin
    (driverCall_of_nil hev) (believed_singleWriteHead a d hsz _) []
  have hmem : (leadingReset (issue s)).mem = (leadingReset s).mem := by
    rw [hissue]
    rfl
  have hlog : (leadingReset (issue s)).ahbLog = (leadingReset s).ahbLog := by
    rw [hissue]
    rfl
  have hparams : (issue s).params = s.params := rfl
  have hresponses : (((singleWriteHead a sz d).flatMap commands).map responses).sum = 0 := by
    have hqueued := ranAll_rx_length _ s (believed_commands (believed_singleWriteHead a d hsz .unknown))
    rw [ranAll_singleWriteHead d hfits] at hqueued
    exact Nat.add_eq_left.1 hqueued.symm
  rw [ranAll_singleWriteHead d hfits, htarget, hmem, hlog, hparams, hresponses] at hrun
  have hacts : singleWrite a sz d = (singleWriteHead a sz d).map .emit ++ .flush :: [] := rfl
  have hnext : (issue s).usb.next = { s.usb with calls := s.usb.calls + 1 } := usb_next_of_nil hev
  rw [hexec s hsession, hlist, operation, hacts, hrun, hnext, atRest, Engine.returnedFrom, hpos]
  generalize storeBytes s.params _ _ = m
  rfl

/-! ## The bytes they store -/

theorem ofNat_shiftLeft (v k : Nat) : BitVec.ofNat 32 v <<< k = BitVec.ofNat 32 (v * 2 ^ k) := by
  refine BitVec.eq_of_toNat_eq ?_
  rw [BitVec.toNat_shiftLeft, BitVec.toNat_ofNat, BitVec.toNat_ofNat, Nat.shiftLeft_eq, Nat.mod_mul_mod]

/-- A lane of a value shifted up is one of the value's own bytes, where the value fits (R255, R256). -/
theorem laneByte_shifted {v k n : Nat} {x : Word} (hfit : v * 2 ^ k < 2 ^ 32) (hlane : byteShift x = k + n) :
    laneByte (BitVec.ofNat 32 v <<< k) x = BitVec.ofNat 8 (v / 2 ^ n) := by
  refine BitVec.eq_of_toNat_eq ?_
  rw [laneByte, hlane, BitVec.extractLsb'_toNat, ofNat_shiftLeft, BitVec.toNat_ofNat, Nat.mod_eq_of_lt hfit,
    Nat.shiftRight_eq_div_pow, BitVec.toNat_ofNat, Nat.pow_add, Nat.mul_comm (2 ^ k), Nat.mul_div_mul_right _ _ (Nat.two_pow_pos k)]

theorem lanes_word {a : Word} (h : a.toNat % 4 = 0) (d : Word) :
    ((transferAddrs a 0b10).map fun x => (x, laneByte d x)) = wordStores a d := by
  obtain ⟨h0, h1, h2, h3⟩ := laneByte_word d h
  rw [transferAddrs_word_eq]
  simp only [List.map_cons, List.map_nil, h0, h1, h2, h3]
  rfl

theorem halfShift_eq {a : Word} (h : a.toNat % 2 = 0) : halfShift a = if a.toNat % 4 = 0 then 16 else 0 := by
  rw [halfShift]
  split <;> omega

/-- A halfword's bytes, the higher one at the lower address (R255). -/
theorem lanes_half {a : Word} (h : a.toNat % 2 = 0) {v : Nat} (hv : v < 2 ^ 16) :
    ((transferAddrs a 0b01).map fun x => (x, laneByte (BitVec.ofNat 32 v <<< halfShift a) x)) =
      [(a, BitVec.ofNat 8 (v / 256)), (a + 1, BitVec.ofNat 8 (v % 256))] := by
  have hfit := mul_halfShift_lt hv a
  have hhigh : byteShift a = halfShift a + 8 := by
    rw [byteShift, halfShift]
    omega
  have hlow : byteShift (a + 1) = halfShift a + 0 := (byteShift_add (a := a) (n := 1) (by omega)).trans (by
    rw [halfShift]
    omega)
  have hmod : BitVec.ofNat 8 (v % 256) = BitVec.ofNat 8 (v / 2 ^ 0) := by
    refine BitVec.eq_of_toNat_eq ?_
    simp
  rw [transferAddrs_half_eq, List.map_cons, List.map_cons, laneByte_shifted hfit hhigh, laneByte_shifted hfit hlow, hmod]
  rfl

theorem lanes_byte (a : Word) {v : Nat} (hv : v < 2 ^ 8) :
    ((transferAddrs a 0b00).map fun x => (x, laneByte (BitVec.ofNat 32 v <<< byteShift a) x)) = [(a, BitVec.ofNat 8 v)] := by
  rw [transferAddrs_byte_eq, List.map_cons, laneByte_shifted (n := 0) (mul_byteShift_lt hv a) rfl, Nat.pow_zero, Nat.div_one]
  rfl

/-- Settles O39: the one run of the three writes, and the lanes of each width's word. -/
theorem singleWrites : Obligations.SingleWrites := by
  intro i a v sz d stores s hs hi q
  obtain ⟨hwrite, hstores⟩ : IsSingleWrite i a sz d ∧ ((transferAddrs a sz).map fun x => (x, laneByte d x)) = stores := by
    obtain ⟨rfl, rfl, ha, hv, rfl, rfl⟩ | ⟨rfl, rfl, ha, hv, rfl, rfl⟩ | ⟨rfl, rfl, hv, rfl, rfl⟩ := hi
    · exact ⟨isSingleWrite_write32 ha hv, lanes_word ha _⟩
    · have hd : BitVec.ofNat 32 v <<< halfShift a = BitVec.ofNat 32 (if a.toNat % 4 = 0 then v * 2 ^ 16 else v) := by
        rw [ofNat_shiftLeft, halfShift_eq ha]
        split <;> simp
      rw [← hd]
      exact ⟨isSingleWrite_write16 ha hv, lanes_half ha hv⟩
    · rw [← byteShift, ← ofNat_shiftLeft]
      exact ⟨isSingleWrite_write8 a hv, lanes_byte a hv⟩
  refine ⟨_, fun hwf => ?_, exec_singleWrite hwrite hs⟩
  rw [hstores]
  exact storesExactly_storeBytes _ _ ((clocked_moves fiveHigh s).keeps hwf).wf

end Sys2Proof.Machine
end

section
/-! Words written in a burst and over chunks, as the memory they leave (R281, R291). -/

namespace Sys2Proof.Machine

open Sys2Proof

/-- Out of TLR the leading reset touches no memory (R135). -/
theorem leadingReset_mem_of_tlr {s : State} (h : s.target.tap = .tlr) : (leadingReset s).mem = s.mem := by
  obtain ⟨r, hr⟩ := leadingReset_quiet (s := s) (by rw [scanFree, h])
  rw [hr]
  rfl

/-! ## A burst -/

/-- Two words in a row in one 1 KiB block have consecutive addresses (R67). -/
theorem add_four_toNat {a : Word} (h : a.toNat % 1024 + 8 ≤ 1024) : (a + 4).toNat = a.toNat + 4 :=
  toNat_add_ofNat (n := 4) (by have := a.isLt; omega)

section
variable {s : State} (h : WriteScan s) (hsize : s.target.bridge.curSize = Config.sizeWord)
include h hsize

theorem WriteScan.aligned : s.target.bridge.curAddr.toNat % 4 = 0 := by
  have hfits := h.fits
  rw [hsize] at hfits
  exact (wordAligned_iff _).1 hfits

theorem WriteScan.wordWritten_mem (d : Word) (seq : Bool) :
    (wordWritten d seq s).mem = storeBytes s.params (wordStores s.target.bridge.curAddr d) s.mem := by
  rw [wordWritten, hsize, Config.sizeWord, lanes_word (h.aligned hsize)]

/-- The next word of a burst inside its block is written as the one before (R246, R281). -/
theorem WriteScan.next (hblock : s.target.bridge.curAddr.toNat % 1024 + 8 ≤ 1024) (d : Word) :
    WriteScan (ranAll (commands .exit1ToShiftDr) (ranAll (commands (.writeData d true)) s)) := by
  have hadd := add_four_toNat hblock
  have halign := h.aligned hsize
  have hfits : transferDescribed (s.target.bridge.curAddr + 4) s.target.bridge.curSize = true := by
    rw [hsize]
    exact (wordAligned_iff _).2 (by omega)
  rw [h.word_next]
  exact ⟨rfl, h.ir, lowBits_length _ _, h.write, hfits, increment_pastBlock_of_same h.inBlock (by omega), h.idle, rfl⟩

end

/-- The words of a burst are stored in address order (R281). -/
theorem play_burstWriteWords_mem (w : Word) (ws : List Word) {s : State} (h : WriteScan s)
    (hsize : s.target.bridge.curSize = Config.sizeWord)
    (hblock : s.target.bridge.curAddr.toNat % 1024 + 4 * (ws.length + 1) ≤ 1024) :
    (play (burstWriteWords (w :: ws)) s).mem =
      storeBytes s.params (wordsStores s.target.bridge.curAddr (w :: ws)) s.mem := by
  induction ws generalizing w s with
  | nil =>
    show (ranAll (commands .resetToTlr) (ranAll (commands (.writeData w true)) s)).mem = _
    rw [h.word_reset, wordsStores, wordsStores, List.append_nil]
    exact h.wordWritten_mem hsize w true
  | cons w' ws ih =>
    rw [List.length_cons] at hblock
    have hadd := add_four_toNat (a := s.target.bridge.curAddr) (by omega)
    have hnext := h.next hsize (by omega) w
    rw [h.word_next] at hnext
    have hblock' : (s.target.bridge.curAddr + 4).toNat % 1024 + 4 * (ws.length + 1) ≤ 1024 := by omega
    have hrest : (play (burstWriteWords (w' :: ws)) ((wordMoved w true s).setMpsse (s.mpsse.pins false false))).mem =
        storeBytes s.params (wordsStores (s.target.bridge.curAddr + 4) (w' :: ws)) (wordWritten w true s).mem :=
      ih w' hnext hsize hblock'
    show (play (burstWriteWords (w' :: ws)) (ranAll (commands .exit1ToShiftDr) (ranAll (commands (.writeData w true)) s))).mem = _
    rw [h.word_next, hrest, h.wordWritten_mem hsize, ← storeBytes_append]
    rfl

theorem play_burstWriteActions_mem {b : Word} {ws : List Word} (s : State) (halign : b.toNat % 4 = 0) (hne : ws ≠ [])
    (hblock : b.toNat % 1024 + 4 * ws.length ≤ 1024) :
    (play (burstWriteActions b ws) s).mem = storeBytes s.params (wordsStores b ws) (leadingReset s).mem := by
  obtain ⟨w, ws, rfl⟩ := List.exists_cons_of_ne_nil hne
  have hscan := writeHead_writeScan (a := b) (sz := Config.sizeWord) ((wordAligned_iff b).2 halign) s
  rw [burstWriteActions, play_append, play_writeHead, play_burstWriteWords_mem w ws hscan rfl hblock]
  rfl

/-! ## Chunks -/

theorem wordsStores_append (a : Word) (xs ys : List Word) :
    wordsStores a (xs ++ ys) = wordsStores a xs ++ wordsStores (a + BitVec.ofNat 32 (4 * xs.length)) ys := by
  induction xs generalizing a with
  | nil => simp [wordsStores]
  | cons x xs ih =>
    have haddr : a + 4 + BitVec.ofNat 32 (4 * xs.length) = a + BitVec.ofNat 32 (4 * (xs.length + 1)) := by
      rw [BitVec.add_assoc, Nat.mul_succ, Nat.add_comm, BitVec.ofNat_add]
      rfl
    rw [List.cons_append, wordsStores, wordsStores, ih, List.append_assoc, haddr, List.length_cons]

/-- The words of chunk k (R291). -/
def chunkSlice (buf : List Word) (n k : Nat) : List Word := (buf.drop (Config.maxBurstWords * k)).take (chunkWords n k)

/-- The chunks' words, one chunk after another, are the buffer's, at the buffer's addresses (R290, R291). -/
theorem chunks_wordsStores (addr : Word) {buf : List Word} {n : Nat} (hlen : buf.length = n) {j : Nat} (hj : j ≤ chunkCount n) :
    (List.range j).flatMap (fun k => wordsStores (chunkBase addr k) (chunkSlice buf n k)) =
      wordsStores addr (buf.take (Config.maxBurstWords * j)) := by
  induction j with
  | zero => rfl
  | succ j ih =>
    have hstart := chunk_start_lt (List.mem_range.2 hj)
    have hslice : chunkSlice buf n j = (buf.drop (Config.maxBurstWords * j)).take Config.maxBurstWords := by
      rw [chunkSlice, chunkWords, List.take_eq_take_iff, List.length_drop, hlen]
      omega
    have htaken : 4 * (buf.take (Config.maxBurstWords * j)).length = Config.seqBoundaryBytes * j := by
      rw [List.length_take, hlen, min_eq_left hstart.le, Config.maxBurstWords, Config.seqBoundaryBytes]
      omega
    rw [List.range_succ, List.flatMap_append, ih (by omega), List.flatMap_singleton, hslice, Nat.mul_succ, List.take_add,
      wordsStores_append, htaken]
    rfl

theorem burstOk_bounds {b : Word} {n : Nat} (h : burstOk b n = true) : b.toNat % 4 = 0 ∧ b.toNat % 1024 + 4 * n ≤ 1024 := by
  obtain ⟨halign, hlen, hblock⟩ := (burstOk_iff b n).1 h
  rw [wordAligned_iff] at halign
  rw [burstLengthOk_iff] at hlen
  rw [inOneBlock_iff] at hblock
  omega

theorem chunkSlice_length {buf : List Word} {n k : Nat} (hlen : buf.length = n) : (chunkSlice buf n k).length = chunkWords n k := by
  rw [chunkSlice, List.length_take, List.length_drop, hlen, chunkWords]
  omega

theorem play_chunkProgress_mem (progress : Bool) (n k : Nat) (s : State) : (play (chunkProgress progress n k) s).mem = s.mem := by
  cases progress <;> rfl

section
variable {addr : Word} {buf : List Word} {n : Nat} (progress : Bool) (hlen : buf.length = n) (hok : manyOk addr n = true)
include hlen hok

/-- A chunk stores its words (R291). -/
theorem play_writeChunk_mem {k : Nat} (hk : k ∈ List.range (chunkCount n)) (s : State) :
    (play (writeChunk addr buf n progress k) s).mem =
      storeBytes s.params (wordsStores (chunkBase addr k) (chunkSlice buf n k)) (leadingReset s).mem := by
  obtain ⟨halign, hblock⟩ := burstOk_bounds (chunk_burstOk hok hk)
  rw [writeChunk, play_append, play_chunkProgress_mem]
  exact play_burstWriteActions_mem s halign (writeChunk_words_ne_nil hlen hk) ((chunkSlice_length hlen).symm ▸ hblock)

/-- Chunks store their words in order, from one to the next through TLR (R291). -/
theorem play_writeChunks_mem {ks : List Nat} (hks : ∀ k ∈ ks, k ∈ List.range (chunkCount n)) (s : State) :
    (leadingReset (play (ks.flatMap (writeChunk addr buf n progress)) s)).mem =
      storeBytes s.params (ks.flatMap fun k => wordsStores (chunkBase addr k) (chunkSlice buf n k)) (leadingReset s).mem := by
  induction ks generalizing s with
  | nil => rfl
  | cons k ks ih =>
    obtain ⟨hk, hks⟩ := List.forall_mem_cons.1 hks
    have hends := writeChunk_endsAtRest addr progress hlen hk .unknown false
    have hrested : Rested (play (writeChunk addr buf n progress k) s) := play_rested (r := false) nofun hends.reset
    rw [List.flatMap_cons, play_append, ih hks, leadingReset_mem_of_tlr hrested.tap, play_writeChunk_mem progress hlen hok hk,
      play_params (planned_engineList _ _ _ _ _ hends.plan), List.flatMap_cons, storeBytes_append]

/-- The whole transfer stores the buffer (R291). -/
theorem play_writeMany_mem (s : State) : (leadingReset (play (program (.writeMany addr buf n progress)) s)).mem =
    storeBytes s.params (wordsStores addr buf) (leadingReset s).mem := by
  have hall : buf.take (Config.maxBurstWords * chunkCount n) = buf := by
    refine List.take_of_length_le ?_
    rw [hlen, chunkCount, Config.maxBurstWords]
    omega
  have hrun := play_writeChunks_mem progress hlen hok (ks := List.range (chunkCount n)) (fun _ => id) s
  rw [chunks_wordsStores addr hlen le_rfl, hall] at hrun
  exact hrun

end

end Sys2Proof.Machine
end

section
/-! Words read in a burst and over chunks, within the window of R286: the words memory holds (R283, R292). -/

namespace Sys2Proof.Machine

open Sys2Proof

/-! ## The word a read captures -/

/-- The capture n of a bridge that has a read under way (R244). -/
theorem captureDataValue_complete {b : Bridge} {t : Nat} {w : Word} (hw : b.curW = false) (hp : b.pending = .read t w) (n : Nat) :
    captureDataValue (b.complete n) n = dataValue (decide (t ≤ n)) (if t ≤ n then w else Config.dataCapture n) := by
  by_cases ht : t ≤ n
  · rw [complete_done b t n w hp ht, captureDataValue_done { b with rdata := w, pending := .none } n hw rfl, decide_eq_true ht,
      if_pos ht]
  · rw [complete_waiting b t n w hp (by omega), captureDataValue_waiting b t n w hw hp, decide_eq_false ht, if_neg ht]

/-- A completion touches the data register's word and the pending read alone (R244). -/
theorem complete_eq (b : Bridge) (n : Nat) :
    b.complete n = { b with pending := (b.complete n).pending, rdata := (b.complete n).rdata } := by
  cases hp : b.pending with
  | none => rw [complete_none b n hp]
  | read t w =>
    by_cases ht : t ≤ n
    · rw [complete_done b t n w hp ht]
    · rw [complete_waiting b t n w hp (by omega)]

/-- An aligned word read in `RAM_REGION` of a quiescent target is what memory holds (R62, R65). -/
theorem memRead_word {s : State} {a : Word} (halign : a.toNat % 4 = 0) (hquiet : s.params.targetQuiescent = true)
    (hblock : s.target.bridge.pastBlock = false) (hram : wordsInRam s.params a 1) : memRead s a Config.sizeWord = s.wordAt a := by
  have hlane {x : Word} (hx : x ∈ transferAddrs a 0b10) : laneByte (memRead s a 0b10) x = s.byteAt x := by
    refine laneByte_memRead (decide_eq_true halign) hquiet hblock (fun y hy => ?_) hx
    obtain ⟨j, hj, rfl⟩ := List.mem_map.1 hy
    exact hram j (List.mem_range.1 hj)
  rw [transferAddrs_word_eq] at hlane
  rw [Config.sizeWord, ← word_eq_lanes (memRead s a 0b10) halign, hlane (by simp), hlane (by simp), hlane (by simp),
    hlane (by simp)]
  rfl

/-! ## The data scan of a read -/

/-- The target in ShDR of the data register with the word w captured, nothing queued for the host, and the pins as a walk
leaves them. -/
structure ReadScan (w : Word) (s : State) : Prop where
  tap : s.target.tap = .shDR
  ir : s.target.ir = Config.codeData
  captured : ∃ done, s.target.dsr = lowBits 32 w ++ [done]
  read : s.target.bridge.curW = false
  pin : s.mpsse.tmsPin = false
  loopback : s.mpsse.loopback = false
  queue : s.mpsse.rxFifo = []

/-- The state with the word shifted out and read by the engine; `done` is left of the capture (R217, R226). -/
def wordTaken (w : Word) (done : Bool) (s : State) : State := (appendOut w s).setTarget { s.target with
  dsr := done :: List.replicate 32 false
  clockCount := s.target.clockCount + 32 }

theorem ReadScan.play_word {w : Word} {s : State} (h : ReadScan w s) (rest : List Action) :
    ∃ done, play (.emit .readData :: .flush :: .readWord :: rest) s =
      play rest ((wordTaken w done s).setMpsse (s.mpsse.pins false false)) := by
  obtain ⟨done, hdsr⟩ := h.captured
  refine ⟨done, ?_⟩
  have hqueue : (s.mpsse.pins false false).rx [] = s.mpsse.pins false false := by
    rw [← h.queue]
    rfl
  rw [play, play, play, ranAll_readData w [done] s h.tap hdsr h.pin h.loopback, h.queue, List.nil_append]
  show play rest ((appendOut (bytesWord (wordBytes w)) ((s.setTarget _).setMpsse _)).setMpsse
    ((s.mpsse.pins false false).rx [])) = _
  rw [bytesWord_wordBytes_self, hqueue]
  rfl

/-- The state in which the next read of a burst starts: SEQ is scanned in, and the address moved on (R243, R246, R285). -/
def seqIssued (w : Word) (s : State) : State := (appendOut w s).setTarget { s.target with
  tap := .updDR
  data := dataValue true 0
  dsr := lowBits 33 (dataValue true 0)
  bridge := s.target.bridge.increment
  clockCount := s.target.clockCount + 34 }

/-- The state in ShDR of the next word's scan, three clocks behind the update that started its read (R285). -/
def seqCaptured (w : Word) (s : State) : State :=
  let t := startRead (seqIssued w s)
  t.setTarget { t.target with
    tap := .shDR
    bridge := t.target.bridge.complete (s.target.clockCount + 37)
    dsr := lowBits 33 (captureDataValue (t.target.bridge.complete (s.target.clockCount + 37)) (s.target.clockCount + 37))
    clockCount := s.target.clockCount + 37 }

/-- The word captured there. -/
def seqWord (w : Word) (s : State) : Word :=
  if readClocks (seqIssued w s) ≤ 3 then memRead (seqIssued w s) (s.target.bridge.curAddr + 4) s.target.bridge.curSize
  else Config.dataCapture (s.target.clockCount + 37)

section
variable {w : Word} {s : State} (h : ReadScan w s)
include h

/-- A word of a burst that others follow (R283, R285). -/
theorem ReadScan.play_next (rest : List Action) :
    play ([.emit .readData, .flush, .readWord, .emit (.seqExit true), .emit .exit1ToShiftDr] ++ rest) s =
      play rest ((seqCaptured w s).setMpsse (s.mpsse.pins false false)) := by
  obtain ⟨done, hword⟩ := h.play_word ([.emit (.seqExit true), .emit .exit1ToShiftDr] ++ rest)
  have hlast := ran_lastBit_shDR true ((wordTaken w done s).setMpsse (s.mpsse.pins false false)) h.tap
  have hwalk := ran_exit1_ex1DR (ran (.tmsOut 0x00 (lastBitByte true true)) ((wordTaken w done s).setMpsse
    (s.mpsse.pins false false))) (by rw [hlast]; rfl)
  rw [hlast, updated_data_next (v := dataValue true 0) (by exact h.ir) rfl (by exact h.read) rfl,
    captured_data _ _ (by exact h.ir)] at hwalk
  refine hword.trans (congrArg (play rest) ?_)
  show ran (.tmsOut 0x03 0x03) (ran (.tmsOut 0x00 (lastBitByte true true)) ((wordTaken w done s).setMpsse
    (s.mpsse.pins false false))) = _
  rw [hlast, hwalk]
  rfl

/-- The next word's scan is one as well. -/
theorem ReadScan.next : ReadScan (seqWord w s) ((seqCaptured w s).setMpsse (s.mpsse.pins false false)) where
  tap := rfl
  ir := h.ir
  captured := by
    have hcapture := captureDataValue_complete (b := (startRead (seqIssued w s)).target.bridge) h.read rfl
      (s.target.clockCount + 37)
    have hwindow : s.target.clockCount + 34 + readClocks (seqIssued w s) ≤ s.target.clockCount + 37 ↔
        readClocks (seqIssued w s) ≤ 3 := by omega
    refine ⟨decide (readClocks (seqIssued w s) ≤ 3), ?_⟩
    rw [← lowBits_dataValue]
    refine (congrArg (lowBits 33) hcapture).trans (congrArg (lowBits 33) ?_)
    exact congrArg₂ dataValue (decide_eq_decide.2 hwindow) (if_congr hwindow rfl rfl)
  read := by
    show ((startRead (seqIssued w s)).target.bridge.complete _).curW = false
    rw [complete_curW]
    exact h.read
  pin := rfl
  loopback := h.loopback
  queue := h.queue

/-- The last word of a read, and the reset behind it, whose update does nothing (R249, R285). -/
theorem ReadScan.play_last : play (burstReadWords 1) s = ((appendOut w s).setTarget { s.target with
    tap := .tlr
    ir := s.params.idcodeOpcode
    data := 0
    dsr := List.replicate 33 false
    clockCount := s.target.clockCount + 37 }).setMpsse (s.mpsse.pins true false) := by
  obtain ⟨done, hword⟩ := h.play_word [.emit .resetToTlr, .flush]
  have hreset := leadingReset_of_readScan (s := (wordTaken w done s).setMpsse (s.mpsse.pins false false)) h.tap h.ir rfl h.read
  refine hword.trans ?_
  show ran (.tmsOut 0x04 0x3F) ((wordTaken w done s).setMpsse (s.mpsse.pins false false)) = _
  rw [ran_reset, hreset]
  rfl

end

/-! ## A burst, within the window -/

/-- The words of memory from a on, n of them. -/
def State.wordsAt (s : State) (a : Word) (n : Nat) : List Word := (List.range n).map fun j => s.wordAt (a + BitVec.ofNat 32 (4 * j))

/-- Words in a row follow one another four bytes apart. -/
theorem add_ofNat_add (a : Word) (m n : Nat) : a + BitVec.ofNat 32 m + BitVec.ofNat 32 n = a + BitVec.ofNat 32 (m + n) := by
  rw [BitVec.add_assoc, BitVec.ofNat_add]

theorem wordsAt_add (s : State) (a : Word) (m n : Nat) :
    s.wordsAt a (m + n) = s.wordsAt a m ++ s.wordsAt (a + BitVec.ofNat 32 (4 * m)) n := by
  rw [State.wordsAt, State.wordsAt, State.wordsAt, List.range_add, List.map_append, List.map_map]
  congr 1
  refine List.map_congr_left fun j _ => ?_
  rw [Function.comp_apply, add_ofNat_add, Nat.mul_add]

theorem wordAt_of_mem {s t : State} (h : s.mem = t.mem) (a : Word) : s.wordAt a = t.wordAt a := by
  simp only [State.wordAt, State.byteAt, h]

theorem wordsAt_of_mem {s t : State} (h : s.mem = t.mem) (a : Word) (n : Nat) : s.wordsAt a n = t.wordsAt a n :=
  List.map_congr_left fun _ _ => wordAt_of_mem h _

/-- The parameters under which every word of a burst is what memory holds (R62, R286). -/
structure InWindow (p : Config.Params) : Prop where
  pos : 1 ≤ p.ahbReadLatency
  le : p.ahbReadLatency ≤ 3
  quiet : p.targetQuiescent = true

/-- A burst at the scan of an aligned word inside its block, which has captured what memory holds there. -/
structure AtWord (b : Word) (s : State) : Prop where
  scan : ReadScan (s.wordAt b) s
  addr : s.target.bridge.curAddr = b
  size : s.target.bridge.curSize = Config.sizeWord
  inBlock : s.target.bridge.pastBlock = false
  aligned : b.toNat % 4 = 0

theorem wordsInRam_next {p : Config.Params} {b : Word} {n : Nat} (h : wordsInRam p b (n + 1)) : wordsInRam p (b + 4) n := by
  intro j hj
  have hnext := h (4 + j) (by omega)
  rw [← add_ofNat_add] at hnext
  exact hnext

/-- The next word of the burst, where it lies in the block (R246, R285, R286). -/
theorem AtWord.next {b : Word} {s : State} (h : AtWord b s) (hwindow : InWindow s.params) (hblock : b.toNat % 1024 + 8 ≤ 1024)
    (hram : wordsInRam s.params (b + 4) 1) :
    AtWord (b + 4) ((seqCaptured (s.wordAt b) s).setMpsse (s.mpsse.pins false false)) := by
  obtain ⟨hscan, rfl, hsize, hinBlock, halign⟩ := h
  have hadd := add_four_toNat hblock
  have halign' : (s.target.bridge.curAddr + 4).toNat % 4 = 0 := by omega
  have hinBlock' : s.target.bridge.increment.pastBlock = false := increment_pastBlock_of_same hinBlock (by omega)
  obtain ⟨-, hmax⟩ := readClocks_bounds (seqIssued (s.wordAt s.target.bridge.curAddr) s)
  have hclocks := hmax.trans (max_le (by decide) hwindow.le)
  have hword : seqWord (s.wordAt s.target.bridge.curAddr) s = s.wordAt (s.target.bridge.curAddr + 4) := by
    rw [seqWord, if_pos hclocks, hsize]
    exact memRead_word halign' hwindow.quiet hinBlock' hram
  have hnext := hscan.next
  rw [hword] at hnext
  refine ⟨hnext, ?_, ?_, ?_, halign'⟩
  · exact congrArg Bridge.curAddr (complete_eq _ _)
  · exact (congrArg Bridge.curSize (complete_eq _ _)).trans hsize
  · exact (congrArg Bridge.pastBlock (complete_eq _ _)).trans hinBlock'

/-- The words a burst reads are memory's, and it leaves memory as it is (R283, R286). -/
theorem play_burstReadWords {b : Word} {s : State} {n : Nat} (h : AtWord b s) (hwindow : InWindow s.params)
    (hblock : b.toNat % 1024 + 4 * (n + 1) ≤ 1024) (hram : wordsInRam s.params b (n + 1)) :
    (play (burstReadWords (n + 1)) s).engine.out = s.engine.out ++ s.wordsAt b (n + 1)
    ∧ (play (burstReadWords (n + 1)) s).mem = s.mem := by
  induction n generalizing b s with
  | zero =>
    have hone : s.wordsAt b 1 = [s.wordAt b] := by simp [State.wordsAt]
    rw [h.scan.play_last, hone]
    exact ⟨rfl, rfl⟩
  | succ n ih =>
    have hadd := add_four_toNat (a := b) (by omega)
    have hram' := wordsInRam_next hram
    have hnext := h.next hwindow (by omega) fun j hj => hram' j (by omega)
    obtain ⟨hout, hmem⟩ := ih hnext hwindow (by omega) hram'
    have hplay : play (burstReadWords (n + 1 + 1)) s =
        play (burstReadWords (n + 1)) ((seqCaptured (s.wordAt b) s).setMpsse (s.mpsse.pins false false)) :=
      h.scan.play_next _
    have hsplit : s.wordsAt b (n + 1 + 1) = s.wordAt b :: s.wordsAt (b + 4) (n + 1) := by
      rw [Nat.add_comm (n + 1), wordsAt_add]
      simp [State.wordsAt]
    rw [hplay, hout, hmem, hsplit, List.append_cons]
    exact ⟨rfl, rfl⟩

/-- The target side at the first capture of a read, in full (R248). -/
theorem dataScan_eq (a : Word) (sz : BitVec 2) (s : State) (dsr : List Bool) (n : Nat) : dataScan a sz s dsr n = { s with
    target := {
      tap := .shDR
      ir := Config.codeData
      irsr := Config.codeData
      cmd := cmdValue a sz false
      data := (leadingReset s).target.data
      dsr := dsr
      bridge := bridgeSeen a sz s
      clockCount := s.target.clockCount + n }
    mem := (leadingReset s).mem
    ahbLog := (leadingReset s).ahbLog ++ [.read a sz] } := by
  rw [dataScan, startRead_readIssued, leadingReset_eq]
  rfl

/-- A burst read at its first word, the read that `data_select` starts completed (R286). -/
theorem atWord_dataScan {b : Word} {s : State} (hloop : s.mpsse.loopback = false) (hqueue : s.mpsse.rxFifo = [])
    (halign : b.toNat % 4 = 0) (done : Bool) (n : Nat) :
    AtWord b ((dataScan b Config.sizeWord s (lowBits 32 ((leadingReset s).wordAt b) ++ [done]) n).setMpsse
      (s.mpsse.pins false false)) := by
  have hword := wordAt_of_mem (s := leadingReset s) (t := (dataScan b Config.sizeWord s
    (lowBits 32 ((leadingReset s).wordAt b) ++ [done]) n).setMpsse (s.mpsse.pins false false)) (by rw [dataScan_eq]; rfl) b
  refine ⟨⟨rfl, rfl, ⟨done, ?_⟩, rfl, rfl, hloop, hqueue⟩, rfl, rfl, rfl, halign⟩
  rw [← hword]
  rfl

theorem play_burstReadActions {b : Word} {s : State} {n : Nat} (hloop : s.mpsse.loopback = false) (hqueue : s.mpsse.rxFifo = [])
    (hwindow : InWindow s.params) (halign : b.toNat % 4 = 0) (hblock : b.toNat % 1024 + 4 * (n + 1) ≤ 1024)
    (hram : wordsInRam s.params b (n + 1)) :
    (play (burstReadActions b (n + 1)) s).engine.out = s.engine.out ++ (leadingReset s).wordsAt b (n + 1)
    ∧ (play (burstReadActions b (n + 1)) s).mem = (leadingReset s).mem := by
  have hparams : (readIssued b Config.sizeWord s).params = s.params := clocked_params fiveHigh s
  obtain ⟨-, hmax⟩ := readDuration_bounds b Config.sizeWord hwindow.pos
  have hclocks := hmax.trans hwindow.le
  have hword : wordSeen b Config.sizeWord s = (leadingReset s).wordAt b := by
    rw [wordSeen, if_pos (by omega)]
    exact memRead_word halign (hparams ▸ hwindow.quiet) rfl (hparams ▸ fun j hj => hram j (by omega))
  have hhead := play_dataSelect_readLoaded b Config.sizeWord s (s.mpsse.pins true false)
  have hat := atWord_dataScan hloop hqueue halign (decide (readDuration b Config.sizeWord s ≤ 14)) 127
  rw [hword, pins_pins] at hhead
  rw [burstReadActions, play_append, play_append, play_commandLoad_reset, hhead]
  rw [dataScan_eq] at hat ⊢
  obtain ⟨hout, hmem⟩ := play_burstReadWords hat hwindow hblock hram
  rw [hout, hmem]
  exact ⟨congrArg _ (wordsAt_of_mem rfl b (n + 1)), rfl⟩

/-! ## Chunks -/

/-- The chunks' words, one chunk after another, are the transfer's (R290, R292). -/
theorem chunks_wordsAt (s : State) (addr : Word) {n j : Nat} (hj : j ≤ chunkCount n) :
    (List.range j).flatMap (fun k => s.wordsAt (chunkBase addr k) (chunkWords n k)) =
      s.wordsAt addr (min n (Config.maxBurstWords * j)) := by
  induction j with
  | zero => rw [Nat.mul_zero, Nat.min_zero]; rfl
  | succ j ih =>
    have hstart := chunk_start_lt (List.mem_range.2 hj)
    have hwords : min n (Config.maxBurstWords * (j + 1)) = Config.maxBurstWords * j + chunkWords n j := by
      rw [chunkWords, Nat.mul_succ]
      omega
    have hbase : 4 * (Config.maxBurstWords * j) = Config.seqBoundaryBytes * j := by
      rw [Config.maxBurstWords, Config.seqBoundaryBytes]
      omega
    rw [List.range_succ, List.flatMap_append, ih (by omega), List.flatMap_singleton, min_eq_right hstart.le, hwords, wordsAt_add,
      hbase]
    rfl

theorem play_chunkProgress_out (progress : Bool) (n k : Nat) (s : State) :
    (play (chunkProgress progress n k) s).engine.out = s.engine.out := by
  cases progress <;> rfl

/-- The words of a chunk lie in `RAM_REGION` where the transfer's do. -/
theorem wordsInRam_chunk {p : Config.Params} {addr : Word} {n k : Nat} (h : wordsInRam p addr n)
    (hk : k ∈ List.range (chunkCount n)) : wordsInRam p (chunkBase addr k) (chunkWords n k) := by
  intro j hj
  have hstart := chunk_start_lt hk
  rw [chunkWords] at hj
  rw [chunkBase, add_ofNat_add]
  refine h _ ?_
  rw [Config.maxBurstWords] at hstart hj
  rw [Config.seqBoundaryBytes]
  omega

section
variable {addr : Word} {n : Nat} (progress : Bool) (hok : manyOk addr n = true)
include hok

theorem play_readChunk {k : Nat} (hk : k ∈ List.range (chunkCount n)) {s : State} (hloop : s.mpsse.loopback = false)
    (hqueue : s.mpsse.rxFifo = []) (hwindow : InWindow s.params) (hram : wordsInRam s.params addr n) :
    (play (readChunk addr n progress k) s).engine.out =
      s.engine.out ++ (leadingReset s).wordsAt (chunkBase addr k) (chunkWords n k)
    ∧ (play (readChunk addr n progress k) s).mem = (leadingReset s).mem := by
  obtain ⟨halign, hblock⟩ := burstOk_bounds (chunk_burstOk hok hk)
  have hchunk := wordsInRam_chunk hram hk
  obtain ⟨m, hm⟩ := Nat.exists_eq_succ_of_ne_zero (chunkWords_ne_zero hk)
  rw [hm] at hblock hchunk
  rw [readChunk, play_append, play_chunkProgress_out, play_chunkProgress_mem, hm]
  exact play_burstReadActions hloop hqueue hwindow halign hblock hchunk

/-- Chunks read their words in order, from one to the next through TLR (R292). -/
theorem play_readChunks_out {ks : List Nat} (hks : ∀ k ∈ ks, k ∈ List.range (chunkCount n)) {s : State}
    (hloop : s.mpsse.loopback = false) (hqueue : s.mpsse.rxFifo = []) (hwindow : InWindow s.params)
    (hram : wordsInRam s.params addr n) : (play (ks.flatMap (readChunk addr n progress)) s).engine.out =
      s.engine.out ++ ks.flatMap fun k => (leadingReset s).wordsAt (chunkBase addr k) (chunkWords n k) := by
  induction ks generalizing s with
  | nil => exact (List.append_nil _).symm
  | cons k ks ih =>
    obtain ⟨hk, hks⟩ := List.forall_mem_cons.1 hks
    have hends := readChunk_endsAtRest addr progress hk .unknown false
    have hrested : Rested (play (readChunk addr n progress k) s) := play_rested (r := false) nofun hends.reset
    have hmpsse := play_mpsse_of_endsAtRest hends hqueue
    have hparams := play_params (planned_engineList _ _ _ _ _ hends.plan) s
    obtain ⟨hout, hmem⟩ := play_readChunk progress hok hk hloop hqueue hwindow hram
    have hkept := (leadingReset_mem_of_tlr hrested.tap).trans hmem
    rw [List.flatMap_cons, play_append, ih hks ((congrArg Mpsse.loopback hmpsse).trans hloop)
      ((congrArg Mpsse.rxFifo hmpsse).trans hqueue) (hparams.symm ▸ hwindow) (hparams.symm ▸ hram), hout, List.append_assoc,
      List.flatMap_cons]
    simp only [wordsAt_of_mem hkept]

/-- The whole transfer reads memory's words (R292). -/
theorem play_readMany_out {s : State} (hloop : s.mpsse.loopback = false) (hqueue : s.mpsse.rxFifo = [])
    (hwindow : InWindow s.params) (hram : wordsInRam s.params addr n) :
    (play (program (.readMany addr n progress)) s).engine.out = s.engine.out ++ (leadingReset s).wordsAt addr n := by
  have hrun := play_readChunks_out progress hok (ks := List.range (chunkCount n)) (fun _ => id) hloop hqueue hwindow hram
  have hall : min n (Config.maxBurstWords * chunkCount n) = n := by
    rw [chunkCount, Config.maxBurstWords]
    omega
  rw [chunks_wordsAt _ _ le_rfl, hall] at hrun
  exact hrun

end

end Sys2Proof.Machine
end

section
/-! What is written is read back (S6 of 95_test_vectors.md): the stores of a write, and the words a read then takes of them. -/

namespace Sys2Proof.Machine

open Sys2Proof

/-! ## Stores at addresses in a row -/

theorem add_ofNat_inj {a : Word} {i j : Nat} (hi : i < 2 ^ 32) (hj : j < 2 ^ 32)
    (h : a + BitVec.ofNat 32 i = a + BitVec.ofNat 32 j) : i = j := by
  have hnat := congrArg BitVec.toNat ((BitVec.add_right_inj a).1 h)
  rw [BitVec.toNat_ofNat, BitVec.toNat_ofNat, Nat.mod_eq_of_lt hi, Nat.mod_eq_of_lt hj] at hnat
  exact hnat

/-- What n bytes stored from an address on leave, each at its own place (R60). -/
theorem read_storeBytes_row (p : Config.Params) {m : List Host.Cell} (hwf : Memory.wf m = true) (a : Word) (f : Nat → Byte)
    {n j : Nat} (hn : n ≤ 2 ^ 32) (hj : j < n) (hram : inRam p (a + BitVec.ofNat 32 j) = true) :
    Memory.read (storeBytes p ((List.range n).map fun i => (a + BitVec.ofNat 32 i, f i)) m) (a + BitVec.ofNat 32 j).toNat = f j := by
  refine read_storeBytes_stored p _ hwf _ _ hram (List.mem_map.2 ⟨j, List.mem_range.2 hj, rfl⟩) fun w hw => ?_
  obtain ⟨i, hi, heq⟩ := List.mem_map.1 hw
  obtain ⟨haddr, rfl⟩ := Prod.mk.inj heq
  have hlt := List.mem_range.1 hi
  rw [add_ofNat_inj (by omega) (by omega) haddr]

/-- The byte at offset i of words in a row, each word's high byte first (R61, R65). -/
def wordsByte (ws : List Word) (i : Nat) : Byte := (ws.getD (i / 4) 0).extractLsb' (8 * (3 - i % 4)) 8

theorem wordsStores_eq (a : Word) (ws : List Word) :
    wordsStores a ws = (List.range (4 * ws.length)).map fun i => (a + BitVec.ofNat 32 i, wordsByte ws i) := by
  induction ws generalizing a with
  | nil => rfl
  | cons w ws ih =>
    have hfirst : wordStores a w = (List.range 4).map fun i => (a + BitVec.ofNat 32 i, wordsByte (w :: ws) i) := by
      rw [wordStores]
      nth_rw 1 [← BitVec.add_zero a]
      rfl
    rw [wordsStores, ih, hfirst, List.length_cons, Nat.mul_succ, Nat.add_comm, List.range_add, List.map_append, List.map_map]
    congr 1
    refine List.map_congr_left fun i _ => ?_
    have hdiv : (4 + i) / 4 = i / 4 + 1 := by omega
    have hmod : (4 + i) % 4 = i % 4 := by omega
    rw [Function.comp_apply, ← add_ofNat_add, wordsByte, wordsByte, hdiv, hmod]
    rfl

/-- Words stored in a row are what memory then holds there. -/
theorem wordsAt_stored {p : Config.Params} {a : Word} {ws : List Word} {m : List Host.Cell} {s : State}
    (hwf : Memory.wf m = true) (hlen : ws.length ≤ 2 ^ 30) (hram : wordsInRam p a ws.length)
    (hmem : s.mem = storeBytes p (wordsStores a ws) m) : s.wordsAt a ws.length = ws := by
  have hbyte {j : Nat} (hj : j < 4 * ws.length) : s.byteAt (a + BitVec.ofNat 32 j) = wordsByte ws j := by
    rw [State.byteAt, hmem, wordsStores_eq]
    exact read_storeBytes_row p hwf a _ (by omega) hj (hram j hj)
  have hword {j : Nat} (hj : j < ws.length) : s.wordAt (a + BitVec.ofNat 32 (4 * j)) = ws.getD j 0 := by
    have hnext (i : Nat) (hi : i < 4) : s.byteAt (a + BitVec.ofNat 32 (4 * j) + BitVec.ofNat 32 i) =
        (ws.getD j 0).extractLsb' (8 * (3 - i)) 8 := by
      have hdiv : (4 * j + i) / 4 = j := by omega
      have hmod : (4 * j + i) % 4 = i := by omega
      rw [add_ofNat_add, hbyte (by omega), wordsByte, hdiv, hmod]
    have h0 := hnext 0 (by decide)
    rw [BitVec.ofNat_eq_ofNat, BitVec.add_zero] at h0
    have h1 := hnext 1 (by decide)
    have h2 := hnext 2 (by decide)
    have h3 := hnext 3 (by decide)
    exact (congrArg₂ _ (congrArg₂ _ (congrArg₂ _ h0 h1) h2) h3).trans (bytesWord_wordBytes_self _)
  refine List.ext_getElem (by simp [State.wordsAt]) fun j h1 h2 => ?_
  simp only [State.wordsAt, List.getElem_map, List.getElem_range, hword h2, List.getD_eq_getElem _ _ h2]

/-! ## Two operations in a row -/

theorem execAll_two {i j : Instr} {s t u : State} (hi : exec i s = .next t) (hj : exec j t = .next u) :
    execAll [i, j] s = .next u := by
  rw [execAll, hi]
  show execAll [j] t = _
  rw [execAll, hj]
  rfl

/-- Where an operation that ends at rest leaves the machine for the next one (R41). -/
structure RanAtRest (acts : List Action) (result : List Word → Returned) (s t : State) : Prop where
  healthy : healthy t
  params : t.params = s.params
  tap : t.target.tap = .tlr
  mem : t.mem = (leadingReset (play acts (issue s))).mem
  returned : t.engine.returned = result (play acts (issue s)).engine.out

theorem operation_ranAtRest {acts : List Action} {s : State} (hs : healthy s)
    (h : EndsAtRest acts s.engine.tapBelief true false) (result : List Word → Returned) :
    ∃ t, operation acts result s = .next t ∧ RanAtRest acts result s t := by
  obtain ⟨calls, hrun⟩ := operation_endsAtRest hs h result
  obtain ⟨hsession, hev, hin, hrx, hloop⟩ := hs
  have hlist := planned_engineList _ _ _ _ _ h.plan
  have hrested : Rested (play acts (issue s)) := play_rested (r := false) nofun h.reset
  have hmpsse := play_mpsse_of_endsAtRest (s := issue s) h hrx
  have hkept : (play acts (issue s)).engine.session = s.engine.session := play_session hlist (issue s)
  exact ⟨_, hrun, ⟨hkept ▸ hsession, hev, (congrArg Mpsse.input hmpsse).trans hin, (congrArg Mpsse.rxFifo hmpsse).trans hrx,
    (congrArg Mpsse.loopback hmpsse).trans hloop⟩, play_params hlist (issue s), hrested.tap,
    (leadingReset_mem_of_tlr hrested.tap).symm, rfl⟩

theorem leadingReset_issue_mem (s : State) : (leadingReset (issue s)).mem = (leadingReset s).mem :=
  (congrArg State.mem (leadingReset_around s (issue s).engine s.mpsse s.usb s.calls)).trans rfl

/-! ## The single transfers -/

/-- A single read takes the lanes of the single write of its address and size before it. -/
theorem exec_write_read {i j : Instr} {a : Word} {sz : BitVec 2} {d : Word} {r : Word → Returned} {s : State}
    (hi : IsSingleWrite i a sz d) (hj : IsSingleRead j a sz r) (hs : healthy s) (hwf : Memory.wf s.mem = true)
    (hquiet : s.params.targetQuiescent = true) (hlatency : 1 ≤ s.params.ahbReadLatency) (hwindow : s.params.ahbReadLatency ≤ 14)
    (hram : ∀ x ∈ transferAddrs a sz, inRam s.params x = true) :
    ∃ t w, execAll [i, j] s = .next t ∧ t.engine.returned = r w ∧ ∀ x ∈ transferAddrs a sz, laneByte w x = laneByte d x := by
  have hwrite := exec_singleWrite hi hs
  obtain ⟨hsession, hev, hin, hrx, hloop⟩ := hs
  obtain ⟨t, w, hread, hret, hlanes⟩ := exec_singleRead_lanes hj (s := atRest s (s.engine.returnedFrom i [] [] .done)
    (writeTarget a sz d s) (storeBytes s.params ((transferAddrs a sz).map fun x => (x, laneByte d x)) (leadingReset s).mem)
    ((leadingReset s).ahbLog ++ [.write a sz d]) 1) ⟨hsession, hev, hin, hrx, hloop⟩ hlatency hwindow hquiet hram
  refine ⟨t, w, execAll_two hwrite hread, hret, fun x hx => ?_⟩
  rw [hlanes x hx, State.byteAt, leadingReset_mem_of_tlr rfl]
  refine read_storeBytes_stored s.params _ ((clocked_moves fiveHigh s).keeps hwf).wf x _ (hram x hx)
    (List.mem_map.2 ⟨x, hx, rfl⟩) fun v hv => ?_
  obtain ⟨y, -, hy⟩ := List.mem_map.1 hv
  obtain ⟨rfl, rfl⟩ := Prod.mk.inj hy
  rfl

/-- The halfword of a value in its own half (R255). -/
theorem half_shifted {v : Nat} (hv : v < 2 ^ 16) (a : Word) : halfOf (BitVec.ofNat 32 v <<< halfShift a) a = BitVec.ofNat 16 v := by
  refine BitVec.eq_of_toNat_eq ?_
  rw [halfOf, BitVec.extractLsb'_toNat, ← BitVec.toNat_ushiftRight, toNat_shifted_back (mul_halfShift_lt hv a), BitVec.toNat_ofNat]

/-! ## The chunked transfers -/

section
variable {a : Word} {buf : List Word} (progress progress' : Bool) {s : State}

theorem exec_writeMany (hs : s.engine.session ≠ none) (hok : manyOk a buf.length = true) :
    exec (.writeMany a buf buf.length progress) s = operation (program (.writeMany a buf buf.length progress)) (fun _ => .done) s :=
  checked_eq_operation (List.forall_mem_cons.2 ⟨hasSession_of_ne hs, List.forall_mem_cons.2 ⟨decide_eq_true rfl,
    chunkChecks_pass hok⟩⟩) _ _ s

theorem exec_readMany {n : Nat} (hs : s.engine.session ≠ none) (hok : manyOk a n = true) :
    exec (.readMany a n progress) s = operation (program (.readMany a n progress)) .words s :=
  checked_eq_operation (List.forall_mem_cons.2 ⟨hasSession_of_ne hs, chunkChecks_pass hok⟩) _ _ s

/-- Transfers of no word return at once. -/
theorem exec_write_read_none (hs : s.engine.session ≠ none) :
    ∃ t, execAll [.writeMany a [] 0 progress, .readMany a 0 progress'] s = .next t ∧ t.engine.returned = .words [] := by
  have hwrite : exec (.writeMany a [] 0 progress) s = .next (setReturned .done (issue s)) :=
    exec_writeMany (buf := []) progress hs rfl
  have hread : exec (.readMany a 0 progress') (setReturned .done (issue s)) = _ := exec_readMany progress' hs rfl
  exact ⟨_, execAll_two hwrite hread, rfl⟩

theorem chunkCount_ne_zero {n : Nat} (h : n ≠ 0) : ∃ k, chunkCount n = k + 1 := by
  refine Nat.exists_eq_succ_of_ne_zero ?_
  rw [chunkCount, Config.maxBurstWords]
  omega

theorem program_writeMany_ne_nil (h : buf.length ≠ 0) : program (.writeMany a buf buf.length progress) ≠ [] := by
  obtain ⟨k, hk⟩ := chunkCount_ne_zero h
  rw [program, hk, List.range_succ_eq_map, List.flatMap_cons]
  exact List.cons_ne_nil _ _

theorem program_readMany_ne_nil {n : Nat} (h : n ≠ 0) : program (.readMany a n progress) ≠ [] := by
  obtain ⟨k, hk⟩ := chunkCount_ne_zero h
  rw [program, hk, List.range_succ_eq_map, List.flatMap_cons]
  exact List.cons_ne_nil _ _

theorem exec_write_read_many (hs : healthy s) (hwf : Memory.wf s.mem = true) (hwindow : InWindow s.params)
    (hlen : buf.length ≤ 2 ^ 30) (hne : buf.length ≠ 0) (hok : manyOk a buf.length = true)
    (hram : wordsInRam s.params a buf.length) :
    ∃ t, execAll [.writeMany a buf buf.length progress, .readMany a buf.length progress'] s = .next t
      ∧ t.engine.returned = .words buf := by
  have hwriteOk : (Instr.writeMany a buf buf.length progress).wellFormed = true :=
    Bool.and_eq_true_iff.2 ⟨decide_eq_true rfl, hok⟩
  obtain ⟨t, hwrite, ht⟩ := operation_ranAtRest hs
    (program_endsAtRest _ hwriteOk (program_writeMany_ne_nil progress hne) _) fun _ => .done
  obtain ⟨u, hread, hu⟩ := operation_ranAtRest ht.healthy
    (program_endsAtRest (.readMany a buf.length progress') hok (program_readMany_ne_nil progress' hne) _) .words
  have ⟨hopen, _⟩ := hs
  have ⟨hsession, _, _, hrx, hloop⟩ := ht.healthy
  refine ⟨u, execAll_two ((exec_writeMany progress hopen hok).trans hwrite) ((exec_readMany progress' hsession hok).trans hread), ?_⟩
  have hmem : (leadingReset (issue t)).mem = storeBytes s.params (wordsStores a buf) (leadingReset s).mem := by
    rw [leadingReset_issue_mem, leadingReset_mem_of_tlr ht.tap, ht.mem, play_writeMany_mem progress rfl hok, leadingReset_issue_mem]
    rfl
  have hwords := wordsAt_stored ((clocked_moves fiveHigh s).keeps hwf).wf hlen hram hmem
  have hout := play_readMany_out progress' hok (s := issue t) hloop hrx (ht.params.symm ▸ hwindow) (ht.params.symm ▸ hram)
  rw [hu.returned, hout, hwords]
  rfl

end

/-- Settles O47: at each width the lanes written are the lanes read, and over chunks every word stored is read back. -/
theorem writeThenReadRoundTrip : Obligations.WriteThenReadRoundTrip := by
  intro a s hs hwf hquiet hlatency hwindow
  have ⟨hopen, _⟩ := hs
  refine ⟨fun v hv ha hram => ?_, fun v hv ha hram hram1 => ?_, fun v hv hram => ?_, fun buf p p' hburst ha hlen hblock hram => ?_⟩
  · obtain ⟨t, w, hexec, hret, hlanes⟩ := exec_write_read (isSingleWrite_write32 ha hv) (isSingleRead_read32 ha) hs hwf hquiet
      hlatency hwindow fun x hx => by
        obtain ⟨j, hj, rfl⟩ := List.mem_map.1 hx
        exact hram j (List.mem_range.1 hj)
    refine ⟨t, hexec, hret.trans (congrArg Returned.word ?_)⟩
    simp only [transferAddrs_word_eq, List.forall_mem_cons] at hlanes
    obtain ⟨h0, h1, h2, h3, -⟩ := hlanes
    rw [← word_eq_lanes w ha, h0, h1, h2, h3, word_eq_lanes _ ha]
  · obtain ⟨t, w, hexec, hret, hlanes⟩ := exec_write_read (isSingleWrite_write16 ha hv) (isSingleRead_read16 ha) hs hwf hquiet
      hlatency hwindow (transferAddrs_half_eq a ▸ List.forall_mem_cons.2 ⟨hram, List.forall_mem_singleton.2 hram1⟩)
    refine ⟨t, hexec, hret.trans (congrArg Returned.half ?_)⟩
    simp only [transferAddrs_half_eq, List.forall_mem_cons] at hlanes
    obtain ⟨h0, h1, -⟩ := hlanes
    rw [← half_eq_lanes w ha, h0, h1, half_eq_lanes _ ha, ← halfOf_eq _ ha, half_shifted hv]
  · obtain ⟨t, w, hexec, hret, hlanes⟩ := exec_write_read (isSingleWrite_write8 a hv) (isSingleRead_read8 a) hs hwf hquiet
      hlatency hwindow (transferAddrs_byte_eq a ▸ List.forall_mem_singleton.2 hram)
    refine ⟨t, hexec, hret.trans (congrArg Returned.byte ?_)⟩
    have hlane := hlanes a (transferAddrs_byte_eq a ▸ List.mem_singleton_self a)
    refine hlane.trans ?_
    rw [laneByte_shifted (n := 0) (mul_byteShift_lt hv a) rfl, Nat.pow_zero, Nat.div_one]
  · cases buf with
    | nil => exact exec_write_read_none p p' hopen
    | cons w ws =>
      have hok : manyOk a (w :: ws).length = true := by
        rw [manyOk_iff, wordAligned_iff, inOneBlock_iff]
        omega
      exact exec_write_read_many p p' hs hwf ⟨hlatency, hburst, hquiet⟩ hlen.le (Nat.succ_ne_zero _) hok hram

end Sys2Proof.Machine
end

section
/-! The refusals of the bursts (R280) and of the chunked transfers (R290), in their order. -/

namespace Sys2Proof.Machine

open Sys2Proof

theorem checked_refused {checks : List (Bool × Refusal)} {r : Refusal} (h : firstRefusal checks = some r) (acts : List Action)
    (result : List Word → Returned) (s : State) : checked checks acts result s = .refused r := by
  rw [checked, h]

theorem firstRefusal_append {as : List (Bool × Refusal)} {r : Refusal} (h : firstRefusal as = some r)
    (bs : List (Bool × Refusal)) : firstRefusal (as ++ bs) = some r := by
  induction as with
  | nil => exact nomatch h
  | cons a as ih =>
    rw [firstRefusal] at h
    rw [List.cons_append, firstRefusal]
    split at h
    · next hok => rw [if_pos hok, ih h]
    · next hbad => rw [if_neg hbad, h]

theorem firstRefusal_session {s : State} (hs : s.engine.session ≠ none) (checks : List (Bool × Refusal)) :
    firstRefusal ((hasSession s, .noSession) :: checks) = firstRefusal checks := if_pos (hasSession_of_ne hs)

/-- Of an aligned burst the length is checked first (R280). -/
theorem firstRefusal_burstLength {b : Word} {n : Nat} (halign : b.toNat % 4 = 0) (hlen : n = 0 ∨ 256 < n) :
    firstRefusal (burstChecks b n) = some .burstLength := by
  have hbad : ¬ burstLengthOk n = true := by
    rw [burstLengthOk_iff]
    omega
  rw [burstChecks, firstRefusal, if_pos ((wordAligned_iff b).2 halign), firstRefusal, if_neg hbad]

/-- An aligned burst of a right length is refused where its last byte lies in another 1 KiB block than its first (R280). -/
theorem firstRefusal_burstCrosses {b : Word} {n : Nat} (halign : b.toNat % 4 = 0) (hpos : 1 ≤ n) (hle : n ≤ 256)
    (hcross : b.toNat / 1024 ≠ (b.toNat + 4 * n - 1) / 1024) :
    firstRefusal (burstChecks b n) = some .burstCrossesBoundary := by
  have hbad : ¬ inOneBlock b n = true := fun h => hcross ((inOneBlock_iff b n).1 h)
  rw [burstChecks, firstRefusal, if_pos ((wordAligned_iff b).2 halign), firstRefusal,
    if_pos ((burstLengthOk_iff n).2 ⟨hpos, hle⟩), firstRefusal, if_neg hbad]

/-- Settles O34: both bursts run the same checks behind the session's. -/
theorem burstRefusals : Obligations.BurstRefusals := by
  intro b ws n s hs halign
  have refused {m : Nat} {r : Refusal} (h : firstRefusal (burstChecks b m) = some r) :
      firstRefusal ((hasSession s, .noSession) :: burstChecks b m) = some r := (firstRefusal_session hs _).trans h
  refine ⟨fun hlen => ?_, fun hlen => ?_, fun hpos hle hcross => ?_, fun hpos hle hcross => ?_⟩
  · exact checked_refused (refused (firstRefusal_burstLength halign hlen)) _ _ s
  · exact checked_refused (refused (firstRefusal_burstLength halign hlen)) _ _ s
  · exact checked_refused (refused (firstRefusal_burstCrosses halign hpos hle hcross)) _ _ s
  · exact checked_refused (refused (firstRefusal_burstCrosses halign hpos hle hcross)) _ _ s

/-- A chunked transfer's first chunk stands at its address and is its longest (R290). -/
theorem chunkChecks_first {n : Nat} (addr : Word) (h : n ≠ 0) :
    ∃ rest, chunkChecks addr n = burstChecks addr (min 256 n) ++ rest := by
  obtain ⟨k, hk⟩ := chunkCount_ne_zero h
  have hbase : chunkBase addr 0 = addr := BitVec.add_zero addr
  have hwords : chunkWords n 0 = min 256 n := rfl
  rw [chunkChecks, hk, List.range_succ_eq_map, List.flatMap_cons, hbase, hwords]
  exact ⟨_, rfl⟩

/-- Settles O35: the first chunk's block check fails, behind checks that pass. -/
theorem chunkRefusals : Obligations.ChunkRefusals := by
  intro addr buf p s hs halign hne hcross
  have hpos := List.length_pos_of_ne_nil hne
  obtain ⟨rest, hfirst⟩ := chunkChecks_first addr hpos.ne'
  have hrefused : firstRefusal (chunkChecks addr buf.length) = some .burstCrossesBoundary := by
    rw [hfirst]
    exact firstRefusal_append (firstRefusal_burstCrosses halign (by omega) (min_le_left _ _) (by omega)) rest
  have hlength : firstRefusal ((decide (buf.length = buf.length), .lengthMismatch) :: chunkChecks addr buf.length) =
      some .burstCrossesBoundary := (if_pos (decide_eq_true rfl)).trans hrefused
  exact ⟨checked_refused ((firstRefusal_session hs _).trans hlength) _ _ s,
    checked_refused ((firstRefusal_session hs _).trans hrefused) _ _ s⟩

end Sys2Proof.Machine
end

section
/-! How many driver calls an action list makes over a healthy driver (R224, R225): one for each flush of buffered bytes, and
two for each word read. -/

namespace Sys2Proof.Machine

open Sys2Proof

/-- The driver calls of a list: a write for each flush with bytes to send, a poll and a read for each word; `sent` says that
nothing is buffered. -/
def driverCalls : List Action → Bool → Nat
  | [], _ => 0
  | .emit _ :: rest, _ => driverCalls rest false
  | .flush :: rest, sent => (if sent then 0 else 1) + driverCalls rest true
  | .readWord :: rest, sent => 2 + driverCalls rest sent
  | .progress _ _ :: rest, sent => driverCalls rest sent

/-- A list that is as planned ends flushed, so the calls of the list behind it are its own. -/
theorem driverCalls_append {as : List Action} (bs : List Action) {b : Belief} {sent : Bool} {n : Nat} {r : Belief × Nat}
    (h : planned as b sent n = some r) : driverCalls (as ++ bs) sent = driverCalls as sent + driverCalls bs true := by
  induction as generalizing b sent n with
  | nil =>
    simp only [planned, Option.ite_none_right_eq_some] at h
    obtain ⟨rfl, -⟩ := h
    exact (Nat.zero_add _).symm
  | cons a as ih =>
    cases a with
    | emit i =>
      obtain ⟨b', -, h⟩ := Option.bind_eq_some_iff.1 h
      exact ih h
    | flush => simp only [List.cons_append, driverCalls, ih h, Nat.add_assoc]
    | readWord =>
      simp only [planned, Option.ite_none_right_eq_some] at h
      simp only [List.cons_append, driverCalls, ih h.2, Nat.add_assoc]
    | progress d t => exact ih h

/-- A word that a healthy driver has read: four bytes are off the queue, two calls later (R225). -/
theorem readExactly_got {s t : State} {bs : List Byte} (hev : s.usb.events = []) (h : readExactly 4 s = .got bs t) :
    t = ((s.setMpsse (s.mpsse.rx (s.mpsse.rxFifo.drop 4))).setEngine { s.engine with expectRx := 0 }).setUsb
      { s.usb with calls := s.usb.calls + 2 } := by
  have hcall := driverCall_of_nil hev
  by_cases hrx : s.mpsse.rxFifo = []
  · exact nomatch (readExactly_poll_empty hcall hrx).symm.trans h
  by_cases hlen : 4 ≤ s.mpsse.rxFifo.length
  · rw [readExactly_healthy 4 s hev hlen (by decide)] at h
    exact ((ReadRun.got.inj h).2).symm
  · have hnext : (driverCall (s.setUsb s.usb.next)).1 = .healthy := driverCall_of_nil (by rw [usb_next_of_nil hev]; exact hev)
    have hshort := usbRead_short (s := s.setUsb s.usb.next) (n := 4) (k := 4) (.inl ⟨hnext, rfl⟩)
      (lt_of_le_of_lt (min_le_right _ _) (Nat.not_le.1 hlen))
    rw [readExactly_polled (.inl hcall) hrx, hshort] at h
    exact nomatch h

/-- A planned list over a healthy driver makes its driver calls and no other; `cs` are the commands buffered before it. -/
theorem runActions_calls {acts : List Action} {cs : List Instr} {s t : State} {n : Nat} {r : Belief × Nat}
    (hcs : cs.all engineCommand = true) (hbuf : s.engine.outbuf = cs.flatMap encodeMpsse) (hs : s.engine.session ≠ none)
    (hev : s.usb.events = []) (hin : s.mpsse.input = [])
    (hplan : planned acts s.engine.tapBelief (decide (cs = [])) n = some r) (h : runActions acts s = .ok t) :
    t.usb.calls = s.usb.calls + driverCalls acts (decide (cs = [])) := by
  induction acts generalizing cs s n with
  | nil =>
    obtain rfl := Run.ok.inj h
    rfl
  | cons a acts ih =>
    cases a with
    | emit i =>
      obtain ⟨b', hi, hplan⟩ := Option.bind_eq_some_iff.1 hplan
      obtain ⟨hci, hne⟩ := primStep_commands i _ b' hi
      have hboth : (cs ++ commands i).all engineCommand = true := by rw [List.all_append, hcs, hci, Bool.and_self]
      have hfull : decide (cs ++ commands i = []) = false := by simp [hne]
      rw [runActions, runAction, runPrimitive_emits i s b' hs hi] at h
      have hrest := ih (cs := cs ++ commands i) (s := nextPos (setBelief b' (emit (commands i) s))) hboth
        ((congrArg (· ++ _) hbuf).trans List.flatMap_append.symm) hs hev hin (hfull ▸ hplan) h
      rw [hfull] at hrest
      exact hrest
    | flush =>
      rw [runActions, runAction] at h
      by_cases hnil : cs = []
      · subst hnil
        have hrun : flush s = .ok s := if_pos hbuf
        rw [hrun] at h
        exact (ih (cs := []) (s := nextPos s) rfl hbuf hs hev hin hplan h).trans
          (congrArg (s.usb.calls + ·) (Nat.zero_add _).symm)
      · rw [flush_healthy cs s hcs hnil hbuf hev hin] at h
        have hrest := ih (cs := []) (n := n) rfl (by exact rfl) (by exact hs) (by exact hev)
          (by exact (ranAll_mpsse_input hcs s).trans hin) (by exact hplan) h
        rw [hrest, driverCalls, if_neg (by simpa using hnil), ← Nat.add_assoc]
        rfl
    | readWord =>
      simp only [planned, Option.ite_none_right_eq_some] at hplan
      rw [runActions, runAction] at h
      cases hread : readExactly 4 s with
      | raised u =>
        rw [hread] at h
        exact nomatch h
      | got bs u =>
        rw [hread] at h
        obtain rfl := readExactly_got hev hread
        have hrest := ih (n := n - 4) hcs (by exact hbuf) (by exact hs) (by exact hev) (by exact hin) (by exact hplan.2) h
        rw [hrest, driverCalls, ← Nat.add_assoc]
        rfl
    | progress d total => exact ih (s := nextPos (callProgress d total s)) hcs hbuf hs hev hin hplan h

/-- The run of an operation that ends at rest, in full: the engine's bookkeeping and the driver calls are the list's, the target
side, the words read and the progress calls are what its commands come to. -/
theorem operation_atRest {i : Instr} {s : State} (hs : healthy s) (h : EndsAtRest (program i) s.engine.tapBelief true false)
    (result : List Word → Returned) {out : List Word} {progress : List (Nat × Nat)} {target : Target} {mem : List Host.Cell}
    {log : List AhbTransfer} {calls : Nat} (hout : (play (program i) (issue s)).engine.out = out)
    (hprogress : (play (program i) (issue s)).engine.progress = progress)
    (htarget : (play (program i) (issue s)).target = target) (hmem : (play (program i) (issue s)).mem = mem)
    (hlog : (play (program i) (issue s)).ahbLog = log) (hcalls : driverCalls (program i) true = calls) :
    operation (program i) result s = .next (atRest s (s.engine.returnedFrom i out progress (result out)) target mem log calls) := by
  subst hout hprogress htarget hmem hlog hcalls
  generalize hq : play (program i) (issue s) = q
  obtain ⟨hsession, hev, hin, hrx, -⟩ := hs
  have hlist := planned_engineList _ _ _ _ _ h.plan
  have hplan : planned (program i) (issue s).engine.tapBelief true (issue s).mpsse.rxFifo.length = some (.at .tlr, 0) := by
    rw [show (issue s).mpsse.rxFifo = [] from hrx]
    exact h.plan
  obtain ⟨calls, hrun⟩ := runActions_play (program i) [] (issue s) (.at .tlr) 0 rfl rfl hsession hev hin hplan
  have hcalls : calls = s.usb.calls + driverCalls (program i) true :=
    runActions_calls (cs := []) (s := issue s) rfl rfl hsession hev hin hplan hrun
  have hmpsse : q.mpsse = s.mpsse.at true false := hq ▸ play_mpsse_of_endsAtRest (s := issue s) h hrx
  have hparams : q.params = s.params := hq ▸ play_params hlist (issue s)
  have hkept : q.engine.session = s.engine.session := hq ▸ play_session hlist (issue s)
  have hexpect : expectAfter (program i) 0 = 0 := Nat.le_zero.1 (expectAfter_le_planned h.plan le_rfl)
  have hend : playedEnd (program i) (.at .tlr) calls (issue s) q = q.around
      { q.engine with outbuf := [], expectRx := 0, pos := (program i).length, tapBelief := .at .tlr } (s.mpsse.at true false)
      { s.usb with calls := s.usb.calls + driverCalls (program i) true } s.calls := by
    have hpos : (issue s).engine.pos + (program i).length = (program i).length := Nat.zero_add _
    have hexpect' : expectAfter (program i) (issue s).engine.expectRx = 0 := hexpect
    rw [playedEnd, hexpect', hpos, hcalls, hmpsse]
    rfl
  have hfinal : runActions (program i) (issue s) = .ok (playedEnd (program i) (.at .tlr) calls (issue s) q) := hq ▸ hrun
  rw [operation, hfinal, hend, atRest, Engine.returnedFrom, ← hparams, ← hkept]
  rfl

end Sys2Proof.Machine
end

section
/-! A burst write in full (R281, R282): the target it leaves and the writes it starts, and what it leaves for the next chunk. -/

namespace Sys2Proof.Machine

open Sys2Proof

/-! ## The reset between operations -/

/-- Out of TLR the leading reset moves the instruction shift register and the clock alone (R135). -/
theorem leadingReset_of_tlr {s : State} (h : s.target.tap = .tlr) : (leadingReset s).ahbLog = s.ahbLog
    ∧ (leadingReset s).target.bridge = s.target.bridge := by
  obtain ⟨r, hr⟩ := leadingReset_quiet (s := s) (by rw [scanFree, h])
  rw [hr]
  exact ⟨rfl, rfl⟩

/-- Issuing an operation touches no target side. -/
theorem leadingReset_issue (s : State) : (leadingReset (issue s)).ahbLog = (leadingReset s).ahbLog
    ∧ (leadingReset (issue s)).target = (leadingReset s).target := by
  have haround : leadingReset (issue s) = (leadingReset s).around (issue s).engine s.mpsse s.usb s.calls :=
    leadingReset_around s (issue s).engine s.mpsse s.usb s.calls
  rw [haround]
  exact ⟨rfl, rfl⟩

/-! ## The address of a burst -/

/-- A bridge n words on in a burst from where it stands (R246): past its block where the burst ends with the block. -/
def Bridge.advanced (b : Bridge) (n : Nat) : Bridge :=
  { b with curAddr := b.curAddr + BitVec.ofNat 32 (4 * n), pastBlock := decide (b.curAddr.toNat % 1024 + 4 * n = 1024) }

theorem increment_eq_advanced {b : Bridge} (hblock : b.pastBlock = false) (h : b.curAddr.toNat % 1024 + 4 ≤ 1024) :
    b.increment = b.advanced 1 := by
  have hpast : decide ((b.curAddr.toNat + 4) / Config.seqBoundaryBytes ≠ b.curAddr.toNat / Config.seqBoundaryBytes) =
      decide (b.curAddr.toNat % 1024 + 4 * 1 = 1024) := by
    rw [decide_eq_decide, Config.seqBoundaryBytes]
    omega
  rw [Bridge.increment, hblock, Bool.false_or, hpast]
  rfl

theorem advanced_advanced {b : Bridge} {m n : Nat} (hm : b.curAddr.toNat % 1024 + 4 * m < 1024) :
    (b.advanced m).advanced n = b.advanced (m + n) := by
  have hnat : (b.curAddr + BitVec.ofNat 32 (4 * m)).toNat = b.curAddr.toNat + 4 * m :=
    toNat_add_ofNat (by have := b.curAddr.isLt; omega)
  have hpast : decide ((b.curAddr + BitVec.ofNat 32 (4 * m)).toNat % 1024 + 4 * n = 1024) =
      decide (b.curAddr.toNat % 1024 + 4 * (m + n) = 1024) := by
    rw [decide_eq_decide, hnat]
    omega
  have haddr : b.curAddr + BitVec.ofNat 32 (4 * m) + BitVec.ofNat 32 (4 * n) = b.curAddr + BitVec.ofNat 32 (4 * (m + n)) := by
    rw [add_ofNat_add, Nat.mul_add]
  exact congrArg₂ (fun a p => { b with curAddr := a, pastBlock := p }) haddr hpast

/-! ## The words of a burst -/

/-- A word that others follow is left by the walk to the next (R281). -/
theorem burstWriteWords_cons (w : Word) {ws : List Word} (h : ws ≠ []) : burstWriteWords (w :: ws) =
    [.emit (.writeData w true), .emit .exit1ToShiftDr, .flush] ++ burstWriteWords ws := by
  obtain ⟨w', ws, rfl⟩ := List.exists_cons_of_ne_nil h
  rfl

/-- The target behind the words `ws` and a last word w of a burst, and its reset (R282). -/
def wordsTarget (ws : List Word) (w : Word) (s : State) : Target := { s.target with
  tap := .tlr
  ir := s.params.idcodeOpcode
  data := dataValue true w
  dsr := lowBits 33 (dataValue true w)
  bridge := s.target.bridge.advanced (ws.length + 1)
  clockCount := s.target.clockCount + (37 * ws.length + 38) }

/-- The words of a burst, as they leave the target, the log and the engine (R281, R282). -/
theorem play_burstWriteWords (ws : List Word) (w : Word) {s : State} (h : WriteScan s)
    (hsize : s.target.bridge.curSize = Config.sizeWord)
    (hblock : s.target.bridge.curAddr.toNat % 1024 + 4 * (ws.length + 1) ≤ 1024) :
    (play (burstWriteWords (ws ++ [w])) s).target = wordsTarget ws w s
    ∧ (play (burstWriteWords (ws ++ [w])) s).ahbLog = s.ahbLog ++ wordWrites s.target.bridge.curAddr (ws ++ [w])
    ∧ (play (burstWriteWords (ws ++ [w])) s).engine = s.engine := by
  induction ws generalizing s with
  | nil =>
    have hplay : play (burstWriteWords ([] ++ [w])) s =
        ranAll (commands .resetToTlr) (ranAll (commands (.writeData w true)) s) := rfl
    have hbridge : (wordWritten w true s).target.bridge = s.target.bridge.advanced 1 := increment_eq_advanced h.inBlock hblock
    rw [hplay, h.word_reset]
    refine ⟨?_, congrArg (fun sz => s.ahbLog ++ [AhbTransfer.write s.target.bridge.curAddr sz w]) hsize, rfl⟩
    rw [wordsTarget, List.length_nil, Nat.zero_add, ← hbridge]
    rfl
  | cons x ws ih =>
    rw [List.length_cons] at hblock
    have hnext := h.next hsize (by omega) x
    rw [h.word_next] at hnext
    have hadd := add_four_toNat (a := s.target.bridge.curAddr) (by omega)
    have hbridge : (wordMoved x true s).target.bridge = s.target.bridge.advanced 1 :=
      increment_eq_advanced h.inBlock (by omega)
    have hplay : play (burstWriteWords (x :: ws ++ [w])) s =
        play (burstWriteWords (ws ++ [w])) ((wordMoved x true s).setMpsse (s.mpsse.pins false false)) := by
      rw [List.cons_append, burstWriteWords_cons x (List.append_ne_nil_of_right_ne_nil ws (List.cons_ne_nil w [])), play_append,
        ← h.word_next]
      rfl
    have hblock' : (s.target.bridge.curAddr + 4).toNat % 1024 + 4 * (ws.length + 1) ≤ 1024 := by omega
    obtain ⟨htarget, hlog, hengine⟩ := ih hnext hsize hblock'
    rw [hplay, htarget, hlog, hengine]
    refine ⟨?_, ?_, rfl⟩
    · have hadvanced : s.target.bridge.increment.advanced (ws.length + 1) = s.target.bridge.advanced (ws.length + 1 + 1) := by
        have hone : s.target.bridge.increment = s.target.bridge.advanced 1 := hbridge
        rw [hone, advanced_advanced (by omega), Nat.add_comm 1]
      have hclock : s.target.clockCount + 37 + (37 * ws.length + 38) = s.target.clockCount + (37 * (ws.length + 1) + 38) := by
        omega
      rw [wordsTarget, wordsTarget, List.length_cons, ← hadvanced, ← hclock]
      rfl
    · have hfirst : (wordMoved x true s).ahbLog = s.ahbLog ++ [.write s.target.bridge.curAddr Config.sizeWord x] :=
        congrArg (fun sz => s.ahbLog ++ [AhbTransfer.write s.target.bridge.curAddr sz x]) hsize
      show (wordMoved x true s).ahbLog ++ wordWrites (s.target.bridge.curAddr + 4) (ws ++ [w]) = _
      rw [hfirst, List.append_assoc]
      rfl

/-! ## A burst -/

/-- The target a burst write leaves (R281, R282). -/
def burstWriteTarget (b : Word) (ws : List Word) (w : Word) (s : State) : Target where
  tap := .tlr
  ir := s.params.idcodeOpcode
  irsr := 0x03
  cmd := BitVec.ofBool true ++ (0b10 : BitVec 2) ++ b
  data := BitVec.ofBool true ++ w
  dsr := lowBits 33 (BitVec.ofBool true ++ w)
  bridge := { curAddr := b + BitVec.ofNat 32 (4 * (ws.length + 1)), curSize := 0b10, curW := true, pending := .none
              rdata := (leadingReset s).target.bridge.rdata
              pastBlock := decide (b.toNat % 1024 + 4 * (ws.length + 1) = 1024) }
  clockCount := s.target.clockCount + (128 + 37 * (ws.length + 1))

/-- A burst write on the target side (R281); its stores are `play_burstWriteActions_mem`. -/
theorem play_burstWriteActions {b : Word} (ws : List Word) (w : Word) (s : State) (halign : b.toNat % 4 = 0)
    (hblock : b.toNat % 1024 + 4 * (ws.length + 1) ≤ 1024) :
    (play (burstWriteActions b (ws ++ [w])) s).target = burstWriteTarget b ws w s
    ∧ (play (burstWriteActions b (ws ++ [w])) s).ahbLog = (leadingReset s).ahbLog ++ wordWrites b (ws ++ [w])
    ∧ (play (burstWriteActions b (ws ++ [w])) s).engine = s.engine := by
  have hscan := writeHead_writeScan (a := b) (sz := Config.sizeWord) ((wordAligned_iff b).2 halign) s
  obtain ⟨htarget, hlog, hengine⟩ := play_burstWriteWords ws w hscan rfl hblock
  rw [burstWriteActions, play_append, play_writeHead, htarget, hlog, hengine]
  refine ⟨?_, rfl, rfl⟩
  have hclock : s.target.clockCount + 127 + (37 * ws.length + 38) = s.target.clockCount + (128 + 37 * (ws.length + 1)) := by
    omega
  rw [burstWriteTarget, ← hclock]
  rfl

/-- A burst write makes one driver call a word (R294). -/
theorem driverCalls_burstWriteWords (w : Word) (ws : List Word) (sent : Bool) :
    driverCalls (burstWriteWords (w :: ws)) sent = ws.length + 1 := by
  induction ws generalizing w sent with
  | nil => rfl
  | cons x ws ih => exact (congrArg (1 + ·) (ih x true)).trans (Nat.add_comm 1 _)

theorem driverCalls_burstWriteActions (b : Word) {ws : List Word} (h : ws ≠ []) :
    driverCalls (burstWriteActions b ws) true = ws.length := by
  obtain ⟨w, ws, rfl⟩ := List.exists_cons_of_ne_nil h
  exact driverCalls_burstWriteWords w ws false

theorem exec_burstWrite {b : Word} {ws : List Word} {s : State} (hs : s.engine.session ≠ none)
    (hok : burstOk b ws.length = true) : exec (.burstWrite b ws) s = operation (program (.burstWrite b ws)) (fun _ => .done) s :=
  checked_eq_operation (List.forall_mem_cons.2 ⟨hasSession_of_ne hs, burstChecks_pass hok⟩) _ _ s

theorem burstOk_of_bounds {b : Word} {n : Nat} (halign : b.toNat % 4 = 0) (hpos : 1 ≤ n) (hle : n ≤ 256)
    (hblock : b.toNat % 1024 + 4 * n ≤ 1024) : burstOk b n = true := by
  rw [burstOk_iff, wordAligned_iff, burstLengthOk_iff, inOneBlock_iff]
  omega

/-- Settles O41: the head of a write, its words one by one, and the reset behind the last. -/
theorem burstWrite : Obligations.BurstWrite := by
  intro b ws w s hs halign hlen hblock q i
  have ⟨hsession, _⟩ := hs
  have hne : ws ++ [w] ≠ [] := List.append_ne_nil_of_right_ne_nil ws (List.cons_ne_nil w [])
  have hlength : (ws ++ [w]).length = ws.length + 1 := List.length_append
  have hok : burstOk b (ws ++ [w]).length = true := burstOk_of_bounds halign (by omega) (by omega) (by omega)
  obtain ⟨htarget, hlog, hengine⟩ := play_burstWriteActions ws w (issue s) halign hblock
  have hmem := play_burstWriteActions_mem (issue s) halign hne (by omega)
  obtain ⟨hlogIssue, htargetIssue⟩ := leadingReset_issue s
  rw [leadingReset_issue_mem] at hmem
  rw [hlogIssue] at hlog
  rw [burstWriteTarget, htargetIssue] at htarget
  have hcalls := (driverCalls_burstWriteActions b hne).trans hlength
  refine ⟨storeBytes s.params (wordsStores b (ws ++ [w])) q.mem, fun hwf =>
    storesExactly_storeBytes _ _ ((clocked_moves fiveHigh s).keeps hwf).wf, (exec_burstWrite hsession hok).trans ?_⟩
  exact operation_atRest (i := i) hs (burstWriteActions_endsAtRest b hne _ true false) (fun _ => .done)
    (congrArg Engine.out hengine) (congrArg Engine.progress hengine) htarget hmem hlog hcalls

end Sys2Proof.Machine
end

section
/-! A burst read in full, for every read latency (R283 to R286): the target it leaves, the reads it starts and the words it
returns. -/

namespace Sys2Proof.Machine

open Sys2Proof

/-! ## The words of a burst -/

/-- The scan of a burst's word w: a described one inside the block, and within the window of R286 its read is complete. -/
structure BurstScan (w : Word) (s : State) : Prop extends ReadScan w s where
  size : s.target.bridge.curSize = Config.sizeWord
  inBlock : s.target.bridge.pastBlock = false
  idle : s.params.ahbReadLatency ≤ 3 → s.target.bridge.pending = .none ∧ s.target.bridge.rdata = w

/-- The bridge at the next word's scan: one word on, its read pending or complete. -/
theorem BurstScan.seqCaptured_bridge {w : Word} {s : State} (h : BurstScan w s)
    (hblock : s.target.bridge.curAddr.toNat % 1024 + 4 ≤ 1024) :
    (seqCaptured w s).target.bridge = { s.target.bridge.advanced 1 with
      pending := (seqCaptured w s).target.bridge.pending, rdata := (seqCaptured w s).target.bridge.rdata } := by
  rw [← increment_eq_advanced h.inBlock hblock]
  exact complete_eq (startRead (seqIssued w s)).target.bridge (s.target.clockCount + 37)

/-- Within the window the next word's read is complete at its scan. -/
theorem seqCaptured_idle (w : Word) {s : State} (hwindow : s.params.ahbReadLatency ≤ 3) :
    (seqCaptured w s).target.bridge.pending = .none ∧ (seqCaptured w s).target.bridge.rdata = seqWord w s := by
  obtain ⟨-, hmax⟩ := readClocks_bounds (seqIssued w s)
  have hclocks : readClocks (seqIssued w s) ≤ 3 := hmax.trans (max_le (by decide) hwindow)
  have hcomplete : (seqCaptured w s).target.bridge = _ := complete_done (startRead (seqIssued w s)).target.bridge
    (s.target.clockCount + 34 + readClocks (seqIssued w s)) (s.target.clockCount + 37) _ rfl (by omega)
  rw [hcomplete, seqWord, if_pos hclocks]
  exact ⟨rfl, rfl⟩

theorem BurstScan.next {w : Word} {s : State} (h : BurstScan w s) (hblock : s.target.bridge.curAddr.toNat % 1024 + 8 ≤ 1024) :
    BurstScan (seqWord w s) ((seqCaptured w s).setMpsse (s.mpsse.pins false false)) where
  toReadScan := h.toReadScan.next
  size := (congrArg Bridge.curSize (h.seqCaptured_bridge (by omega))).trans h.size
  inBlock := (congrArg Bridge.pastBlock (h.seqCaptured_bridge (by omega))).trans (decide_eq_false (by omega))
  idle hwindow := seqCaptured_idle w hwindow

/-- From s a burst's words, the first w and n more, have come to u: `out` are they, and p and rd the bridge's last read. -/
structure WordsRead (w : Word) (n : Nat) (s u : State) (out : List Word) (p : Pending) (rd : Word) : Prop where
  length : out.length = n + 1
  first : out.head? = some w
  last : s.params.ahbReadLatency ≤ 3 → p = .none ∧ out.getLast? = some rd
  state : u = { s with
    engine := { s.engine with out := s.engine.out ++ out }
    mpsse := s.mpsse.pins true false
    target := { s.target with
      tap := .tlr
      ir := s.params.idcodeOpcode
      data := 0
      dsr := List.replicate 33 false
      bridge := { s.target.bridge.advanced n with pending := p, rdata := rd }
      clockCount := s.target.clockCount + 37 * (n + 1) }
    ahbLog := s.ahbLog ++ wordReads (s.target.bridge.curAddr + 4) n }

theorem BurstScan.wordsRead_last {w : Word} {s : State} (h : BurstScan w s) :
    WordsRead w 0 s (play (burstReadWords 1) s) [w] s.target.bridge.pending s.target.bridge.rdata where
  length := rfl
  first := rfl
  last hwindow := by
    obtain ⟨hpending, hrdata⟩ := h.idle hwindow
    exact ⟨hpending, congrArg some hrdata.symm⟩
  state := by
    have hstays : { s.target.bridge.advanced 0 with pending := s.target.bridge.pending, rdata := s.target.bridge.rdata } =
        s.target.bridge := by
      have hpast : decide (s.target.bridge.curAddr.toNat % 1024 + 4 * 0 = 1024) = s.target.bridge.pastBlock := by
        rw [h.inBlock]
        exact decide_eq_false (by omega)
      have haddr : s.target.bridge.curAddr + BitVec.ofNat 32 (4 * 0) = s.target.bridge.curAddr := BitVec.add_zero _
      rw [Bridge.advanced, hpast, haddr]
    rw [h.play_last, hstays, wordReads, List.append_nil]
    rfl

theorem BurstScan.wordsRead_next {w : Word} {n : Nat} {s : State} {out : List Word} {p : Pending} {rd : Word} (h : BurstScan w s)
    (hblock : s.target.bridge.curAddr.toNat % 1024 + 8 ≤ 1024)
    (hrest : WordsRead (seqWord w s) n ((seqCaptured w s).setMpsse (s.mpsse.pins false false))
      (play (burstReadWords (n + 1)) ((seqCaptured w s).setMpsse (s.mpsse.pins false false))) out p rd) :
    WordsRead w (n + 1) s (play (burstReadWords (n + 2)) s) (w :: out) p rd where
  length := congrArg (· + 1) hrest.length
  first := rfl
  last hwindow := by
    obtain ⟨hnone, hlast⟩ := hrest.last hwindow
    refine ⟨hnone, ?_⟩
    rw [List.getLast?_cons, hlast]
    rfl
  state := by
    have hplay : play (burstReadWords (n + 2)) s =
        play (burstReadWords (n + 1)) ((seqCaptured w s).setMpsse (s.mpsse.pins false false)) := h.play_next _
    have hbridge := h.seqCaptured_bridge (by omega)
    have hadvanced : { (seqCaptured w s).target.bridge.advanced n with pending := p, rdata := rd } =
        { s.target.bridge.advanced (n + 1) with pending := p, rdata := rd } := by
      rw [hbridge, Nat.add_comm n 1, ← advanced_advanced (m := 1) (n := n) (by omega)]
      rfl
    have haddr : (seqCaptured w s).target.bridge.curAddr = s.target.bridge.curAddr + 4 := congrArg Bridge.curAddr hbridge
    have hlog : (seqCaptured w s).ahbLog ++ wordReads ((seqCaptured w s).target.bridge.curAddr + 4) n =
        s.ahbLog ++ wordReads (s.target.bridge.curAddr + 4) (n + 1) := by
      have hfirst : (seqCaptured w s).ahbLog = s.ahbLog ++ [.read (s.target.bridge.curAddr + 4) s.target.bridge.curSize] := rfl
      rw [hfirst, haddr, h.size, List.append_assoc]
      rfl
    have hclock : s.target.clockCount + 37 + 37 * (n + 1) = s.target.clockCount + 37 * (n + 1 + 1) := by omega
    rw [hplay, hrest.state, ← hadvanced, ← hlog, ← hclock, List.append_cons]
    rfl

/-- The words of a burst, whatever the read latency (R283, R285). -/
theorem BurstScan.wordsRead {w : Word} {n : Nat} {s : State} (h : BurstScan w s)
    (hblock : s.target.bridge.curAddr.toNat % 1024 + 4 * (n + 1) ≤ 1024) :
    ∃ out p rd, WordsRead w n s (play (burstReadWords (n + 1)) s) out p rd := by
  induction n generalizing w s with
  | zero => exact ⟨_, _, _, h.wordsRead_last⟩
  | succ n ih =>
    have haddr : (seqCaptured w s).target.bridge.curAddr = s.target.bridge.curAddr + 4 :=
      congrArg Bridge.curAddr (h.seqCaptured_bridge (by omega))
    have hadd := add_four_toNat (a := s.target.bridge.curAddr) (by omega)
    have hblock' : (seqCaptured w s).target.bridge.curAddr.toNat % 1024 + 4 * (n + 1) ≤ 1024 := by
      rw [haddr]
      omega
    obtain ⟨out, p, rd, hrest⟩ := ih (h.next (by omega)) hblock'
    exact ⟨_, _, _, h.wordsRead_next (by omega) hrest⟩

end Sys2Proof.Machine
end

section
/-! A whole burst read (R283 to R286). -/

namespace Sys2Proof.Machine

open Sys2Proof

/-! ## A burst -/

/-- The first word of a burst is captured as a single read's is, within its window (R258, R286). -/
theorem wordSeen_eq_wordAt {b : Word} {s : State} (hlatency : 1 ≤ s.params.ahbReadLatency)
    (hwindow : s.params.ahbReadLatency ≤ 14) (halign : b.toNat % 4 = 0) (hquiet : s.params.targetQuiescent = true) (hram : wordsInRam s.params b 1) :
    wordSeen b Config.sizeWord s = (leadingReset s).wordAt b := by
  have hparams : (readIssued b Config.sizeWord s).params = s.params := clocked_params fiveHigh s
  obtain ⟨-, hmax⟩ := readDuration_bounds b Config.sizeWord hlatency
  have hmem : (readIssued b Config.sizeWord s).mem = (leadingReset s).mem := rfl
  rw [wordSeen, if_pos (hmax.trans hwindow), ← wordAt_of_mem hmem]
  exact memRead_word halign (hparams ▸ hquiet) rfl (hparams ▸ hram)

/-- The scan of a burst's first word, the read that its command starts complete within the window (R286). -/
theorem burstScan_dataScan {b : Word} {s : State} (hloop : s.mpsse.loopback = false) (hqueue : s.mpsse.rxFifo = [])
    (hlatency : 1 ≤ s.params.ahbReadLatency) (done : Bool) :
    BurstScan (wordSeen b Config.sizeWord s) ((dataScan b Config.sizeWord s (lowBits 32 (wordSeen b Config.sizeWord s) ++ [done])
      127).setMpsse (s.mpsse.pins false false)) where
  toReadScan := ⟨rfl, rfl, ⟨done, rfl⟩, rfl, rfl, hloop, hqueue⟩
  size := rfl
  inBlock := rfl
  idle hwindow := by
    rw [dataScan_eq] at hwindow ⊢
    have hlatency' : s.params.ahbReadLatency ≤ 3 := hwindow
    obtain ⟨-, hmax⟩ := readDuration_bounds b Config.sizeWord hlatency
    have hseen : readDuration b Config.sizeWord s ≤ 14 := by omega
    exact ⟨if_pos hseen, (if_pos hseen).trans (if_pos hseen).symm⟩

/-- The target that a burst read of n + 1 words leaves, with p and rd its bridge's last read (R283, R285). -/
def burstReadTarget (b : Word) (n : Nat) (p : Pending) (rd : Word) (s : State) : Target where
  tap := .tlr
  ir := s.params.idcodeOpcode
  irsr := 0x03
  cmd := BitVec.ofBool false ++ (0b10 : BitVec 2) ++ b
  data := 0
  dsr := List.replicate 33 false
  bridge := { curAddr := b + BitVec.ofNat 32 (4 * n), curSize := 0b10, curW := false, pending := p, rdata := rd
              pastBlock := false }
  clockCount := s.target.clockCount + (127 + 37 * (n + 1))

/-- From s a burst read of n + 1 words has come to u: `out` are the words, and p and rd the bridge's last read. -/
structure BurstRan (b : Word) (n : Nat) (s u : State) (out : List Word) (p : Pending) (rd : Word) : Prop where
  length : out.length = n + 1
  first : out.head? = some (wordSeen b Config.sizeWord s)
  last : s.params.ahbReadLatency ≤ 3 → p = .none ∧ out.getLast? = some rd
  state : u = { s with
    engine := { s.engine with out := s.engine.out ++ out }
    mpsse := s.mpsse.pins true false
    target := burstReadTarget b n p rd s
    mem := (leadingReset s).mem
    ahbLog := (leadingReset s).ahbLog ++ wordReads b (n + 1) }

/-- A burst read on the target side, for every read latency (R283). -/
theorem burstRan_burstReadActions {b : Word} {s : State} {n : Nat} (hloop : s.mpsse.loopback = false)
    (hqueue : s.mpsse.rxFifo = []) (hlatency : 1 ≤ s.params.ahbReadLatency) (hblock : b.toNat % 1024 + 4 * (n + 1) ≤ 1024) :
    ∃ out p rd, BurstRan b n s (play (burstReadActions b (n + 1)) s) out p rd := by
  have hhead := play_dataSelect_readLoaded b Config.sizeWord s (s.mpsse.pins true false)
  have hscan := burstScan_dataScan (b := b) hloop hqueue hlatency (decide (readDuration b Config.sizeWord s ≤ 14))
  rw [pins_pins] at hhead
  rw [burstReadActions, play_append, play_append, play_commandLoad_reset, hhead]
  rw [dataScan_eq] at hscan ⊢
  obtain ⟨out, p, rd, hlength, hfirst, hlast, hstate⟩ := hscan.wordsRead hblock
  refine ⟨out, p, rd, hlength, hfirst, hlast, hstate.trans ?_⟩
  have hclock : s.target.clockCount + 127 + 37 * (n + 1) = s.target.clockCount + (127 + 37 * (n + 1)) := Nat.add_assoc _ _ _
  have hbridge : { (bridgeSeen b Config.sizeWord s).advanced n with pending := p, rdata := rd } = {
      curAddr := b + BitVec.ofNat 32 (4 * n), curSize := 0b10, curW := false, pending := p, rdata := rd
      pastBlock := false } := by
    have hinside : b.toNat % 1024 + 4 * n ≠ 1024 := by omega
    have hpast : decide ((bridgeSeen b Config.sizeWord s).curAddr.toNat % 1024 + 4 * n = 1024) = false :=
      decide_eq_false hinside
    rw [Bridge.advanced, hpast]
    rfl
  have hlog : (leadingReset s).ahbLog ++ wordReads b (n + 1) =
      (leadingReset s).ahbLog ++ [.read b Config.sizeWord] ++ wordReads (b + 4) n := List.append_cons _ _ _
  rw [burstReadTarget, ← hclock, ← hbridge, hlog]
  rfl

/-- A burst read makes three driver calls a word, and one for the reset behind the last (R294). -/
theorem driverCalls_burstReadWords (n : Nat) (sent : Bool) : driverCalls (burstReadWords (n + 1)) sent = 3 * (n + 1) + 1 := by
  induction n generalizing sent with
  | zero => rfl
  | succ n ih =>
    have hword : driverCalls (burstReadWords (n + 2)) sent = 1 + (2 + driverCalls (burstReadWords (n + 1)) false) := rfl
    rw [hword, ih]
    omega

theorem driverCalls_burstReadActions (b : Word) (n : Nat) : driverCalls (burstReadActions b (n + 1)) true = 3 * (n + 1) + 1 :=
  driverCalls_burstReadWords n false

theorem exec_burstRead {b : Word} {n : Nat} {s : State} (hs : s.engine.session ≠ none) (hok : burstOk b n = true) :
    exec (.burstRead b n) s = operation (program (.burstRead b n)) .words s :=
  checked_eq_operation (List.forall_mem_cons.2 ⟨hasSession_of_ne hs, burstChecks_pass hok⟩) _ _ s

theorem wordsAt_getElem? (s : State) (a : Word) {n j : Nat} (hj : j < n) :
    (s.wordsAt a n)[j]? = some (s.wordAt (a + BitVec.ofNat 32 (4 * j))) := by
  rw [State.wordsAt, List.getElem?_map, List.getElem?_range hj]
  rfl

theorem wordSeen_issue (a : Word) (sz : BitVec 2) (s : State) : wordSeen a sz (issue s) = wordSeen a sz s :=
  wordSeen_around a sz s (issue s).engine s.mpsse s.usb s.calls

/-- Settles O42: the burst for every latency, and its words within the windows. -/
theorem burstRead : Obligations.BurstRead := by
  intro b n s hs hlatency halign hpos hle hblock q i
  obtain ⟨m, rfl⟩ := Nat.exists_eq_succ_of_ne_zero (Nat.one_le_iff_ne_zero.1 hpos)
  have ⟨hsession, _, _, hqueue, hloop⟩ := hs
  obtain ⟨out, p, rd, hlength, hfirst, hlast, hstate⟩ :=
    burstRan_burstReadActions (s := issue s) hloop hqueue hlatency hblock
  obtain ⟨hlogIssue, -⟩ := leadingReset_issue s
  have hout : (play (burstReadActions b (m + 1)) (issue s)).engine.out = out := congrArg (fun u => u.engine.out) hstate
  refine ⟨out, p, rd, hlength, hlast, fun hwindow hquiet hram j hj => ?_, fun hwindow hquiet hram => ?_, ?_⟩
  · obtain ⟨hwords, -⟩ := play_burstReadActions (s := issue s) hloop hqueue ⟨hlatency, hwindow, hquiet⟩ halign hblock hram
    have hmemory : out = (leadingReset (issue s)).wordsAt b (m + 1) := hout.symm.trans hwords
    rw [hmemory, wordsAt_of_mem (leadingReset_issue_mem s), wordsAt_getElem? _ _ hj]
  · rw [hfirst, wordSeen_issue, wordSeen_eq_wordAt hlatency hwindow halign hquiet hram]
  · refine (exec_burstRead hsession (burstOk_of_bounds halign hpos hle hblock)).trans ?_
    have hmem := congrArg State.mem hstate
    have hlog := congrArg State.ahbLog hstate
    rw [leadingReset_issue_mem] at hmem
    rw [hlogIssue] at hlog
    exact operation_atRest (i := i) hs (burstReadActions_endsAtRest b m.succ_ne_zero _ true false) .words hout
      (congrArg (fun u => u.engine.progress) hstate) (congrArg State.target hstate) hmem hlog (driverCalls_burstReadActions b m)

end Sys2Proof.Machine
end

section
/-! Chunks in a row (R290 to R293): what each adds to the clocks, the log, the progress calls and the driver calls. -/

namespace Sys2Proof.Machine

open Sys2Proof

/-! ## The chunks of a transfer -/

/-- The words up to a chunk and the chunk's own are those up to the next. -/
theorem min_add_chunkWords {n k : Nat} (hk : k ∈ List.range (chunkCount n)) :
    min n (Config.maxBurstWords * k) + chunkWords n k = min n (Config.maxBurstWords * (k + 1)) := by
  have hstart := chunk_start_lt hk
  rw [chunkWords, Nat.mul_succ]
  omega

/-- The chunks hold the whole transfer. -/
theorem min_chunkCount (n : Nat) : min n (Config.maxBurstWords * chunkCount n) = n := by
  rw [chunkCount, Config.maxBurstWords]
  omega

/-- The driver calls of a transfer whose every chunk makes c a word and d more. -/
theorem driverCalls_chunks {f : Nat → List Action} {n c d : Nat}
    (hends : ∀ k ∈ List.range (chunkCount n), ∀ b r, EndsAtRest (f k) b true r)
    (hcalls : ∀ k ∈ List.range (chunkCount n), driverCalls (f k) true = c * chunkWords n k + d) :
    driverCalls ((List.range (chunkCount n)).flatMap f) true = c * n + d * chunkCount n := by
  have upTo {j : Nat} (hj : j ≤ chunkCount n) : driverCalls ((List.range j).flatMap f) true =
      c * min n (Config.maxBurstWords * j) + d * j := by
    induction j with
    | zero => simp [driverCalls]
    | succ j ih =>
      have hk : j ∈ List.range (chunkCount n) := List.mem_range.2 hj
      have hbefore : EndsAtRest ((List.range j).flatMap f) (.at .tlr) true true :=
        EndsAtRest.flatMap fun k hk b r => hends k (List.mem_range.2 ((List.mem_range.1 hk).trans hj)) b r
      rw [List.range_succ, List.flatMap_append, driverCalls_append _ hbefore.plan, ih (Nat.le_of_succ_le hj),
        List.flatMap_singleton, hcalls j hk, ← min_add_chunkWords hk, Nat.mul_add, Nat.mul_succ]
      omega
  rw [upTo le_rfl, min_chunkCount]

/-! ## The progress calls -/

/-- The progress call behind chunk k (R293). -/
def chunkReport (progress : Bool) (n k : Nat) : List (Nat × Nat) := if progress then [(min n (256 * (k + 1)), n)] else []

/-- The progress calls of the first j chunks. -/
def chunkReports (progress : Bool) (n j : Nat) : List (Nat × Nat) :=
  if progress then (List.range j).map fun k => (min n (256 * (k + 1)), n) else []

theorem chunkReports_succ (progress : Bool) (n j : Nat) :
    chunkReports progress n (j + 1) = chunkReports progress n j ++ chunkReport progress n j := by
  cases progress
  · rfl
  · simp [chunkReports, chunkReport, List.range_succ]

theorem play_chunkProgress (progress : Bool) {n k : Nat} (hk : k ∈ List.range (chunkCount n)) (s : State) :
    play (chunkProgress progress n k) s =
      s.setEngine { s.engine with progress := s.engine.progress ++ chunkReport progress n k } := by
  cases progress
  · exact congrArg (fun p => s.setEngine { s.engine with progress := p }) (List.append_nil s.engine.progress).symm
  · have hdone : Config.maxBurstWords * k + chunkWords n k = min n (256 * (k + 1)) := by
      rw [← Config.maxBurstWords, ← min_add_chunkWords hk, min_eq_right (chunk_start_lt hk).le]
    rw [chunkProgress, if_pos rfl, hdone]
    rfl

theorem driverCalls_chunkProgress (progress : Bool) (n k : Nat) : driverCalls (chunkProgress progress n k) true = 0 := by
  cases progress <;> rfl

/-! ## One chunk after another -/

/-- What holds before the first chunk, and is carried from each to the next, holds behind the first j. -/
theorem play_chunks {f : Nat → List Action} {n : Nat} {R : Nat → State → Prop} {s : State} (hfirst : R 0 s)
    (hnext : ∀ k ∈ List.range (chunkCount n), ∀ t, R k t → R (k + 1) (play (f k) t)) {j : Nat} (hj : j ≤ chunkCount n) :
    R j (play ((List.range j).flatMap f) s) := by
  induction j with
  | zero => exact hfirst
  | succ j ih =>
    rw [List.range_succ, List.flatMap_append, play_append, List.flatMap_singleton]
    exact hnext j (List.mem_range.2 hj) _ (ih (Nat.le_of_succ_le hj))

/-- From s the first j chunks of n words, each of c clocks and 37 a word, have come to t; `log` are their transfers. -/
structure ChunksRan (c : Nat) (log : List AhbTransfer) (progress : Bool) (n j : Nat) (s t : State) : Prop where
  clock : t.target.clockCount = s.target.clockCount + (c * j + 37 * min n (Config.maxBurstWords * j))
  log : (leadingReset t).ahbLog = (leadingReset s).ahbLog ++ log
  progress : t.engine.progress = s.engine.progress ++ chunkReports progress n j
  params : t.params = s.params

theorem ChunksRan.zero (c : Nat) (progress : Bool) (n : Nat) (s : State) : ChunksRan c [] progress n 0 s s where
  clock := by simp
  log := (List.append_nil _).symm
  progress := by simp [chunkReports]
  params := rfl

/-- The next chunk's burst has come to u, and its progress call follows. -/
theorem ChunksRan.succ {c : Nat} {log more : List AhbTransfer} {progress : Bool} {n k : Nat} {s t u : State}
    (h : ChunksRan c log progress n k s t) (hk : k ∈ List.range (chunkCount n)) (htap : u.target.tap = .tlr)
    (hclock : u.target.clockCount = t.target.clockCount + (c + 37 * chunkWords n k))
    (hlog : u.ahbLog = (leadingReset t).ahbLog ++ more) (hprogress : u.engine.progress = t.engine.progress)
    (hparams : u.params = t.params) :
    ChunksRan c (log ++ more) progress n (k + 1) s (play (chunkProgress progress n k) u) := by
  rw [play_chunkProgress progress hk]
  refine ⟨?_, ?_, ?_, hparams.trans h.params⟩
  · rw [setEngine_target, hclock, h.clock, ← min_add_chunkWords hk, Nat.mul_succ]
    omega
  · obtain ⟨hkept, -⟩ := leadingReset_of_tlr (s := u.setEngine
      { u.engine with progress := u.engine.progress ++ chunkReport progress n k }) htap
    rw [hkept, setEngine_ahbLog, hlog, h.log, List.append_assoc]
  · rw [chunkReports_succ, ← List.append_assoc, ← h.progress, ← hprogress]
    rfl

end Sys2Proof.Machine
end

section
/-! `write_many` in full (R291): its chunks one after another, the last as the burst it is. -/

namespace Sys2Proof.Machine

open Sys2Proof

theorem wordWrites_append (a : Word) (xs ys : List Word) :
    wordWrites a (xs ++ ys) = wordWrites a xs ++ wordWrites (a + BitVec.ofNat 32 (4 * xs.length)) ys := by
  induction xs generalizing a with
  | nil => exact congrArg (wordWrites · ys) (BitVec.add_zero a).symm
  | cons x xs ih =>
    have haddr : a + 4 + BitVec.ofNat 32 (4 * xs.length) = a + BitVec.ofNat 32 (4 * (xs.length + 1)) := by
      rw [Nat.mul_succ, Nat.add_comm, ← add_ofNat_add]
      rfl
    rw [List.cons_append, wordWrites, wordWrites, ih, haddr]
    rfl

section
variable {addr : Word} {buf : List Word} {n : Nat} (hlen : buf.length = n)
include hlen

/-- The buffer up to a chunk and the chunk's own words are the buffer up to the next. -/
theorem take_append_chunkSlice {k : Nat} (hk : k ∈ List.range (chunkCount n)) :
    buf.take (Config.maxBurstWords * k) ++ chunkSlice buf n k = buf.take (Config.maxBurstWords * (k + 1)) := by
  have hstart := chunk_start_lt hk
  have hslice : chunkSlice buf n k = (buf.drop (Config.maxBurstWords * k)).take Config.maxBurstWords := by
    rw [chunkSlice, chunkWords, List.take_eq_take_iff, List.length_drop, hlen]
    omega
  rw [hslice, Nat.mul_succ, List.take_add]

theorem wordWrites_succ {k : Nat} (hk : k ∈ List.range (chunkCount n)) :
    wordWrites addr (buf.take (Config.maxBurstWords * (k + 1))) =
      wordWrites addr (buf.take (Config.maxBurstWords * k)) ++ wordWrites (chunkBase addr k) (chunkSlice buf n k) := by
  have hbytes : 4 * (buf.take (Config.maxBurstWords * k)).length = Config.seqBoundaryBytes * k := by
    rw [List.length_take, hlen, min_eq_left (chunk_start_lt hk).le, Config.maxBurstWords, Config.seqBoundaryBytes]
    omega
  rw [← take_append_chunkSlice hlen hk, wordWrites_append, hbytes]
  rfl

end

/-! ## The chunks -/

/-- From s the first j chunks of a write have come to t. -/
structure ChunksWritten (addr : Word) (buf : List Word) (progress : Bool) (n j : Nat) (s t : State) : Prop
    extends ChunksRan 128 (wordWrites addr (buf.take (Config.maxBurstWords * j))) progress n j s t where
  rdata : (leadingReset t).target.bridge.rdata = (leadingReset s).target.bridge.rdata
  out : t.engine.out = s.engine.out

section
variable {addr : Word} {buf : List Word} {n : Nat} (progress : Bool) (hlen : buf.length = n)
include hlen

theorem driverCalls_writeMany : driverCalls (program (.writeMany addr buf n progress)) true = n := by
  have hcalls {k : Nat} (hk : k ∈ List.range (chunkCount n)) :
      driverCalls (writeChunk addr buf n progress k) true = 1 * chunkWords n k + 0 := by
    have hends := burstWriteActions_endsAtRest (chunkBase addr k) (writeChunk_words_ne_nil hlen hk) .unknown true false
    rw [writeChunk, driverCalls_append _ hends.plan, driverCalls_chunkProgress,
      driverCalls_burstWriteActions _ (writeChunk_words_ne_nil hlen hk), Nat.one_mul]
    exact chunkSlice_length hlen
  have hall := driverCalls_chunks (f := writeChunk addr buf n progress)
    (fun k hk b r => writeChunk_endsAtRest addr progress hlen hk b r) fun k hk => hcalls hk
  rw [Nat.one_mul, Nat.zero_mul, Nat.add_zero] at hall
  exact hall

variable (hok : manyOk addr n = true)
include hok

/-- Chunk k on the target side: it is a burst, its last word w (R291). -/
theorem play_writeChunk {k : Nat} (hk : k ∈ List.range (chunkCount n)) {ws : List Word} {w : Word}
    (hslice : chunkSlice buf n k = ws ++ [w]) (t : State) : ∃ u,
      play (writeChunk addr buf n progress k) t = play (chunkProgress progress n k) u
      ∧ u.target = burstWriteTarget (chunkBase addr k) ws w t
      ∧ u.ahbLog = (leadingReset t).ahbLog ++ wordWrites (chunkBase addr k) (chunkSlice buf n k)
      ∧ u.engine = t.engine ∧ u.params = t.params := by
  obtain ⟨halign, hblock⟩ := burstOk_bounds (chunk_burstOk hok hk)
  have hwords := chunkSlice_length hlen (k := k)
  rw [hslice, List.length_append, List.length_singleton] at hwords
  rw [← hwords] at hblock
  obtain ⟨htarget, hlog, hengine⟩ := play_burstWriteActions ws w t halign hblock
  have hends := burstWriteActions_endsAtRest (chunkBase addr k)
    (List.append_ne_nil_of_right_ne_nil ws (List.cons_ne_nil w [])) .unknown false false
  refine ⟨_, ?_, htarget, hslice ▸ hlog, hengine, play_params (planned_engineList _ _ _ _ _ hends.plan) t⟩
  rw [← hslice]
  exact play_append _ _ t

theorem ChunksWritten.succ {k : Nat} (hk : k ∈ List.range (chunkCount n)) {s t : State}
    (h : ChunksWritten addr buf progress n k s t) :
    ChunksWritten addr buf progress n (k + 1) s (play (writeChunk addr buf n progress k) t) := by
  obtain ⟨ws, w, hslice⟩ := (List.eq_nil_or_concat' (chunkSlice buf n k)).resolve_left (writeChunk_words_ne_nil hlen hk)
  obtain ⟨u, hplay, htarget, hlog, hengine, hparams⟩ := play_writeChunk progress hlen hok hk hslice t
  have hwords := chunkSlice_length hlen (k := k)
  rw [hslice, List.length_append, List.length_singleton] at hwords
  have hclock : u.target.clockCount = t.target.clockCount + (128 + 37 * chunkWords n k) := by
    rw [htarget, burstWriteTarget, hwords]
  have htap : u.target.tap = .tlr := congrArg Target.tap htarget
  have hran := h.toChunksRan.succ hk htap hclock hlog (congrArg Engine.progress hengine) hparams
  rw [← wordWrites_succ hlen hk] at hran
  rw [hplay]
  refine ⟨hran, ?_, ?_⟩
  · rw [play_chunkProgress progress hk]
    obtain ⟨-, hbridge⟩ := leadingReset_of_tlr (s := u.setEngine
      { u.engine with progress := u.engine.progress ++ chunkReport progress n k }) htap
    rw [hbridge, setEngine_target, htarget]
    exact h.rdata
  · rw [play_chunkProgress_out, hengine, h.out]

/-- The first j chunks of a write (R291). -/
theorem chunksWritten {j : Nat} (hj : j ≤ chunkCount n) (s : State) :
    ChunksWritten addr buf progress n j s (play ((List.range j).flatMap (writeChunk addr buf n progress)) s) :=
  play_chunks (R := fun j => ChunksWritten addr buf progress n j s) ⟨ChunksRan.zero 128 progress n s, rfl, rfl⟩
    (fun _ hk _ => ChunksWritten.succ progress hlen hok hk) hj

end

/-! ## The whole transfer -/

/-- The target that a write of n words leaves, w the last (R290, R291). -/
def writeManyTarget (addr : Word) (n : Nat) (w : Word) (s : State) : Target where
  tap := .tlr
  ir := s.params.idcodeOpcode
  irsr := 0x03
  cmd := BitVec.ofBool true ++ (0b10 : BitVec 2) ++ (addr + BitVec.ofNat 32 (1024 * (chunkCount n - 1)))
  data := BitVec.ofBool true ++ w
  dsr := lowBits 33 (BitVec.ofBool true ++ w)
  bridge := { curAddr := addr + BitVec.ofNat 32 (4 * n), curSize := 0b10, curW := true, pending := .none
              rdata := (leadingReset s).target.bridge.rdata
              pastBlock := decide (addr.toNat % 1024 + 4 * (n - 256 * (chunkCount n - 1)) = 1024) }
  clockCount := s.target.clockCount + (128 * chunkCount n + 37 * n)

/-- The last chunk's words, and the last of them (R290). -/
theorem chunkSlice_last (ws : List Word) (w : Word) {j : Nat} (hj : chunkCount (ws.length + 1) = j + 1) :
    chunkSlice (ws ++ [w]) (ws.length + 1) j = ws.drop (Config.maxBurstWords * j) ++ [w] := by
  have hstart : Config.maxBurstWords * j ≤ ws.length :=
    Nat.le_of_lt_succ (chunk_start_lt (List.mem_range.2 (hj ▸ Nat.lt_succ_self j)))
  rw [chunkCount, Config.maxBurstWords] at hj
  rw [chunkSlice, List.drop_append_of_le_length hstart]
  refine List.take_of_length_le ?_
  rw [List.length_append, List.length_singleton, List.length_drop, chunkWords, Config.maxBurstWords]
  omega

/-- The last chunk's burst leaves the target of the whole transfer (R291). -/
theorem burstWriteTarget_last {addr : Word} {ws : List Word} (w : Word) {j : Nat} {buf : List Word} {progress : Bool}
    {s t : State} (hj : chunkCount (ws.length + 1) = j + 1) (h : ChunksWritten addr buf progress (ws.length + 1) j s t) :
    burstWriteTarget (chunkBase addr j) (ws.drop (Config.maxBurstWords * j)) w t = writeManyTarget addr (ws.length + 1) w s := by
  have hstart : Config.maxBurstWords * j ≤ ws.length :=
    Nat.le_of_lt_succ (chunk_start_lt (List.mem_range.2 (hj ▸ Nat.lt_succ_self j)))
  have hclock := h.clock
  rw [Config.maxBurstWords] at hstart hclock
  have hbase : chunkBase addr j = addr + BitVec.ofNat 32 (1024 * j) := rfl
  have hbytes : 1024 * j + 4 * (ws.length - 256 * j + 1) = 4 * (ws.length + 1) := by omega
  have hpast : decide ((addr + BitVec.ofNat 32 (1024 * j)).toNat % 1024 + 4 * (ws.length - 256 * j + 1) = 1024) =
      decide (addr.toNat % 1024 + 4 * (ws.length + 1 - 256 * j) = 1024) := by
    rw [decide_eq_decide, ← hbase, chunkBase_toNat]
    omega
  have hcount : t.target.clockCount + (128 + 37 * (ws.length - 256 * j + 1)) =
      s.target.clockCount + (128 * (j + 1) + 37 * (ws.length + 1)) := by omega
  rw [burstWriteTarget, writeManyTarget, hj, Nat.add_sub_cancel, Config.maxBurstWords, List.length_drop, hbase, add_ofNat_add,
    hbytes, hpast, hcount, h.rdata, h.params]

theorem play_writeMany_target {addr : Word} {ws : List Word} (w : Word) (progress : Bool)
    (hok : manyOk addr (ws.length + 1) = true) (s : State) :
    (play (program (.writeMany addr (ws ++ [w]) (ws.length + 1) progress)) s).target =
      writeManyTarget addr (ws.length + 1) w s := by
  have hlen : (ws ++ [w]).length = ws.length + 1 := List.length_append
  obtain ⟨j, hj⟩ := chunkCount_ne_zero ws.length.succ_ne_zero
  have hk : j ∈ List.range (chunkCount (ws.length + 1)) := List.mem_range.2 (hj ▸ Nat.lt_succ_self j)
  have hbefore := chunksWritten progress hlen hok (List.mem_range.1 hk).le s
  obtain ⟨u, hplay, htarget, -⟩ := play_writeChunk progress hlen hok hk (chunkSlice_last ws w hj)
    (play ((List.range j).flatMap (writeChunk addr (ws ++ [w]) (ws.length + 1) progress)) s)
  rw [program, hj, List.range_succ, List.flatMap_append, play_append, List.flatMap_singleton, hplay,
    play_chunkProgress progress hk, setEngine_target, htarget, burstWriteTarget_last w hj hbefore]

theorem leadingReset_issue_rdata (s : State) :
    (leadingReset (issue s)).target.bridge.rdata = (leadingReset s).target.bridge.rdata :=
  congrArg (fun t => t.bridge.rdata) (leadingReset_issue s).2

theorem manyOk_of_bounds {addr : Word} {n : Nat} (halign : addr.toNat % 4 = 0) (hpos : 1 ≤ n)
    (hblock : addr.toNat % 1024 + 4 * min 256 n ≤ 1024) : manyOk addr n = true := by
  rw [manyOk_iff, wordAligned_iff, inOneBlock_iff]
  omega

/-- Settles O43: without a word the list is empty; with words the chunks are bursts in a row, the last of which leaves the
target. -/
theorem writeMany : Obligations.WriteMany := by
  intro addr progress s
  refine ⟨fun hs => exec_writeMany (buf := []) progress hs rfl, ?_⟩
  rintro ws w n hs halign rfl hblock q i k last
  have ⟨hsession, _⟩ := hs
  have hlen : (ws ++ [w]).length = ws.length + 1 := List.length_append
  have hok := manyOk_of_bounds halign (Nat.le_add_left 1 ws.length) hblock
  have hne : program i ≠ [] := by
    have hwords := program_writeMany_ne_nil (a := addr) (buf := ws ++ [w]) progress (by omega)
    rwa [hlen] at hwords
  have hends := program_endsAtRest i (Bool.and_eq_true_iff.2 ⟨decide_eq_true hlen, hok⟩) hne s.engine.tapBelief
  have hran := chunksWritten progress hlen hok le_rfl (issue s)
  have hrested : Rested (play (program i) (issue s)) := play_rested (r := false) nofun hends.reset
  have htarget : (play (program i) (issue s)).target = writeManyTarget addr (ws.length + 1) w s := by
    rw [play_writeMany_target w progress hok, writeManyTarget, leadingReset_issue_rdata]
    rfl
  have hmem : (play (program i) (issue s)).mem = storeBytes s.params (wordsStores addr (ws ++ [w])) q.mem := by
    rw [← leadingReset_mem_of_tlr hrested.tap, play_writeMany_mem progress hlen hok, leadingReset_issue_mem]
    rfl
  have hlog : (play (program i) (issue s)).ahbLog = q.ahbLog ++ wordWrites addr (ws ++ [w]) := by
    have hall : (ws ++ [w]).take (Config.maxBurstWords * chunkCount (ws.length + 1)) = ws ++ [w] :=
      List.take_of_length_le (hlen.trans_le (min_eq_left_iff.1 (min_chunkCount _)))
    obtain ⟨hkept, -⟩ := leadingReset_of_tlr hrested.tap
    rw [← hkept, ← (leadingReset_issue s).1, ← hall]
    exact hran.log
  refine ⟨storeBytes s.params (wordsStores addr (ws ++ [w])) q.mem, fun hwf =>
    storesExactly_storeBytes _ _ ((clocked_moves fiveHigh s).keeps hwf).wf, ?_⟩
  have hexec := exec_writeMany (a := addr) (buf := ws ++ [w]) progress hsession (hlen.symm ▸ hok)
  rw [hlen] at hexec
  exact hexec.trans (operation_atRest (i := i) hs hends (fun _ => .done) hran.out hran.progress htarget hmem hlog
    (driverCalls_writeMany progress hlen))

end Sys2Proof.Machine
end

section
/-! `read_many` in full, for every read latency (R292): its chunks one after another, the last as the burst it is. -/

namespace Sys2Proof.Machine

open Sys2Proof

theorem wordReads_add (a : Word) (m n : Nat) :
    wordReads a (m + n) = wordReads a m ++ wordReads (a + BitVec.ofNat 32 (4 * m)) n := by
  induction m generalizing a with
  | zero => exact congrArg₂ wordReads (BitVec.add_zero a).symm (Nat.zero_add n)
  | succ m ih =>
    have haddr : a + 4 + BitVec.ofNat 32 (4 * m) = a + BitVec.ofNat 32 (4 * (m + 1)) := by
      rw [Nat.mul_succ, Nat.add_comm, ← add_ofNat_add]
      rfl
    rw [Nat.succ_add, wordReads, wordReads, ih, haddr]
    rfl

/-- The reads up to a chunk and the chunk's own are those up to the next. -/
theorem wordReads_succ (addr : Word) {n k : Nat} (hk : k ∈ List.range (chunkCount n)) :
    wordReads addr (min n (Config.maxBurstWords * (k + 1))) =
      wordReads addr (min n (Config.maxBurstWords * k)) ++ wordReads (chunkBase addr k) (chunkWords n k) := by
  have hbytes : 4 * min n (Config.maxBurstWords * k) = Config.seqBoundaryBytes * k := by
    rw [min_eq_right (chunk_start_lt hk).le, Config.maxBurstWords, Config.seqBoundaryBytes]
    omega
  rw [← min_add_chunkWords hk, wordReads_add, hbytes]
  rfl

theorem driverCalls_readMany (addr : Word) (n : Nat) (progress : Bool) :
    driverCalls (program (.readMany addr n progress)) true = 3 * n + chunkCount n := by
  have hcalls {k : Nat} (hk : k ∈ List.range (chunkCount n)) :
      driverCalls (readChunk addr n progress k) true = 3 * chunkWords n k + 1 := by
    obtain ⟨m, hm⟩ := Nat.exists_eq_succ_of_ne_zero (chunkWords_ne_zero hk)
    have hends := burstReadActions_endsAtRest (chunkBase addr k) (chunkWords_ne_zero hk) .unknown true false
    rw [readChunk, driverCalls_append _ hends.plan, driverCalls_chunkProgress, hm]
    exact congrArg (· + 0) (driverCalls_burstReadActions (chunkBase addr k) m)
  have hall := driverCalls_chunks (f := readChunk addr n progress)
    (fun k hk b r => readChunk_endsAtRest addr progress hk b r) fun k hk => hcalls hk
  rw [Nat.one_mul] at hall
  exact hall

/-! ## The chunks -/

/-- From s the first j chunks of a read have come to t, which is as ready for the next. -/
structure ChunksRead (addr : Word) (progress : Bool) (n j : Nat) (s t : State) : Prop
    extends ChunksRan 127 (wordReads addr (min n (Config.maxBurstWords * j))) progress n j s t where
  mem : (leadingReset t).mem = (leadingReset s).mem
  words : ∃ out, t.engine.out = s.engine.out ++ out ∧ out.length = min n (Config.maxBurstWords * j)
  loopback : t.mpsse.loopback = false
  queue : t.mpsse.rxFifo = []

section
variable {addr : Word} {n : Nat} (progress : Bool) (hok : manyOk addr n = true)
include hok

/-- Chunk k is a burst of m + 1 words (R292). -/
theorem burstRan_readChunk {k m : Nat} (hk : k ∈ List.range (chunkCount n)) (hm : chunkWords n k = m + 1) {t : State}
    (hlatency : 1 ≤ t.params.ahbReadLatency) (hloop : t.mpsse.loopback = false) (hqueue : t.mpsse.rxFifo = []) :
    ∃ u out p rd, play (readChunk addr n progress k) t = play (chunkProgress progress n k) u
      ∧ BurstRan (chunkBase addr k) m t u out p rd := by
  obtain ⟨-, hblock⟩ := burstOk_bounds (chunk_burstOk hok hk)
  rw [hm] at hblock
  obtain ⟨out, p, rd, hran⟩ := burstRan_burstReadActions hloop hqueue hlatency hblock
  refine ⟨_, out, p, rd, ?_, hran⟩
  rw [readChunk, hm]
  exact play_append _ _ t

theorem ChunksRead.succ {k : Nat} (hk : k ∈ List.range (chunkCount n)) {s t : State} (hlatency : 1 ≤ s.params.ahbReadLatency)
    (h : ChunksRead addr progress n k s t) :
    ChunksRead addr progress n (k + 1) s (play (readChunk addr n progress k) t) := by
  obtain ⟨m, hm⟩ := Nat.exists_eq_succ_of_ne_zero (chunkWords_ne_zero hk)
  obtain ⟨u, out, p, rd, hplay, hran⟩ :=
    burstRan_readChunk progress hok hk hm (h.params.symm ▸ hlatency) h.loopback h.queue
  obtain ⟨before, hbefore, hcount⟩ := h.words
  have hstate := hran.state
  have htap : u.target.tap = .tlr := congrArg (fun u => u.target.tap) hstate
  have hclock : u.target.clockCount = t.target.clockCount + (127 + 37 * chunkWords n k) := by
    rw [hm]
    exact congrArg (fun u => u.target.clockCount) hstate
  have hlog : u.ahbLog = (leadingReset t).ahbLog ++ wordReads (chunkBase addr k) (chunkWords n k) := by
    rw [hm]
    exact congrArg State.ahbLog hstate
  have hparams : u.params = t.params := (congrArg State.params hstate).trans rfl
  have hchunks := h.toChunksRan.succ hk htap hclock hlog (congrArg (fun u => u.engine.progress) hstate) hparams
  rw [← wordReads_succ addr hk] at hchunks
  rw [hplay]
  refine ⟨hchunks, ?_, ⟨before ++ out, ?_, ?_⟩, ?_, ?_⟩
  · rw [play_chunkProgress progress hk, leadingReset_mem_of_tlr (by exact htap)]
    exact (congrArg State.mem hstate).trans h.mem
  · rw [play_chunkProgress_out, hstate, ← List.append_assoc, ← hbefore]
  · rw [List.length_append, hcount, hran.length, ← min_add_chunkWords hk, hm]
  · rw [play_chunkProgress progress hk, setEngine_mpsse, hstate]
    exact h.loopback
  · rw [play_chunkProgress progress hk, setEngine_mpsse, hstate]
    exact h.queue

/-- The first j chunks of a read (R292). -/
theorem chunksRead {j : Nat} (hj : j ≤ chunkCount n) {s : State} (hlatency : 1 ≤ s.params.ahbReadLatency)
    (hloop : s.mpsse.loopback = false) (hqueue : s.mpsse.rxFifo = []) :
    ChunksRead addr progress n j s (play ((List.range j).flatMap (readChunk addr n progress)) s) := by
  refine play_chunks (R := fun j => ChunksRead addr progress n j s) ⟨?_, rfl, ⟨[], ?_, ?_⟩, hloop, hqueue⟩
    (fun _ hk _ => ChunksRead.succ progress hok hk hlatency) hj
  · rw [Nat.mul_zero, Nat.min_zero]
    exact ChunksRan.zero 127 progress n s
  · exact (List.append_nil _).symm
  · rw [Nat.mul_zero, Nat.min_zero]
    rfl

end

/-! ## The whole transfer -/

/-- The target that a read of n words leaves, with p and rd its bridge's last read (R290, R292). -/
def readManyTarget (addr : Word) (n : Nat) (p : Pending) (rd : Word) (s : State) : Target where
  tap := .tlr
  ir := s.params.idcodeOpcode
  irsr := 0x03
  cmd := BitVec.ofBool false ++ (0b10 : BitVec 2) ++ (addr + BitVec.ofNat 32 (1024 * (chunkCount n - 1)))
  data := 0
  dsr := List.replicate 33 false
  bridge := { curAddr := addr + BitVec.ofNat 32 (4 * (n - 1)), curSize := 0b10, curW := false, pending := p, rdata := rd
              pastBlock := false }
  clockCount := s.target.clockCount + (127 * chunkCount n + 37 * n)

/-- The last chunk's burst leaves the target of the whole transfer (R292). -/
theorem burstReadTarget_last {addr : Word} {n j m : Nat} {progress : Bool} {s t : State} (p : Pending) (rd : Word)
    (hj : chunkCount n = j + 1) (hm : chunkWords n j = m + 1) (h : ChunksRead addr progress n j s t) :
    burstReadTarget (chunkBase addr j) m p rd t = readManyTarget addr n p rd s := by
  have hk : j ∈ List.range (chunkCount n) := List.mem_range.2 (by omega)
  have hstart := chunk_start_lt hk
  have hall := min_add_chunkWords hk
  rw [← hj, min_chunkCount, hm] at hall
  have hclock := h.clock
  rw [Config.maxBurstWords] at hstart hall hclock
  have hbase : chunkBase addr j = addr + BitVec.ofNat 32 (1024 * j) := rfl
  have hbytes : 1024 * j + 4 * m = 4 * (n - 1) := by omega
  have hcount : t.target.clockCount + (127 + 37 * (m + 1)) = s.target.clockCount + (127 * (j + 1) + 37 * n) := by omega
  rw [burstReadTarget, readManyTarget, hj, Nat.add_sub_cancel, hbase, add_ofNat_add, hbytes, hcount, h.params]

/-- The whole transfer's target and words (R292): within the window of R286 its last read is complete. -/
theorem play_readMany {addr : Word} {n : Nat} (progress : Bool) (hn : n ≠ 0) (hok : manyOk addr n = true) {s : State}
    (hlatency : 1 ≤ s.params.ahbReadLatency) (hloop : s.mpsse.loopback = false) (hqueue : s.mpsse.rxFifo = []) :
    ∃ out p rd, (play (program (.readMany addr n progress)) s).engine.out = s.engine.out ++ out
      ∧ (s.params.ahbReadLatency ≤ 3 → p = .none ∧ out.getLast? = some rd)
      ∧ (play (program (.readMany addr n progress)) s).target = readManyTarget addr n p rd s := by
  obtain ⟨j, hj⟩ := chunkCount_ne_zero hn
  have hk : j ∈ List.range (chunkCount n) := List.mem_range.2 (hj ▸ Nat.lt_succ_self j)
  obtain ⟨m, hm⟩ := Nat.exists_eq_succ_of_ne_zero (chunkWords_ne_zero hk)
  have hbefore := chunksRead progress hok (List.mem_range.1 hk).le hlatency hloop hqueue
  obtain ⟨before, hout, -⟩ := hbefore.words
  obtain ⟨u, out, p, rd, hplay, hran⟩ :=
    burstRan_readChunk progress hok hk hm (hbefore.params.symm ▸ hlatency) hbefore.loopback hbefore.queue
  have hwhole : play (program (.readMany addr n progress)) s =
      play (chunkProgress progress n j) u := by
    rw [program, hj, List.range_succ, List.flatMap_append, play_append, List.flatMap_singleton, hplay]
  refine ⟨before ++ out, p, rd, ?_, fun hwindow => ?_, ?_⟩
  · rw [hwhole, play_chunkProgress_out, hran.state, ← List.append_assoc, ← hout]
  · obtain ⟨hnone, hlast⟩ := hran.last (hbefore.params.symm ▸ hwindow)
    refine ⟨hnone, ?_⟩
    rw [List.getLast?_append, hlast]
    rfl
  · rw [hwhole, play_chunkProgress progress hk, setEngine_target, hran.state]
    exact burstReadTarget_last p rd hj hm hbefore

/-- Settles O44: without a word the list is empty; with words the chunks are bursts in a row, the last of which leaves the
target. -/
theorem readMany : Obligations.ReadMany := by
  intro addr progress s
  refine ⟨fun hs => exec_readMany progress hs rfl, ?_⟩
  intro n hs hlatency halign hpos hblock q i k
  have ⟨hsession, _, _, hqueue, hloop⟩ := hs
  have hn : n ≠ 0 := Nat.one_le_iff_ne_zero.1 hpos
  have hok := manyOk_of_bounds halign hpos hblock
  have hends := program_endsAtRest i hok (program_readMany_ne_nil progress hn) s.engine.tapBelief
  have hran := chunksRead progress hok le_rfl (s := issue s) hlatency hloop hqueue
  have hrested : Rested (play (program i) (issue s)) := play_rested (r := false) nofun hends.reset
  obtain ⟨out, p, rd, hout, hlast, htarget⟩ := play_readMany progress hn hok (s := issue s) hlatency hloop hqueue
  have hlength : out.length = n := by
    obtain ⟨words, hwords, hcount⟩ := hran.words
    rw [min_chunkCount] at hcount
    exact (congrArg List.length (List.append_cancel_left (hout.symm.trans hwords))).trans hcount
  refine ⟨out, p, rd, hlength, hlast, fun hwindow hquiet hram j hj => ?_, ?_⟩
  · have hwords := play_readMany_out progress hok (s := issue s) hloop hqueue ⟨hlatency, hwindow, hquiet⟩ hram
    rw [List.append_cancel_left (hout.symm.trans hwords), wordsAt_of_mem (leadingReset_issue_mem s), wordsAt_getElem? _ _ hj]
  · have hmem : (play (program i) (issue s)).mem = q.mem := by
      rw [← leadingReset_mem_of_tlr hrested.tap, ← leadingReset_issue_mem s]
      exact hran.mem
    have hlog : (play (program i) (issue s)).ahbLog = q.ahbLog ++ wordReads addr n := by
      have hall := hran.log
      rw [min_chunkCount, (leadingReset_issue s).1] at hall
      exact (leadingReset_of_tlr hrested.tap).1.symm.trans hall
    exact (exec_readMany progress hsession hok).trans (operation_atRest (i := i) hs hends .words hout hran.progress htarget hmem
      hlog (driverCalls_readMany addr n progress))

end Sys2Proof.Machine
end

section
/-! How an operation ends, whatever the driver does and whatever part of a command waits (R320, R328, R329): each of its actions
goes on or raises a transport error, so a list that is as planned has these two ends alone. -/

namespace Sys2Proof.Machine

open Sys2Proof

/-! ## The MPSSE engine's loop -/

/-- At t the engine is e; the caller's calls and the parameters are those of s. -/
structure EngineBecomes (s : State) (e : Engine) (t : State) : Prop where
  engine : t.engine = e
  calls : t.calls = s.calls
  params : t.params = s.params

/-- The MPSSE engine has executed bytes, or the driver has answered: the engine is as it was. -/
abbrev EngineStays (s t : State) : Prop := EngineBecomes s s.engine t

theorem EngineStays.becomes {s t u : State} {e : Engine} (hst : EngineStays s t) (htu : EngineBecomes t e u) :
    EngineBecomes s e u :=
  ⟨htu.engine, htu.calls.trans hst.calls, htu.params.trans hst.params⟩

theorem EngineStays.trans {s t u : State} (hst : EngineStays s t) (htu : EngineStays t u) : EngineStays s u :=
  hst.becomes ⟨htu.engine.trans hst.engine, htu.calls, htu.params⟩

theorem Answered.engineStays {n : Nat} {s t : State} (h : Answered n s t) : EngineStays s t := ⟨h.engine, h.calls, h.params⟩

theorem runUndescribed_engineStays (s : State) : EngineStays s (runUndescribed s) := by
  rw [runUndescribed_eq]
  exact ⟨clocked_engine _ s, clocked_calls _ s, clocked_params _ s⟩

/-- What the loop executes leaves the engine alone (R160, U16). -/
theorem drainFuel_engineStays {fuel : Nat} {s t : State} (h : drainFuel fuel s = .ok t) : EngineStays s t := by
  induction fuel generalizing s with
  | zero =>
    cases h
    exact ⟨rfl, rfl, rfl⟩
  | succ fuel ih =>
    cases hd : decodeMpsse s.mpsse.input with
    | waiting =>
      rw [drainFuel_of_waiting _ hd] at h
      cases h
      exact ⟨rfl, rfl, rfl⟩
    | command i rest =>
      obtain ⟨hmpsse, -⟩ := mpsseDecodeSound _ rest i hd
      obtain ⟨u, hrun⟩ := decoded_runs _ _ i (setInput rest s) hd
      rw [drainFuel_of_command _ hd hrun] at h
      have hu : EngineStays (setInput rest s) u := (runCommand_answered i hmpsse hrun).engineStays
      exact EngineStays.trans (s := s) ⟨hu.engine, hu.calls, hu.params⟩ (ih h)
    | rejected e rest =>
      rw [drainFuel_of_rejected _ hd] at h
      have hu := runUndescribed_engineStays (setInput rest s)
      exact EngineStays.trans (s := s) ⟨hu.engine, hu.calls, hu.params⟩ (ih h)

/-! ## `Flush` inside an operation, by its write's outcome -/

/-- The error that a `Flush` of n bytes raises on its write's outcome, if any: the status is looked at first (R224, R328). -/
def writeError (ev : DriverEvent) (n : Nat) : Option EngineError :=
  match ev.failure with
  | some st => some (.transportError st)
  | none => if ev.sent n = n then none else some (.shortWrite (ev.sent n) n)

/-- The end of a `Flush`, the delivered bytes executed. -/
def flushEnd : Option EngineError → State → Run
  | none, s => .ok s
  | some e, s => .raised (raise e s)

theorem flush_eq {s t : State} (hne : s.engine.outbuf ≠ [])
    (hdrain : drain (delivered s ((driverCall s).1.sent s.engine.outbuf.length)) = .ok t) :
    flush s = flushEnd (writeError (driverCall s).1 s.engine.outbuf.length) t := by
  rw [flush, flushWith, if_neg hne, writeError]
  simp only [usbWrite_outbuf, hdrain, andThen_ok]
  cases (driverCall s).1.failure with
  | some st => rfl
  | none =>
    have hends := apply_ite (flushEnd · t) ((driverCall s).1.sent s.engine.outbuf.length = s.engine.outbuf.length) none
      (some (.shortWrite ((driverCall s).1.sent s.engine.outbuf.length) s.engine.outbuf.length))
    exact hends.symm

/-! ## The transport -/

/-- The errors of R321: codes 1 to 5. -/
def EngineError.isTransport (e : EngineError) : Bool := decide (1 ≤ e.code) && decide (e.code ≤ 5)

theorem isTransport_iff (e : EngineError) : e.isTransport = true ↔ 1 ≤ e.code ∧ e.code ≤ 5 := by
  rw [EngineError.isTransport, Bool.and_eq_true, decide_eq_true_iff, decide_eq_true_iff]

theorem isTransport_of_writeError {ev : DriverEvent} {n : Nat} {e : EngineError} (h : writeError ev n = some e) :
    e.isTransport = true := by
  unfold writeError at h
  split at h
  · cases h
    rfl
  · split at h
    · exact nomatch h
    · cases h
      rfl

/-- From s a transport error has been raised, which leaves t (R329). -/
def FailedFrom (s t : State) : Prop := ∃ e : EngineError, e.isTransport = true ∧ EngineBecomes s (s.engine.failed e) t

theorem raise_failedFrom {e : EngineError} (he : e.isTransport = true) {s t : State} (h : EngineStays s t) :
    FailedFrom s (raise e t) :=
  ⟨e, he, congrArg (Engine.failed · e) h.engine, h.calls, h.params⟩

/-- A piece of an operation goes on with the engine e, or raises a transport error. -/
def Run.GoesOnOrFails (s : State) (e : Engine) : Run → Prop
  | .ok t => EngineBecomes s e t
  | .raised t => FailedFrom s t
  | .refused _ => False

theorem flush_goesOnOrFails (s : State) : (flush s).GoesOnOrFails s { s.engine with outbuf := [] } := by
  by_cases hnil : s.engine.outbuf = []
  · have hrun : flush s = .ok s := if_pos hnil
    rw [hrun]
    exact ⟨by rw [← hnil], rfl, rfl⟩
  · obtain ⟨t, hdrain⟩ := drain_goes_on (delivered s ((driverCall s).1.sent s.engine.outbuf.length))
    have hkept := drainFuel_engineStays hdrain
    rw [flush_eq hnil hdrain]
    cases herror : writeError (driverCall s).1 s.engine.outbuf.length with
    | none => exact ⟨hkept.engine, hkept.calls, hkept.params⟩
    | some e =>
      refine ⟨e, isTransport_of_writeError herror, ?_, hkept.calls, hkept.params⟩
      show t.engine.failed e = _
      rw [hkept.engine]
      rfl

/-- The poll leaves the engine alone, however it ends (R225). -/
theorem pollQueue_engineStays (fuel : Nat) (s : State) : EngineStays s (pollQueue fuel s).state := by
  induction fuel generalizing s with
  | zero => exact ⟨rfl, rfl, rfl⟩
  | succ fuel ih =>
    have hcall : EngineStays s (driverCall s).2 := ⟨rfl, rfl, rfl⟩
    unfold pollQueue
    dsimp only
    split
    · split <;> exact hcall
    · split
      · exact hcall.trans (ih _)
      · exact hcall
    · exact hcall
    · exact hcall

/-- A read of bytes returns them with the engine e, or raises a transport error. -/
def ReadRun.GoesOnOrFails (s : State) (e : Engine) : ReadRun → Prop
  | .got _ t => EngineBecomes s e t
  | .raised t => FailedFrom s t

theorem usbRead_goesOnOrFails (n : Nat) (s : State) : (usbRead n s).GoesOnOrFails s s.engine := by
  have hcall : EngineStays s (driverCall s).2 := ⟨rfl, rfl, rfl⟩
  have hchecked (k : Nat) : (readChecked n k (driverCall s).2).GoesOnOrFails s s.engine := by
    unfold readChecked
    dsimp only
    split
    · exact raise_failedFrom rfl ⟨rfl, rfl, rfl⟩
    · exact ⟨rfl, rfl, rfl⟩
  unfold usbRead
  dsimp only
  split
  · exact hchecked _
  · exact hchecked _
  · exact raise_failedFrom rfl hcall
  · exact raise_failedFrom rfl hcall

theorem readExactly_goesOnOrFails (n : Nat) (s : State) :
    (readExactly n s).GoesOnOrFails s { s.engine with expectRx := 0 } := by
  have hpoll := pollQueue_engineStays (s.usb.events.length + 1) s
  unfold readExactly
  split
  · next heq => rw [heq] at hpoll; exact raise_failedFrom rfl hpoll
  · next heq => rw [heq] at hpoll; exact raise_failedFrom rfl hpoll
  · next u heq =>
    rw [heq] at hpoll
    have hpoll : EngineStays s u := hpoll
    have hread := usbRead_goesOnOrFails n u
    cases hgot : usbRead n u with
    | got bs t =>
      rw [hgot] at hread
      have hread : EngineBecomes u u.engine t := hread
      have hkept := hpoll.trans hread
      exact ⟨congrArg (fun e : Engine => { e with expectRx := 0 }) hkept.engine, hkept.calls, hkept.params⟩
    | raised t =>
      rw [hgot] at hread
      obtain ⟨e, he, hfailed⟩ := hread
      exact ⟨e, he, hpoll.engine ▸ hpoll.becomes hfailed⟩

/-! ## An action list -/

/-- From s the operation has come to t, k actions on, in its session, with no call issued. -/
structure ActionsDone (k : Nat) (s t : State) : Prop where
  session : t.engine.session = s.engine.session
  pos : t.engine.pos = s.engine.pos + k
  calls : t.calls = s.calls
  params : t.params = s.params

theorem ActionsDone.trans {j k : Nat} {s t u : State} (hst : ActionsDone j s t) (htu : ActionsDone k t u) :
    ActionsDone (j + k) s u where
  session := htu.session.trans hst.session
  pos := by rw [htu.pos, hst.pos, Nat.add_assoc]
  calls := htu.calls.trans hst.calls
  params := htu.params.trans hst.params

/-- The ends of a list of `len` actions that is planned to end with the belief b and n bytes in `rx_fifo`: it is done, with
nothing buffered; or one of its actions has raised a transport error. -/
def Run.EndsAsPlanned (s : State) (len : Nat) (b : Belief) (n : Nat) : Run → Prop
  | .ok t => ActionsDone len s t ∧ t.engine.tapBelief = b ∧ t.engine.outbuf = [] ∧ t.engine.expectRx ≤ n
  | .raised t => ∃ k u, k < len ∧ ActionsDone k s u ∧ FailedFrom u t
  | .refused _ => False

theorem Run.EndsAsPlanned.cons {s t : State} {len n : Nat} {b : Belief} {r : Run} (hst : ActionsDone 1 s t)
    (h : r.EndsAsPlanned t len b n) : r.EndsAsPlanned s (len + 1) b n := by
  cases r with
  | ok u =>
    obtain ⟨hdone, hend⟩ := h
    exact ⟨Nat.add_comm 1 len ▸ hst.trans hdone, hend⟩
  | raised u =>
    obtain ⟨k, v, hk, hdone, hfailed⟩ := h
    exact ⟨1 + k, v, by omega, hst.trans hdone, hfailed⟩
  | refused => exact h

theorem FailedFrom.endsAsPlanned {s t : State} (h : FailedFrom s t) (len : Nat) (b : Belief) (n : Nat) :
    (Run.raised t).EndsAsPlanned s (len + 1) b n :=
  ⟨0, s, Nat.succ_pos len, ⟨rfl, rfl, rfl, rfl⟩, h⟩

/-- A list that is as planned ends so whatever the driver does; the plan bounds what is expected, and says where nothing is
buffered. -/
theorem runActions_endsAsPlanned {acts : List Action} {s : State} {b : Belief} {sent : Bool} {n m : Nat}
    (hs : s.engine.session ≠ none) (hplan : planned acts s.engine.tapBelief sent m = some (b, n))
    (hsent : sent = true → s.engine.outbuf = []) (hexpect : s.engine.expectRx ≤ m) :
    (runActions acts s).EndsAsPlanned s acts.length b n := by
  induction acts generalizing s sent m with
  | nil =>
    simp only [planned, Option.ite_none_right_eq_some, Option.some.injEq, Prod.mk.injEq] at hplan
    obtain ⟨hflushed, hb, rfl⟩ := hplan
    exact ⟨⟨rfl, rfl, rfl, rfl⟩, hb, hsent hflushed, hexpect⟩
  | cons a acts ih =>
    cases a with
    | emit i =>
      obtain ⟨b', hi, hplan⟩ := Option.bind_eq_some_iff.1 hplan
      rw [runActions, runAction, runPrimitive_emits i s b' hs hi, Run.ofOutcome, andThen_ok]
      exact .cons (t := nextPos (setBelief b' (emit (commands i) s))) ⟨rfl, rfl, rfl, rfl⟩
        (ih (sent := false) (by exact hs) hplan nofun (Nat.add_le_add_right hexpect _))
    | flush =>
      have hflush := flush_goesOnOrFails s
      rw [runActions, runAction]
      cases hrun : flush s with
      | ok t =>
        rw [hrun] at hflush
        obtain ⟨hengine, hcalls, hparams⟩ := hflush
        refine .cons (t := nextPos t) ⟨?_, ?_, hcalls, hparams⟩ (ih (sent := true) (m := m) ?_ ?_ (fun _ => ?_) ?_)
        all_goals rw [nextPos, setEngine_engine, hengine]
        · exact hs
        · exact hplan
        · exact hexpect
      | raised t =>
        rw [hrun] at hflush
        exact FailedFrom.endsAsPlanned hflush _ _ _
      | refused r =>
        rw [hrun] at hflush
        exact hflush.elim
    | readWord =>
      simp only [planned, Option.ite_none_right_eq_some] at hplan
      have hread := readExactly_goesOnOrFails 4 s
      cases hrun : readExactly 4 s with
      | got bs t =>
        rw [hrun] at hread
        obtain ⟨hengine, hcalls, hparams⟩ := hread
        rw [runActions_readWord_got hrun]
        refine .cons (t := nextPos (appendOut (bytesWord bs) t)) ⟨?_, ?_, hcalls, hparams⟩
          (ih (sent := sent) (m := m - 4) ?_ ?_ (fun h => ?_) ?_)
        all_goals rw [nextPos, appendOut, setEngine_engine, setEngine_engine, hengine]
        · exact hs
        · exact hplan.2
        · exact hsent h
        · exact Nat.zero_le _
      | raised t =>
        rw [hrun] at hread
        rw [runActions_readWord_raised hrun]
        exact FailedFrom.endsAsPlanned hread _ _ _
    | progress d total =>
      exact .cons (t := nextPos (callProgress d total s)) ⟨rfl, rfl, rfl, rfl⟩
        (ih (by exact hs) (by exact hplan) hsent hexpect)

/-! ## The operations -/

/-- A list of checks that lets an instruction through has none that fails. -/
theorem firstRefusal_none_iff (checks : List (Bool × Refusal)) :
    firstRefusal checks = none ↔ ∀ c ∈ checks, c.1 = true := by
  refine ⟨fun h => ?_, firstRefusal_eq_none⟩
  induction checks with
  | nil => exact List.forall_mem_nil _
  | cons c checks ih =>
    rw [firstRefusal] at h
    split at h
    · next hok => exact List.forall_mem_cons.2 ⟨hok, ih h⟩
    · exact nomatch h

theorem checks_of_checked_next {checks : List (Bool × Refusal)} {acts : List Action} {result : List Word → Returned}
    {s t : State} (h : checked checks acts result s = .next t) : ∀ c ∈ checks, c.1 = true := by
  refine (firstRefusal_none_iff checks).1 ?_
  cases hrefusal : firstRefusal checks with
  | none => rfl
  | some r => exact nomatch (checked_refused hrefusal acts result s).symm.trans h

theorem burstOk_of_checks {b : Word} {n : Nat} (h : ∀ c ∈ burstChecks b n, c.1 = true) : burstOk b n = true := by
  simpa [burstChecks, burstOk_iff] using h

/-- The chunked transfers' checks let no transfer through that is not well formed: the first chunk's say so (R290). -/
theorem manyOk_of_checks {addr : Word} {n : Nat} (h : ∀ c ∈ chunkChecks addr n, c.1 = true) : manyOk addr n = true := by
  rw [manyOk_iff, or_iff_not_imp_left]
  intro hn
  obtain ⟨rest, hfirst⟩ := chunkChecks_first addr hn
  rw [hfirst] at h
  obtain ⟨halign, -, hblock⟩ := (burstOk_iff _ _).1 (burstOk_of_checks fun c hc => h c (List.mem_append_left rest hc))
  exact ⟨halign, Nat.min_comm 256 n ▸ hblock⟩

/-- An operation that goes on to a next state has passed its checks: a session is open, and its operands are well formed. -/
theorem checks_of_exec_next {i : Instr} {s t : State} (hne : program i ≠ []) (h : exec i s = .next t) :
    s.engine.session ≠ none ∧ i.wellFormed = true := by
  have session (hs : hasSession s = true) : s.engine.session ≠ none := Option.isSome_iff_ne_none.1 hs
  cases i
  case readIdcode | read8 =>
    have hchecks := checks_of_checked_next h
    exact ⟨session (hchecks _ List.mem_cons_self), rfl⟩
  case read32 | read16 | write32 | write16 | write8 =>
    have hchecks := List.forall_mem_cons.1 (checks_of_checked_next h)
    exact ⟨session hchecks.1, by simpa [Instr.wellFormed] using hchecks.2⟩
  case burstWrite | burstRead =>
    have hchecks := List.forall_mem_cons.1 (checks_of_checked_next h)
    exact ⟨session hchecks.1, burstOk_of_checks hchecks.2⟩
  case writeMany =>
    obtain ⟨hs, hrest⟩ := List.forall_mem_cons.1 (checks_of_checked_next h)
    obtain ⟨hlen, hchunks⟩ := List.forall_mem_cons.1 hrest
    exact ⟨session hs, Bool.and_eq_true_iff.2 ⟨hlen, manyOk_of_checks hchunks⟩⟩
  case readMany =>
    obtain ⟨hs, hchunks⟩ := List.forall_mem_cons.1 (checks_of_checked_next h)
    exact ⟨session hs, manyOk_of_checks hchunks⟩
  all_goals exact absurd rfl hne

/-- The run of an operation's list is never refused, and its end is one of the two. -/
theorem operation_endsAsPlanned {i : Instr} {s : State} (hs : s.engine.session ≠ none) (hwf : i.wellFormed = true)
    (hne : program i ≠ []) : (runActions (program i) (issue s)).EndsAsPlanned (issue s) (program i).length (.at .tlr) 0 :=
  runActions_endsAsPlanned (s := issue s) hs (program_endsAtRest i hwf hne _).plan (fun _ => rfl) le_rfl

/-- Settles O46: the operation's list ends as planned, and what it leaves is read off that. -/
theorem operationEndsInOneOfTwoWays : Obligations.OperationEndsInOneOfTwoWays := by
  intro i s hne
  refine ⟨fun hs hwf => ?_, fun t ht => ?_⟩
  · obtain ⟨result, -, hexec⟩ := exec_eq_operation i s hs hwf hne
    have hends := operation_endsAsPlanned hs hwf hne
    rw [hexec, operation]
    cases hrun : runActions (program i) (issue s) with
    | ok u => exact ⟨_, rfl⟩
    | raised u => exact ⟨_, rfl⟩
    | refused r =>
      rw [hrun] at hends
      exact hends.elim
  · obtain ⟨hs, hwf⟩ := checks_of_exec_next hne ht
    obtain ⟨result, hresult, hexec⟩ := exec_eq_operation i s hs hwf hne
    have hends := operation_endsAsPlanned hs hwf hne
    rw [hexec, operation] at ht
    cases hrun : runActions (program i) (issue s) with
    | ok u =>
      rw [hrun] at hends ht
      cases ht
      obtain ⟨⟨hsession, hpos, hcalls, hparams⟩, hbelief, hbuf, hexpect⟩ := hends
      exact ⟨hbuf, Nat.le_zero.1 hexpect, hsession, hcalls, hparams,
        .inl ⟨hbelief, hpos.trans (Nat.zero_add _), hresult _⟩⟩
    | raised u =>
      rw [hrun] at hends ht
      cases ht
      obtain ⟨k, v, hk, ⟨hsession, hpos, hcalls, hparams⟩, e, he, hengine, hcalls', hparams'⟩ := hends
      have hposition : v.engine.pos = k := hpos.trans (Nat.zero_add k)
      rw [hengine]
      exact ⟨rfl, rfl, hsession, hcalls'.trans hcalls, hparams'.trans hparams,
        .inr ⟨rfl, hposition ▸ hk, e, rfl, (isTransport_iff e).1 he⟩⟩
    | refused r =>
      rw [hrun] at hends
      exact hends.elim

end Sys2Proof.Machine
end

section
/-! The refusals in their order (R327, R333): the session first, then the checks of the operands, one behind the other. -/

namespace Sys2Proof.Machine

open Sys2Proof

/-! ## The first check that fails -/

theorem firstRefusal_of_fails {ok : Bool} (h : ¬ ok = true) (r : Refusal) (rest : List (Bool × Refusal)) :
    firstRefusal ((ok, r) :: rest) = some r := if_neg h

theorem firstRefusal_of_passes {ok : Bool} (h : ok = true) (r : Refusal) (rest : List (Bool × Refusal)) :
    firstRefusal ((ok, r) :: rest) = firstRefusal rest := if_pos h

/-! ## Without a session -/

section
variable {s : State} (hs : s.engine.session = none)
include hs

/-- Every operation checks the session first. -/
theorem checked_noSession (checks : List (Bool × Refusal)) (acts : List Action) (result : List Word → Returned) :
    checked ((hasSession s, .noSession) :: checks) acts result s = .refused .noSession := by
  refine checked_refused (firstRefusal_of_fails ?_ _ _) acts result s
  rw [hasSession, hs]
  decide

/-- A primitive or an operation is refused for the session, before its operands are looked at: every primitive's first test is
for the session. -/
theorem exec_noSession {i : Instr} (hmpsse : i.isMpsse = false) (hir : i.isJtagIr = false) :
    exec i s = .refused .noSession := by
  cases i
  case resetToTlr | tlrToShiftIr | exit1ToShiftDr | exit1drToShiftIr | tlrToShiftDr | shiftBitsOut | shiftBitsInout
      | shiftBitsIn | shiftBytesOut | shiftBytesInout | lastBitWithTms | lastBitWithTmsRead | clockOnly | shiftIr | loadCmd
      | writeData | readData | seqExit => exact if_pos hs
  case readIdcode | read32 | read16 | read8 | write32 | write16 | write8 | burstWrite | burstRead | writeMany | readMany =>
    exact checked_noSession hs _ _ _
  case codeAddrComm | codeData | idcode | bypass => exact nomatch hir
  all_goals exact nomatch hmpsse

end

/-- A command issued by its name is refused for its count alone (R112). -/
theorem inRange_ne_noSession (ok : Bool) (s : State) : inRange ok s ≠ .refused .noSession := by
  cases ok <;> nofun

/-- The MPSSE commands and the IR rows look at no session. -/
theorem exec_ne_noSession {i : Instr} (h : i.isMpsse = true ∨ i.isJtagIr = true) (s : State) :
    exec i s ≠ .refused .noSession := by
  cases i
  case tmsOut | tmsOutRead | bitsOut | bitsInout | bitsIn | bytesOut | bytesInout | clkOnly =>
    exact inRange_ne_noSession _ _
  case loopbackOn | loopbackOff | div5Off | adaptiveOff | threePhaseOff | setDivisor | setLowByte | setHighByte | badCommand =>
    nofun
  case codeAddrComm | codeData | idcode | bypass => nofun
  all_goals exact h.elim nofun nofun

/-- Settles O32: the primitives and the operations check the session first, the other rows not at all. -/
theorem noSessionRefused : Obligations.NoSessionRefused :=
  fun _ s hs => ⟨exec_noSession hs, fun h => exec_ne_noSession h s⟩

/-! ## With a session -/

section
variable {s : State} (hs : s.engine.session ≠ none)
include hs

theorem checked_first_refused {ok : Bool} (hbad : ¬ ok = true) (r : Refusal) (checks : List (Bool × Refusal))
    (acts : List Action) (result : List Word → Returned) :
    checked ((hasSession s, .noSession) :: (ok, r) :: checks) acts result s = .refused r :=
  checked_refused ((firstRefusal_session hs _).trans (firstRefusal_of_fails hbad r _)) acts result s

theorem checked_second_refused {ok ok' : Bool} (hok : ok = true) (hbad : ¬ ok' = true) (r r' : Refusal)
    (checks : List (Bool × Refusal)) (acts : List Action) (result : List Word → Returned) :
    checked ((hasSession s, .noSession) :: (ok, r) :: (ok', r') :: checks) acts result s = .refused r' :=
  checked_refused ((firstRefusal_session hs _).trans
    ((firstRefusal_of_passes hok r _).trans (firstRefusal_of_fails hbad r' _))) acts result s

theorem scan_operand_refused {ok : Bool} (hbad : ¬ ok = true) (bad : Refusal) (t u : TapState) (i : Instr) :
    scan ok bad t u i s = .refused bad := primitive_operand_refused hs hbad bad _ i _

end

/-- A misaligned transfer of some words is refused for its first chunk's address (R66, R290). -/
theorem firstRefusal_chunks_unaligned {addr : Word} {n : Nat} (halign : ¬ wordAligned addr = true) (hn : n ≠ 0) :
    firstRefusal (chunkChecks addr n) = some .unaligned := by
  obtain ⟨rest, hfirst⟩ := chunkChecks_first addr hn
  rw [hfirst]
  exact firstRefusal_append (firstRefusal_of_fails halign _ _) rest

/-- Settles O33: in each clause the checks before the named one pass, and it fails. -/
theorem refusalPriority : Obligations.RefusalPriority := by
  intro s hs
  have hword {a : Word} (h : a.toNat % 4 ≠ 0) : ¬ wordAligned a = true := mt (wordAligned_iff a).1 h
  have hwide {v n : Nat} (h : n ≤ v) : ¬ decide (v < n) = true := by simpa using h
  refine ⟨fun a buf n p hlen => ?_, fun a h4 => ⟨?_, fun v => ?_, fun ws => ?_, fun n => ?_, fun n p hn => ?_,
    fun buf p hne => ?_⟩, fun a h2 => ⟨?_, fun v => ?_⟩, fun a v h4 hv => ?_,
    fun a v h2 hv => ?_, fun a v hv => ?_, fun op hop => ?_, fun a rw => ?_⟩
  · exact checked_first_refused hs (by simpa using hlen) _ _ _ _
  · exact checked_first_refused hs (hword h4) _ _ _ _
  · exact checked_first_refused hs (hword h4) _ _ _ _
  · exact checked_first_refused hs (hword h4) _ _ _ _
  · exact checked_first_refused hs (hword h4) _ _ _ _
  · exact checked_refused ((firstRefusal_session hs _).trans (firstRefusal_chunks_unaligned (hword h4) hn)) _ _ s
  · have hn : buf.length ≠ 0 := (List.length_pos_of_ne_nil hne).ne'
    exact checked_refused ((firstRefusal_session hs _).trans
      ((firstRefusal_of_passes (decide_eq_true rfl) _ _).trans (firstRefusal_chunks_unaligned (hword h4) hn))) _ _ s
  · exact checked_first_refused hs (by simpa [halfAligned] using h2) _ _ _ _
  · exact checked_first_refused hs (by simpa [halfAligned] using h2) _ _ _ _
  · exact checked_second_refused hs ((wordAligned_iff a).2 h4) (hwide hv) _ _ _ _ _
  · exact checked_second_refused hs (decide_eq_true h2) (hwide hv) _ _ _ _ _
  · exact checked_first_refused hs (hwide hv) _ _ _ _
  · exact scan_operand_refused hs (hwide hop) .valueOutOfWidth .shIR .ex1IR (.shiftIr op)
  · have hreserved : ¬ decide ((0b11 : BitVec 2) ≠ Config.sizeReserved) = true := by decide
    exact scan_operand_refused hs hreserved .reservedSize .shDR .ex1DR (.loadCmd a 0b11 rw)

end Sys2Proof.Machine
end

section
/-! The startup check over a healthy transport (R342): its measurements in order, and the IDCODE it reads. -/

namespace Sys2Proof.Machine

open Sys2Proof

/-! ## Closing -/

/-- Over a healthy driver `close` resets the bit mode and ends the session, in three calls (R364). -/
theorem closeCalls_healthy {s : State} (hev : s.usb.events = []) : closeCalls s = { s with
    engine := { s.engine with session := none }
    mpsse := { s.mpsse with bitmode := .reset }
    usb := { s.usb with calls := s.usb.calls + 3 } } := by
  have hcall (f : State → State) {t : State} (ht : t.usb.events = []) :
      ignoredCall f t = f (t.setUsb { t.usb with calls := t.usb.calls + 1 }) := by
    rw [ignoredCall, driverCall_healthy t ht]
    rfl
  simp only [closeCalls, hcall, setBitmode, hev]
  rfl

/-- The state behind a fatal error of the startup check (R323, R333). -/
def closedWith (e : EngineError) (s : State) : State := { s with
  engine := { s.engine.failed e with session := none }
  mpsse := { s.mpsse with bitmode := .reset }
  usb := { s.usb with calls := s.usb.calls + 3 } }

theorem chainFail_healthy {s : State} (hev : s.usb.events = []) (e : EngineError) :
    chainFail e s = .raised (closedWith e s) := by
  rw [chainFail, closeCalls_healthy hev]
  rfl

/-! ## The measurements -/

theorem runCall_startupCheck (s : State) : runCall .startupCheck s = (startupCheck s).outcome := rfl

section
variable {s : State} (hs : s.engine.session ≠ none)
include hs

/-- A wrong measurement ends the check before any command (R342). -/
theorem startupCheck_misshaped (hev : s.usb.events = []) {e : EngineError}
    (h : chainShapeError s.params.measuredChain = some e) : runCall .startupCheck s = .next (closedWith e s) := by
  rw [runCall_startupCheck, startupCheck, if_neg hs, h]
  exact congrArg Run.outcome (chainFail_healthy hev e)

/-- What the check makes of the IDCODE it has read (R342). -/
def idcodeChecked (s : State) : Run :=
  if firstWord s.engine.out = 0 then chainFail .idcodeAbsent s else .ok (setReturned .done s)

/-- With the right measurements the check reads the IDCODE (R342). -/
theorem startupCheck_shaped (h : chainShapeError s.params.measuredChain = none) :
    runCall .startupCheck s = ((runActions (program .readIdcode) (issue s)).andThen idcodeChecked).outcome := by
  rw [runCall_startupCheck, startupCheck, if_neg hs, h]
  rfl

end

/-! ## The IDCODE -/

theorem around_target (s : State) (e : Engine) (m : Mpsse) (u : Usb) (c : List Call) :
    (s.around e m u c).target = s.target := rfl

section
variable {s : State} (hs : healthy s) (hcmd : s.params.idcodeOpcode ≠ Config.codeAddrComm)
  (hdata : s.params.idcodeOpcode ≠ Config.codeData)
include hs hcmd hdata

/-- The run of the check's `read_idcode`. -/
theorem runActions_readIdcode : runActions (program .readIdcode) (issue s) = .ok (fetched idcodeHead s s.engine.returned) := by
  have hcommanded := commanded_idcodeHead hs hcmd hdata
  obtain ⟨hsession, hev, hin, -, -⟩ := hs
  have hbelief : believed idcodeHead s.engine.tapBelief = some (.at .shDR) := rfl
  have hcmdin : (commanded idcodeHead s).mpsse.input = [] := by
    rw [hcommanded]
    exact hin
  have hrx : 4 ≤ (commanded idcodeHead s).mpsse.rxFifo.length := by
    rw [hcommanded]
    exact le_rfl
  rw [program_readIdcode, runActions_fetch (is := idcodeHead) hsession hin (List.cons_ne_nil _ _) hbelief
      (driverCall_of_nil hev),
    runActions_read idcodeHead _ hev hrx, runActions_trailing_reset _ hsession hcmdin hev]

/-- The engine behind it: the IDCODE is the one word read (R219). -/
theorem fetched_idcodeHead_engine (ret : Returned) :
    (fetched idcodeHead s ret).engine = s.engine.returnedFrom .readIdcode [s.params.idcodeValue] [] ret := by
  have hword : oldestWord (commanded idcodeHead s) = s.params.idcodeValue := by
    rw [commanded_idcodeHead hs hcmd hdata]
    exact bytesWord_wordBytes _ []
  rw [fetched, hword]
  rfl

theorem fetched_idcodeHead_target (ret : Returned) : (fetched idcodeHead s ret).target.tap = .tlr
    ∧ (fetched idcodeHead s ret).target.clockCount = s.target.clockCount + 46 := by
  rw [fetched, around_target, leadingReset_commanded_idcodeHead hs hcmd hdata, setTarget_target]
  exact ⟨leadingReset_tap s, rfl⟩

end

theorem idcodeOpcode_of_legal {p : Config.Params} (h : p.legal = true) :
    p.idcodeOpcode ≠ Config.codeAddrComm ∧ p.idcodeOpcode ≠ Config.codeData := by
  simp only [Config.Params.legal, Bool.and_eq_true, decide_eq_true_eq] at h
  obtain ⟨⟨-, hcmd⟩, hdata⟩ := h
  exact ⟨hcmd, hdata⟩

/-- Settles O57: the measurements are looked at in the rule's order, and the IDCODE behind them. -/
theorem startupCheckOrder : Obligations.StartupCheckOrder := by
  intro s
  refine ⟨fun hnone => ?_, fun hs hlegal => ?_⟩
  · rw [runCall_startupCheck, startupCheck, if_pos hnone]
    rfl
  intro c closed
  have ⟨hsession, hev, _⟩ := hs
  obtain ⟨hcmd, hdata⟩ := idcodeOpcode_of_legal hlegal
  have hrun := runActions_readIdcode hs hcmd hdata
  have hengine := fetched_idcodeHead_engine hs hcmd hdata s.engine.returned
  obtain ⟨htap, hclock⟩ := fetched_idcodeHead_target hs hcmd hdata s.engine.returned
  have hevents : (fetched idcodeHead s s.engine.returned).usb.events = [] := hev
  generalize fetched idcodeHead s s.engine.returned = t at hrun hengine htap hclock hevents
  have hfails {e : EngineError} (h : chainShapeError c = some e) : runCall .startupCheck s = .next (closed e) :=
    startupCheck_misshaped hsession hev h
  have hreads (h : c = ⟨1, 6, 35, 33⟩) : runCall .startupCheck s = (idcodeChecked t).outcome := by
    have hshape : chainShapeError s.params.measuredChain = none := (congrArg chainShapeError h).trans rfl
    rw [startupCheck_shaped hsession hshape, hrun, andThen_ok]
  have hout : firstWord t.engine.out = s.params.idcodeValue := by
    rw [hengine]
    rfl
  refine ⟨fun h => hfails (if_pos h), fun h1 h => hfails ?_, fun h1 h2 h => hfails ?_, fun h1 h2 h3 h => hfails ?_,
    fun hc hne => ⟨setReturned .done t, ?_, ?_, htap, hclock⟩,
    fun hc hzero => ⟨closedWith .idcodeAbsent t, ?_, rfl, rfl, rfl, htap, hclock⟩⟩
  · exact (if_neg (not_not_intro h1)).trans (if_pos h)
  · exact (if_neg (not_not_intro h1)).trans ((if_neg (not_not_intro h2)).trans (if_pos h))
  · exact (if_neg (not_not_intro h1)).trans ((if_neg (not_not_intro h2)).trans
      ((if_neg (not_not_intro h3)).trans (if_pos h)))
  · rw [hreads hc, idcodeChecked, if_neg (by rw [hout]; exact hne)]
    rfl
  · rw [setReturned, setEngine_engine, hengine]
    rfl
  · rw [hreads hc, idcodeChecked, if_pos (hout.trans hzero), chainFail_healthy hevents]
    rfl

end Sys2Proof.Machine
end

section
/-! A stretch of primitives whose flush fails (R328, R329, R335): which commands have run, what waits in the MPSSE engine, and
how the operation ends. -/

namespace Sys2Proof.Machine

open Sys2Proof

/-! ## A stream cut short -/

theorem engineCommand_wellFormed {c : Instr} (h : engineCommand c = true) : c.isMpsse = true ∧ c.wellFormed = true := by
  cases c
  case tmsOut | bitsOut | bytesOut | bytesInout | clkOnly => exact ⟨rfl, h⟩
  all_goals exact nomatch h

/-- A part of a command waits for the rest (R98, R160). -/
theorem take_encodeMpsse_waiting {c : Instr} (h : engineCommand c = true) {k : Nat} (hk : k < (encodeMpsse c).length) :
    decodeMpsse ((encodeMpsse c).take k) = .waiting := by
  obtain ⟨hmpsse, hwf⟩ := engineCommand_wellFormed h
  obtain ⟨-, -, -, -, hlengths⟩ := commandLengths
  obtain ⟨-, hwaits⟩ := hlengths c hmpsse hwf
  exact hwaits k hk

/-- The first k bytes of the commands `cs` are its first n commands and a part p of the next. -/
structure CutAt (cs : List Instr) (k n : Nat) (p : List Byte) : Prop where
  bytes : (cs.flatMap encodeMpsse).take k = (cs.take n).flatMap encodeMpsse ++ p
  waits : decodeMpsse p = .waiting

theorem CutAt.zero (cs : List Instr) : CutAt cs 0 0 [] := ⟨rfl, rfl⟩

/-- Every stream that is cut short is cut in one of its commands. -/
theorem exists_cutAt {cs : List Instr} (hcs : cs.all engineCommand = true) {k : Nat}
    (hk : k < (cs.flatMap encodeMpsse).length) : ∃ n p, n < cs.length ∧ CutAt cs k n p := by
  induction cs generalizing k with
  | nil => exact absurd hk (Nat.not_lt_zero k)
  | cons c cs ih =>
    rw [List.all_cons, Bool.and_eq_true] at hcs
    obtain ⟨hc, hcs⟩ := hcs
    rw [List.flatMap_cons, List.length_append] at hk
    by_cases hin : k < (encodeMpsse c).length
    · refine ⟨0, (encodeMpsse c).take k, Nat.succ_pos _, ?_, take_encodeMpsse_waiting hc hin⟩
      rw [List.flatMap_cons, List.take_append_of_le_length hin.le]
      rfl
    · obtain ⟨j, rfl⟩ := Nat.exists_eq_add_of_le (Nat.not_lt.1 hin)
      obtain ⟨n, p, hn, hbytes, hwaits⟩ := ih hcs (Nat.add_lt_add_iff_left.1 hk)
      refine ⟨n + 1, p, Nat.succ_lt_succ hn, ?_, hwaits⟩
      rw [List.flatMap_cons, List.take_length_add_append, hbytes, List.take_succ_cons, List.flatMap_cons, List.append_assoc]

/-! ## A stretch whose flush fails -/

/-- A short count with an OK status is `ShortWrite` (R224). -/
theorem writeError_count {k n : Nat} (h : k < n) : writeError (.count k) n = some (.shortWrite k n) := by
  have hsent : DriverEvent.sent n (.count k) = k := min_eq_left h.le
  simp only [writeError, DriverEvent.failure, hsent, h.ne, if_false]

/-- A failure status is `TransportError`, whatever was sent (R328). -/
theorem writeError_failed (st k n : Nat) : writeError (.failed st k) n = some (.transportError st) := rfl

theorem all_take {cs : List Instr} (hcs : cs.all engineCommand = true) (n : Nat) : (cs.take n).all engineCommand = true :=
  List.all_eq_true.2 fun c hc => List.all_eq_true.1 hcs c (List.mem_of_mem_take hc)

theorem ranAll_delivered {cs : List Instr} (hcs : cs.all engineCommand = true) (s : State) (k : Nat) :
    ranAll cs (delivered s k) = (ranAll cs s).around { s.engine with outbuf := [] }
      ((ranAll cs s).mpsse.inp (s.mpsse.input ++ s.engine.outbuf.take k)) s.usb.next s.calls := by
  have hdelivered : delivered s k = setInput (s.mpsse.input ++ s.engine.outbuf.take k)
      (s.around { s.engine with outbuf := [] } s.mpsse s.usb.next s.calls) := rfl
  rw [hdelivered, ranAll_input _ _ hcs, ranAll_around _ _ _ _ _ hcs]
  rfl

/-- The state behind a failed flush at the position `pos`: the commands `cs` have run, the bytes p wait, and the error is
raised. -/
def brokenOff (cs : List Instr) (p : List Byte) (pos : Nat) (e : EngineError) (s : State) : State :=
  (ranAll cs s).around { s.engine.failed e with pos := pos } ((ranAll cs s).mpsse.inp p) s.usb.next s.calls

/-- Primitives in a row and a flush whose write raises the error e, its passed-on bytes cut behind n commands. -/
theorem runActions_stretch_raised {is : List Instr} {b : Belief} {s : State} {n : Nat} {p : List Byte} {e : EngineError}
    (hs : s.engine.session ≠ none) (hne : is ≠ []) (hbuf : s.engine.outbuf = []) (hin : s.mpsse.input = [])
    (h : believed is s.engine.tapBelief = some b)
    (herror : writeError (driverCall s).1 ((is.flatMap commands).flatMap encodeMpsse).length = some e)
    (hcut : CutAt (is.flatMap commands) ((driverCall s).1.sent ((is.flatMap commands).flatMap encodeMpsse).length) n p)
    (rest : List Action) : runActions (is.map .emit ++ .flush :: rest) s =
      .raised (brokenOff ((is.flatMap commands).take n) p (s.engine.pos + is.length) e s) := by
  have hcs := believed_commands h
  have hran := all_take hcs n
  generalize ht : s.book (s.engine.outbuf ++ (is.flatMap commands).flatMap encodeMpsse)
    (s.engine.expectRx + ((is.flatMap commands).map responses).sum) (s.engine.pos + is.length) b s.usb s.calls = t
  have hout : t.engine.outbuf = (is.flatMap commands).flatMap encodeMpsse := by
    rw [← ht, hbuf]
    rfl
  have hcall : (driverCall t).1 = (driverCall s).1 := ht ▸ rfl
  have hinput : t.mpsse.input = [] := ht ▸ hin
  have hempty : t.engine.outbuf ≠ [] := fun hnil => believed_commands_ne_nil h hne (encode_nil _ hcs (hout.symm.trans hnil))
  obtain ⟨hbytes, hwaits⟩ := hcut
  rw [← hout, ← hcall] at herror hbytes
  have hdrain := drain_commands _ p (delivered t ((driverCall t).1.sent t.engine.outbuf.length)) hran hwaits (by
    rw [← hbytes, delivered, hinput]
    rfl)
  rw [runActions_emits hs h, ht, runActions, runAction, flush_eq hempty hdrain, herror, ranAll_delivered hran, ← ht,
    ranAll_book _ _ _ _ _ _ _ _ hran]
  rfl

end Sys2Proof.Machine
end

section
/-! A single write cut short (R335, R253): its update lies in the last command, so what has run of it starts no transfer. -/

namespace Sys2Proof.Machine

open Sys2Proof

/-! ## The log and the memory -/

/-- From s to t the AHB log has only grown, and memory has changed only if it has. -/
structure LogGrows (s t : State) : Prop where
  log : s.ahbLog <+: t.ahbLog
  mem : t.ahbLog = s.ahbLog → t.mem = s.mem

theorem LogGrows.of_eq {s t : State} (hlog : t.ahbLog = s.ahbLog) (hmem : t.mem = s.mem) : LogGrows s t :=
  ⟨hlog ▸ List.prefix_rfl, fun _ => hmem⟩

theorem LogGrows.of_append {s t : State} {x : AhbTransfer} (hlog : t.ahbLog = s.ahbLog ++ [x]) : LogGrows s t :=
  ⟨hlog ▸ List.prefix_append _ _, fun h => absurd (hlog.symm.trans h) (by simp)⟩

/-- A log that is in the end as it was at first was so in between. -/
theorem LogGrows.between {s t u : State} (hst : LogGrows s t) (htu : LogGrows t u) (h : u.ahbLog = s.ahbLog) :
    t.ahbLog = s.ahbLog :=
  (hst.log.eq_of_length_le (h ▸ htu.log.length_le)).symm

theorem LogGrows.trans {s t u : State} (hst : LogGrows s t) (htu : LogGrows t u) : LogGrows s u where
  log := hst.log.trans htu.log
  mem h := by
    have hbetween := hst.between htu h
    exact (htu.mem (h.trans hbetween.symm)).trans (hst.mem hbetween)

theorem clock_logGrows (tms tdi : Bool) (s : State) : LogGrows s (clock tms tdi s).2 := by
  cases clock_ahb tms tdi s with
  | none hlog hmem => exact .of_eq hlog hmem
  | read a sz hlog => exact .of_append hlog
  | write a sz d stores hlog => exact .of_append hlog

theorem TargetMove.logGrows {s t : State} (h : TargetMove s t) : LogGrows s t := by
  cases h with
  | around => exact .of_eq rfl rfl
  | clock tms tdi => exact clock_logGrows tms tdi s
  | enterUpdateIr op =>
    have hplace : LogGrows s (s.setTarget { s.target with tap := .ex1IR, irsr := op }) := .of_eq rfl rfl
    exact hplace.trans (enterUpdateIr_eq_clock op s ▸ clock_logGrows true false _)

theorem TargetMoves.logGrows {s t : State} (h : TargetMoves s t) : LogGrows s t := by
  induction h with
  | refl => exact .of_eq rfl rfl
  | tail _ hmove ih => exact ih.trans hmove.logGrows

theorem ranAll_moves {cs : List Instr} (hcs : cs.all engineCommand = true) (s : State) : TargetMoves s (ranAll cs s) :=
  ranAll_keeps (P := TargetMoves s)
    (fun c t hc ht => ht.trans (runCommand_moved c t _ (runCommand_engine c t hc))) hcs (.refl s)

/-- Where commands leave the log as it was, so does every first part of them, and the memory too. -/
theorem ranAll_take_quiet {cs : List Instr} (hcs : cs.all engineCommand = true) {s : State}
    (h : (ranAll cs s).ahbLog = s.ahbLog) (n : Nat) :
    (ranAll (cs.take n) s).ahbLog = s.ahbLog ∧ (ranAll (cs.take n) s).mem = s.mem := by
  have hfirst := (ranAll_moves (all_take hcs n) s).logGrows
  have hdrop : (cs.drop n).all engineCommand = true :=
    List.all_eq_true.2 fun c hc => List.all_eq_true.1 hcs c (List.mem_of_mem_drop hc)
  have hrest := (ranAll_moves hdrop (ranAll (cs.take n) s)).logGrows
  rw [← ranAll_append, List.take_append_drop] at hrest
  have hlog := hfirst.between hrest h
  exact ⟨hlog, hfirst.mem hlog⟩

/-! ## The commands of a single write -/

/-- The spec describes no transfer of the reserved size (R31). -/
theorem ne_sizeReserved_of_described {a : Word} {sz : BitVec 2} (h : transferDescribed a sz = true) :
    sz ≠ Config.sizeReserved := by
  rintro rfl
  exact nomatch h

/-- Its commands before the trailing reset: the word stands in the shift register, and the log is as the leading reset left
it. -/
theorem ranAll_writeScanned {a : Word} {sz : BitVec 2} (d : Word) (h : transferDescribed a sz = true) (s : State) :
    (ranAll (((singleWriteHead a sz d).flatMap commands).take 16) s).ahbLog = (leadingReset s).ahbLog := by
  have hsplit : ranAll (((singleWriteHead a sz d).flatMap commands).take 16) s =
      ranAll (commands (.writeData d false)) (play (commandLoad a sz true ++ dataSelect) s) := by
    have htake : ((singleWriteHead a sz d).flatMap commands).take 16 = (singleWriteHead a sz d).dropLast.flatMap commands := rfl
    rw [htake, ← play_emits]
    rfl
  rw [hsplit, play_writeHead, (writeHead_writeScan h s).ranAll_writeData]
  rfl

/-- The command load of a write: the command stands in the shift register, not updated (R247). -/
theorem play_writeLoad (a : Word) (sz : BitVec 2) (s : State) :
    play (commandLoad a sz true) s = (writeLoaded a sz s).setMpsse (s.mpsse.pins true true) := by
  have hload := play_commandLoad_tail a sz true ((leadingReset s).setMpsse (s.mpsse.pins true false)) (leadingReset_tap s)
  have hclock : ((leadingReset s).setMpsse (s.mpsse.pins true false)).target.clockCount + 107 = s.target.clockCount + 112 :=
    congrArg (· + 107) (leadingReset_clockCount s)
  show play (commandLoad a sz true).tail (ran (.tmsOut 0x04 0x3F) s) = _
  rw [ran_reset, hload, hclock]
  rfl

/-- Its first ten commands are the command load's. -/
theorem ranAll_take_ten (a : Word) (sz : BitVec 2) (d : Word) (s : State) :
    ranAll (((singleWriteHead a sz d).flatMap commands).take 10) s =
      (writeLoaded a sz s).setMpsse (s.mpsse.pins true true) := by
  rw [← play_writeLoad]
  exact (play_emits [.resetToTlr, .tlrToShiftIr, .shiftIr Config.codeAddrComm.toNat, .exit1ToShiftDr, .shiftBytesOut blanking,
    .clockOnly Config.settleClocks, .loadCmd a sz true] s).symm

theorem singleWriteHead_bytes_length (a : Word) (sz : BitVec 2) (d : Word) :
    (((singleWriteHead a sz d).flatMap commands).flatMap encodeMpsse).length = 64 := rfl

/-- Forty bytes are ten commands and the first byte of the eleventh. -/
theorem singleWriteHead_cutAt_forty (a : Word) (sz : BitVec 2) (d : Word) :
    CutAt ((singleWriteHead a sz d).flatMap commands) 40 10 [0x4B] := ⟨rfl, rfl⟩

/-- Where a single write's stream is cut short, at most sixteen of its commands have run. -/
theorem singleWriteHead_cutAt {a : Word} {sz : BitVec 2} (d : Word) (hsz : sz ≠ Config.sizeReserved) {k : Nat} (hk : k < 64) :
    ∃ n p, n ≤ 16 ∧ CutAt ((singleWriteHead a sz d).flatMap commands) k n p ∧ (k = 40 → n = 10 ∧ p = [0x4B]) := by
  by_cases h40 : k = 40
  · exact ⟨10, [0x4B], by decide, h40 ▸ singleWriteHead_cutAt_forty a sz d, fun _ => ⟨rfl, rfl⟩⟩
  · obtain ⟨n, p, hn, hcut⟩ := exists_cutAt (believed_commands (believed_singleWriteHead a d hsz .unknown))
      (hk.trans_eq (singleWriteHead_bytes_length a sz d).symm)
    have hcount : ((singleWriteHead a sz d).flatMap commands).length = 17 := rfl
    exact ⟨n, p, Nat.le_of_lt_succ (hn.trans_eq hcount), hcut, fun h => absurd h h40⟩

/-- The three writes, well formed. -/
theorem isSingleWrite_of_wellFormed {i : Instr} {a : Word} {sz : BitVec 2} {v : Nat} (hwf : i.wellFormed = true)
    (hi : (i = .write32 a v ∧ sz = 0b10) ∨ (i = .write16 a v ∧ sz = 0b01) ∨ (i = .write8 a v ∧ sz = 0b00)) :
    ∃ d, IsSingleWrite i a sz d := by
  obtain ⟨rfl, rfl⟩ | ⟨rfl, rfl⟩ | ⟨rfl, rfl⟩ := hi
  · obtain ⟨halign, hv⟩ := Bool.and_eq_true_iff.1 hwf
    exact ⟨_, isSingleWrite_write32 (of_decide_eq_true halign) (of_decide_eq_true hv)⟩
  · obtain ⟨halign, hv⟩ := Bool.and_eq_true_iff.1 hwf
    exact ⟨_, isSingleWrite_write16 (of_decide_eq_true halign) (of_decide_eq_true hv)⟩
  · exact ⟨_, isSingleWrite_write8 a (of_decide_eq_true hwf)⟩

/-- A single write whose flush is short ends behind the commands that were delivered whole (R335). -/
theorem exec_singleWrite_short {i : Instr} {a : Word} {sz : BitVec 2} {d : Word} (hi : IsSingleWrite i a sz d) {s : State}
    {k n : Nat} {p : List Byte} (hs : s.engine.session ≠ none) (hin : s.mpsse.input = [])
    (hcall : (driverCall s).1 = .count k) (hk : k < 64) (hcut : CutAt ((singleWriteHead a sz d).flatMap commands) k n p) :
    exec i s = .next (brokenOff (((singleWriteHead a sz d).flatMap commands).take n) p 12 (.shortWrite k 64) (issue s)) := by
  obtain ⟨hfits, hlist, hexec⟩ := hi
  have hsz := ne_sizeReserved_of_described hfits
  have hcall' : (driverCall (issue s)).1 = .count k := hcall
  have hsent : DriverEvent.sent 64 (.count k) = k := min_eq_left hk.le
  have hrun := runActions_stretch_raised (is := singleWriteHead a sz d) (s := issue s) (n := n) (p := p) (e := .shortWrite k 64)
    hs (List.cons_ne_nil _ _) rfl hin (believed_singleWriteHead a d hsz _)
    (by rw [hcall', singleWriteHead_bytes_length, writeError_count hk])
    (by rw [hcall', singleWriteHead_bytes_length, hsent]; exact hcut) []
  have hacts : singleWrite a sz d = (singleWriteHead a sz d).map .emit ++ .flush :: [] := rfl
  rw [hexec s hs, hlist, operation, hacts, hrun]
  rfl

/-- Settles O51: what was delivered runs a first part of the commands before the trailing reset, which leave the log alone. -/
theorem shortSingleWrite : Obligations.ShortSingleWrite := by
  intro i a sz v k s hs hfree hk hwf hi
  obtain ⟨d, hwrite⟩ := isSingleWrite_of_wellFormed hwf hi
  have hfits := hwrite.fits
  have hsz := ne_sizeReserved_of_described hfits
  obtain ⟨hsession, -, hin, -, -⟩ := hs
  obtain ⟨n, p, hn, hcut, hforty⟩ := singleWriteHead_cutAt (a := a) d hsz hk
  generalize hq : issue (s.setUsb { s.usb with events := [.count k] }) = q
  have hcs := all_take (believed_commands (believed_singleWriteHead a d hsz .unknown)) 16
  obtain ⟨r, hreset⟩ := leadingReset_quiet (s := q) (hq ▸ hfree)
  have hquiet := ranAll_take_quiet hcs (s := q) (by rw [ranAll_writeScanned d hfits, hreset]; rfl) n
  rw [List.take_take, min_eq_left hn] at hquiet
  obtain ⟨hlog, hmem⟩ := hquiet
  refine ⟨_, exec_singleWrite_short hwrite (s := s.setUsb _) hsession hin rfl hk hcut, ?_⟩
  rw [hq]
  refine ⟨hmem.trans (hq ▸ rfl), hlog.trans (hq ▸ rfl), hq ▸ rfl, hq ▸ rfl, hcut.waits, fun h40 => ?_⟩
  obtain ⟨rfl, rfl⟩ := hforty h40
  rw [brokenOff, ranAll_take_ten, writeLoaded, hreset, ← hq]
  exact ⟨rfl, rfl, rfl, rfl, rfl, rfl⟩

end Sys2Proof.Machine
end

section
/-! A burst write whose driver fails (R282, R328, R335): the words before the failed flush are written, and no other. -/

namespace Sys2Proof.Machine

open Sys2Proof

/-! ## Words in a row, each left by the walk to the next -/

/-- The primitives of a word that another follows (R281). -/
def wordMoves (w : Word) : List Instr := [.writeData w true, .exit1ToShiftDr]

/-- The primitives of words in a row that another follows. -/
def wordsMoves (ws : List Word) : List Instr := ws.flatMap wordMoves

theorem wordsMoves_cons (w : Word) (ws : List Word) :
    wordsMoves (w :: ws) = wordMoves w ++ wordsMoves ws := List.flatMap_cons

theorem believed_append {is js : List Instr} {b b' : Belief} (h : believed is b = some b') :
    believed (is ++ js) b = believed js b' := by
  induction is generalizing b with
  | nil =>
    cases h
    rfl
  | cons i is ih =>
    obtain ⟨b₁, hi, his⟩ := believed_cons h
    rw [List.cons_append, believed, hi]
    exact ih his

theorem believed_wordsMoves (ws : List Word) : believed (wordsMoves ws) (.at .shDR) = some (.at .shDR) := by
  induction ws with
  | nil => rfl
  | cons w ws ih =>
    rw [wordsMoves_cons, believed_append (b' := .at .shDR) rfl, ih]

/-- From the scan s the words `ws` have been written up to the scan t of the next (R281, R246). -/
structure WordsMoved (ws : List Word) (s t : State) : Prop where
  scan : WriteScan t
  size : t.target.bridge.curSize = Config.sizeWord
  addr : t.target.bridge.curAddr = s.target.bridge.curAddr + BitVec.ofNat 32 (4 * ws.length)
  mem : t.mem = storeBytes s.params (wordsStores s.target.bridge.curAddr ws) s.mem
  log : t.ahbLog = s.ahbLog ++ wordWrites s.target.bridge.curAddr ws
  clock : t.target.clockCount = s.target.clockCount + 37 * ws.length
  queue : t.mpsse.rxFifo = s.mpsse.rxFifo

/-- Words inside one block, with room for the next, move the scan on so. -/
theorem ranAll_wordsMoves {ws : List Word} {s : State} (h : WriteScan s) (hsize : s.target.bridge.curSize = Config.sizeWord)
    (hblock : s.target.bridge.curAddr.toNat % 1024 + 4 * (ws.length + 1) ≤ 1024) :
    WordsMoved ws s (ranAll ((wordsMoves ws).flatMap commands) s) := by
  induction ws generalizing s with
  | nil => exact ⟨h, hsize, (BitVec.add_zero _).symm, rfl, (List.append_nil _).symm, rfl, rfl⟩
  | cons w ws ih =>
    rw [List.length_cons] at hblock
    have hnext := h.next hsize (by omega) w
    rw [h.word_next] at hnext
    have hadd := add_four_toNat (a := s.target.bridge.curAddr) (by omega)
    have hblock' : (s.target.bridge.curAddr + 4).toNat % 1024 + 4 * (ws.length + 1) ≤ 1024 := by omega
    have hran : ranAll ((wordsMoves (w :: ws)).flatMap commands) s =
        ranAll ((wordsMoves ws).flatMap commands) ((wordMoved w true s).setMpsse (s.mpsse.pins false false)) := by
      have htwo : (wordMoves w).flatMap commands = commands (.writeData w true) ++ commands .exit1ToShiftDr := rfl
      rw [wordsMoves_cons, List.flatMap_append, ranAll_append, htwo, ranAll_append, h.word_next]
    obtain ⟨hscan, hsz, haddr, hmem, hlog, hclock, hqueue⟩ := ih hnext hsize hblock'
    rw [hran]
    refine ⟨hscan, hsz, haddr.trans ?_, hmem.trans ?_, hlog.trans ?_, hclock.trans ?_, hqueue⟩
    · show s.target.bridge.curAddr + 4 + BitVec.ofNat 32 (4 * ws.length) = _
      rw [List.length_cons, Nat.mul_succ, Nat.add_comm, ← add_ofNat_add]
      rfl
    · show storeBytes s.params (wordsStores (s.target.bridge.curAddr + 4) ws) (wordWritten w true s).mem = _
      rw [h.wordWritten_mem hsize, ← storeBytes_append]
      rfl
    · have hfirst : (wordMoved w true s).ahbLog = s.ahbLog ++ [.write s.target.bridge.curAddr Config.sizeWord w] :=
        congrArg (fun sz => s.ahbLog ++ [AhbTransfer.write s.target.bridge.curAddr sz w]) hsize
      show (wordMoved w true s).ahbLog ++ wordWrites (s.target.bridge.curAddr + 4) ws = _
      rw [hfirst, List.append_assoc]
      rfl
    · show s.target.clockCount + 37 + 37 * ws.length = _
      rw [List.length_cons]
      omega

/-! ## The run up to the failed flush -/

/-- The primitives that have run before a burst's flush fails: none where its first does, else the head `is` and the words `ws`
(R328). -/
def sentBefore (is : List Instr) : List Word → List Instr
  | [] => []
  | w :: ws => is ++ wordsMoves (w :: ws)

theorem sentBefore_cons (is : List Instr) (w : Word) (ws : List Word) :
    sentBefore is (w :: ws) = is ++ wordsMoves (w :: ws) := rfl

theorem sentBefore_nil (ws : List Word) : sentBefore [] ws = wordsMoves ws := by
  cases ws <;> rfl

/-- How a word's scan is left: to the next word, or through the trailing reset (R281, R282). -/
def walkBehind : List Word → Instr
  | [] => .resetToTlr
  | _ :: _ => .exit1ToShiftDr

/-- Every word of a burst is a stretch with its flush (R282). -/
theorem burstWriteWords_stretch (w : Word) (ws : List Word) : burstWriteWords (w :: ws) =
    [.writeData w true, walkBehind ws].map .emit ++ .flush :: burstWriteWords ws := by
  cases ws <;> rfl

/-- The state behind a flush that fails with no byte passed on, where the primitives `is` have run (R328, R329). -/
def failedBehind (is : List Instr) (st pos calls : Nat) (s : State) : State :=
  (ranAll (is.flatMap commands) s).around { s.engine.failed (.transportError st) with pos := pos }
    (ranAll (is.flatMap commands) s).mpsse { s.usb with events := [], calls := calls } s.calls

/-- Whether a flush stood between the primitives makes no difference (R228). -/
theorem failedBehind_append {is js : List Instr} (his : (is.flatMap commands).all engineCommand = true)
    (hjs : (js.flatMap commands).all engineCommand = true) (s : State) (st pos calls er p : Nat) (b : Belief) :
    failedBehind js st pos calls ((ranAll (is.flatMap commands) s).book [] er p b s.usb.next s.calls) =
      failedBehind (is ++ js) st pos calls s := by
  rw [failedBehind, failedBehind, ranAll_book _ _ _ _ _ _ _ _ hjs, List.flatMap_append, ranAll_append, State.book, State.book,
    ranAll_engine _ _ his]
  rfl

/-- Behind primitives `is` that lead to a word's scan, the words of a burst whose flush j + 1 fails, with no byte passed on. -/
theorem runActions_words_failed {is : List Instr} {ws : List Word} {j st : Nat} {s : State} (hs : s.engine.session ≠ none)
    (hbuf : s.engine.outbuf = []) (hin : s.mpsse.input = []) (hbelief : believed is s.engine.tapBelief = some (.at .shDR))
    (hev : s.usb.events = List.replicate j .healthy ++ [.failed st 0]) (hj : j < ws.length) :
    runActions (is.map .emit ++ burstWriteWords ws) s = .raised (failedBehind (sentBefore is (ws.take j)) st
      (s.engine.pos + (is.length + 2 + 3 * j)) (s.usb.calls + (j + 1)) s) := by
  obtain ⟨w, ws, rfl⟩ := List.exists_cons_of_length_pos (Nat.zero_lt_of_lt hj)
  induction j generalizing is w ws s with
  | zero =>
    have hcall : (driverCall s).1 = .failed st 0 := driverCall_of_head (by rw [hev]; rfl)
    have hnext : s.usb.next = { s.usb with events := [], calls := s.usb.calls + 1 } := by
      rw [Usb.next, hev]
      rfl
    have hmpsse : s.mpsse.inp [] = s.mpsse := hin ▸ rfl
    obtain ⟨b, hb⟩ : ∃ b, believed (is ++ [.writeData w true, walkBehind ws]) s.engine.tapBelief = some b := by
      rw [believed_append hbelief]
      cases ws <;> exact ⟨_, rfl⟩
    have hrun := runActions_stretch_raised (n := 0) (p := []) (e := .transportError st) hs
      (List.append_ne_nil_of_right_ne_nil is (List.cons_ne_nil _ _)) hbuf hin hb (by rw [hcall, writeError_failed])
      (by rw [hcall, DriverEvent.sent, Nat.zero_min]; exact .zero _) (burstWriteWords ws)
    rw [List.map_append, List.append_assoc, ← burstWriteWords_stretch] at hrun
    rw [hrun, brokenOff, List.length_append, hnext, List.take_zero, ranAll_nil, hmpsse]
    rfl
  | succ j ih =>
    have hj' : j < ws.length := Nat.lt_of_succ_lt_succ hj
    obtain ⟨w', ws, rfl⟩ := List.exists_cons_of_length_pos (Nat.zero_lt_of_lt hj')
    have hcall : (driverCall s).1 = .healthy := driverCall_of_head (by rw [hev]; rfl)
    have hb : believed (is ++ wordMoves w) s.engine.tapBelief = some (.at .shDR) :=
      (believed_append hbelief).trans rfl
    have hcs := believed_commands hb
    have hne : is ++ wordMoves w ≠ [] := List.append_ne_nil_of_right_ne_nil is (List.cons_ne_nil _ _)
    have hrun := runActions_stretch hs hne hbuf hin hcall hb (burstWriteWords (w' :: ws))
    have hhead : burstWriteWords (w :: w' :: ws) =
      (wordMoves w).map .emit ++ .flush :: burstWriteWords (w' :: ws) := rfl
    rw [List.map_append, List.append_assoc, ← hhead] at hrun
    have hsession : (ranAll ((is ++ wordMoves w).flatMap commands) s).engine.session ≠ none := by
      rwa [ranAll_engine _ _ hcs]
    have htail : s.usb.events.tail = List.replicate j .healthy ++ [.failed st 0] := by
      rw [hev]
      rfl
    have hsent : is ++ wordMoves w ++ wordsMoves ((w' :: ws).take j) = sentBefore is ((w :: w' :: ws).take (j + 1)) := by
      rw [List.take_succ_cons, sentBefore, wordsMoves_cons, List.append_assoc]
    have hrest (er p : Nat) : runActions (burstWriteWords (w' :: ws))
        ((ranAll ((is ++ wordMoves w).flatMap commands) s).book [] er p (.at .shDR) s.usb.next s.calls) =
          .raised (failedBehind (sentBefore is ((w :: w' :: ws).take (j + 1))) st (p + (0 + 2 + 3 * j))
            (s.usb.calls + 1 + (j + 1)) s) := by
      have hih := ih (is := []) (s := (ranAll ((is ++ wordMoves w).flatMap commands) s).book [] er p (.at .shDR) s.usb.next
        s.calls) hsession rfl ((ranAll_mpsse_input hcs s).trans hin) rfl htail w' ws hj'
      rw [sentBefore_nil, failedBehind_append hcs (believed_commands (believed_wordsMoves _)), hsent] at hih
      exact hih
    have hpos : s.engine.pos + (is ++ wordMoves w).length + 1 + (0 + 2 + 3 * j) =
        s.engine.pos + (is.length + 2 + 3 * (j + 1)) := by
      rw [List.length_append, wordMoves, List.length_cons, List.length_singleton]
      omega
    have hcalls : s.usb.calls + 1 + (j + 1) = s.usb.calls + (j + 1 + 1) := by omega
    rw [hrun, hrest, hpos, hcalls]

/-! ## A burst -/

/-- The primitives of a burst write before its words (R281). -/
def burstHead (b : Word) : List Instr :=
  [.resetToTlr, .tlrToShiftIr, .shiftIr Config.codeAddrComm.toNat, .exit1ToShiftDr, .shiftBytesOut blanking,
   .clockOnly Config.settleClocks, .loadCmd b Config.sizeWord true, .exit1drToShiftIr, .shiftIr Config.codeData.toNat,
   .exit1ToShiftDr]

theorem burstHead_emits (b : Word) : (burstHead b).map .emit = commandLoad b Config.sizeWord true ++ dataSelect := rfl

theorem believed_burstHead (b : Word) (belief : Belief) : believed (burstHead b) belief = some (.at .shDR) := rfl

theorem program_burstWrite (b : Word) (ws : List Word) :
    program (.burstWrite b ws) = (burstHead b).map .emit ++ burstWriteWords ws := rfl

/-- From q the burst's first words `ws` have been written up to t: all of them, and nothing else. -/
structure BurstSent (b : Word) (ws : List Word) (q t : State) : Prop where
  mem : t.mem = storeBytes q.params (wordsStores b ws) q.mem
  log : t.ahbLog = q.ahbLog ++ wordWrites b ws
  queue : t.mpsse.rxFifo = q.mpsse.rxFifo
  input : t.mpsse.input = q.mpsse.input
  scan : ws ≠ [] → t.target.tap = .shDR ∧ t.target.bridge.curAddr = b + BitVec.ofNat 32 (4 * ws.length)
    ∧ t.target.clockCount = q.target.clockCount + (127 + 37 * ws.length)

/-- The words before the failed flush, where no DR scan was under way and there is room for one word more. -/
theorem burstSent {b : Word} {ws : List Word} {q : State} (hfree : scanFree q = true) (halign : b.toNat % 4 = 0)
    (hblock : b.toNat % 1024 + 4 * (ws.length + 1) ≤ 1024) :
    BurstSent b ws q (ranAll ((sentBefore (burstHead b) ws).flatMap commands) q) := by
  cases ws with
  | nil => exact ⟨rfl, (List.append_nil _).symm, rfl, rfl, fun h => absurd rfl h⟩
  | cons w ws =>
    have hinput := ranAll_mpsse_input (believed_commands ((believed_append (believed_burstHead b .unknown)).trans
      (believed_wordsMoves (w :: ws)))) q
    obtain ⟨r, hreset⟩ := leadingReset_quiet hfree
    have hmem : (leadingReset q).mem = q.mem := by rw [hreset]; rfl
    have hlog : (leadingReset q).ahbLog = q.ahbLog := by rw [hreset]; rfl
    have hscan := writeHead_writeScan (a := b) (sz := Config.sizeWord) ((wordAligned_iff b).2 halign) q
    obtain ⟨hmoved, -, haddr, hstores, hwrites, hclock, hqueue⟩ := ranAll_wordsMoves hscan rfl hblock
    rw [sentBefore_cons]
    rw [List.flatMap_append, ranAll_append, ← play_emits (burstHead b), burstHead_emits, play_writeHead] at hinput ⊢
    refine ⟨hstores.trans ?_, hwrites.trans ?_, hqueue, hinput, fun _ => ⟨hmoved.tap, haddr, hclock.trans ?_⟩⟩
    · exact congrArg (storeBytes q.params (wordsStores b (w :: ws))) hmem
    · exact congrArg (· ++ wordWrites b (w :: ws)) hlog
    · exact Nat.add_assoc _ _ _

/-- Settles O52: the flushes before the failed one have sent the first words, and the failed one nothing. -/
theorem failedBurstWriteLeavesAPrefix : Obligations.FailedBurstWriteLeavesAPrefix := by
  intro b ws j st s hs hfree hwf halign hlen hj hblock
  obtain ⟨hsession, -, hin, hrx, -⟩ := hs
  have hok := burstOk_of_bounds halign (Nat.one_le_of_lt hj) hlen hblock
  have hcount : (ws.take j).length = j := List.length_take_of_le hj.le
  generalize hq : issue (s.setUsb { s.usb with events := List.replicate j .healthy ++ [.failed st 0] }) = q
  have hsent := burstSent (q := q) (ws := ws.take j) (hq ▸ hfree) halign (by omega)
  have hrun := runActions_words_failed (is := burstHead b) (st := st) (s := q) (hq ▸ hsession) (hq ▸ rfl) (hq ▸ hin)
    (believed_burstHead b _) (hq ▸ rfl) hj
  refine ⟨failedBehind (sentBefore (burstHead b) (ws.take j)) st (q.engine.pos + ((burstHead b).length + 2 + 3 * j))
    (q.usb.calls + (j + 1)) q, ?_, ?_, ?_, ?_, ?_, ?_, ?_, fun h0 => ?_, fun h1 => ?_⟩
  · refine (exec_burstWrite (s := s.setUsb { s.usb with events := List.replicate j .healthy ++ [.failed st 0] })
      hsession hok).trans ?_
    rw [operation, hq, program_burstWrite, hrun]
    rfl
  · have hstores := storesExactly_storeBytes s.params (wordsStores b (ws.take j)) hwf
    have hmem : (ranAll ((sentBefore (burstHead b) (ws.take j)).flatMap commands) q).mem =
        storeBytes s.params (wordsStores b (ws.take j)) s.mem := hsent.mem.trans (hq ▸ rfl)
    exact hmem ▸ hstores
  · exact hsent.log.trans (hq ▸ rfl)
  · have hpos : q.engine.pos + ((burstHead b).length + 2 + 3 * j) = 12 + 3 * j := by
      rw [← hq]
      exact Nat.zero_add _
    rw [hpos, ← hq]
    rfl
  · rw [← hq]
    rfl
  · exact hsent.input.trans (hq ▸ hin)
  · exact hsent.queue.trans (hq ▸ hrx)
  · subst h0
    rw [← hq]
    exact ⟨rfl, rfl⟩
  · have hne : ws.take j ≠ [] := List.ne_nil_of_length_pos (hcount.symm ▸ h1)
    obtain ⟨htap, haddr, hclock⟩ := hsent.scan hne
    rw [hcount] at haddr hclock
    exact ⟨htap, haddr, hclock.trans (hq ▸ rfl)⟩

end Sys2Proof.Machine
end

section
/-! Closing a session and listing the devices (R363, R364): each is a run of driver calls that return only a status. -/

namespace Sys2Proof.Machine

open Sys2Proof

/-! ## The driver behind some calls -/

/-- The driver after n more calls, with these outcomes still to come. -/
def Usb.called (u : Usb) (n : Nat) (rest : List DriverEvent) : Usb := { u with events := rest, calls := u.calls + n }

theorem called_called (u : Usb) (m n : Nat) (evs rest : List DriverEvent) :
    (u.called n evs).called m rest = u.called (m + n) rest := by
  rw [Nat.add_comm m n]
  exact congrArg (Usb.mk rest · u.devices) (Nat.add_assoc u.calls n m)

theorem Draws.called {s : State} {ev : DriverEvent} {rest : List DriverEvent} (h : Draws s ev rest) :
    s.usb.next = s.usb.called 1 rest := h.next

/-! ## Closing -/

/-- A call with no effect and an ignored failure takes its outcome off the driver's list, and that is all. -/
theorem ignoredCall_id (s : State) : ignoredCall id s = s.setUsb s.usb.next := ite_self _

/-- The bit mode behind the first call of `close`: the reset mode where that call succeeds (R364). -/
def closedBitmode (s : State) : BitMode := if (driverCall s).1.failure = none then .reset else s.mpsse.bitmode

theorem ignoredCall_setBitmode (s : State) :
    ignoredCall (setBitmode .reset) s = (s.setUsb s.usb.next).setMpsse { s.mpsse with bitmode := closedBitmode s } := by
  unfold ignoredCall closedBitmode
  by_cases h : (driverCall s).1.failure = none
  · simp only [if_pos h]
    rfl
  · simp only [if_neg h]
    rfl

/-- The three calls of `close`, whatever the driver does (R333, R364). -/
theorem closeCalls_eq (s : State) : closeCalls s = { s with
    engine := { s.engine with session := none }
    mpsse := { s.mpsse with bitmode := closedBitmode s }
    usb := s.usb.next.next.next } := by
  rw [closeCalls, ignoredCall_setBitmode, ignoredCall_id, ignoredCall_id]
  rfl

theorem next_next_next (u : Usb) : u.next.next.next = u.called 3 (u.events.drop 3) := by
  simp only [Usb.next, Usb.called, ← List.drop_one, List.drop_drop]

/-- Settles O55, from the outcome of the first call; the other two have no effect to undo. -/
theorem closeEndsTheSession : Obligations.CloseEndsTheSession := by
  intro s
  refine ⟨fun hnone => congrArg Host.Outcome.next (if_pos hnone), fun hsession => ?_⟩
  have hmode : closedBitmode s =
      match s.usb.events.head? with | some (.failed _ _) => s.mpsse.bitmode | _ => .reset := by
    rw [closedBitmode, driverCall_fst]
    cases s.usb.events with
    | nil => rfl
    | cons ev rest => cases ev <;> rfl
  rw [runCall, closeSession, if_neg hsession, closeCalls_eq, next_next_next, hmode]
  rfl

/-! ## Enumeration -/

/-- Over a healthy driver each device takes one call (R363). -/
theorem detailCalls_healthy (ds : List DeviceInfo) {s : State} (hev : s.usb.events = []) :
    detailCalls ds s = (none, s.setUsb (s.usb.called ds.length [])) := by
  induction ds generalizing s with
  | nil => exact congrArg (fun evs => (none, s.setUsb (s.usb.called 0 evs))) hev
  | cons d ds ih =>
    have hdraws := Draws.of_nil hev
    simp only [detailCalls, hdraws.outcome, DriverEvent.failure, driverCall_snd, hdraws.called]
    rw [ih rfl, setUsb_setUsb, setUsb_usb, called_called, List.length_cons]

/-- The first call that fails ends the list with its status (R363). -/
theorem detailCalls_failed (ds : List DeviceInfo) {j st k : Nat} {s : State} (hj : j < ds.length)
    (hev : s.usb.events = List.replicate j .healthy ++ [.failed st k]) :
    detailCalls ds s = (some st, s.setUsb (s.usb.called (j + 1) [])) := by
  induction ds generalizing j s with
  | nil => exact absurd hj (Nat.not_lt_zero j)
  | cons d ds ih =>
    cases j with
    | zero =>
      have hdraws := Draws.of_cons hev
      simp only [detailCalls, hdraws.outcome, DriverEvent.failure, driverCall_snd, hdraws.called]
    | succ j =>
      have hdraws := Draws.of_cons hev
      simp only [detailCalls, hdraws.outcome, DriverEvent.failure, driverCall_snd, hdraws.called]
      rw [ih (Nat.lt_of_succ_lt_succ hj) rfl, setUsb_setUsb, setUsb_usb, called_called]

/-- The list of devices is asked for first; where that fails, nothing else is (R363). -/
theorem enumerate_list_failed {s : State} {st : Nat} (h : (driverCall s).1.failure = some st) :
    enumerate s = raise (.enumerationFailed st) (s.setUsb s.usb.next) := by
  simp only [enumerate, h, driverCall_snd]

theorem enumerate_detail_failed {s t : State} {st : Nat} (h : (driverCall s).1.failure = none)
    (hdetail : detailCalls s.usb.devices (s.setUsb s.usb.next) = (some st, t)) :
    enumerate s = raise (.enumerationFailed st) t := by
  have hdevices : (s.setUsb s.usb.next).usb.devices = s.usb.devices := rfl
  simp only [enumerate, h, driverCall_snd, hdevices, hdetail]

theorem enumerate_listed {s t : State} (h : (driverCall s).1.failure = none)
    (hdetail : detailCalls s.usb.devices (s.setUsb s.usb.next) = (none, t)) :
    enumerate s = setReturned (.devices t.usb.devices) t := by
  have hdevices : (s.setUsb s.usb.next).usb.devices = s.usb.devices := rfl
  simp only [enumerate, h, driverCall_snd, hdevices, hdetail]

/-- Settles O56, by the call that fails: the one for the list, or one of the devices'. -/
theorem enumerateListsTheDevices : Obligations.EnumerateListsTheDevices := by
  intro s
  refine ⟨fun hev => ?_, fun j st k hj hev => ?_⟩
  · have hdraws := Draws.of_nil hev
    have hdetail := detailCalls_healthy s.usb.devices (s := s.setUsb s.usb.next) (by rw [hdraws.called]; rfl)
    rw [runCall, enumerate_listed (by rw [hdraws.outcome]; rfl) hdetail, hdraws.called, ← hev]
    rfl
  cases j with
  | zero =>
    have hdraws := Draws.of_cons hev
    rw [runCall, enumerate_list_failed (st := st) (by rw [hdraws.outcome]; rfl), hdraws.called]
    rfl
  | succ j =>
    have hdraws := Draws.of_cons hev
    have hdetail := detailCalls_failed s.usb.devices (s := s.setUsb s.usb.next) hj (by rw [hdraws.called]; rfl)
    rw [runCall, enumerate_detail_failed (by rw [hdraws.outcome]; rfl) hdetail, hdraws.called, setUsb_setUsb, setUsb_usb,
      called_called]
    rfl

end Sys2Proof.Machine
end

section
/-! The commands that clock nothing (R170 to R178), in a row and cut short: they change the MPSSE engine alone. -/

namespace Sys2Proof.Machine

open Sys2Proof

/-! ## One command -/

/-- The commands that make no TCK clock: those that configure (R170 to R178), and a bad one. -/
def clockless : Instr → Bool
  | .loopbackOn | .loopbackOff | .div5Off | .adaptiveOff | .threePhaseOff | .setDivisor _ | .setLowByte _ _
  | .setHighByte _ _ => true
  | .badCommand op => (Instr.badCommand op).wellFormed
  | _ => false

/-- What a command that makes no clock does to the MPSSE engine (R170 to R178). -/
def configure (m : Mpsse) : Instr → Mpsse
  | .loopbackOn => { m with loopback := true }
  | .loopbackOff => { m with loopback := false }
  | .div5Off => { m with div5 := false }
  | .adaptiveOff => { m with adaptive := false }
  | .threePhaseOff => { m with threePhase := false }
  | .setDivisor v => { m with divisor := v }
  | .setLowByte v d => { m with
      lowValue := v, lowDir := d, tckPin := v.getLsbD 0, tdiPin := v.getLsbD 1, tmsPin := v.getLsbD 3 }
  | .setHighByte v d => { m with highValue := v, highDir := d }
  | .badCommand op => m.rx (m.rxFifo ++ [0xFA, op])
  | _ => m

theorem clockless_wellFormed {c : Instr} (h : clockless c = true) : c.isMpsse = true ∧ c.wellFormed = true := by
  cases c
  case loopbackOn | loopbackOff | div5Off | adaptiveOff | threePhaseOff => exact ⟨rfl, rfl⟩
  case setDivisor | setLowByte | setHighByte => exact ⟨rfl, rfl⟩
  case badCommand => exact ⟨rfl, h⟩
  all_goals exact nomatch h

theorem runCommand_clockless {c : Instr} (h : clockless c = true) (s : State) :
    runCommand c s = .next (s.setMpsse (configure s.mpsse c)) := by
  cases c
  case loopbackOn | loopbackOff | div5Off | adaptiveOff | threePhaseOff => rfl
  case setDivisor | setLowByte | setHighByte | badCommand => rfl
  all_goals exact nomatch h

theorem configure_inp (m : Mpsse) (bs : List Byte) (c : Instr) : configure (m.inp bs) c = (configure m c).inp bs := by
  cases c <;> rfl

/-! ## A delivery of such commands -/

/-- A part of a command waits for the rest (R98, R160). -/
theorem decodeMpsse_part_waiting {c : Instr} (hmpsse : c.isMpsse = true) (hwf : c.wellFormed = true) {k : Nat}
    (hk : k < (encodeMpsse c).length) : decodeMpsse ((encodeMpsse c).take k) = .waiting := by
  obtain ⟨-, -, -, -, hlengths⟩ := commandLengths
  obtain ⟨-, hwaits⟩ := hlengths c hmpsse hwf
  exact hwaits k hk

/-- The MPSSE engine's loop over the first k bytes of commands that make no clock: it changes the MPSSE engine alone, and where
all the bytes are there every command has run (R160, R335). -/
theorem drain_clockless {cs : List Instr} (hcs : cs.all clockless = true) {k : Nat} {m : Mpsse} {s : State}
    (hs : s.mpsse = m.inp ((cs.flatMap encodeMpsse).take k)) :
    ∃ m', drain s = .ok (s.setMpsse m') ∧ ((cs.flatMap encodeMpsse).length ≤ k → m' = (cs.foldl configure m).inp []) := by
  induction cs generalizing k m s with
  | nil =>
    have hin : s.mpsse = m.inp [] := hs.trans (congrArg m.inp List.take_nil)
    exact ⟨s.mpsse, drain_of_waiting (by rw [hin]; rfl), fun _ => hin⟩
  | cons c cs ih =>
    rw [List.all_cons, Bool.and_eq_true] at hcs
    obtain ⟨hc, hcs⟩ := hcs
    obtain ⟨hmpsse, hwf⟩ := clockless_wellFormed hc
    rw [List.flatMap_cons] at hs ⊢
    by_cases hk : k < (encodeMpsse c).length
    · rw [List.take_append_of_le_length hk.le] at hs
      refine ⟨s.mpsse, drain_of_waiting (by rw [hs]; exact decodeMpsse_part_waiting hmpsse hwf hk), fun hall => ?_⟩
      rw [List.length_append] at hall
      omega
    · obtain ⟨j, rfl⟩ := Nat.exists_eq_add_of_le (Nat.not_lt.1 hk)
      rw [List.take_length_add_append] at hs
      have hdecode : decodeMpsse s.mpsse.input = .command c ((cs.flatMap encodeMpsse).take j) := by
        rw [hs]
        exact mpsseDecodeEncode c _ hmpsse hwf
      obtain ⟨m', hdrain, hall⟩ := ih hcs (k := j) (m := configure m c)
        (s := s.setMpsse ((configure m c).inp ((cs.flatMap encodeMpsse).take j))) rfl
      refine ⟨m', ?_, fun hlen => hall ?_⟩
      · rw [drain_of_command hdecode (runCommand_clockless hc _), setInput_eq, setMpsse_mpsse, hs, configure_inp, configure_inp]
        exact hdrain
      · rw [List.length_append] at hlen
        omega

end Sys2Proof.Machine
end

section
/-! The open sequence (R362): a list of driver calls, each with its stage and its effect on the MPSSE engine. -/

namespace Sys2Proof.Machine

open Sys2Proof

/-! ## One call -/

/-- A part of the sequence that is one driver call of the stage `st`: where the call succeeds it takes the MPSSE engine from m to
m', and where it fails it ends the sequence; it touches nothing else. -/
structure OpenPart (st : OpenStage) (m m' : Mpsse) (part : State → Run) : Prop where
  passes : ∀ s : State, s.mpsse = m → (driverCall s).1 = .healthy → part s = .ok ((s.setUsb s.usb.next).setMpsse m')
  fails : ∀ (s : State) (e k : Nat), s.mpsse = m → (driverCall s).1 = .failed e k →
    ∃ left, part s = openFail st ((s.setUsb s.usb.next).setMpsse left)

/-- A failed step closes the handle, in one more call, and leaves no session (R322, R362). -/
theorem openFail_eq (st : OpenStage) (s : State) :
    openFail st s = .raised (raise (.openFailed st) (endSession (s.setUsb s.usb.next))) := by
  rw [openFail, ignoredCall_id]

/-- What an error before it had written to the engine, the failed step writes over. -/
theorem openFail_raise (st : OpenStage) (e : EngineError) (s : State) : openFail st (raise e s) = openFail st s := by
  rw [openFail_eq, openFail_eq]
  rfl

/-- A call that returns a status and writes to the MPSSE engine. -/
theorem OpenPart.call (st : OpenStage) {f : State → State} {m : Mpsse} (effect : Mpsse → Mpsse)
    (hf : ∀ s : State, s.mpsse = m → f s = s.setMpsse (effect m)) : OpenPart st m (effect m) (openCall st f) where
  passes s hs hcall := by
    rw [openCall_ok st f s (by rw [← driverCall_fst, hcall]; rfl)]
    exact congrArg Run.ok (hf _ hs)
  fails s e k _ hcall := ⟨s.mpsse, openCall_failed st f s e (by rw [← driverCall_fst, hcall]; rfl)⟩

/-- A write of commands that make no clock. -/
theorem OpenPart.write (st : OpenStage) {cs : List Instr} (hcs : cs.all clockless = true) {m : Mpsse} (hm : m.input = []) :
    OpenPart st m ((cs.foldl configure m).inp []) (openWrite st (cs.flatMap encodeMpsse)) := by
  have hdrain (s : State) (hs : s.mpsse = m) := drain_clockless hcs
    (s := (usbWrite (cs.flatMap encodeMpsse) s).2) (m := m) (k := (driverCall s).1.sent (cs.flatMap encodeMpsse).length)
    (by subst hs; exact congrArg s.mpsse.inp (by rw [driverCall_snd, setUsb_mpsse, hm, List.nil_append]))
  refine ⟨fun s hs hcall => ?_, fun s e k hs hcall => ?_⟩
  · obtain ⟨m', hrun, hall⟩ := hdrain s hs
    have hall := hall (by rw [hcall]; exact le_rfl)
    have hevent : (usbWrite (cs.flatMap encodeMpsse) s).1 = .healthy := hcall
    simp only [openWrite, hrun, hevent, andThen_ok, DriverEvent.failure, DriverEvent.sent, and_self, if_true]
    rw [hall]
    rfl
  · obtain ⟨m', hrun, -⟩ := hdrain s hs
    have hevent : (usbWrite (cs.flatMap encodeMpsse) s).1 = .failed e k := hcall
    refine ⟨m', ?_⟩
    simp only [openWrite, hrun, hevent, andThen_ok, DriverEvent.failure, reduceCtorEq, false_and, if_false]
    rfl

/-- The look at the receive queue, which is empty (R362 step 9). -/
theorem OpenPart.queueEmpty {m : Mpsse} (hm : m.rxFifo = []) : OpenPart .loopbackOn m m openQueueEmpty where
  passes s hs hcall := by
    subst hs
    simp only [openQueueEmpty, hcall, driverCall_snd, setUsb_mpsse, hm, if_true]
    rfl
  fails s e k _ hcall := ⟨s.mpsse, by simp only [openQueueEmpty, hcall, driverCall_snd]; rfl⟩

/-! ## The echo is two calls -/

/-- The poll for the answer to the bogus opcode (R362 step 10). -/
def openPoll (s : State) : Run :=
  match pollQueue (s.usb.events.length + 1) s with
  | .failed _ s => openFail .bogusEcho s
  | .timedOut s => openFail .bogusEcho s
  | .ready s => .ok s

/-- The read of the answer, which must be `FA AB` (R362 step 10). -/
def openAnswer (s : State) : Run :=
  match usbRead 2 s with
  | .got bs s => if bs = [0xFA, 0xAB] then .ok s else openFail .bogusEcho s
  | .raised s => openFail .bogusEcho s

theorem openEcho_eq (s : State) : openEcho s = (openPoll s).andThen openAnswer := by
  unfold openEcho openPoll
  cases pollQueue (s.usb.events.length + 1) s <;> rfl

theorem andThen_assoc (r : Run) (f g : State → Run) : (r.andThen f).andThen g = r.andThen fun s => (f s).andThen g := by
  cases r <;> rfl

theorem OpenPart.poll {m : Mpsse} (hm : m.rxFifo ≠ []) : OpenPart .bogusEcho m m openPoll where
  passes s hs hcall := by
    subst hs
    simp only [openPoll, pollQueue, hcall, driverCall_snd, setUsb_mpsse, hm, if_false]
    rfl
  fails s e k _ hcall := ⟨s.mpsse, by simp only [openPoll, pollQueue, hcall, driverCall_snd]; rfl⟩

theorem OpenPart.answer {m : Mpsse} (hm : m.rxFifo = [0xFA, 0xAB]) : OpenPart .bogusEcho m (m.rx []) openAnswer where
  passes s hs hcall := by
    subst hs
    rw [openAnswer, usbRead_got (n := 2) (.inl ⟨hcall, rfl⟩) (by rw [hm]; exact le_rfl), afterRead, hm]
    rfl
  fails s e k _ hcall := ⟨s.mpsse, by rw [openAnswer, usbRead_failed hcall]; exact openFail_raise _ _ _⟩

/-! ## The calls in a row -/

/-- The run is one call for each of the stages, in order, which together take the MPSSE engine from m to m', and then `last`. -/
inductive Opening (last : State → Run) : List OpenStage → Mpsse → Mpsse → (State → Run) → Prop
  | done (m : Mpsse) : Opening last [] m m last
  | step {st : OpenStage} {sts : List OpenStage} {m m' m'' : Mpsse} {part rest : State → Run}
      (first : OpenPart st m m' part) (others : Opening last sts m' m'' rest) :
      Opening last (st :: sts) m m'' fun s => (part s).andThen rest

section
variable {last run : State → Run} {sts : List OpenStage} {m m' : Mpsse}

/-- The echo's two calls. -/
theorem Opening.echo (hm : m.rxFifo = [0xFA, 0xAB]) (others : Opening last sts (m.rx []) m' run) :
    Opening last (.bogusEcho :: .bogusEcho :: sts) m m' fun s => (openEcho s).andThen run := by
  have hne : m.rxFifo ≠ [] := hm ▸ List.cons_ne_nil _ _
  simp only [openEcho_eq, andThen_assoc]
  exact .step (.poll hne) (.step (.answer hm) others)

/-- Over a healthy driver every call passes. -/
theorem Opening.run_healthy (h : Opening last sts m m' run) {s : State} (hs : s.mpsse = m) (hev : s.usb.events = []) :
    run s = last ((s.setUsb (s.usb.called sts.length [])).setMpsse m') := by
  induction h generalizing s with
  | done m =>
    subst hs
    rw [← hev]
    rfl
  | step first _ ih =>
    have hdraws := Draws.of_nil hev
    beta_reduce
    rw [first.passes s hs hdraws.outcome, andThen_ok, ih rfl (by rw [hdraws.called]; rfl), hdraws.called]
    exact congrArg (fun u => last ((s.setUsb u).setMpsse _)) (called_called _ _ _ _ _)

/-- The first call that fails ends the sequence, in the stage of that call. -/
theorem Opening.run_failed (h : Opening last sts m m' run) {s : State} {j e k : Nat} (d : OpenStage) (hs : s.mpsse = m)
    (hj : j < sts.length) (hev : s.usb.events = List.replicate j .healthy ++ [.failed e k]) :
    ∃ left, run s = openFail (sts.getD j d) ((s.setUsb (s.usb.called (j + 1) [])).setMpsse left) := by
  induction h generalizing s j with
  | done => exact absurd hj (Nat.not_lt_zero j)
  | step first _ ih =>
    cases j with
    | zero =>
      have hdraws := Draws.of_cons hev
      obtain ⟨left, hrun⟩ := first.fails s e k hs hdraws.outcome
      exact ⟨left, by beta_reduce; rw [hrun, hdraws.called]; rfl⟩
    | succ j =>
      have hdraws := Draws.of_cons hev
      beta_reduce
      rw [first.passes s hs hdraws.outcome, andThen_ok, hdraws.called]
      obtain ⟨left, hrun⟩ := ih (s := (s.setUsb (s.usb.called 1 _)).setMpsse _) rfl (Nat.lt_of_succ_lt_succ hj) rfl
      refine ⟨left, hrun.trans ?_⟩
      exact congrArg (fun u => openFail _ ((s.setUsb u).setMpsse left)) (called_called _ _ _ _ _)

end

/-! ## The sequence -/

/-- The stages of the calls behind `open(index)`, in order (R362). -/
def openStages : List OpenStage :=
  [.usbReset, .usbParams, .purge, .timeouts, .bitmodeReset, .bitmodeMpsse, .loopbackOn, .loopbackOn, .bogusEcho, .bogusEcho,
    .bogusEcho, .loopbackOff, .clockConfig, .divisor, .lowByte, .highByte]

/-- The MPSSE engine as `open` leaves it (R26, R27, R362). -/
def opened (m : Mpsse) : Mpsse :=
  { bitmode := .mpsse, loopback := false, div5 := false, adaptive := false, threePhase := false, divisor := 0x0004
    lowValue := 0b00001000, lowDir := 0b00001011, highValue := 0x00, highDir := 0x00, rxTimeoutMs := 10, txTimeoutMs := 10
    usbInSize := 16384, usbOutSize := 16384, tckPin := false, tdiPin := false, tmsPin := true, input := [], rxFifo := []
    undescribed := m.undescribed }

theorem openSteps_opening (handle : Nat) (family : Family) {m : Mpsse} (hm : m.input = []) :
    Opening (fun s => .ok (beginSession handle family s)) openStages m (opened m) (openSteps handle family) :=
  .step (.call _ id fun s hs => hs ▸ (setMpsse_self s).symm) <|
  .step (.call _ (fun m => { m with usbInSize := Config.usbTransferSize, usbOutSize := Config.usbTransferSize })
    fun _ hs => hs ▸ rfl) <|
  .step (.call _ (fun m => { m with rxFifo := [], input := [] }) fun s hs => hs ▸ purge_empty s (hs ▸ hm)) <|
  .step (.call _ (fun m => { m with rxTimeoutMs := Config.usbTimeoutMs, txTimeoutMs := Config.usbTimeoutMs })
    fun _ hs => hs ▸ rfl) <|
  .step (.call _ (fun m => { m with bitmode := .reset }) fun _ hs => hs ▸ rfl) <|
  .step (.call _ (fun m => { m with bitmode := .mpsse }) fun _ hs => hs ▸ rfl) <|
  .step (.write _ (cs := [.loopbackOn]) rfl rfl) <|
  .step (.queueEmpty rfl) <|
  .step (.write _ (cs := [.badCommand 0xAB]) rfl rfl) <|
  .echo rfl <|
  .step (.write _ (cs := [.loopbackOff]) rfl rfl) <|
  .step (.write _ (cs := [.div5Off, .adaptiveOff, .threePhaseOff]) rfl rfl) <|
  .step (.write _ (cs := [.setDivisor Config.tckDivisor]) rfl rfl) <|
  .step (.write _ (cs := [.setLowByte Config.lowByteValue Config.lowByteDir]) rfl rfl) <|
  .step (.write _ (cs := [.setHighByte Config.highByteValue Config.highByteDir]) rfl rfl) <|
  .done _

/-! ## `open` -/

theorem runCall_openSession (index : Nat) (family : Family) (s : State) :
    runCall (.openSession index family) s = (openSession index family s).outcome := rfl

section
variable {index : Nat} {family : Family} {s : State}

theorem openSession_passes (h : (driverCall s).1 = .healthy) :
    openSession index family s = openSteps (Config.deviceHandle s.usb.calls index) family (s.setUsb s.usb.next) :=
  if_pos (by rw [h]; rfl)

/-- Without a handle nothing is closed (R362). -/
theorem openSession_fails {e k : Nat} (h : (driverCall s).1 = .failed e k) :
    openSession index family s = .raised (raise (.openFailed .usbOpen) (endSession (s.setUsb s.usb.next))) :=
  if_neg (by rw [h]; nofun)

end

/-- Settles O53: every call of the sequence passes, and the configuration is the one they write in order. -/
theorem openConfiguresAndCreatesTheSession : Obligations.OpenConfiguresAndCreatesTheSession := by
  intro index family s hev hin
  have hdraws := Draws.of_nil hev
  have hopening := openSteps_opening (Config.deviceHandle s.usb.calls index) family hin
  refine ⟨Config.deviceHandle s.usb.calls index, ?_⟩
  rw [runCall_openSession, openSession_passes hdraws.outcome, hdraws.called,
    hopening.run_healthy (s := s.setUsb (s.usb.called 1 [])) rfl rfl, setUsb_usb, called_called, ← hev]
  cases family <;> rfl

/-- Settles O54: the first call fails without a handle to close, and each other one as a part of the sequence. -/
theorem openFailsAtEveryStage : Obligations.OpenFailsAtEveryStage := by
  intro index family j st k s hj hin hev
  rw [runCall_openSession]
  cases j with
  | zero =>
    have hdraws := Draws.of_cons hev
    rw [openSession_fails hdraws.outcome]
    exact ⟨_, rfl, rfl, rfl, rfl, rfl, rfl, rfl, rfl, rfl, rfl⟩
  | succ j =>
    have hdraws : Draws s .healthy (List.replicate j .healthy ++ [.failed st k]) := .of_cons hev
    have hopening := openSteps_opening (Config.deviceHandle s.usb.calls index) family hin
    obtain ⟨left, hrun⟩ := hopening.run_failed (s := s.setUsb (s.usb.called 1 _)) (e := st) (k := k) .highByte rfl
      (Nat.lt_of_succ_lt_succ hj) rfl
    rw [openSession_passes hdraws.outcome, hdraws.called, hrun, openFail_eq]
    refine ⟨_, rfl, rfl, rfl, rfl, rfl, rfl, ?_, rfl, rfl, rfl⟩
    exact congrArg (· + 1) (congrArg Usb.calls (called_called s.usb (j + 1) 1 _ []))

end Sys2Proof.Machine
end
